-- ==== Sys2Proof/Word.lean ====
section
/-! DEFINITION. The word types of the 2840 and their plainest names (spec/00_scope.md R7, R8). -/

namespace Sys2Proof

/-- One byte of memory. -/
abbrev Byte := BitVec 8

/-- A 64-bit word: a register, a descriptor word, a slot word (R8). -/
abbrev Word := BitVec 64

/-- A byte string, first byte first. -/
abbrev Bytes := List Byte

/-- An 8-bit error code (R565). -/
abbrev Code := BitVec 8

end Sys2Proof
end

