-- ==== Sys2Proof/Syntax.lean ====
section
/-! DEFINITION. The commands of the block: one constructor of Instr per row of spec/opcode_table.json, with the
operands the model gives the row (the table gives none). Operand types first. -/

namespace Sys2Proof

/-- A hardware thread: logical cluster, Yoren core, thread (R110, R112). -/
structure ThreadRef where
  cl : Fin 48
  core : Fin 8
  th : Fin 8
deriving DecidableEq, Repr

/-- How a slot operation is issued (R115): the thread; `alt` names the second slot of the pair (S1 for a scalar row, V1 for a
vector row); `more` says that the same bundle holds a further slot operation, which a later command brings. -/
structure Issue where
  t : ThreadRef
  alt : Bool
  more : Bool
deriving DecidableEq, Repr

/-- What runs a unit operation: the command at the front of the unit's own queue, or stage `k` of a flight (R236). -/
inductive UTarget where
  | queue
  | stage (flight : Nat) (k : Fin 8)
deriving DecidableEq, Repr

/-- A Lockway message as it arrives (R407): the header words 0 and 1, the extension words 2 and 3 (zero for a type that has
none), the payload as carried (ciphertext for CTX 1 to 63, R411) and the 16-byte tag. -/
structure Msg where
  w0 : Word
  w1 : Word
  w2 : Word
  w3 : Word
  payload : Bytes
  tag : Bytes
deriving DecidableEq, Repr

/-- What FEC finds in the codewords of a flit (R398, R399). -/
inductive Fec where
  | clean
  | corrected
  | uncorrectable
deriving DecidableEq, Repr

/-- The answer of the host to a read of its memory (R465). -/
inductive HostRead where
  | data (b : Bytes)
  | failed
deriving DecidableEq, Repr

/-- A harbor load or store of `2 ^ sz` bytes at x[base] + off, `reg` its data register (R154, R155). -/
structure HAccess where
  store : Bool
  sz : Fin 4
  sext : Bool
  reg : BitVec 5
  base : BitVec 5
  off : BitVec 12
deriving DecidableEq, Repr

/-- What a HARBOR_ACCESS row does: a load or store of an integer register, of a floating-point register (`2 ^ sz` bytes, `sz` 1 to 3) or
of whole vector registers (`2 ^ nf` of 32 bytes at x[base]); an atomic memory operation `fn` of R123 on 4 or 8 bytes; cbo.zero; a fence;
an access to a control and status register (`fn` 0 write, 1 set, 2 clear; `src` a register number, or with `imm` the value);
and the return from a trap. -/
inductive HOp where
  | mem (a : HAccess)
  | fp (store : Bool) (sz : Fin 4) (reg base : BitVec 5) (off : BitVec 12)
  | vec (store : Bool) (nf : Fin 4) (reg base : BitVec 5)
  | amo (fn : Fin 10) (wide : Bool) (rd src base : BitVec 5)
  | cboZero (base : BitVec 5)
  | fence
  | csr (fn : Fin 3) (num : BitVec 12) (imm : Bool) (rd src : BitVec 5)
  | sret
deriving DecidableEq, Repr

/-- The whole word of one slot of a bundle (R115, R116). -/
structure SlotIn where
  slot : Fin 8
  word : Word
deriving DecidableEq, Repr

/-- How a physical cluster fails (R502, R528, R530): a unit or its CCC now, its parked state readable or not; or a bank of it, whose
scrubs report failure from now on. -/
inductive ClFail where
  | now (readable : Bool)
  | scrub
deriving DecidableEq, Repr

/-- A PCIe configuration request (R75, R442, R443, R465, R468). -/
inductive CfgReq where
  | read (off : BitVec 12)
  | busMaster (on : Bool)
  | memSpace (on : Bool)
  | pmState (d3hot : Bool)
  | vfEnable (on : Bool) (numVfs : Nat)
  | msixControl (enable mask : Bool)
  | bar (index : Fin 3) (addr : Word)
deriving DecidableEq, Repr

/-- The commands. `fn` is the PCIe function that makes an access (0 the PF); `t` its T bit (R477). -/
inductive Instr where
  /-- TICK (R44): At the tick instant each cluster control core samples its segment, the pound number advances, any due rotation applies, the hold or switch allowance runs and segments issue. -/
  | tick
  /-- LEAVE_REACH (R51): After 16 consecutive holdover pounds the chip leaves the reach and ends every reach-spanning context with E_TICK_LOST. -/
  | leaveReach
  /-- TICK_MESSAGE (R425): A TICK message from the parent sets the follower's next tick instant and is forwarded with updated ELAPSED. -/
  | tickMessage (port : Fin 12) (arrival : Nat) (m : Msg)
  /-- TICK_IN_EDGE (R52): On the master a rising TICK_IN edge is timestamped and disciplines the tick period by at most 10 ns per pound. -/
  | tickInEdge (interval : Nat) (ofs : Int)
  /-- TICKIN_LOST (R52): After 8 expected TICK_IN edges are missed the master sets TICKIN_LOST and runs on its own reference. -/
  | tickinLost
  /-- ROTATION_COMMIT (R73): A write to ROT_P_HI commits the shadow rotation with stamp P or rejects it with E_RANGE. -/
  | rotationCommit (fn : Fin 64) (v : BitVec 32)
  /-- SPLIT_MAX_WRITE (R72): A write to CX_SPLIT_MAX by the bound function under expert control sets it from the context's next tick. -/
  | splitMaxWrite (fn : Fin 64) (ctx : Fin 64) (v : BitVec 32)
  /-- LK_STATUS_READ (R70): A read of LK_STATUS returns the sticky flags and clears them when the reader is the physical function. -/
  | lkStatusRead (fn : Fin 64)
  /-- LO_REGISTER_READ (R449): A read of a _LO register latches its _HI register for the reading function. -/
  | loRegisterRead (fn : Fin 64) (t : Bool) (off : BitVec 20)
  /-- REGISTER_WRITE (R447): A BAR0 write to a register without behaviour of its own is checked, trapped to the lock keeper and applied or refused. -/
  | registerWrite (fn : Fin 64) (t : Bool) (off : BitVec 20) (len : Nat) (v : Word)
  /-- BAR0_TIMEOUT (R451): A BAR0 access unanswered after 40 µs completes with all ones or is dropped, recording E_TMO_BAR0. -/
  | bar0Timeout (fn : Fin 64) (write : Bool)
  /-- PREEMPT_SAVE_DONE (R65): The pre-emption save completes and the next tick opens whatever slice the rotation names. -/
  | preemptSaveDone
  /-- PERST_N_RISE (R74): The rising edge of PERST_N starts the boot sequence from the SEC ROM. -/
  | perstNRise (railsOk : Bool) (selfTestFail : BitVec 52)
  /-- PERST_N_FALL (R74): PERST_N going low holds every agent except the wake block and OTP in reset. -/
  | perstNFall
  /-- BOOT_READY (R77): Boot step 10 ends and the 2840 opens its BARs and answers the host. -/
  | bootReady
  /-- BOOT_TIMEOUT (R77): A boot that does not reach ready within 1.0 s is treated as failed. -/
  | bootTimeout
  /-- REACH_FORMED (R434): The master forms the reach from every admitted chip and the first tick follows. -/
  | reachFormed
  /-- REACH_WAIT_EXPIRY (R79): A chip not in a formed reach when CFG_REACH_WAIT runs out runs alone on its own tick. -/
  | reachWaitExpiry
  /-- FW_UPD_OPEN (R93): CMD OPEN opens the update staging buffer. -/
  | fwUpdOpen (fn : Fin 64)
  /-- FW_UPD_VERIFY (R94): CMD VERIFY applies the image checks to the staged image and reports RESULT. -/
  | fwUpdVerify (fn : Fin 64)
  /-- FW_UPD_COMMIT (R93): CMD COMMIT starts writing the verified image into the slot that is not Active. -/
  | fwUpdCommit (fn : Fin 64)
  /-- FW_UPD_ABORT (R94): CMD ABORT stops the update; a flash write in progress leaves the target slot Failed. -/
  | fwUpdAbort (fn : Fin 64)
  /-- FW_UPD_COMMIT_DONE (R93): The flash write of a COMMIT ends and the target slot becomes Pending. -/
  | fwUpdCommitDone
  /-- ENTER_SLACK (R100): PM_REQ ENTER_SLACK puts the 2840 into slack water at the next tick. -/
  | enterSlack (fn : Fin 64)
  /-- SLACK_IDLE_EXPIRY (R100): After CFG_SLACK_IDLE idle pounds the 2840 enters slack water automatically at a tick. -/
  | slackIdleExpiry
  /-- RESUME (R102): PM_REQ RESUME wakes the 2840 from slack water within 8 µs. -/
  | resume (fn : Fin 64)
  /-- PREPARE_MOOR (R104): PM_REQ PREPARE_MOOR, if every tenant is Free or Faulted, flushes the log, leaves the reach and reports MOOR_READY. -/
  | prepareMoor (fn : Fin 64)
  /-- WAKE_N_ASSERT (R105): WAKE_N held low for 1 ms wakes from slack water or makes the wake block request main power. -/
  | wakeNAssert
  /-- AUX_POWER_UP (R595): V3P3_AUX comes up and MAIN_EN is driven high. -/
  | auxPowerUp
  /-- RAIL_FAULT (R594): A main rail out of tolerance for 2 µs stops every clock, ends every context and sets RAIL_FAULT. -/
  | railFault
  /-- TRIP_LATCH_CLEAR (R603): The trip latch clears once every main rail has been off for 1 s. -/
  | tripLatchClear
  /-- NOP (R116): The all-zero slot word does nothing. -/
  | nop (i : Issue) (x : SlotIn)
  /-- ADD (R120): Scalar add, wrapping. -/
  | add (i : Issue) (w : BitVec 56)
  /-- SUB (R120): Scalar subtract, wrapping. -/
  | sub (i : Issue) (w : BitVec 56)
  /-- AND (R120): Scalar bitwise and. -/
  | andOp (i : Issue) (w : BitVec 56)
  /-- OR (R120): Scalar bitwise or. -/
  | orOp (i : Issue) (w : BitVec 56)
  /-- XOR (R120): Scalar bitwise xor. -/
  | xorOp (i : Issue) (w : BitVec 56)
  /-- SHL (R120): Scalar shift left by b[5:0]. -/
  | shl (i : Issue) (w : BitVec 56)
  /-- SHR (R120): Scalar logical shift right. -/
  | shr (i : Issue) (w : BitVec 56)
  /-- SAR (R120): Scalar arithmetic shift right. -/
  | sar (i : Issue) (w : BitVec 56)
  /-- SLT (R120): Set 1 if a < b signed. -/
  | slt (i : Issue) (w : BitVec 56)
  /-- SLTU (R120): Set 1 if a < b unsigned. -/
  | sltu (i : Issue) (w : BitVec 56)
  /-- SEQ (R120): Set 1 if a equals b. -/
  | seq (i : Issue) (w : BitVec 56)
  /-- PSET (R120): Set every bit of a predicate to a ≠ 0. -/
  | pset (i : Issue) (w : BitVec 56)
  /-- MUL (R120): Low 64 bits of a product. -/
  | mul (i : Issue) (w : BitVec 56)
  /-- MULH (R120): High 64 bits of a signed product. -/
  | mulh (i : Issue) (w : BitVec 56)
  /-- DIV (R120): Signed truncated division with defined divide-by-zero result. -/
  | divOp (i : Issue) (w : BitVec 56)
  /-- REM (R120): Signed remainder with defined divide-by-zero result. -/
  | remOp (i : Issue) (w : BitVec 56)
  /-- MOVI (R120): Load a sign-extended immediate. -/
  | movi (i : Issue) (w : BitVec 56)
  /-- MOVHI (R120): Replace the upper 32 bits with the immediate. -/
  | movhi (i : Issue) (w : BitVec 56)
  /-- POPC (R120): Count set bits. -/
  | popc (i : Issue) (w : BitVec 56)
  /-- CLZ (R120): Count leading zeros. -/
  | clz (i : Issue) (w : BitVec 56)
  /-- VADD (R121): Element-wise vector add. -/
  | vadd (i : Issue) (w : BitVec 56)
  /-- VSUB (R121): Element-wise vector subtract. -/
  | vsub (i : Issue) (w : BitVec 56)
  /-- VMUL (R121): Element-wise vector multiply. -/
  | vmul (i : Issue) (w : BitVec 56)
  /-- VFMA (R121): Element-wise fused multiply-add rounded once. -/
  | vfma (i : Issue) (w : BitVec 56)
  /-- VMIN (R121): Element-wise minimum. -/
  | vmin (i : Issue) (w : BitVec 56)
  /-- VMAX (R121): Element-wise maximum. -/
  | vmax (i : Issue) (w : BitVec 56)
  /-- VAND (R121): Vector bitwise and. -/
  | vand (i : Issue) (w : BitVec 56)
  /-- VOR (R121): Vector bitwise or. -/
  | vor (i : Issue) (w : BitVec 56)
  /-- VXOR (R121): Vector bitwise xor. -/
  | vxor (i : Issue) (w : BitVec 56)
  /-- VSHL (R121): Element-wise shift left. -/
  | vshl (i : Issue) (w : BitVec 56)
  /-- VSHR (R121): Element-wise logical shift right. -/
  | vshr (i : Issue) (w : BitVec 56)
  /-- VSAR (R121): Element-wise arithmetic shift right. -/
  | vsar (i : Issue) (w : BitVec 56)
  /-- VCMP (R121): Element-wise compare into a predicate register. -/
  | vcmp (i : Issue) (w : BitVec 56)
  /-- VCVT (R121): Element-wise conversion between element types. -/
  | vcvt (i : Issue) (w : BitVec 56)
  /-- VPERM (R121): Byte permutation of a vector. -/
  | vperm (i : Issue) (w : BitVec 56)
  /-- VBCAST (R121): Broadcast the low bits of a scalar to every element. -/
  | vbcast (i : Issue) (w : BitVec 56)
  /-- VEXT (R121): Extract one element into a scalar. -/
  | vext (i : Issue) (w : BitVec 56)
  /-- VHASH (R121): Per-element mix64, xxHash64 or CRC32C. -/
  | vhash (i : Issue) (w : BitVec 56)
  /-- VRED (R121): Sum of enabled elements into element 0. -/
  | vred (i : Issue) (w : BitVec 56)
  /-- LDB (R123): Scalar load from a basin. -/
  | ldb (i : Issue) (w : BitVec 56)
  /-- STB (R123): Scalar store to a basin. -/
  | stb (i : Issue) (w : BitVec 56)
  /-- VLDB (R123): 128-byte vector load from a basin. -/
  | vldb (i : Issue) (w : BitVec 56)
  /-- VSTB (R123): Vector store of enabled bytes to a basin. -/
  | vstb (i : Issue) (w : BitVec 56)
  /-- LDG (R123): Scalar load from a context virtual address completing through a mooring flag. -/
  | ldg (i : Issue) (w : BitVec 56)
  /-- STG (R123): Scalar global store completing through a mooring flag. -/
  | stg (i : Issue) (w : BitVec 56)
  /-- VLDG (R123): Vector load from a context virtual address. -/
  | vldg (i : Issue) (w : BitVec 56)
  /-- VSTG (R123): Vector global store of enabled bytes. -/
  | vstg (i : Issue) (w : BitVec 56)
  /-- AMO (R123): Atomic operation at a context virtual address returning the old value. -/
  | amo (i : Issue) (w : BitVec 56)
  /-- FENCE (R123): Park until every earlier global access of the thread is complete. -/
  | fence (i : Issue) (w : BitVec 56)
  /-- UCMD (R124): Send a command in a basin to a unit of the cluster. -/
  | ucmd (i : Issue) (w : BitVec 56)
  /-- USTAT (R124): Read a unit's status word. -/
  | ustat (i : Issue) (w : BitVec 56)
  /-- ALOOK (R330): AMU lookup of a 128-bit key returning the result word. -/
  | alook (i : Issue) (w : BitVec 56)
  /-- BSUB (R215): Submit a barge descriptor to a queue of the cluster. -/
  | bsub (i : Issue) (w : BitVec 56)
  /-- BREL (R221): Return berths to a queue's free-berth counter, or E_CREDIT on excess. -/
  | brel (i : Issue) (w : BitVec 56)
  /-- TSUB (R231): Submit a towpath descriptor to the core's towpath queue. -/
  | tsub (i : Issue) (w : BitVec 56)
  /-- FSUB (R239): Submit a flight descriptor to the cluster's barge engine. -/
  | fsub (i : Issue) (w : BitVec 56)
  /-- BSTAT (R248): Read a queue's status word. -/
  | bstat (i : Issue) (w : BitVec 56)
  /-- BR (R126): Branch relative by IMM bundles. -/
  | br (i : Issue) (w : BitVec 56)
  /-- BRI (R126): Branch to the program counter in a register. -/
  | bri (i : Issue) (w : BitVec 56)
  /-- CALL (R126): Branch and link. -/
  | call (i : Issue) (w : BitVec 56)
  /-- MWAIT (R126): Park while a mooring flag count is above zero. -/
  | mwait (i : Issue) (w : BitVec 56)
  /-- MWAITM (R126): Park while any flag in a mask has a count above zero. -/
  | mwaitm (i : Issue) (w : BitVec 56)
  /-- TSPAWN (R126): Start another thread of the core, or set SPAWNFAIL. -/
  | tspawn (i : Issue) (w : BitVec 56)
  /-- EOS (R140): End of segment; the thread parks until its flag counts are zero, then ends. -/
  | eos (i : Issue) (w : BitVec 56)
  /-- TICKRD (R126): Read the pound number. -/
  | tickrd (i : Issue) (w : BitVec 56)
  /-- TREM (R126): Read nanoseconds until the next tick. -/
  | trem (i : Issue) (w : BitVec 56)
  /-- TRIG (R555): Raise a tenant trace trigger on this chip and send it to every chip the context spans. -/
  | trig (i : Issue) (w : BitVec 56)
  /-- SYNC (R126): Arrive at a cluster barrier and park until s[SA] threads have arrived. -/
  | sync (i : Issue) (w : BitVec 56)
  /-- STRD (R126): Read the thread status word. -/
  | strd (i : Issue) (w : BitVec 56)
  /-- STCLR (R112): Clear selected TSW bits. -/
  | stclr (i : Issue) (w : BitVec 56)
  /-- FLAG_COMPLETION (R132): An operation that named a mooring flag completes, writes any load data and lowers the count. -/
  | flagCompletion (id : Nat)
  /-- THREAD_UNPARK (R108): A parked thread becomes Ready once its awaited condition holds. -/
  | threadUnpark (t : ThreadRef)
  /-- BUBBLE_END (R108): Three cycles after a taken branch the thread returns to Ready. -/
  | bubbleEnd (t : ThreadRef)
  /-- HTICK (R159): Harbor read of the pound number. -/
  | htick (h : Fin 16) (rd : BitVec 5)
  /-- HTREM (R159): Harbor read of nanoseconds until the next tick. -/
  | htrem (h : Fin 16) (rd : BitVec 5)
  /-- HBSUB (R160): Harbor submission of a barge descriptor. -/
  | hbsub (h : Fin 16) (rd rs1 rs2 : BitVec 5)
  /-- HFSUB (R160): Harbor submission of a flight descriptor to a cluster's barge engine. -/
  | hfsub (h : Fin 16) (rd rs1 rs2 : BitVec 5)
  /-- HTSUB (R160): Harbor submission of a towpath descriptor. -/
  | htsub (h : Fin 16) (rd rs1 : BitVec 5)
  /-- HPOLL (R159): Read the hart's outstanding submissions. -/
  | hpoll (h : Fin 16) (rd : BitVec 5)
  /-- HWAITT (R159): Stall until the next pound of the context begins. -/
  | hwaitt (h : Fin 16)
  /-- HARBOR_ILLEGAL_INSTRUCTION (R159): A nonzero funct7 or funct3 7 raises an illegal-instruction exception in VS mode. -/
  | harborIllegalInstruction (h : Fin 16) (w : BitVec 32)
  /-- HARBOR_ACCESS (R155): A harbor load or store translated through the context's page tables. -/
  | harborAccess (h : Fin 16) (a : HOp)
  /-- HARBOR_CORE_FAIL (R167): A failing harbor core is fenced and its hart's program ends with E_UNIT_LOST. -/
  | harborCoreFail (h : Fin 16)
  /-- MAP (R184): Map a 64 KiB page with a zero-fill leaf after checking ownership. -/
  | mapPage (fn : Fin 64) (ctx : Fin 64) (w : Bool)
  /-- MAP_BLOCK (R184): Map a 512 MiB block leaf. -/
  | mapBlock (fn : Fin 64) (ctx : Fin 64) (w : Bool)
  /-- UNMAP (R185): Clear a leaf, wait for in-flight accesses, zero the page and release ownership. -/
  | unmap (fn : Fin 64) (ctx : Fin 64)
  /-- PROTECT (R190): Change a leaf's writable bit. -/
  | protect (fn : Fin 64) (ctx : Fin 64) (w : Bool)
  /-- EXPORT (R199): Write a page's encrypted blob to host memory and release the page. -/
  | exportPage (fn : Fin 64) (ctx : Fin 64)
  /-- IMPORT (R202): Check, decrypt and place an exported blob at a free page. -/
  | importPage (fn : Fin 64) (ctx : Fin 64) (blob : HostRead)
  /-- DROP (R196): Remove the oldest page request without waking anyone. -/
  | drop (fn : Fin 64) (ctx : Fin 64)
  /-- QUERY (R206): Report PIN, D and A of the leaf covering VA and clear A. -/
  | query (fn : Fin 64) (ctx : Fin 64)
  /-- MMU_OP_INVALID (R206): An unlisted OP value completes at once with E_RANGE. -/
  | mmuOpInvalid (fn : Fin 64) (ctx : Fin 64) (op : BitVec 4)
  /-- MMU_COMMAND_DONE (R186): A mapping command finishes and clears BUSY with its CODE. -/
  | mmuCommandDone (ctx : Fin 64)
  /-- HBM_PATROL (R173): Every 12 hours the controllers read and correct every line of HBM. -/
  | hbmPatrol (ue ce : List Nat)
  /-- HBM_TIMEOUT (R575): An HBM transaction unanswered after 100 µs completes with E_TMO_HBM. -/
  | hbmTimeout (line : Nat) (id : Option Nat)
  /-- HBM_STACK_FAIL (R577): A stack with an internal error, lost training or 256 consecutive timeouts has failed. -/
  | hbmStackFail (k : Fin 6)
  /-- UCIE_MODULE_FAIL (R24): An unrepairable tile-link module takes the 2840 offline. -/
  | ucieModuleFail
  /-- BARGE_COMPLETE (R227): A barge or persistent round finishes, lowering its flag and raising the queue's completion count. -/
  | bargeComplete (q : BitVec 17)
  /-- BARGE_TIMEOUT (R253): A barge with no response for 2 ms ends with E_TMO_BARGE and taints unwritten granules. -/
  | bargeTimeout (q : BitVec 17)
  /-- TOWPATH_COMPLETE (R233): A towpath transfer is performed whole and lowers its flag. -/
  | towpathComplete (id : Nat)
  /-- TOWPATH_TIMEOUT (R234): A towpath transfer not complete after 20 µs ends with E_TMO_TOW. -/
  | towpathTimeout (id : Nat)
  /-- FLIGHT_COMPLETE (R240): The output barge writes the last byte, the completion record is written and the flag lowers. -/
  | flightComplete (id : Nat)
  /-- WEIR_WRITE (R250): A write to WEIR_ RATE or BURST under expert control takes effect at the next tick. -/
  | weirWrite (fn : Fin 64) (ctx : Fin 64) (burst : Bool) (v : BitVec 32)
  /-- CODEC_LANE_TAKE (R367): A waiting codec stage takes the lowest free lane of its kind and restores any saved state. -/
  | codecLaneTake (deep : Bool)
  /-- CODEC_COMPRESS (R373): A codec job compresses its input into DBF, Zstandard or the Deflate family. -/
  | codecCompress (lane : Fin 24)
  /-- CODEC_DECOMPRESS (R383): A codec job decompresses its input and handles decompressor errors. -/
  | codecDecompress (lane : Fin 24)
  /-- CODEC_SAVE_DONE (R388): A lane finishes writing its state record, scrubs itself and becomes free. -/
  | codecSaveDone (lane : Fin 24)
  /-- CODEC_LANE_FAIL (R389): A lane failing its self check saves its state and is fenced. -/
  | codecLaneFail (lane : Fin 24) (readable : Bool)
  /-- GATHER (R268): Table Unit gather of one row per index position. -/
  | gather (cl : Fin 48) (t : UTarget)
  /-- POOL (R268): Table Unit pooling of rows per bag. -/
  | pool (cl : Fin 48) (t : UTarget)
  /-- UPDATE (R271): Send gradient contributions as staging records to each row's home chip. -/
  | update (cl : Fin 48) (t : UTarget)
  /-- LAST (R276): Send a LAST marker for a step to every home chip of the table. -/
  | last (cl : Fin 48) (t : UTarget)
  /-- APPLY (R279): Request application of a step's staged records on the home chip. -/
  | apply (cl : Fin 48) (t : UTarget)
  /-- APPLY_START (R277): Once MARKS holds NCHIP bits the records are sorted, summed per row and the optimizer applied. -/
  | applyStart (cl : Fin 48)
  /-- PARSE (R293): Turn an Arrow column-set block into feature rows. -/
  | parse (cl : Fin 48) (t : UTarget)
  /-- PQDECODE (R296): Decode a Parquet data page into one field of feature rows. -/
  | pqdecode (cl : Fin 48) (t : UTarget)
  /-- FILTER (R299): Keep feature rows that pass one test. -/
  | filter (cl : Fin 48) (t : UTarget)
  /-- HASH (R302): Hash selected fields into a destination field. -/
  | hash (cl : Fin 48) (t : UTarget)
  /-- BUCKET (R305): Apply bucketising records to each row. -/
  | bucket (cl : Fin 48) (t : UTarget)
  /-- NORM (R306): Apply normalising records to each row. -/
  | norm (cl : Fin 48) (t : UTarget)
  /-- HOT (R307): Write one-hot or multi-hot rows. -/
  | hot (cl : Fin 48) (t : UTarget)
  /-- PACK (R308): Pack selected fields as tensor rows. -/
  | pack (cl : Fin 48) (t : UTarget)
  /-- BUILD (R309): Insert keys into the AMU or an HBM hash table. -/
  | build (cl : Fin 48) (t : UTarget)
  /-- JOIN (R311): Probe the AMU or HBM table and join rows. -/
  | join (cl : Fin 48) (t : UTarget)
  /-- MERGE (R312): Sort-merge join of two sorted row sets. -/
  | merge (cl : Fin 48) (t : UTarget)
  /-- GROUP (R313): Aggregate runs of equal keys in sorted rows. -/
  | group (cl : Fin 48) (t : UTarget)
  /-- AMU_WRITE (R322): Write AMU entries from records. -/
  | amuWrite (cl : Fin 48) (t : UTarget)
  /-- INSERT (R329): Insert records into free or victim AMU entries. -/
  | insert (cl : Fin 48) (t : UTarget)
  /-- INVAL (R322): Invalidate a range of AMU entries. -/
  | inval (cl : Fin 48) (t : UTarget)
  /-- LOOKUP (R322): Look up keys and write result words. -/
  | lookup (cl : Fin 48) (t : UTarget)
  /-- AMU_READ (R322): Read AMU entries out as records. -/
  | amuRead (cl : Fin 48) (t : UTarget)
  /-- AMU_FILTER (R322): Keep feature rows whose key hits in the AMU. -/
  | amuFilter (cl : Fin 48) (t : UTarget)
  /-- SORT (R335): Write indices of elements in key order. -/
  | sort (cl : Fin 48) (t : UTarget)
  /-- OU_MERGE (R335): Merge sorted runs and write indices in merged order. -/
  | ouMerge (cl : Fin 48) (t : UTarget)
  /-- TOPK (R338): Select the largest K keys, optionally across a stream via the carry record. -/
  | topk (cl : Fin 48) (t : UTarget)
  /-- BOTK (R338): Select the smallest K keys. -/
  | botk (cl : Fin 48) (t : UTarget)
  /-- DA_RUN (R352): Run a chain of dense layers over batches of input rows. -/
  | daRun (cl : Fin 48) (t : UTarget)
  /-- DA_GATE_OPEN (R358): A layer waiting on its gate starts once the queue or relay count reaches SEQ. -/
  | daGateOpen (cl : Fin 48)
  /-- FLIT_RECEIVE (R399): A received flit is decoded and checked, acknowledgements and credits applied, and a NAK sent or honoured by replay. -/
  | flitReceive (port : Fin 12) (flit : Bytes) (fec : Fec)
  /-- PORT_DELAY_MEASURE (R396): Every 4,096 pounds a port measures its media delay and is held down above 20 ns. -/
  | portDelayMeasure (port : Fin 12) (delay : BitVec 16)
  /-- LANE_DROP (R404): A lane that loses lock or corrects too many symbols is dropped from its port. -/
  | laneDrop (port : Fin 12) (lane : Fin 8)
  /-- LANE_RETRAINED (R404): A dropped lane finishes retraining and rejoins in a tick hold. -/
  | laneRetrained (port : Fin 12) (lane : Fin 8)
  /-- CREDIT_TIMEOUT (R405): A message waiting 100 µs for credit fails the port with E_TMO_CREDIT. -/
  | creditTimeout (port : Fin 12)
  /-- PORT_RETRAIN (R405): Every 1 s a failed port retrains and returns at the next tick with 4 or more lanes. -/
  | portRetrain (port : Fin 12) (lanes : BitVec 8) (peerChip : BitVec 8) (peerPort : BitVec 4)
  /-- RD_REQ (R417): Remote read request served at the target after ownership check. -/
  | rdReq (port : Fin 12) (m : Msg)
  /-- RD_RSP (R416): Read response delivering data to the requester. -/
  | rdRsp (port : Fin 12) (m : Msg)
  /-- WR_REQ (R418): Remote write request performed at the target. -/
  | wrReq (port : Fin 12) (m : Msg)
  /-- WR_RSP (R418): Write response completing the requester's store. -/
  | wrRsp (port : Fin 12) (m : Msg)
  /-- AMO_REQ (R417): Remote atomic performed at the target memory. -/
  | amoReq (port : Fin 12) (m : Msg)
  /-- AMO_RSP (R418): Atomic response returning the old value. -/
  | amoRsp (port : Fin 12) (m : Msg)
  /-- TU_REQ (R273): Table Unit row request, staging record or LAST marker arriving at the home chip. -/
  | tuReq (port : Fin 12) (m : Msg)
  /-- TU_RSP (R270): Table Unit response delivering a row. -/
  | tuRsp (port : Fin 12) (m : Msg)
  /-- COLL (R537): A collective fragment is staged or written to DST. -/
  | coll (port : Fin 12) (m : Msg)
  /-- TRIG_MESSAGE (R555): A TRIG message delivers a trigger event to this chip. -/
  | trigMessage (port : Fin 12) (m : Msg)
  /-- MGMT (R427): A firmware order such as HELLO, PHASE_DONE or a rotation distribution arrives. -/
  | mgmt (port : Fin 12) (m : Msg)
  /-- REFUSE (R417): A refusal completes the request with its error code. -/
  | refuse (port : Fin 12) (m : Msg)
  /-- LOCKWAY_TIMEOUT (R436): A request with no response after 1 ms completes with E_TMO_LW and tainted zeros. -/
  | lockwayTimeout (rid : BitVec 16)
  /-- COLLECTIVE_TIMEOUT (R539): 64 pounds without the next phase end the collective with E_TMO_LW. -/
  | collectiveTimeout (ctx : Fin 64)
  /-- SQ_TAIL (R458): A doorbell write of SQ_TAIL posts submission entries and wakes the device from slack water. -/
  | sqTail (fn : Fin 64) (t : Bool) (ctx : Fin 64) (v : BitVec 32)
  /-- CQ_HEAD (R458): A doorbell write of CQ_HEAD frees completion slots. -/
  | cqHead (fn : Fin 64) (t : Bool) (ctx : Fin 64) (v : BitVec 32)
  /-- SQ_FETCH (R467): The device fetches a submission entry according to the context state. -/
  | sqFetch (ctx : Fin 64) (entry : HostRead)
  /-- SQ_RUN (R460): Make the context's schedule runnable for STEPS steps. -/
  | sqRun (ctx : Fin 64)
  /-- SQ_HALT (R460): Stop new steps and end the active RUN. -/
  | sqHalt (ctx : Fin 64)
  /-- COPY_IN (R463): Copy host bytes into context memory, sealed or plain. -/
  | copyIn (ctx : Fin 64) (data : HostRead)
  /-- COPY_OUT (R464): Copy context bytes to the host, sealed or plain. -/
  | copyOut (ctx : Fin 64)
  /-- SQ_NOP (R460): Submission entry that does nothing. -/
  | sqNop (ctx : Fin 64)
  /-- COPY_COMPLETE (R461): A copy's last byte is performed and its completion written. -/
  | copyComplete (ctx : Fin 64)
  /-- HOST_READ_TIMEOUT (R465): A failed or 10 ms late host read taints its granules and completes with E_HOST. -/
  | hostReadTimeout (ctx : Fin 64)
  /-- BIND (R453): Bind a virtual function to a context with an accepted manifest. -/
  | bind (fn : Fin 64) (vf ctx : Fin 64)
  /-- UNBIND (R454): End a context, zero its pages, destroy its keys and make it Free. -/
  | unbind (fn : Fin 64) (ctx : Fin 64)
  /-- VF_FLR (R454): An FLR of a VF ends its context as UNBIND does. -/
  | vfFlr (vf : Fin 64)
  /-- VF_DISABLE (R454): Disabling a VF through SR-IOV ends its context. -/
  | vfDisable (vf : Fin 64)
  /-- PF_FLR (R455): An FLR of the PF unbinds every tenant context. -/
  | pfFlr
  /-- HOT_RESET (R455): A hot reset unbinds every tenant context. -/
  | hotReset
  /-- BURST_ACCESS (R470): A BAR2 access reaches the burst address in the selected space. -/
  | burstAccess (fn : Fin 64) (t : Bool) (write : Bool) (off : BitVec 16) (len : Nat) (data : Bytes)
  /-- LOCK_INTERFACE_REQUEST (R475): Move the TDI to CONFIG_LOCKED. -/
  | lockInterfaceRequest (vf : Fin 64)
  /-- GET_DEVICE_INTERFACE_REPORT (R476): Return the interface report. -/
  | getDeviceInterfaceReport (vf : Fin 64)
  /-- START_INTERFACE_REQUEST (R475): Move the TDI to RUN. -/
  | startInterfaceRequest (vf : Fin 64)
  /-- STOP_INTERFACE_REQUEST (R475): Move the TDI to CONFIG_UNLOCKED and unbind the context. -/
  | stopInterfaceRequest (vf : Fin 64)
  /-- TDI_CONFIG_CHANGE (R475): A locked VF's BAR or enable change sends the TDI to ERROR. -/
  | tdiConfigChange (vf : Fin 64)
  /-- IDE_KM (R474): Key a selective IDE stream over a secured session. -/
  | ideKm (fn : Fin 64) (sess : Nat)
  /-- DOE_DISCOVERY (R473): Answer a DOE Discovery object. -/
  | doeDiscovery (index : Byte)
  /-- GET_VERSION (R485): SPDM version request. -/
  | getVersion (req : Bytes)
  /-- GET_CAPABILITIES (R485): SPDM capabilities request. -/
  | getCapabilities (req : Bytes)
  /-- NEGOTIATE_ALGORITHMS (R485): SPDM algorithm negotiation. -/
  | negotiateAlgorithms (req : Bytes)
  /-- GET_DIGESTS (R485): SPDM certificate digests request. -/
  | getDigests (sess : Option Nat)
  /-- GET_CERTIFICATE (R484): Return the slot 0 certificate chain. -/
  | getCertificate (slot : Byte) (off len : BitVec 16)
  /-- CHALLENGE (R485): SPDM challenge signed with the Alias key. -/
  | challenge (slot : Byte) (nonce : Bytes)
  /-- GET_MEASUREMENTS (R487): Return the requested measurements. -/
  | getMeasurements (sess : Option Nat) (index : Byte) (sign : Bool) (nonce : Bytes)
  /-- KEY_EXCHANGE (R486): Start a secured session, or answer Busy beyond 8. -/
  | keyExchange (share : Bytes)
  /-- FINISH (R485): Complete a secured session handshake. -/
  | finish (sess : Nat) (verify : Bytes)
  /-- HEARTBEAT (R485): SPDM session heartbeat. -/
  | heartbeat (sess : Nat)
  /-- KEY_UPDATE (R485): Update session keys. -/
  | keyUpdate (sess : Nat)
  /-- END_SESSION (R485): End a secured session. -/
  | endSession (sess : Nat)
  /-- SUBMIT (R496): Accept or reject a job key and manifest, returning a handle. -/
  | submit (sess : Nat) (payload : Bytes)
  /-- WITHDRAW (R490): Withdraw a pending manifest submitted by the same session. -/
  | withdraw (sess : Nat) (handle : BitVec 16)
  /-- UNLOCK_CHALLENGE (R489): Return a fresh nonce for debug unlock. -/
  | unlockChallenge
  /-- UNLOCK (R511): Verify a debug token, end every context, zeroise keys and reboot in debug mode. -/
  | unlock (token : Bytes)
  /-- MANIFEST_EXPIRY (R490): A pending manifest 60 s old is discarded. -/
  | manifestExpiry (handle : BitVec 16)
  /-- TRIG_IN_EDGE (R555): A filtered TRIG_IN edge is a system trigger sent to every chip of the reach. -/
  | trigInEdge (n : Fin 2)
  /-- TRACE_CONFIG_WRITE (R562): A write to TJ_CTRL, TJ_BUF_ or TJ_CLMASK_ is accepted or refused and applies at the next tick. -/
  | traceConfigWrite (fn : Fin 64) (ctx : Fin 64) (off : BitVec 6) (v : BitVec 32)
  /-- CLUSTER_FAIL (R528): A cluster's unit or CCC failure pre-empts the running context and schedules a fence. -/
  | clusterFail (phys : Fin 52) (cccFailed : Bool) (how : ClFail)
  /-- PMC_WATCHDOG_MISS (R523): A PMC silent for 1 ms makes the governor hold the minimum safe point. -/
  | pmcWatchdogMiss
  /-- SEC_WATCHDOG_MISS (R523): A SEC silent for 1 ms stops the 2840 and zeroises keys. -/
  | secWatchdogMiss
  /-- LKC_WATCHDOG_MISS (R523): Two consecutive LKC tick misses take the 2840 offline. -/
  | lkcWatchdogMiss
  /-- CCC_WATCHDOG_MISS (R523): A CCC missing its tick work fails its cluster. -/
  | cccWatchdogMiss (phys : Fin 52)
  /-- POWER_WINDOW (R598): Each 10 ms the PMC compares average card power with the limit and steps cluster clocks. -/
  | powerWindow (watts : BitVec 16)
  /-- THERMAL_WARN (R602): A junction rising through 100 °C sets WARN, asserts SMB_ALERT_N and raises PF vector 3. -/
  | thermalWarn (celsius : Byte)
  /-- THROTTLE_STEP (R521): Every 20 µs at 105 °C or more the governor lowers the group clock by 100 MHz. -/
  | throttleStep (g : Fin 8) (celsius : Byte)
  /-- THROTTLE_RECOVER (R521): Every 1 ms at 102 °C or less the governor raises the clock by 100 MHz. -/
  | throttleRecover (g : Fin 8) (celsius : Byte)
  /-- THERMAL_TRIP (R522): At 110 °C THERM_TRIP_N asserts and every clock but always-on stops. -/
  | thermalTrip
  /-- PWR_BRAKE_ASSERT (R600): PWR_BRAKE_N low holds every domain at the minimum safe point. -/
  | pwrBrakeAssert
  /-- PWR_BRAKE_RELEASE (R601): PWR_BRAKE_N high lets the governor raise clocks 100 MHz per ms. -/
  | pwrBrakeRelease
  /-- SMBUS_BLOCK_READ (R587): Return the 8-byte status block with PEC and release SMB_ALERT_N. -/
  | smbusBlockRead (command : Byte)
  /-- MCTP_CONTROL (R588): Answer an MCTP control message. -/
  | mctpControl (req : Bytes)
  /-- GET_TID (R588): PLDM GetTID. -/
  | getTid
  /-- SET_TID (R588): PLDM SetTID. -/
  | setTid (tid : Byte)
  /-- GET_PLDM_VERSION (R588): PLDM GetPLDMVersion. -/
  | getPldmVersion (type : Byte)
  /-- GET_PLDM_TYPES (R588): PLDM GetPLDMTypes. -/
  | getPldmTypes
  /-- GET_PLDM_COMMANDS (R588): PLDM GetPLDMCommands. -/
  | getPldmCommands (type : Byte)
  /-- GET_PDR_REPOSITORY_INFO (R588): PLDM GetPDRRepositoryInfo. -/
  | getPdrRepositoryInfo
  /-- GET_PDR (R588): PLDM GetPDR. -/
  | getPdr (handle : BitVec 32)
  /-- GET_SENSOR_READING (R588): PLDM numeric sensor reading. -/
  | getSensorReading (sensor : BitVec 16)
  /-- GET_STATE_SENSOR_READINGS (R588): PLDM state sensor readings. -/
  | getStateSensorReadings (sensor : BitVec 16)
  /-- BYPASS (R589): JTAG BYPASS instruction. -/
  | jtagBypass (tdi : Bool)
  /-- IDCODE (R589): JTAG IDCODE instruction. -/
  | jtagIdcode
  /-- SAMPLE_PRELOAD (R589): JTAG SAMPLE/PRELOAD instruction. -/
  | jtagSamplePreload (preload : List Bool)
  /-- EXTEST (R589): JTAG EXTEST instruction. -/
  | jtagExtest
  /-- CLAMP (R589): JTAG CLAMP instruction. -/
  | jtagClamp
  /-- HIGHZ (R589): JTAG HIGHZ instruction. -/
  | jtagHighz
  /-- CONFIGURATION_REQUEST (R75): A PCIe configuration request is answered with Request Retry Status before ready and otherwise applied, including Bus Master Enable and PCI-PM state changes. -/
  | configurationRequest (fn : Fin 64) (r : CfgReq)
  /-- FW_UPD_VERIFY_DONE (R94): Verification of the staged image ends, STATE moves from verifying to verified and RESULT is written. -/
  | fwUpdVerifyDone
  /-- BIND_COMPLETE (R453): A BIND finishes installing keys and Reset values, clears HI_ BUSY with BIND_RES and makes the context Bound. -/
  | bindComplete
  /-- UNBIND_COMPLETE (R454): The unbind sequence ends with pages and save area zeroed, keys destroyed and the context Free. -/
  | unbindComplete (ctx : Fin 64)
  /-- TRACE_JUNCTION_FAIL (R576): The trace junction fails and every context's trace moves to DONE. -/
  | traceJunctionFail
  /-- PEER_STOPS_ANSWERING (R405): A Lockway port whose peer stops answering fails and its unacknowledged messages are resent on another route. -/
  | peerStopsAnswering (port : Fin 12)
  /-- MAIN_EN_HOLD_EXPIRY (R595): The 1 s after a thermal trip during which MAIN_EN stays low runs out, and a WAKE_N still held low then raises MAIN_EN. -/
  | mainEnHoldExpiry (wakeLow : Bool)
  /-- MAIN_RAILS_OFF (R104): The platform removes the main rails, so the 2840 becomes Moored with only the wake block powered and HBM contents lost. -/
  | mainRailsOff
  /-- V3P3_AUX_LOSS (R604): V3P3_AUX goes down, the wake block loses power and RAIL_FAULT and TRIP_SEEN are lost. -/
  | v3p3AuxLoss
deriving DecidableEq, Repr

end Sys2Proof
end

