-- ==== Sys2Proof/Decode.lean ====
section
/-! DEFINITION. The command that a word of spec/opcode_table.json spells. Every row of the table has an empty list of fields
and gives no bits, so no word of the table spells a command; and the words of the harbor extension (R159), which the spec gives bits. -/

namespace Sys2Proof

/-- The command of a table word: none, since no row of the table gives bits. -/
def decodeTableWord (_nbits _w : Nat) : Option Instr := none

/-- The command that hart `h` makes of a word of the harbor extension (R159): custom-0 in R-type layout, funct7 zero, funct3 the mnemonic;
none for a word of another major opcode. -/
def decodeHarbor (h : Fin 16) (w : BitVec 32) : Option Instr :=
  let rd := w.extractLsb' 7 5
  let rs1 := w.extractLsb' 15 5
  let rs2 := w.extractLsb' 20 5
  if w.extractLsb' 0 7 != 0x0B then none
  else if w.extractLsb' 25 7 != 0 then some (.harborIllegalInstruction h w)
  else match (w.extractLsb' 12 3).toNat with
    | 0 => some (.htick h rd)
    | 1 => some (.htrem h rd)
    | 2 => some (.hbsub h rd rs1 rs2)
    | 3 => some (.hfsub h rd rs1 rs2)
    | 4 => some (.htsub h rd rs1)
    | 5 => some (.hpoll h rd)
    | 6 => some (.hwaitt h)
    | _ => some (.harborIllegalInstruction h w)

end Sys2Proof
end

