-- ==== Sys2Proof/Machine/Bits.lean ====
section
/-! DEFINITION. Bit fields, byte order and widths (spec/00_scope.md R7, R8): how a field is taken out of a word and how words
and byte strings turn into each other. -/

namespace Sys2Proof.Machine

/-- Bits [hi:lo] of a 64-bit word, as a number (R7). -/
def fld (w : Word) (hi lo : Nat) : Nat := (w.toNat >>> lo) % 2 ^ (hi + 1 - lo)

/-- Bit `i` of a 64-bit word. -/
def bitOf (w : Word) (i : Nat) : Bool := w.getLsbD i

/-- A number placed in bits [hi:lo] of a word. -/
def place (x hi lo : Nat) : Word := BitVec.ofNat 64 ((x % 2 ^ (hi + 1 - lo)) <<< lo)

/-- A truth value as 0 or 1. -/
def b2n (b : Bool) : Nat := if b then 1 else 0

/-- A number as `n` little-endian bytes (R8). -/
def leBytes (x : Nat) : Nat → Bytes
  | 0 => []
  | n + 1 => BitVec.ofNat 8 x :: leBytes (x / 256) n

/-- Little-endian bytes as a number (R8). -/
def ofLe : Bytes → Nat
  | [] => 0
  | b :: r => b.toNat + 256 * ofLe r

/-- A number as `n` big-endian bytes (formats a published standard defines, R8). -/
def beBytes (x n : Nat) : Bytes := (leBytes x n).reverse

/-- Big-endian bytes as a number. -/
def ofBe (b : Bytes) : Nat := ofLe b.reverse

/-- `n` bytes of a string from an offset on; what lies beyond its end reads as zero. -/
def slice (b : Bytes) (off n : Nat) : Bytes :=
  let s := (b.drop off).take n
  s ++ List.replicate (n - s.length) 0

/-- The 64-bit little-endian word at a byte offset of a string (R8). -/
def wordAt (b : Bytes) (off : Nat) : Word := BitVec.ofNat 64 (ofLe (slice b off 8))

/-- The little-endian number of `n` bytes at an offset. -/
def numAt (b : Bytes) (off n : Nat) : Nat := ofLe (slice b off n)

/-- A word as 8 bytes (R8). -/
def wordBytes (w : Word) : Bytes := leBytes w.toNat 8

/-- Words as bytes, word 0 first (R8). -/
def wordsBytes (ws : List Word) : Bytes := ws.flatMap wordBytes

/-- Every byte of a string is zero. -/
def allZero (b : Bytes) : Bool := b.all (fun x => x == 0)

/-- Every bit of a word outside a mask is zero (a reserved-bit check, R14). -/
def onlyBits (w : Word) (mask : Nat) : Bool := (w.toNat &&& (2 ^ 64 - 1 - mask % 2 ^ 64)) == 0

/-- The mask of bits [hi:lo]. -/
def msk (hi lo : Nat) : Nat := (2 ^ (hi + 1 - lo) - 1) <<< lo

/-- The signed value of the low `n` bits of a number. -/
def sgn (n x : Nat) : Int :=
  let y := x % 2 ^ n
  if n = 0 then 0 else if 2 ^ (n - 1) ≤ y then (y : Int) - 2 ^ n else y

/-- A signed number as an `n`-bit pattern. -/
def unsgn (n : Nat) (x : Int) : Nat := (x % (2 ^ n : Int)).toNat

/-- The number of set bits among the low `n` bits. -/
def popN (x : Nat) : Nat → Nat
  | 0 => 0
  | n + 1 => x % 2 + popN (x / 2) n

/-- Leading zeros of an `n`-bit number. -/
def clzN (x : Nat) : Nat → Nat
  | 0 => 0
  | n + 1 => if x.testBit n then 0 else 1 + clzN x n

/-- Quotient rounded up. -/
def ceilDiv (a b : Nat) : Nat := (a + b - 1) / b

/-- A 16-bit error counter stops at 0xFFFF (R570). -/
def bump16 (c : BitVec 16) (n : Nat) : BitVec 16 := BitVec.ofNat 16 (min (c.toNat + n) 0xFFFF)

/-- A 64-bit statistics counter stops at its top (R569). -/
def bump64 (c : Word) (n : Nat) : Word := BitVec.ofNat 64 (min (c.toNat + n) (2 ^ 64 - 1))

/-- An increment loses counts: it finds the counter at its top or would carry it past (R569). -/
def sat64 (c : Word) (n : Nat) : Bool := decide (2 ^ 64 - 1 < c.toNat + n)

/-- A list cut into pieces of `n`, the last one maybe shorter. -/
def chunksOf {α : Type} (n : Nat) : Nat → List α → List (List α)
  | 0, _ => []
  | f + 1, l => if l.isEmpty then [] else l.take n :: chunksOf n f (l.drop n)

/-- The numbers lo, lo + 1, …, lo + n - 1. -/
def rangeFrom (lo : Nat) (n : Nat) : List Nat := (List.range n).map (· + lo)

end Sys2Proof.Machine
end

