-- ==== Sys2Proof/Machine/Crypto.lean ====
section
/-! DEFINITION. The cryptographic functions the spec names, as their standards define them: SHA-384, HMAC and HKDF (R498), AES-256
in Galois/Counter Mode (R200, R411, R462), and ECDSA P-384 verification (R86, R492, R510). -/

namespace Sys2Proof.Machine

/-! ## SHA-384 (FIPS 180-4)

The standard's eight working variables are the last four values of two sequences: `a` to `d` of one, `e` to `h` of the other. The
constants are computed as the standard defines them: fractional parts of roots of primes. -/

/-- The first 80 primes. -/
def shaPrimes : List Nat :=
  [2, 3, 5, 7, 11, 13, 17, 19, 23, 29, 31, 37, 41, 43, 47, 53, 59, 61, 67, 71, 73, 79, 83, 89, 97, 101, 103, 107, 109, 113] ++
  [127, 131, 137, 139, 149, 151, 157, 163, 167, 173, 179, 181, 191, 193, 197, 199, 211, 223, 227, 229, 233, 239, 241, 251] ++
  [257, 263, 269, 271, 277, 281, 283, 293, 307, 311, 313, 317, 331, 337, 347, 349, 353, 359, 367, 373, 379, 383, 389, 397, 401, 409]

/-- The first 64 bits of the fractional part of the `k`-th root of `p`. -/
def rootFrac (k p : Nat) : Nat :=
  (List.range 68).foldl (fun r i => let c := r + 2 ^ (67 - i); if c ^ k ≤ p * 2 ^ (64 * k) then c else r) 0 % 2 ^ 64

/-- The rotations of a word to the right, added bit by bit; `rest` is added as well. -/
def turns (x : Nat) (by_ : List Nat) (rest : Nat) : Nat :=
  by_.foldl (fun a r => a ^^^ (x >>> r ||| (x <<< (64 - r)) % 2 ^ 64)) rest

/-- The compression of one message block: sixteen message words in a sliding window, the two sequences newest first. -/
def shaRun : List Nat → List Nat → List Nat → List Nat → List Nat × List Nat
  | p :: ps, w, as, es =>
    match w, as, es with
    | w0 :: ws, a :: b :: c :: d :: _, e :: f :: g :: h :: _ =>
      let t := h + turns e [14, 18, 41] 0 + ((e &&& f) ||| (g &&& (e ^^^ (2 ^ 64 - 1)))) + rootFrac 3 p + w0
      let x := t + turns a [28, 34, 39] 0 + ((a &&& (b ||| c)) ||| (b &&& c))
      let m := ws.getD 0 0
      let q := ws.getD 13 0
      let next := w0 + turns m [1, 8] (m >>> 7) + ws.getD 8 0 + turns q [19, 61] (q >>> 6)
      shaRun ps (ws ++ [next % 2 ^ 64]) [x % 2 ^ 64, a, b, c] [(d + t) % 2 ^ 64, e, f, g]
    | _, _, _ => (as, es)
  | [], _, as, es => (as, es)

/-- A block moves the chaining value on. -/
def shaStep (v : List Nat) (block : Bytes) : List Nat :=
  let (as, es) := shaRun shaPrimes ((chunksOf 8 16 block).map ofBe) (v.take 4) (v.drop 4)
  ((as ++ es).zip v).map (fun p => (p.1 + p.2) % 2 ^ 64)

/-- SHA-384 of a byte string: its chaining value starts from the 9th to the 16th prime, and six of the eight words are the digest. -/
def sha384 (m : Bytes) : Bytes :=
  let short := (m.length + 17) % 128
  let text := m ++ 0x80 :: List.replicate (if short = 0 then 0 else 128 - short) 0 ++ beBytes (8 * m.length) 16
  let v := (chunksOf 128 (text.length / 128) text).foldl shaStep (((shaPrimes.drop 8).take 8).map (rootFrac 2))
  (v.take 6).flatMap (beBytes · 8)

/-- HMAC with SHA-384. -/
def hmac384 (key msg : Bytes) : Bytes :=
  let k := if 128 < key.length then sha384 key else key
  let k := k ++ List.replicate (128 - k.length) 0
  sha384 (k.map (· ^^^ 0x5C) ++ sha384 (k.map (· ^^^ 0x36) ++ msg))

/-- HKDF-Extract (R498). -/
def hkdfExtract (salt ikm : Bytes) : Bytes := hmac384 salt ikm

/-- HKDF-Expand to at most 48 bytes (R498). -/
def hkdfExpand (prk info : Bytes) (n : Nat) : Bytes := (hmac384 prk (info ++ [1])).take n

/-! ## AES-256 (FIPS 197) and GCM (SP 800-38D) -/

def sboxPart0 : List Nat :=
  [99, 124, 119, 123, 242, 107, 111, 197, 48, 1, 103, 43, 254, 215, 171, 118, 202, 130, 201, 125, 250, 89, 71, 240, 173, 212, 162, 175, 156, 164, 114, 192,
   183, 253, 147, 38, 54, 63, 247, 204, 52, 165, 229, 241, 113, 216, 49, 21, 4, 199, 35, 195, 24, 150, 5, 154, 7, 18, 128, 226, 235, 39, 178, 117]

def sboxPart1 : List Nat :=
  [9, 131, 44, 26, 27, 110, 90, 160, 82, 59, 214, 179, 41, 227, 47, 132, 83, 209, 0, 237, 32, 252, 177, 91, 106, 203, 190, 57, 74, 76, 88, 207,
   208, 239, 170, 251, 67, 77, 51, 133, 69, 249, 2, 127, 80, 60, 159, 168, 81, 163, 64, 143, 146, 157, 56, 245, 188, 182, 218, 33, 16, 255, 243, 210]

def sboxPart2 : List Nat :=
  [205, 12, 19, 236, 95, 151, 68, 23, 196, 167, 126, 61, 100, 93, 25, 115, 96, 129, 79, 220, 34, 42, 144, 136, 70, 238, 184, 20, 222, 94, 11, 219,
   224, 50, 58, 10, 73, 6, 36, 92, 194, 211, 172, 98, 145, 149, 228, 121, 231, 200, 55, 109, 141, 213, 78, 169, 108, 86, 244, 234, 101, 122, 174, 8]

def sboxPart3 : List Nat :=
  [186, 120, 37, 46, 28, 166, 180, 198, 232, 221, 116, 31, 75, 189, 139, 138, 112, 62, 181, 102, 72, 3, 246, 14, 97, 53, 87, 185, 134, 193, 29, 158,
   225, 248, 152, 17, 105, 217, 142, 148, 155, 30, 135, 233, 206, 85, 40, 223, 140, 161, 137, 13, 191, 230, 66, 104, 65, 153, 45, 15, 176, 84, 187, 22]

def sbox (x : Byte) : Byte :=
  let i := x.toNat
  BitVec.ofNat 8 ((if i < 64 then sboxPart0 else if i < 128 then sboxPart1 else if i < 192 then sboxPart2 else sboxPart3).getD (i % 64) 0)

def xtime (x : Byte) : Byte := (x <<< 1) ^^^ (if x.getLsbD 7 then 0x1B else 0)

def xorBytes (a b : Bytes) : Bytes := List.zipWith (· ^^^ ·) a b

/-- The round keys as 4-byte words, newest first. -/
def aesExpand : Nat → Nat → Byte → List Bytes → List Bytes
  | 0, _, _, w => w
  | k + 1, i, rc, w =>
    let t := w.headD []
    let t' :=
      if i % 8 = 0 then
        (match (t.drop 1 ++ t.take 1).map sbox with
          | x :: r => (x ^^^ rc) :: r
          | [] => [])
      else if i % 8 = 4 then t.map sbox else t
    aesExpand k (i + 1) (if i % 8 = 0 then xtime rc else rc) (xorBytes (w.getD 7 []) t' :: w)

/-- The 15 round keys of a 256-bit key. -/
def aesKeys (key : Bytes) : List Bytes :=
  let w0 := (chunksOf 4 8 (slice key 0 32)).reverse
  (chunksOf 4 15 (aesExpand 52 8 1 w0).reverse).map List.flatten

def shiftRows (s : Bytes) : Bytes := (List.range 16).map (fun i => s.getD ((i + 4 * (i % 4)) % 16) 0)

def mixCol (c : Bytes) : Bytes :=
  (List.range 4).map (fun i =>
    let a := c.getD i 0
    let b := c.getD ((i + 1) % 4) 0
    xtime a ^^^ (xtime b ^^^ b) ^^^ c.getD ((i + 2) % 4) 0 ^^^ c.getD ((i + 3) % 4) 0)

/-- One block through AES-256 with expanded keys. -/
def aesBlock (ks : List Bytes) (b : Bytes) : Bytes :=
  let s := xorBytes b (ks.headD [])
  let mids := (ks.drop 1).take 13
  let s := mids.foldl (fun s k => xorBytes ((chunksOf 4 4 (shiftRows (s.map sbox))).flatMap mixCol) k) s
  xorBytes (shiftRows (s.map sbox)) (ks.getD 14 [])

/-! ### The inverse cipher (FIPS 197, 5.3) and AES-256-XTS (IEEE 1619; R171, R498) -/

/-- The byte that `sbox` takes to `y`. -/
def sboxInv (y : Byte) : Byte := BitVec.ofNat 8 (((List.range 256).find? (fun i => sbox (BitVec.ofNat 8 i) == y)).getD 0)

def shiftRowsInv (s : Bytes) : Bytes := (List.range 16).map (fun i => s.getD ((i + 12 * (i % 4)) % 16) 0)

/-- The matrix of MixColumns has order 4: three more applications undo it. -/
def mixColInv (c : Bytes) : Bytes := mixCol (mixCol (mixCol c))

/-- One block back through AES-256 with expanded keys. -/
def aesOpen (ks : List Bytes) (b : Bytes) : Bytes :=
  let s := (shiftRowsInv (xorBytes b (ks.getD 14 []))).map sboxInv
  let mids := ((ks.drop 1).take 13).reverse
  let s := mids.foldl (fun s k => (shiftRowsInv ((chunksOf 4 4 (xorBytes s k)).flatMap mixColInv)).map sboxInv) s
  xorBytes s (ks.headD [])

/-- The next tweak value: times the primitive element of GF(2^128), the first byte lowest. -/
def xtsNext (t : Nat) : Nat := (2 * t % 2 ^ 128) ^^^ (if t.testBit 127 then 0x87 else 0)

/-- The tweak values of the blocks of a data unit. -/
def xtsTweaks (key : Bytes) (unit : Nat) : Nat → List Bytes
  | k => ((List.range k).foldl (fun (acc : List Bytes × Nat) _ => (acc.1 ++ [leBytes acc.2 16], xtsNext acc.2))
      ([], ofLe (aesBlock (aesKeys (slice key 32 32)) (leBytes unit 16)))).1

/-- A data unit of whole blocks through AES-256-XTS under a 512-bit key: the first half ciphers the data, the second the tweak. -/
def xtsSeal (key : Bytes) (unit : Nat) (b : Bytes) : Bytes :=
  let ks := aesKeys (slice key 0 32)
  let k := b.length / 16
  ((chunksOf 16 k b).zip (xtsTweaks key unit k)).flatMap (fun (p, t) => xorBytes (aesBlock ks (xorBytes p t)) t)

/-- The inverse of `xtsSeal` under the same key and data unit number. -/
def xtsOpen (key : Bytes) (unit : Nat) (b : Bytes) : Bytes :=
  let ks := aesKeys (slice key 0 32)
  let k := b.length / 16
  ((chunksOf 16 k b).zip (xtsTweaks key unit k)).flatMap (fun (c, t) => xorBytes (aesOpen ks (xorBytes c t)) t)

/-- Multiplication in GF(2^128) of GCM. -/
def ghashMul (x h : Nat) : Nat :=
  ((List.range 128).foldl (fun (p : Nat × Nat) i =>
    (if x.testBit (127 - i) then p.1 ^^^ p.2 else p.1,
      if p.2 % 2 = 1 then (p.2 >>> 1) ^^^ (0xE1 <<< 120) else p.2 >>> 1)) (0, h)).1

/-- Pads a byte string with zeros to a multiple of 16. -/
def pad16 (b : Bytes) : Bytes := b ++ List.replicate ((16 - b.length % 16) % 16) 0

def ghash (h : Nat) (b : Bytes) : Nat :=
  (chunksOf 16 (b.length / 16) b).foldl (fun y c => ghashMul (y ^^^ ofBe c) h) 0

/-- The counter-mode stream of GCM from counter block `iv ‖ c` on, applied to a byte string. -/
def gcmCtr (ks : List Bytes) (iv : Bytes) (c : Nat) (b : Bytes) : Bytes :=
  let blocks := chunksOf 16 (b.length / 16 + 1) b
  ((blocks.zip (rangeFrom c blocks.length)).flatMap (fun p => xorBytes p.1 (aesBlock ks (iv ++ beBytes p.2 4))))

/-- The GCM tag over additional data and ciphertext. -/
def gcmTag (key iv aad ct : Bytes) : Bytes :=
  let ks := aesKeys key
  let h := ofBe (aesBlock ks (List.replicate 16 0))
  let s := ghash h (pad16 aad ++ pad16 ct ++ beBytes (8 * aad.length) 8 ++ beBytes (8 * ct.length) 8)
  xorBytes (beBytes s 16) (aesBlock ks (iv ++ [0, 0, 0, 1]))

/-- AES-256-GCM with a 12-byte IV: the ciphertext (or, given ciphertext, the plaintext). -/
def gcmCrypt (key iv b : Bytes) : Bytes := gcmCtr (aesKeys key) iv 2 b

/-! ## ECDSA P-384 verification (FIPS 186-5) -/

def p384p : Nat := 0xfffffffffffffffffffffffffffffffffffffffffffffffffffffffffffffffeffffffff0000000000000000ffffffff
def p384n : Nat := 0xffffffffffffffffffffffffffffffffffffffffffffffffc7634d81f4372ddf581a0db248b0a77aecec196accc52973
def p384b : Nat := 0xb3312fa7e23ee7e4988e056be3f82d19181d9c6efe8141120314088f5013875ac656398d8a2ed19d2a85c8edd3ec2aef
def p384gx : Nat := 0xaa87ca22be8b05378eb1c71ef320ad746e1d3b628ba79b9859f741e082542a385502f25dbf55296c3a545e3872760ab7
def p384gy : Nat := 0x3617de4a96262c6f5d9e98bf9292dc29f8f41dbd289a147ce9da3113b5f0b8c00a60b1ce1d7e819d7a431d7c90ea0e5f

/-- a^e mod m by `k` bits of e. -/
def powMod (m : Nat) : Nat → Nat → Nat → Nat → Nat
  | 0, _, _, acc => acc
  | k + 1, a, e, acc => powMod m k (a * a % m) (e / 2) (if e % 2 = 1 then acc * a % m else acc)

/-- Inverse modulo a prime. -/
def invMod (a m : Nat) : Nat := powMod m 384 (a % m) (m - 2) 1

/-- A Jacobian point; Z = 0 is the point at infinity. -/
structure EcPt where
  x : Nat
  y : Nat
  z : Nat

def ecDbl (p : EcPt) : EcPt :=
  let P := p384p
  let d := p.z * p.z % P
  let g := p.y * p.y % P
  let b := p.x * g % P
  let a := 3 * ((p.x + P - d) % P * ((p.x + d) % P) % P) % P
  let x3 := (a * a + 8 * P - 8 * b) % P
  let z3 := 2 * p.y * p.z % P
  ⟨x3, (a * ((4 * b + P - x3) % P) + 8 * P * P - 8 * (g * g % P)) % P, z3⟩

def ecAdd (p q : EcPt) : EcPt :=
  if p.z = 0 then q else if q.z = 0 then p
  else
    let P := p384p
    let z1 := p.z * p.z % P
    let z2 := q.z * q.z % P
    let u1 := p.x * z2 % P
    let u2 := q.x * z1 % P
    let s1 := p.y * q.z % P * z2 % P
    let s2 := q.y * p.z % P * z1 % P
    if u1 = u2 then (if s1 = s2 then ecDbl p else ⟨1, 1, 0⟩)
    else
      let h := (u2 + P - u1) % P
      let r := (s2 + P - s1) % P
      let hh := h * h % P
      let hhh := h * hh % P
      let v := u1 * hh % P
      let x3 := (r * r + 3 * P - hhh - 2 * v) % P
      ⟨x3, (r * ((v + P - x3) % P) + P * P - s1 * hhh % P) % P, p.z * q.z % P * h % P⟩

/-- k·p by `n` bits of k, high bit first. -/
def ecMul (p : EcPt) (k : Nat) : Nat → EcPt → EcPt
  | 0, acc => acc
  | n + 1, acc => let d := ecDbl acc; ecMul p k n (if k.testBit n then ecAdd d p else d)

/-- The public key (0x04, X, Y) is a point of the curve. -/
def ecOnCurve (x y : Nat) : Bool :=
  decide (x < p384p) && decide (y < p384p) && (y * y % p384p == (x * x % p384p * x + 3 * (p384p - x) + p384b) % p384p)

/-- ECDSA P-384 over SHA-384: public key in uncompressed form (97 bytes), signature r ‖ s (96 bytes), message. -/
def ecdsaVerify (pub sig msg : Bytes) : Bool :=
  let x := ofBe (slice pub 1 48)
  let y := ofBe (slice pub 49 48)
  let r := ofBe (slice sig 0 48)
  let s := ofBe (slice sig 48 48)
  if (pub.length == 97) && (pub.headD 0 == 4) && ecOnCurve x y && decide (0 < r) && decide (r < p384n) && decide (0 < s) && decide (s < p384n) then
    let w := invMod s p384n
    let u1 := ofBe (sha384 msg) * w % p384n
    let u2 := r * w % p384n
    let q := ecAdd (ecMul ⟨p384gx, p384gy, 1⟩ u1 384 ⟨1, 1, 0⟩) (ecMul ⟨x, y, 1⟩ u2 384 ⟨1, 1, 0⟩)
    if q.z = 0 then false
    else
      let zi := invMod q.z p384p
      q.x * (zi * zi % p384p) % p384p % p384n == r
  else false

end Sys2Proof.Machine
end

