-- ==== Sys2Proof/Machine/Hash.lean ====
section
/-! DEFINITION. Hashes and check values: mix64 (R303), XXH64, MurmurHash3 x64-128, CRC-32C (R302), CRC-32 and Adler-32 (R379). -/

namespace Sys2Proof.Machine

/-- A number modulo 2^64. -/
def m64 (x : Nat) : Nat := x % 2 ^ 64

/-- Rotate left in 64 bits. -/
def rotl64 (x r : Nat) : Nat := m64 (x <<< r) ||| (m64 x >>> (64 - r))

/-- mix64 of R303. -/
def mix64 (x seed : Nat) : Nat :=
  let z := m64 ((x ^^^ seed) + 0x7a3d51c6e94f0b8d)
  let z := m64 ((z ^^^ (z >>> 29)) * 0xc5b12e974d38a6f3)
  let z := m64 ((z ^^^ (z >>> 32)) * 0x93e76b0d2af5c819)
  z ^^^ (z >>> 29)

/-- One byte through a reflected CRC-32 register. -/
def crcByte (poly : Nat) (c : Nat) (b : Byte) : Nat :=
  (List.range 8).foldl (fun c _ => if c % 2 = 1 then (c >>> 1) ^^^ poly else c >>> 1) (c ^^^ b.toNat)

/-- CRC-32C with a preset register and a final XOR of all ones (R302 FN 3). -/
def crc32c (preset : Nat) (b : Bytes) : Nat := (b.foldl (crcByte 0x82F63B78) preset) ^^^ 0xFFFFFFFF

/-- CRC-32 of gzip (R379). -/
def crc32 (b : Bytes) : Nat := (b.foldl (crcByte 0xEDB88320) 0xFFFFFFFF) ^^^ 0xFFFFFFFF

/-- Adler-32 of zlib (R379). -/
def adler32 (b : Bytes) : Nat :=
  let r := b.foldl (fun (p : Nat × Nat) x => let a := (p.1 + x.toNat) % 65521; (a, (p.2 + a) % 65521)) (1, 0)
  r.2 * 65536 + r.1

def xxP1 : Nat := 0x9E3779B185EBCA87
def xxP2 : Nat := 0xC2B2AE3D27D4EB4F
def xxP3 : Nat := 0x165667B19E3779F9
def xxP4 : Nat := 0x85EBCA77C2B2AE63
def xxP5 : Nat := 0x27D4EB2F165667C5

def xxRound (acc x : Nat) : Nat := m64 (rotl64 (m64 (acc + x * xxP2)) 31 * xxP1)
def xxMerge (acc v : Nat) : Nat := m64 ((acc ^^^ xxRound 0 v) * xxP1 + xxP4)

/-- The 32-byte stripes of XXH64. -/
def xxStripes : Nat → Bytes → Nat × Nat × Nat × Nat → (Nat × Nat × Nat × Nat) × Bytes
  | 0, b, v => (v, b)
  | k + 1, b, (v1, v2, v3, v4) =>
    if b.length < 32 then ((v1, v2, v3, v4), b)
    else xxStripes k (b.drop 32)
      (xxRound v1 (numAt b 0 8), xxRound v2 (numAt b 8 8), xxRound v3 (numAt b 16 8), xxRound v4 (numAt b 24 8))

/-- The tail of XXH64. -/
def xxTail : Nat → Bytes → Nat → Nat
  | 0, _, h => h
  | k + 1, b, h =>
    if 8 ≤ b.length then xxTail k (b.drop 8) (m64 (rotl64 (h ^^^ xxRound 0 (numAt b 0 8)) 27 * xxP1 + xxP4))
    else if 4 ≤ b.length then xxTail k (b.drop 4) (m64 (rotl64 (h ^^^ m64 (numAt b 0 4 * xxP1)) 23 * xxP2 + xxP3))
    else match b with
      | [] => h
      | x :: r => xxTail k r (m64 (rotl64 (h ^^^ m64 (x.toNat * xxP5)) 11 * xxP1))

/-- XXH64 of a byte string with a seed (R302 FN 1, R294, R121). -/
def xxh64 (seed : Nat) (b : Bytes) : Nat :=
  let n := b.length
  let (h, rest) :=
    if 32 ≤ n then
      let ((v1, v2, v3, v4), r) := xxStripes (n / 32) b (m64 (seed + xxP1 + xxP2), m64 (seed + xxP2), m64 seed, m64 (seed + 2 ^ 64 - xxP1))
      let h := m64 (rotl64 v1 1 + rotl64 v2 7 + rotl64 v3 12 + rotl64 v4 18)
      (xxMerge (xxMerge (xxMerge (xxMerge h v1) v2) v3) v4, r)
    else (m64 (seed + xxP5), b)
  let h := xxTail (n + 1) rest (m64 (h + n))
  let h := m64 ((h ^^^ (h >>> 33)) * xxP2)
  let h := m64 ((h ^^^ (h >>> 29)) * xxP3)
  h ^^^ (h >>> 32)

def mmC1 : Nat := 0x87c37b91114253d5
def mmC2 : Nat := 0x4cf5ad432745937f
def mmMix (k : Nat) : Nat :=
  let k := m64 ((k ^^^ (k >>> 33)) * 0xff51afd7ed558ccd)
  let k := m64 ((k ^^^ (k >>> 33)) * 0xc4ceb9fe1a85ec53)
  k ^^^ (k >>> 33)
def mmK1 (k : Nat) : Nat := m64 (rotl64 (m64 (k * mmC1)) 31 * mmC2)
def mmK2 (k : Nat) : Nat := m64 (rotl64 (m64 (k * mmC2)) 33 * mmC1)

/-- The 16-byte blocks of MurmurHash3 x64-128. -/
def mmBlocks : Nat → Bytes → Nat × Nat → (Nat × Nat) × Bytes
  | 0, b, h => (h, b)
  | k + 1, b, (h1, h2) =>
    if b.length < 16 then ((h1, h2), b)
    else
      let h1 := m64 (m64 (rotl64 (h1 ^^^ mmK1 (numAt b 0 8)) 27 + h2) * 5 + 0x52dce729)
      let h2 := m64 (m64 (rotl64 (h2 ^^^ mmK2 (numAt b 8 8)) 31 + h1) * 5 + 0x38495ab5)
      mmBlocks k (b.drop 16) (h1, h2)

/-- MurmurHash3 x64-128 (R302 FN 2): h1 and h2. -/
def murmur128 (seed : Nat) (b : Bytes) : Nat × Nat :=
  let n := b.length
  let ((h1, h2), r) := mmBlocks (n / 16) b (seed, seed)
  let h2 := if 8 < r.length then h2 ^^^ mmK2 (ofLe (r.drop 8)) else h2
  let h1 := if 0 < r.length then h1 ^^^ mmK1 (ofLe (r.take 8)) else h1
  let h1 := h1 ^^^ n
  let h2 := h2 ^^^ n
  let h1 := m64 (h1 + h2)
  let h2 := m64 (h2 + h1)
  let h1 := mmMix h1
  let h2 := mmMix h2
  let h1 := m64 (h1 + h2)
  (h1, m64 (h2 + h1))

end Sys2Proof.Machine
end

