-- ==== Sys2Proof/Config.lean ====
section
/-! DEFINITION. What the spec leaves open, as opaque constants: nothing in Lean can evaluate them, so a claim holds for every
value they may have. A Nat argument is the state's counter of free values, so that each use is a fresh one. -/

namespace Sys2Proof

/-- R128: a read between issue and visibility returns the old or the new value; the choice. -/
opaque Config.earlyRead : Nat → Bool

/-- R121: the destination elements of a narrowing VCVT that have no source element; the spec states no value. -/
opaque Config.cvtRest : Nat → BitVec 1024

/-- R126, R159: the nanoseconds until the next tick at the moment of a read; used below the tick period only. -/
opaque Config.remainNs : Nat → Nat

/-- R158: how far, in 10 ns units, a read of the time CSR lies behind its tick; used below the tick period only. -/
opaque Config.sinceTick : Nat → Nat

/-- R152: the cycles and retired instructions that a hart's counters show. -/
opaque Config.hartCount : Nat → BitVec 64

/-- R498, R500, R489: bytes of the SEC random bit generator. -/
opaque Config.randomByte : Nat → Nat → Byte

/-- R483: key pairs and signatures of the Alias key, whose derivation from the CDI the spec leaves to DICE. -/
opaque Config.aliasPublic : Bytes → Bytes

/-- R485: an ECDSA P-384 signature by the Alias key of a CDI over a message, with the generator's nonce. -/
opaque Config.aliasSign : Bytes → Nat → Bytes → Bytes

/-- R485, R500: the shared secret of an ECDHE exchange with the peer's share. -/
opaque Config.sharedSecret : Nat → Bytes → Bytes

/-- R485: the responder's ECDHE share. -/
opaque Config.ownShare : Nat → Bytes

/-- R373: the payload that the one fixed pass of a fast lane finds (history, input). -/
opaque Config.dbfPass : Bytes → Bytes → Bytes

/-- R375: what the search of a deep lane finds (DEPTH, NICE, LAZY, MINM; history; input), whatever the format: literals, then the length and
the distance of a match. -/
opaque Config.matchSearch : List Nat → Bytes → Bytes → List (Nat × Nat × Nat)

/-- R377, R379: the block that a deep lane codes from a search (format, what it found, the input, the stream's coded form so far). -/
opaque Config.blockCode : Nat → List (Nat × Nat × Nat) → Bytes → Bytes → Bytes

/-- R549: trace cycles since the previous packet of a source in a buffer. -/
opaque Config.traceDelta : Nat → Nat

/-- R432: the port of a trunk that the hash of a flow (context, source, destination, class) chooses; an index into the trunk. -/
opaque Config.flowHash : Nat → Nat → Nat → Nat → Nat

/-- R510: the manufacturer's certificate chain above the DeviceID certificate. -/
opaque Config.rootChain : Bytes

/-- R484: the encoding of the X.509 Alias certificate from the Alias public key and the measurements M1 to M8. -/
opaque Config.aliasCert : Bytes → Bytes → Bytes

/-- R588: the platform descriptor record of a PLDM sensor, whose bytes beyond DSP0248's fixed layout the spec leaves open. -/
opaque Config.pldmPdr : Nat → Bytes

/-- R588: the version that GetPLDMVersion answers for a PLDM type; 256 stands for the MCTP base version. -/
opaque Config.pldmVersion : Nat → Bytes

/-- R172: the keyed code of a tag word over the ciphertext, the line address and the context number; the spec names neither the code nor its
key. -/
opaque Config.lineCode : Bytes → Nat → Nat → BitVec 15

/-- R207, R603: what the sensor of an HBM stack reads, in °C, at the n-th sample. -/
opaque Config.stackTemp : Nat → Byte

/-- R485: SPDM response fields that the spec does not fix (flags, random, opaque data). -/
opaque Config.spdmOpen : Nat → Nat → Bytes

/-- R360, R363, R252: clock cycles that a wait took. -/
opaque Config.waitCycles : Nat → Nat

/-- R424: the residence time of a TICK message in a chip, in units of 0.1 ns. -/
opaque Config.residence : Nat → Nat

/-- R250: how many transactions of a barge were held for weir tokens, which the bucket's refill in time decides (R222). -/
opaque Config.weirHeld : Nat → Nat

/-- R439: the code that LAST_FAIL shows of a port failure for which the spec names no code. -/
opaque Config.portFailCode : Nat → Code

/-- R500: the certificate chain and the signature of another chip's key share verify. -/
opaque Config.peerGenuine : Nat → Bytes → Bool

/-- R225, R421: a class 0 message had to wait for credit at an earlier hop. -/
opaque Config.boundWithdrawn : Nat → Bool

/-- R386: the lane-internal bytes of a codec state record. -/
opaque Config.laneInternal : Nat → Nat → Byte

/-- R30, R524: the boot setting in MHz of a clock domain that never changes. -/
opaque Config.bootClk : Nat → Nat

/-- R114: the last 128 bytes of a thread context record. -/
opaque Config.threadTail : Nat → Nat → Byte

/-- R165: the bytes of a hart record. -/
opaque Config.hartRecord : Nat → Nat → Byte

/-- R543: the nanoseconds from PERST_N to the end of a boot step. -/
opaque Config.bootNs : Nat → Nat

/-- R510: the debug public key, of which OTP holds the hash. -/
opaque Config.debugKey : Bytes

/-- R202: a byte of host memory that a register write makes an IMPORT read, by address and use. -/
opaque Config.hostByte : Nat → Nat → Byte

/-- R589: the value captured from a pin by the boundary-scan register. -/
opaque Config.pinCapture : Nat → Nat → Bool

/-- R177, R442: PCIe configuration space bytes that the spec does not fix. -/
opaque Config.pciConfig : Nat → Nat → BitVec 32

/-- R346: the bytes between the end of an output row of the Dense Array and its pitch. -/
opaque Config.rowPad : Nat → Nat → Byte

/-- R356: the elements of an MX output block that holds a NaN or an infinity, and the scale of one that holds an infinity; the
specification that R356 names leaves them to the implementation. -/
opaque Config.mxOpen : List Nat → Nat → Nat

/-- R191: DETAIL of a fault record of AGENT 2, and of AGENT 7 where no rule gives it. -/
opaque Config.recordDetail : Nat → BitVec 64

end Sys2Proof
end

