-- ==== Sys2Proof/Machine/Tab.lean ====
section
/-! DEFINITION. Sparse tables in one canonical form: a list of (key, value) pairs, keys strictly rising, no entry equal to
what an unlisted key reads as. Every memory, register file and array of the machine is one of these. -/

namespace Sys2Proof.Machine

/-- A sparse table: what is not listed reads as the table's default, which every access names. -/
abbrev Tab (α : Type) := List (Nat × α)

/-- The value at a key. -/
def Tab.get {α : Type} (d : α) : Tab α → Nat → α
  | [], _ => d
  | (k, v) :: r, a => if k = a then v else Tab.get d r a

/-- Lists a value at a key, in key order. -/
def Tab.ins {α : Type} : Tab α → Nat → α → Tab α
  | [], a, x => [(a, x)]
  | (k, v) :: r, a, x =>
    if a < k then (a, x) :: (k, v) :: r
    else if a = k then (a, x) :: r
    else (k, v) :: Tab.ins r a x

/-- Puts a value at a key and keeps the canonical form: the default removes the entry. -/
def Tab.set {α : Type} [DecidableEq α] (d : α) (t : Tab α) (a : Nat) (x : α) : Tab α :=
  if x = d then t.filter (fun e => decide (e.1 ≠ a)) else Tab.ins t a x

/-- Applies a function to the value at a key. -/
def Tab.modify {α : Type} [DecidableEq α] (d : α) (t : Tab α) (a : Nat) (f : α → α) : Tab α :=
  Tab.set d t a (f (Tab.get d t a))

/-- Returns every key of [lo, hi) to the default. -/
def Tab.clear {α : Type} (t : Tab α) (lo hi : Nat) : Tab α :=
  t.filter (fun e => !(decide (lo ≤ e.1) && decide (e.1 < hi)))

/-- Applies a function to every listed value; what becomes the default is no longer listed. -/
def Tab.mapV {α : Type} [DecidableEq α] (d : α) (f : α → α) (t : Tab α) : Tab α :=
  (t.map (fun e => (e.1, f e.2))).filter (fun e => decide (e.2 ≠ d))

/-- The canonical form, as a check: keys strictly rising above `lo`, no default stored. -/
def Tab.wfFrom {α : Type} [DecidableEq α] (d : α) : Option Nat → Tab α → Bool
  | _, [] => true
  | lo, (k, v) :: r =>
    (match lo with
      | none => true
      | some l => decide (l < k)) && decide (v ≠ d) && Tab.wfFrom d (some k) r

/-- The canonical form. -/
def Tab.wf {α : Type} [DecidableEq α] (d : α) (t : Tab α) : Bool := Tab.wfFrom d none t

/-- Consecutive values written from a key on. -/
def Tab.setMany {α : Type} [DecidableEq α] (d : α) (t : Tab α) (a : Nat) : List α → Tab α
  | [] => t
  | x :: r => Tab.setMany d (Tab.set d t a x) (a + 1) r

/-- `n` consecutive values read from a key on. -/
def Tab.getMany {α : Type} (d : α) (t : Tab α) (a : Nat) : Nat → List α
  | 0 => []
  | n + 1 => Tab.get d t a :: Tab.getMany d t (a + 1) n

end Sys2Proof.Machine
end

