-- ==== Sys2Proof/Machine/State.lean ====
section
/-! DEFINITION. The state of one 2840 as plain data, its faults and refusals, and the state after reset. -/

namespace Sys2Proof.Machine

/-! ## Yoren threads (spec/04_yoren_core.md) -/

/-- What a parked thread waits for (R108, R126, R132, R210, R231, R239, R265, R284). `stopped` is a thread that a program
exception stopped (R149). -/
inductive Park where
  | flag (m : Fin 16)
  | flags (mask : BitVec 16)
  | fence
  | barrier (b : Fin 8) (n : Word)
  | eos
  | flagRoom (m : Fin 16)
  | queueRoom (q : Nat)
  | unitRoom (u : Fin 5)
  | towRoom
  | flightRoom
  | stopped
deriving DecidableEq, Repr

/-- The thread states of R108. -/
inductive TState where
  | idle
  | ready
  | bubble
  | parked (why : List Park)
  | ended
deriving DecidableEq, Repr

/-- A register write with its value and taint (R110, R111); `mask` holds the vector bytes, or predicate bits, that it writes
(R117). -/
inductive RegW where
  | s (r : Nat) (x : Word) (taint : Bool)
  | v (r : Nat) (x : BitVec 1024) (mask : BitVec 128) (taint : Bool)
  | p (r : Nat) (x : BitVec 128) (mask : BitVec 128)
deriving DecidableEq, Repr

/-- A result that is not visible yet (R119): it becomes visible to bundle `at`; issued in bundle `issued`, slot `slot`. -/
structure Pend where
  at_ : Nat
  issued : Nat
  slot : Nat
  w : RegW
deriving DecidableEq, Repr

/-- One hardware thread (R110 to R114). `tsw` holds the W1C bits of R112 only. -/
structure Thread where
  st : TState := .idle
  pc : BitVec 32 := 0
  bundle : Nat := 0
  s : Tab Word := []
  v : Tab (BitVec 1024) := []
  p : Tab (BitVec 128) := []
  m : Tab Nat := []
  sT : Tab Bool := []
  vT : Tab Bool := []
  tsw : Word := 0
  pend : List Pend := []
  staged : List (Nat × Word) := []
  member : Bool := false
deriving DecidableEq, Repr

/-- What a global memory operation does when it is performed (R123). -/
inductive MemKind where
  | ldg (dst : Nat) (sz : Nat) (sx : Bool)
  | stg (x : Word) (sz : Nat)
  | vldg (dst : Nat)
  | vstg (x : BitVec 1024) (mask : BitVec 128)
  | amo (fn : Nat) (sz : Nat) (dst : Nat) (x cmp : Word)
deriving DecidableEq, Repr

/-- A global access that has been issued and is not complete (R132 to R136). `thread` is 64·cluster + 8·core + thread;
`dropped` marks an access of a discarded attempt, whose load data is dropped (spec/04 At the tick). -/
structure MemOp where
  id : Nat
  thread : Nat
  ctx : Nat
  mf : Nat
  kind : MemKind
  va : Word
  taint : Bool
  pc : BitVec 32
  dropped : Bool
deriving DecidableEq, Repr

/-- Who gave a command and how its end is told (R132, R160). -/
inductive Owner where
  | thread (key mf : Nat) (pc : BitVec 32)
  | hart (h : Nat)
  | none
deriving DecidableEq, Repr

/-! ## Units, barges, towpath, flights, codec lanes -/

/-- A unit command held by a unit (R265, R284, R324, R333, R352). `pos` is its resume point (R194), `aux` the output bytes written,
`scratch` the running values of a unit that aggregates; `cmd` is the command as fetched, or the code that stopped its fetch. -/
structure UCmd where
  id : Nat
  owner : Owner
  ctx : Nat
  cmd : Bytes
  taint : Bool := false
  pos : Nat := 0
  aux : Nat := 0
  scratch : Bytes := []
  waiting : Bool := false
deriving DecidableEq, Repr

/-- One unit of one cluster, for one context: the commands it holds, in arrival order, its last error code, and whom it served last (R238,
R352): 0 its queue, else a flight stage. -/
structure UnitQ where
  held : List UCmd := []
  lastErr : Code := 0
  turn : Nat := 0
deriving DecidableEq, Repr

/-- A barge descriptor in a queue (R210, R213). `pos` counts bytes moved; `missed`: its deadline has been counted (R227); `tgran`: the
destination granule + 1 that BE_TAINT counted last (R246). -/
structure BDesc where
  id : Nat
  owner : Owner
  ctx : Nat
  d : Bytes
  pIssue : Word
  pos : Nat := 0
  round : Nat := 0
  complete : Bool := false
  cl : Nat := 0
  missed : Bool := false
  tgran : Nat := 0
deriving DecidableEq, Repr

/-- A barge queue (R208 to R212, R219 to R222, R248, R357). -/
structure BQueue where
  ctx : Option Nat := none
  weir : Bool := false
  weirGrp : Nat := 0
  outlim : Nat := 0
  bshift : Nat := 0
  berths : Nat := 0
  ring : Word := 0
  dlWeight : Nat := 0
  descs : List BDesc := []
  free : Nat := 0
  writePt : Nat := 0
  lastErr : Code := 0
  creditErr : BitVec 16 := 0
  idxOob : BitVec 16 := 0
  dlMiss : BitVec 16 := 0
  rearmLate : BitVec 16 := 0
  count : Word := 0
  returned : Nat := 0
  drained : Nat := 0
deriving DecidableEq, Repr

/-- A towpath transfer in its queue (R231, R232). -/
structure TowOp where
  id : Nat
  owner : Owner
  ctx : Nat
  cl : Nat
  d : Bytes
  taint : Bool := false
  wdrn : Bool := false
deriving DecidableEq, Repr

/-- One berth-load of a flight stream: a run of bytes that starts at a berth boundary, as its 64-byte lines with their taints. -/
structure Chunk where
  lines : List (Bytes × Bool)
deriving DecidableEq, Repr

/-- The berths of a ring inside a flight (R219 to R221, R237), applied by hardware: those free, the next one to fill, the bytes in it so
far, the full ones with their lengths, oldest first, and the end marker (R240). -/
structure FRing where
  free : Nat := 0
  next : Nat := 0
  fill : Nat := 0
  full : List (Nat × Nat) := []
  ended : Bool := false
deriving DecidableEq, Repr

/-- A stream of the codec lanes between two jobs (R386, R387): the input so far with its taints, the output so far (in full for a
compress stream, as its length for a decompress stream), the bits of an unfinished byte, the blocks handed on, and its window. -/
structure CStream where
  inp : List (Bytes × Bool) := []
  made : Bytes := []
  outLen : Nat := 0
  bits : Nat := 0
  nbits : Nat := 0
  blocks : Nat := 0
  lastErr : Code := 0
  chainEnt : Nat := 0
  chainOff : Nat := 0
deriving DecidableEq, Repr

/-- A stage of a flight (R236) at work: its command once it is read (R263), the ring it fills, the berths it has taken and whether its
input has ended, its resume point (R194), the berths it has yet to put into its ring and the bytes of the next one, whether it has made
its last element, and whether it waits on a gate (R358). `lane` is the codec lane it holds, `job` the stream the lane works on, `saved`
that a lane has written its state (R388), `chain` that its job wrote into a buffer chain (R385). -/
structure Stage where
  rec_ : Bytes
  cmd : Option Bytes := none
  ring : FRing := {}
  got : List Chunk := []
  inEnd : Bool := false
  pos : Nat := 0
  aux : Nat := 0
  scratch : Bytes := []
  queue : List Chunk := []
  buf : List (Bytes × Bool) := []
  done : Bool := false
  waiting : Bool := false
  lane : Option Nat := none
  job : Option CStream := none
  saved : Bool := false
  chain : Bool := false
deriving DecidableEq, Repr

/-- A flight (R235 to R242): its input ring, the input bytes moved into it, output taken from the last ring and not yet written, the
output bytes written, the tainted granules of them, the granules + 1 that were counted last on both sides (R246); `err` is the code
and stage that ended it. -/
structure Flight where
  id : Nat
  cl : Nat
  owner : Owner
  ctx : Nat
  hdr : Bytes
  stages : List Stage
  active : Bool
  pIssue : Word := 0
  inRing : FRing := {}
  filled : Nat := 0
  obuf : List (Bytes × Bool) := []
  pos : Nat := 0
  tainted : Nat := 0
  igran : Nat := 0
  ogran : Nat := 0
  err : Option (Code × Nat) := none
deriving DecidableEq, Repr

/-- A row that a home chip serves in pieces (R270): the flow that asks, the row's address, the row as it stood at the first piece, and the
offsets of the pieces that are still to come. -/
structure RowSnap where
  flow : Nat
  va : Nat
  row : List (Bytes × Bool)
  left : List Nat
deriving DecidableEq, Repr

/-- A codec lane (R364, R367, R388). -/
structure Lane where
  ctx : Option Nat := none
  flight : Nat := 0
  stage : Nat := 0
  saving : Bool := false
  fenced : Bool := false
  fenceDue : Bool := false
deriving DecidableEq, Repr

/-- An AMU entry (R316). -/
structure AmuEntry where
  valid : Bool := false
  key : BitVec 128 := 0
  mask : BitVec 128 := 0
  prio : BitVec 16 := 0
  result : BitVec 48 := 0
  taint : Bool := false
deriving DecidableEq, Repr

/-- The written and the taint bit of a 64-byte line of cluster memory (R176). -/
structure LineBits where
  written : Bool := false
  taint : Bool := false
deriving DecidableEq, Repr

/-! ## Contexts -/

/-- The context states of R58. -/
inductive CtxState where
  | free
  | bound
  | admitted
  | running
  | faulted
deriving DecidableEq, Repr

/-- A basin of the manifest (R175, R493): base and length in bytes, live range in bytes, virtual address. -/
structure Basin where
  base : Nat
  size : Nat
  liveOff : Nat
  liveLen : Nat
  va : Word
deriving DecidableEq, Repr

/-- The cluster record of a manifest (R493). -/
structure ClRec where
  amuLive : Bool := false
  basins : List Basin := []
deriving DecidableEq, Repr

/-- A manifest as the security core accepted it (R491 to R495). -/
structure Manifest where
  jobId : Bytes := []
  ctx : Nat := 0
  clusters : Nat := 0
  harts : Nat := 0
  fastMax : Nat := 0
  deepMax : Nat := 0
  secTol : Nat := 0
  consent : Byte := 0
  permit : Byte := 0
  fltLog2 : Nat := 6
  ntables : Nat := 0
  nstep : Nat := 0
  fltVa : Word := 0
  tdirVa : Word := 0
  saveVa : Word := 0
  cls : List ClRec := []
  steps : List (List (BitVec 32)) := []
  queues : List (Word × Word) := []
  pins : List (Word × Word) := []
  hartPcs : List Word := []
  digest : Bytes := []
deriving DecidableEq, Repr

/-- A segment of the context's present step on one cluster (R43 to R46, R143). -/
structure Seg where
  present : Bool := false
  started : Bool := false
  committed : Bool := false
  base : Nat := 0
  segId : BitVec 32 := 0
  replayable : Bool := false
  splittable : Bool := false
  codeLen : Nat := 0
  overruns : Nat := 0
  split : Bool := false
  exc : Code := 0
deriving DecidableEq, Repr

/-- A page request (R193): the page VA[47:16] and its write bit. -/
structure PageReq where
  page : Nat
  wr : Bool
deriving DecidableEq, Repr

/-- The MMU_ registers of a context (R206) and its command in progress (R186): `cmdVa`, `cmdPa` are the addresses of a MAP that
another chip answers (R188). -/
structure Mmu where
  op : BitVec 4 := 0
  w : Bool := false
  va : BitVec 32 := 0
  paLo : BitVec 32 := 0
  paHi : BitVec 4 := 0
  hostLo : BitVec 32 := 0
  hostHi : BitVec 32 := 0
  busy : Bool := false
  code : Code := 0
  result : Code := 0
  waitChip : Bool := false
  cmdVa : Nat := 0
  cmdPa : Nat := 0
  qry : BitVec 3 := 0
  prq : List PageReq := []
  uninit : Word := 0
  sat : Bool := false
  fltDrop : BitVec 16 := 0
deriving DecidableEq, Repr

/-- A weir group of a context (R222, R223, R250): the values in force and those written for the next tick. -/
structure Weir where
  rate : Nat := 150000
  burst : Nat := 65536
  nextRate : Option Nat := none
  nextBurst : Option Nat := none
  held : Word := 0
deriving DecidableEq, Repr

/-- The TU_ counters of one table (R283). -/
structure TuCnt where
  neg : Word := 0
  oob : Word := 0
  miss : Word := 0
  gath : Word := 0
  appl : Word := 0
  drop : Word := 0
  sat : BitVec 6 := 0
  lastErr : Code := 0
  taint : BitVec 16 := 0
  stgErr : BitVec 16 := 0
  hwm : BitVec 32 := 0
deriving DecidableEq, Repr

/-- A run of a submission ring entry (R459 to R467). `st`: 0 waiting, 1 started, 2 performed. -/
structure SqEntry where
  id : Nat
  op : Nat
  order : Bool
  sealed : Bool
  cid : BitVec 32
  host : Word
  va : Word
  len : Nat
  steps : Word
  tag : Bytes
  st : Nat := 0
  pos : Nat := 0
  left : Nat := 0
  buf : Bytes := []
  nonce : Word := 0
  code : Code := 0
deriving DecidableEq, Repr

/-- A completion entry that waits to be written (R466). -/
structure Cqe where
  code : Code
  cid : BitVec 32
  w1 : Word
  tag : Bytes
deriving DecidableEq, Repr

/-- The trace registers of a context (R564), the writes it waits to take, its held triggers (R557) and its queued loss. -/
structure Trace where
  ctrl : BitVec 16 := 0
  bufLo : BitVec 20 := 0
  bufHi : BitVec 16 := 0
  size : BitVec 5 := 0
  clmask : BitVec 48 := 0
  nxt : Option (BitVec 16 × BitVec 20 × BitVec 16 × BitVec 5 × BitVec 48) := none
  state : BitVec 2 := 0
  wph : Bool := false
  wptr : BitVec 30 := 0
  pkt : Word := 0
  loss : BitVec 16 := 0
  sat : Bool := false
  heldTrig : List (Nat × Nat × Word × Byte) := []
  runs : Tab Nat := []
deriving DecidableEq, Repr

/-- A collective in progress (R533 to R540); `op` 0 stands for one that another chip has begun and this chip has not. `early` holds the
fragments that came before their phase (source, phase, fragment, bytes, granule taints), `part` the elements reduced so far. -/
structure Coll where
  idx : Nat
  op : Nat
  red : Nat
  et : Nat
  collId : BitVec 16
  len : Nat
  src : Word
  dst : Word
  phase : Nat := 0
  sent : Bool := false
  selfDone : Bool := false
  doneFrom : Tab Nat := []
  got : Nat := 0
  early : List (Nat × Nat × Nat × Bytes × Nat) := []
  part : List (Nat × Bool) := []
  pounds : Nat := 0
  code : Code := 0
  fin : Bool := false
deriving DecidableEq, Repr

/-- The BE_ registers of a context (R249). `sat`: [1] TAINT, [0] BYTES. -/
structure BeRegs where
  bytes : Word := 0
  taint : Word := 0
  tmo : BitVec 16 := 0
  sat : BitVec 2 := 0
deriving DecidableEq, Repr

/-- The TP_ registers of a context (R251). -/
structure TpRegs where
  done : Word := 0
  tmo : BitVec 16 := 0
  wdrn : BitVec 16 := 0
  sat : Bool := false
deriving DecidableEq, Repr

/-- The FL_ registers of a context that are not computed from the flights (R252). -/
structure FlRegs where
  err : Code := 0
  stall : Word := 0
  sat : Bool := false
deriving DecidableEq, Repr

/-- The FX_ registers of a context (R315). -/
structure FxRegs where
  inp : Word := 0
  out : Word := 0
  drop : Word := 0
  dup : BitVec 16 := 0
  hotOob : BitVec 16 := 0
  parse : BitVec 16 := 0
  nanz : BitVec 16 := 0
  tdrop : BitVec 16 := 0
  nullkey : BitVec 16 := 0
  taint : BitVec 16 := 0
  err : Code := 0
  sat : BitVec 3 := 0
deriving DecidableEq, Repr

/-- The AMU_ registers of a context (R341). -/
structure AmuRegs where
  look : Word := 0
  hit : Word := 0
  upd : Word := 0
  repl : BitVec 16 := 0
  taint : BitVec 16 := 0
  fdrop : BitVec 16 := 0
  tdrop : BitVec 16 := 0
  err : Code := 0
  sat : BitVec 3 := 0
deriving DecidableEq, Repr

/-- The OU_ registers of a context (R341). -/
structure OuRegs where
  elem : Word := 0
  nan : Word := 0
  cmd : Word := 0
  order : BitVec 16 := 0
  taint : BitVec 16 := 0
  err : Code := 0
  sat : BitVec 3 := 0
deriving DecidableEq, Repr

/-- The DA_ registers of a context and its relay receipt counts, one per logical cluster (R357, R363). -/
structure DaRegs where
  rows : Word := 0
  wait : Word := 0
  nan : BitVec 16 := 0
  satc : BitVec 16 := 0
  taint : BitVec 16 := 0
  err : Code := 0
  sat : BitVec 2 := 0
  sel : BitVec 6 := 0
  relay : Tab Word := []
deriving DecidableEq, Repr

/-- The CD_ registers of a context (R391). -/
structure CdRegs where
  cin : Word := 0
  cout : Word := 0
  dout : Word := 0
  raw : Word := 0
  code : BitVec 16 := 0
  dist : BitVec 16 := 0
  len : BitVec 16 := 0
  check : BitVec 16 := 0
  window : BitVec 16 := 0
  format : BitVec 16 := 0
  chain : BitVec 16 := 0
  err : Code := 0
  sat : BitVec 4 := 0
  taint : BitVec 16 := 0
deriving DecidableEq, Repr

/-- The LW_ registers of a context (R440), its sequence counters by class (R412) and replay windows by source chip and class
(R413): the newest SEQ accepted and the marks of the 1,024 values up to it. -/
structure LwRegs where
  tx : Word := 0
  rx : Word := 0
  auth : BitVec 16 := 0
  tmo : BitVec 16 := 0
  refused : BitVec 16 := 0
  replay : BitVec 16 := 0
  sat : BitVec 2 := 0
  seq : Tab Word := []
  win : Tab (Word × BitVec 1024) := []
deriving DecidableEq, Repr

/-- The doorbell page and the rings of a context (R457 to R467). -/
structure Rings where
  sqTail : BitVec 17 := 0
  cqHead : BitVec 17 := 0
  sqHead : BitVec 17 := 0
  cqTail : BitVec 17 := 0
  stop : Bool := false
  entries : List SqEntry := []
  cqes : List Cqe := []
  runActive : Bool := false
  haltReq : Bool := false
  lastNonce : Word := 0
  outNonce : Word := 1
deriving DecidableEq, Repr

/-- The keys of a context (R498): memory, page export, Lockway, host transfer. Empty when there is none. -/
structure Keys where
  mem : Bytes := []
  exp : Bytes := []
  lw : Bytes := []
  ht : Bytes := []
deriving DecidableEq, Repr

/-- The binding of a context (R453, R488): its function, manifest, handle and the pound at bind. -/
structure Binding where
  vf : Option Nat := none
  man : Option Manifest := none
  handle : BitVec 16 := 0
  pound : Word := 0
  keys : Keys := {}
deriving DecidableEq, Repr

/-- A harbor core (R151, R152, R154, R159 to R167): its integer, floating-point and vector registers (VLEN 256), program counter,
outstanding submissions, trap registers and vsatp. -/
structure Hart where
  x : Tab Word := []
  f : Tab Word := []
  v : Tab (BitVec 256) := []
  fcsr : BitVec 8 := 0
  vl : Word := 0
  vtype : Word := 0
  vstart : Word := 0
  vcsr : BitVec 3 := 0
  pc : Word := 0
  out : Nat := 0
  named : Bool := false
  waiting : Bool := false
  ended : Bool := false
  scause : Word := 0
  sepc : Word := 0
  stval : Word := 0
  mtval2 : Word := 0
  stvec : Word := 0
  sstatus : Word := 0
  sscratch : Word := 0
  sie : Word := 0
  sip : Word := 0
  scounteren : BitVec 32 := 0
  senvcfg : Word := 0
  stimecmp : Word := 0
  satp : Word := 0
  user : Bool := false
deriving DecidableEq, Repr

/-- The schedule of a context (R45, R46, R494): committed steps, place in the step section, segments of the present step by
cluster, threads kept while another context holds the pound (key 64·cluster + 8·core + thread), and the code with which the
context enters Faulted at the next tick (0 for none). `barriers`: the arrivals at barriers of those threads. `full`: the save area holds
every basin byte, from a pre-emption (R65). -/
structure Sched where
  step : Word := 0
  pos : Nat := 0
  segs : Tab Seg := []
  threads : Tab Thread := []
  barriers : Tab (List Nat) := []
  harts : Tab Hart := []
  faultNext : Code := 0
  issued : Bool := false
  full : Bool := false
deriving DecidableEq, Repr

/-- One context (R58 and the per-context registers of every block). `ending`: 1 an unbind is due at the next tick, 2 its work has
stopped (R454). -/
structure Ctx where
  st : CtxState := .free
  err : Code := 0
  expert : Bool := false
  splitMax : BitVec 8 := 16
  splitNext : Option (BitVec 8) := none
  ovrCnt : BitVec 16 := 0
  live : BitVec 32 := 0
  swin : Word := 0
  ending : BitVec 2 := 0
  bind : Binding := {}
  sch : Sched := {}
  mmu : Mmu := {}
  fltIdx : Nat := 0
  fltPhase : Bool := true
  fltPend : List (Nat × List Word) := []
  expNext : Word := 1
  versions : Tab Word := []
  bqSel : BitVec 17 := 0
  be : BeRegs := {}
  weirs : Tab Weir := []
  weirSel : BitVec 4 := 0
  weirSat : Bool := false
  tp : TpRegs := {}
  fl : FlRegs := {}
  tuSel : BitVec 12 := 0
  tu : Tab TuCnt := []
  lastSent : List (Nat × Nat) := []
  tuWait : List (Nat × Msg) := []
  tuPart : List (Nat × Bytes) := []
  tuSnap : List RowSnap := []
  fx : FxRegs := {}
  amu : AmuRegs := {}
  ou : OuRegs := {}
  da : DaRegs := {}
  cd : CdRegs := {}
  streams : List (Bytes × CStream) := []
  lw : LwRegs := {}
  secEvt : BitVec 16 := 0
  secKind : Byte := 0
  tj : Trace := {}
  coll : Option Coll := none
  ring : Rings := {}
deriving DecidableEq, Repr

/-! ## Lockway (spec/13_lockway.md) -/

/-- A flit that the peer has not acknowledged (R399), with the message it carries the end of. -/
structure SentFlit where
  seq : BitVec 12
  data : Bytes
  replays : Nat
  msg : Option Msg
deriving DecidableEq, Repr

/-- A Lockway port (R393 to R406, R439). `used`: chunks of the peer's buffers taken, by class·3 + VC; `rxUsed`: chunks of its own
buffers that waiting messages hold; `waitTx`: messages that wait for credit, each with the port it came in by plus 1, or 0. -/
structure Port where
  st : BitVec 4 := 0
  lanes : BitVec 8 := 0
  retrained : BitVec 8 := 0
  peerChip : BitVec 8 := 0
  peerPort : BitVec 4 := 0
  lastFail : Code := 0
  delay : BitVec 16 := 0
  backNext : Option (BitVec 8) := none
  fecc : Word := 0
  uncorr : BitVec 16 := 0
  replay : BitVec 16 := 0
  laneDrop : BitVec 16 := 0
  creditErr : BitVec 16 := 0
  c0Over : BitVec 16 := 0
  badMsg : BitVec 16 := 0
  txf : Word := 0
  rxf : Word := 0
  sat : BitVec 3 := 0
  txSeq : BitVec 12 := 0
  rxLast : BitVec 12 := 0xFFF
  nakSent : Bool := false
  unacked : List SentFlit := []
  used : Tab Nat := []
  rxUsed : Tab Nat := []
  owed : Tab Nat := []
  waitTx : List (Nat × Msg) := []
deriving DecidableEq, Repr

/-- A remote transaction in flight (R416 to R419, R436). `st`: 0 sent, 1 answered, 2 timed out, 3 refused, 4 held by a route
change (R419). `seqNo` is its place among the remote accesses of its owner's operation, `gen` the route generation it left under;
`eng` names the barge engine whose transaction slot it holds: cluster + 1, 49 the I/O tile's, 0 none (R212). -/
structure RTx where
  rid : BitVec 16
  owner : Nat
  ctx : Nat
  kind : Nat
  addr : Nat
  len : Nat
  st : Nat := 0
  data : Bytes := []
  taint : Nat := 0
  code : Code := 0
  wdrn : Bool := false
  seqNo : Nat := 0
  cls : Nat := 1
  dst : Nat := 0
  gen : Nat := 0
  eng : Nat := 0
  msg : Option Msg := none
deriving DecidableEq, Repr

/-- A HELLO that the tick master holds (R434). -/
structure Hello where
  chip : Nat
  ident : Word
  ok : Bool
  share : Bytes := []
  trusted : Bool := false
deriving DecidableEq, Repr

/-- The reach (R434, R435, R441). `rstate`: 0 forming, 1 formed, 2 alone. -/
structure Reach where
  rstate : BitVec 2 := 0
  members : BitVec 256 := 0
  routeGen : BitVec 32 := 0
  routes : Tab (BitVec 32) := []
  seenRoutes : Tab (BitVec 32) := []
  links : Tab Bool := []
  linksNow : Tab Bool := []
  linkNext : List (Word × Nat × Bool) := []
  key : Bytes := []
  hellos : List Hello := []
  mgmtStamps : Tab (Word × Nat) := []
  seq : Tab Word := []
  win : Tab (Word × BitVec 1024) := []
deriving DecidableEq, Repr

/-! ## Host interface (spec/14_host_interface.md) -/

/-- A PCIe function: its HI_ and BW_ registers, MSI-X, configuration state and the latches of _HI
registers (value + 1, by the BAR0 offset of the _LO register; 0 while none is held). `sqBaseOn`, `cqBaseOn`: the ring bases in
force, taken at the write that sets EN (R478). -/
structure Fn where
  sqBase : Word := 0
  cqBase : Word := 0
  sqBaseOn : Word := 0
  cqBaseOn : Word := 0
  ringEn : Bool := false
  cqLog2 : BitVec 5 := 0
  sqLog2 : BitVec 5 := 0
  ringErr : Code := 0
  accCode : Code := 0
  notT : BitVec 16 := 0
  dbBad : BitVec 16 := 0
  ide : Bool := false
  ideKey : Bytes := []
  tdi : BitVec 2 := 0
  bme : Bool := false
  memSpace : Bool := false
  d3hot : Bool := false
  msixEn : Bool := false
  msixMask : Bool := false
  msix : Tab (BitVec 32) := []
  pba : BitVec 32 := 0
  bars : Tab Word := []
  latch : Tab Nat := []
  bwAddr : BitVec 48 := 0
  bwInc : Bool := false
  bwSpace : Bool := false
  bwTaint : Bool := false
  bwCode : Code := 0
  ctx : Option Nat := none
deriving DecidableEq, Repr

/-- The HI_ system registers (R478). -/
structure HiSys where
  op : BitVec 4 := 0
  ctx : BitVec 6 := 0
  vf : BitVec 6 := 0
  handle : BitVec 16 := 0
  busy : Bool := false
  res : Code := 0
  bindNext : Option (Nat × Nat × BitVec 16) := none
  unbindCtx : Option Nat := none
  cxChg : Word := 0
  tmoBar0 : BitVec 16 := 0
  speed : BitVec 4 := 6
  width : BitVec 5 := 16
  flit : Bool := true
  vfEnable : Bool := false
  numVfs : Nat := 0
deriving DecidableEq, Repr

/-! ## Security (spec/15_security_and_isolation.md) -/

/-- A pending manifest (R490): its handle, the session that submitted it, the manifest, the job key. -/
structure PendingMan where
  handle : BitVec 16
  sess : Nat
  man : Manifest
  jobKey : Bytes
deriving DecidableEq, Repr

/-- A secured session (R486). -/
structure Session where
  id : Nat
  ready : Bool
  key : Bytes
  trans : Bytes := []
deriving DecidableEq, Repr

/-- The security core. `mode`: 0 normal, 1 recovery, 2 debug. -/
structure Sec where
  mode : BitVec 3 := 0
  debugBit : Bool := false
  scope : BitVec 32 := 0
  icf : BitVec 16 := 0
  auth : BitVec 16 := 0
  pending : List PendingMan := []
  nextHandle : BitVec 16 := 1
  sessions : List Session := []
  nextSess : Nat := 1
  nonce : Option Bytes := none
  cdi : Bytes := []
  aliasPub : Bytes := []
  cert : Bytes := []
  sysMemKey : Bytes := []
  sysExpKey : Bytes := []
  udsLocked : Bool := false
  negotiated : Nat := 0
  trans : Bytes := []
deriving DecidableEq, Repr

/-! ## Boot, power, firmware -/

/-- The flash slot states of R90. -/
inductive SlotState where
  | empty
  | active
  | pending
  | standby
  | failed
deriving DecidableEq, Repr

/-- A flash slot (R81, R90). -/
structure Slot where
  st : SlotState := .empty
  image : Bytes := []
deriving DecidableEq, Repr

/-- The one-time-programmable memory (R82, R87, R88, R92, R482, R484, R510). -/
structure Otp where
  uds : Bytes := []
  signerHash : Bytes := []
  svnMin : BitVec 32 := 0
  debugHash : Bytes := []
  deviceIdHash : Bytes := []
  deviceCert : Bytes := []
  recoveryId : Word := 0
  romDigest : Bytes := []
deriving DecidableEq, Repr

/-- A section of the booted image (R85). -/
structure ImgSec where
  ver : BitVec 32 := 0
  build : BitVec 32 := 0
  digest : Bytes := []
deriving DecidableEq, Repr

/-- The settings that the booted image gives (R83 to R85, R89). -/
structure Cfg where
  svn : BitVec 32 := 0
  chipNum : Nat := 0
  tickMaster : Nat := 0
  tickinEn : Bool := false
  expertEn : Bool := false
  svnCommit : Bool := false
  tickPeriod : Nat := 5000
  liveMax : Nat := 524288
  pwrLimit : Nat := 0
  pwrProfile : Nat := 0
  slackIdle : Nat := 0
  vid : BitVec 16 := 0
  did : BitVec 16 := 0
  vfDid : BitVec 16 := 0
  ssvid : BitVec 16 := 0
  ssid : BitVec 16 := 0
  numVf : Nat := 0
  pciClass : BitVec 24 := 0
  topo : Nat := 0
  topoX : Nat := 1
  topoY : Nat := 1
  group : Nat := 2
  reachWait : Nat := 100
  ports : List Word := []
  arbHbm : BitVec 6 := 0
  arbLw : BitVec 12 := 0
  splitRd : Nat := 0
  splitWr : Nat := 0
  splitRm : Nat := 0
  secs : List ImgSec := []
  digest : Bytes := []
deriving DecidableEq, Repr

/-- The boot phases (R74 to R79, R92, R104, R522, R579, R594). `held` is PERST_N high with no main power or a trip latch that
keeps the 2840 in reset; `stopped` is a stop that only PERST_N ends (rail fault, thermal trip, SEC loss). -/
inductive Phase where
  | noAux
  | off
  | reset
  | booting
  | ready
  | recovery
  | offline
  | stopped
deriving DecidableEq, Repr

/-- Boot state and the FW_UPD_ registers (R93 to R95). `upd`: 0 idle, 1 open, 2 verifying, 3 verified, 4 writing, 5 pending;
`recover`: the present boot found no slot to run and ends in recovery; `l3`: the image that the harbor L3 stages during boot
(R76 step 3). -/
structure Boot where
  phase : Phase := .noAux
  slotA : Slot := {}
  slotB : Slot := {}
  booted : Bool := false
  fallback : Bool := false
  recover : Bool := false
  l3 : Bytes := []
  upd : BitVec 4 := 0
  updLen : BitVec 32 := 0
  updResult : Code := 0
  verifyCode : Code := 0
  progress : BitVec 32 := 0
  staging : Tab Byte := []
  lkcFailed : Bool := false
  secFailed : Bool := false
  lkcMiss : Nat := 0
  cmd : BitVec 3 := 0
deriving DecidableEq, Repr

/-- The tick, the pound number and LK_ (R40 to R53, R70). Times are in 0.1 ns. -/
structure Tick where
  pound : Word := 0
  started : Bool := false
  resync : Bool := false
  tickinLost : Bool := false
  holdover : Bool := false
  tickinLock : Bool := false
  skew : BitVec 32 := 0
  tickinOfs : BitVec 32 := 0
  holdRun : Nat := 0
  msgSeen : Bool := false
  announced : Word := 0
  elapsed : BitVec 32 := 0
  nextAt : Int := 0
  adj : Int := 0
  ignored : Nat := 0
  lostReach : Bool := false
deriving DecidableEq, Repr

/-- A rotation entry (R54, R71). -/
structure RotEntry where
  valid : Bool := false
  ctx : BitVec 6 := 0
  slice : BitVec 16 := 0
deriving DecidableEq, Repr

/-- The rotation: shadow, committed and in force, and the place in it (R54 to R57, R71, R73); `poundStarted`: in this pound a segment
has issued, or a barge, transfer, codec job or fault has been outstanding (R100). -/
structure Rot where
  shadow : Tab RotEntry := []
  shadowLen : BitVec 9 := 0
  pLo : BitVec 32 := 0
  pHi : BitVec 32 := 0
  next : List (Word × List RotEntry) := []
  part : Tab (BitVec 32) := []
  force : List RotEntry := []
  idx : Nat := 0
  left : Nat := 0
  holder : Option Nat := none
  saving : Bool := false
  savingCtx : Option Nat := none
  poundStarted : Bool := false
deriving DecidableEq, Repr

/-- PM_ power state (R99 to R106). `st`: 0 Running, 1 Slack water, 2 MOOR_READY; `bellSeen`: a doorbell came in this pound. -/
structure Pm where
  st : BitVec 2 := 0
  auto : Bool := false
  wakeSrc : BitVec 4 := 0
  slack : Word := 0
  enterNext : Bool := false
  autoNext : Bool := false
  idleRun : Nat := 0
  wakeNext : BitVec 4 := 0
  bellSeen : Bool := false
  req : BitVec 2 := 0
deriving DecidableEq, Repr

/-- The wake block and the sideband pins (R583, R594, R595, R603). -/
structure Wake where
  auxUp : Bool := false
  mainUp : Bool := false
  mainEn : Bool := false
  perstHigh : Bool := false
  tripLatch : Bool := false
  thermTrip : Bool := false
  railFault : Bool := false
  tripSeen : Bool := false
  hold1s : Bool := false
  smbAlert : Bool := false
deriving DecidableEq, Repr

/-- Sensors, clocks and the governor (R519 to R524, R545, R598 to R604). `clk`: the clocks in MHz of the domains that change, 0 to 7
the cluster groups and 8 and 9 the harbor complexes (R30, R524). -/
structure Gov where
  minSafe : Bool := false
  brake : Bool := false
  throttled : BitVec 8 := 0
  clockClamp : Bool := false
  clkReq : Nat := 0
  clkNext : Option Nat := none
  clk : Tab Nat := []
  under : Nat := 0
  clamp : BitVec 16 := 0
  throttle : BitVec 16 := 0
  wdog : BitVec 16 := 0
  tjMax : Byte := 0
  tj : Byte := 0
  cardW : BitVec 16 := 0
  warn : Bool := false
  brakeCnt : BitVec 16 := 0
  warnCnt : BitVec 16 := 0
deriving DecidableEq, Repr

/-- A log record (R541, R543). -/
structure LogRec where
  w0 : Word := 0
  w1 : Word := 0
  w2 : Word := 0
  w3 : Word := 0
deriving DecidableEq, Repr

/-- Firmware duties: the log ring, collisions, clusters and spares (R514 to R532, R545). `map` gives, for a logical cluster,
physical number + 1, or 0 when vacant. `images`: the firmware images of the firmware reserve, by directory type (R76 step 6, R170).
`scrubBad`: physical clusters of which a bank reports every scrub as failed; `clOff`: logical clusters that therefore do not run in
this pound (R502). -/
structure Fw where
  log : Tab LogRec := []
  logHead : BitVec 15 := 0
  logPh : Bool := true
  logWrap : BitVec 16 := 0
  collide : Word := 0
  collSat : Bool := false
  fenced : BitVec 52 := 0
  hartFenced : BitVec 16 := 0
  map : Tab Nat := []
  images : Tab Bytes := []
  scrubBad : List Nat := []
  clOff : List Nat := []
  fenceDue : List (Nat × Nat) := []
  unitLost : List (Nat × Bool) := []
deriving DecidableEq, Repr

/-- One HBM stack (R173, R174, R207, R575, R577). -/
structure Stack where
  ue : BitVec 16 := 0
  ce : BitVec 16 := 0
  icf : BitVec 16 := 0
  tmoRun : Nat := 0
deriving DecidableEq, Repr

/-- Memory: HBM bytes, line taint, latent line errors (1 uncorrectable, 2 forged tag, 3 correctable), lines whose next
transaction gets no response, the ownership table (context + 1 per 64 KiB page), page tables and their pool (the number of the pool page,
plus 1, that holds a table). `patrolRun`: pounds since the last completed patrol pass. -/
structure Mem where
  hbm : Tab Byte := []
  taint : Tab Bool := []
  lineErr : Tab Nat := []
  noResp : Tab Bool := []
  own : Tab Nat := []
  pte : Tab Word := []
  tables : Tab Nat := []
  stks : Tab Stack := []
  cmem : Tab Byte := []
  cline : Tab LineBits := []
  cmemErr : Tab Bool := []
  cmemUe : Tab Nat := []
  patrolRun : Nat := 0
deriving DecidableEq, Repr

/-- An agent that waits for a page (R190, R195): the agent's id, its context, the page VA[47:16], its write bit, whether its
page request is queued; `woken` when a mapping covered the page while another context held the pound. -/
structure FaultWait where
  id : Nat
  ctx : Nat
  page : Nat
  wr : Bool
  queued : Bool
  woken : Bool := false
deriving DecidableEq, Repr

/-- What the block tells the outside (spec/01 R32): host writes, interrupts, read answers, Lockway flits, pins, SPDM, SMBus and
JTAG answers. -/
inductive Out where
  | hostWrite (fn : Nat) (addr : Word) (data : Bytes)
  | msix (fn vec : Nat)
  | readData (fn : Nat) (off : Nat) (v : Word)
  | barData (fn : Nat) (off : Nat) (data : Bytes)
  | noAnswer (fn : Nat)
  | unsupported (fn : Nat)
  | retryStatus (fn : Nat)
  | cfgData (fn : Nat) (off : Nat) (v : BitVec 32)
  | flit (port : Nat) (data : Bytes)
  | lockway (port : Nat) (m : Msg)
  | spdm (data : Bytes)
  | tdisp (fn : Nat) (data : Bytes)
  | doe (data : Bytes)
  | smbus (data : Bytes)
  | mctp (data : Bytes)
  | jtag (bits : List Bool)
  | pulse (pin : String)
  | level (pin : String) (high : Bool)
deriving DecidableEq, Repr

/-- Management: MCTP endpoint, PLDM terminus, JTAG instruction (R588, R589). -/
structure Mgmt where
  eid : Byte := 0
  tid : Byte := 0
  jtagIr : Byte := 2
  preload : List Bool := []
  bypass : Bool := false
deriving DecidableEq, Repr

/-- The state of the 2840. `turn`: for each Yoren core (8·cluster + core), the thread after the one that last issued (R107). -/
structure State where
  pending : List Instr := []
  free : Nat := 0
  nextId : Nat := 1
  rid : BitVec 16 := 0
  racc : Nat := 0
  out : List Out := []
  boot : Boot := {}
  otp : Otp := {}
  cfg : Cfg := {}
  tick : Tick := {}
  rot : Rot := {}
  pm : Pm := {}
  wake : Wake := {}
  gov : Gov := {}
  fw : Fw := {}
  sec : Sec := {}
  hi : HiSys := {}
  mgmt : Mgmt := {}
  sysTrig : Tab (BitVec 16) := []
  fns : Tab Fn := []
  ctxs : Tab Ctx := []
  threads : Tab Thread := []
  turn : Tab Nat := []
  barriers : Tab (List Nat) := []
  ops : List MemOp := []
  units : Tab UnitQ := []
  amu : Tab AmuEntry := []
  queues : Tab BQueue := []
  tows : List TowOp := []
  flights : List Flight := []
  codecWait : List (Nat × Nat) := []
  lanes : Tab Lane := []
  harts : Tab Hart := []
  ports : Tab Port := []
  rtxs : List RTx := []
  reach : Reach := {}
  faults : List FaultWait := []
  mem : Mem := {}
deriving DecidableEq, Repr

/-- Why the machine stops. Raised where the spec leaves what happens next without any effect. -/
inductive Fault where
  /-- PERST_N rose while the main rails and clocks were not as R592 requires: "the boot is not defined" (spec/19 Corners).
  Raised by PERST_N_RISE. Safe: the hardware goes on in a way no claim can follow. -/
  | bootUndefined
deriving DecidableEq, Repr

/-- Why a command has no meaning. -/
inductive Refusal where
  /-- The command is not modelled yet. Raised by exec alone. Safe: the machine stops. -/
  | notModelled (mnemonic : String)
deriving DecidableEq, Repr

/-- The machine before any power: every register at the Reset value of its table, the queue empty, no rail up, memory with
nothing listed (R15; R595: everything begins with V3P3_AUX coming up). -/
def State.reset : State := {}

end Sys2Proof.Machine
end

