-- ==== Sys2Proof/Machine/Base.lean ====
section
/-! DEFINITION. The shared vocabulary of every meaning: access to the tables of the state, error codes, outputs, interrupts, the
log ring, the states of a context, completions, security events and pre-emption. -/

namespace Sys2Proof.Machine

/-- What exec answers. -/
abbrev Ans := Host.Outcome State Fault Refusal

/-! ## Access -/

def gCtx (s : State) (n : Nat) : Ctx := Tab.get {} s.ctxs n
def uCtx (s : State) (n : Nat) (f : Ctx → Ctx) : State := { s with ctxs := Tab.modify {} s.ctxs n f }
def gFn (s : State) (n : Nat) : Fn := Tab.get {} s.fns n
def uFn (s : State) (n : Nat) (f : Fn → Fn) : State := { s with fns := Tab.modify {} s.fns n f }
def gPort (s : State) (n : Nat) : Port := Tab.get {} s.ports n
def uPort (s : State) (n : Nat) (f : Port → Port) : State := { s with ports := Tab.modify {} s.ports n f }
def gHart (s : State) (n : Nat) : Hart := Tab.get {} s.harts n
def uHart (s : State) (n : Nat) (f : Hart → Hart) : State := { s with harts := Tab.modify {} s.harts n f }
def gTh (s : State) (n : Nat) : Thread := Tab.get {} s.threads n
def uTh (s : State) (n : Nat) (f : Thread → Thread) : State := { s with threads := Tab.modify {} s.threads n f }
def gQueue (s : State) (n : Nat) : BQueue := Tab.get {} s.queues n
def uQueue (s : State) (n : Nat) (f : BQueue → BQueue) : State := { s with queues := Tab.modify {} s.queues n f }
def gUnit (s : State) (n : Nat) : UnitQ := Tab.get {} s.units n
def uUnit (s : State) (n : Nat) (f : UnitQ → UnitQ) : State := { s with units := Tab.modify {} s.units n f }
def gLane (s : State) (n : Nat) : Lane := Tab.get {} s.lanes n
def uLane (s : State) (n : Nat) (f : Lane → Lane) : State := { s with lanes := Tab.modify {} s.lanes n f }
def gStack (s : State) (n : Nat) : Stack := Tab.get {} s.mem.stks n
def uStack (s : State) (n : Nat) (f : Stack → Stack) : State := { s with mem := { s.mem with stks := Tab.modify {} s.mem.stks n f } }
def uMem (s : State) (f : Mem → Mem) : State := { s with mem := f s.mem }

/-- Something the outside sees. -/
def emit (s : State) (o : Out) : State := { s with out := s.out ++ [o] }

def uWake (s : State) (f : Wake → Wake) : State := { s with wake := f s.wake }

/-- MAIN_EN takes a level. -/
def driveMain (s : State) (b : Bool) : State :=
  if s.wake.mainEn = b then s else emit (uWake s (fun w => { w with mainEn := b })) (.level "MAIN_EN" b)

/-- A fresh identifier of an operation. -/
def freshId (s : State) : Nat × State := (s.nextId, { s with nextId := s.nextId + 1 })

/-- A free value of Config has been used: the next use is a fresh one. -/
def useFree (s : State) : State := { s with free := s.free + 1 }

/-- A fresh index for a free value of Config. -/
def freshFree (s : State) : Nat × State := (s.free, { s with free := s.free + 1 })

/-- `n` fresh random bytes of the SEC generator (R498). -/
def randomBytes (s : State) (n : Nat) : Bytes × State :=
  ((List.range n).map (Config.randomByte s.free), { s with free := s.free + 1 })

/-! ## Error codes (R565) -/

def eRange : Code := 0x01
def eDenied : Code := 0x02
def eBusy : Code := 0x03
def eTableFull : Code := 0x04
def eReshape : Code := 0x05
def eIllegal : Code := 0x10
def eAlign : Code := 0x11
def eUninit : Code := 0x12
def eOverrun : Code := 0x20
def eTickLost : Code := 0x21
def eUnitLost : Code := 0x22
def eIntegrity : Code := 0x30
def eReplay : Code := 0x31
def eTdisp : Code := 0x32
def eCredit : Code := 0x40
def eTmoHbm : Code := 0x41
def eTmoCredit : Code := 0x42
def eTmoBar0 : Code := 0x43
def eTmoTow : Code := 0x44
def eTmoBarge : Code := 0x45
def eTmoLw : Code := 0x46
def eHost : Code := 0x47
def eParse : Code := 0x50
def eSat : Code := 0x60

/-- The lower of two codes, 0 being none (R567). -/
def lowCode (a b : Code) : Code := if a = 0 then b else if b = 0 then a else if a ≤ b then a else b

/-! ## Phases -/

/-- The 2840 is ready and not offline. -/
def isReady (s : State) : Bool := s.boot.phase == .ready

/-- The 2840 answers the host at all. -/
def answersHost (s : State) : Bool := s.boot.phase == .ready || s.boot.phase == .recovery || s.boot.phase == .offline

/-- A function's BARs decode: the 2840 answers, Memory Space Enable is set and the function is not in D3hot (R75, R442; spec/14
Corners). -/
def barOpen (s : State) (fn : Nat) : Bool := answersHost s && (gFn s fn).memSpace && !(gFn s fn).d3hot

/-- It runs and is not in slack water: agents may work (R99, R101). -/
def isRunning (s : State) : Bool := isReady s && s.pm.st != 1

/-- Context `n` holds the pound and its agents are not halted (R58, R65, R101). -/
def holds (s : State) (n : Nat) : Bool :=
  isRunning s && (s.rot.holder == some n) && !s.rot.saving && ((gCtx s n).st == .running)

/-- The physical cluster of a logical one failed its scrub and the context does not run on it in this pound (R502). -/
def clServes (s : State) (cl : Nat) : Bool := !s.fw.clOff.contains cl

/-- A context that has a function bound (R58). -/
def isBound (s : State) (n : Nat) : Bool := n == 0 || (gCtx s n).st != .free

/-- The function bound to a context (R444). -/
def fnOf (s : State) (n : Nat) : Option Nat := if n = 0 then some 0 else (gCtx s n).bind.vf

/-- The context of a function (R444). -/
def ctxOf (s : State) (f : Nat) : Option Nat := if f = 0 then some 0 else (gFn s f).ctx

/-- The manifest of a context, an empty one when it has none. -/
def manOf (s : State) (n : Nat) : Manifest := (gCtx s n).bind.man.getD {}

/-- CX_EXPERT (R96, R98). -/
def isExpert (s : State) (n : Nat) : Bool := (gCtx s n).expert

/-- The context consents to statistics (R505). -/
def consentStats (s : State) (n : Nat) : Bool := (manOf s n).consent.getLsbD 1

/-- The context consents to trace (R561). -/
def consentTrace (s : State) (n : Nat) : Bool := (manOf s n).consent.getLsbD 0

/-! ## Log ring (R541, R543) -/

/-- Writes a log record: trace point, core kind, cluster, severity, two arguments. -/
def logRec (s : State) (tp core cl sev : Nat) (a0 a1 : Word) : State :=
  let w0 := place tp 63 48 ||| place core 47 46 ||| place cl 45 40 ||| place sev 39 38 ||| place (b2n s.fw.logPh) 0 0
  let h := s.fw.logHead.toNat
  let fw := { s.fw with log := Tab.set {} s.fw.log h { w0 := w0, w1 := s.tick.pound, w2 := a0, w3 := a1 } }
  if h + 1 = 32768 then
    { s with fw := { fw with logHead := 0, logPh := !fw.logPh, logWrap := bump16 fw.logWrap 1 } }
  else { s with fw := { fw with logHead := BitVec.ofNat 15 (h + 1) } }

/-- A collision of two orders (R527): counted, CMD_COLLIDE saturating with COLL_SAT, and logged with the two ranks. -/
def collideRec (s : State) (hi lo : Nat) : State :=
  let s := { s with fw := { s.fw with collide := bump64 s.fw.collide 1, collSat := s.fw.collSat || sat64 s.fw.collide 1 } }
  logRec s 0x0050 2 63 1 (BitVec.ofNat 64 hi) (BitVec.ofNat 64 lo)

/-! ## MSI-X (R468) -/

/-- The value of an MSI-X table word before software writes it: the vector control word holds its mask bit set. -/
def msixDefault (i : Nat) : BitVec 32 := if i % 4 = 3 then 1 else 0

/-- A word of the MSI-X table of a function. -/
def msixWord (f : Fn) (i : Nat) : BitVec 32 := Tab.get (msixDefault i) f.msix i

/-- A vector may be sent now. -/
def msixOpen (f : Fn) (v : Nat) : Bool := f.msixEn && !f.msixMask && f.bme && !(msixWord f (4 * v + 3)).getLsbD 0

/-- Raises vector `v` of function `f`: sent, or kept pending while masked. -/
def raiseVec (s : State) (f v : Nat) : State :=
  let fn := gFn s f
  if !fn.msixEn then s
  else if msixOpen fn v then emit s (.msix f v)
  else uFn s f (fun fn => { fn with pba := fn.pba ||| ((1 : BitVec 32) <<< v) })

/-- Sends the pending vectors of a function that are no longer masked. -/
def sendPending (s : State) (f : Nat) : State :=
  (List.range 32).foldl (fun s v =>
    let fn := gFn s f
    if fn.pba.getLsbD v && msixOpen fn v then emit (uFn s f (fun fn => { fn with pba := fn.pba &&& ~~~((1 : BitVec 32) <<< v) })) (.msix f v) else s) s

/-- Raises a vector of the function bound to a context. -/
def raiseCtx (s : State) (n v : Nat) : State :=
  match fnOf s n with
  | some f => raiseVec s f v
  | none => s

/-! ## Context states (R58) -/

/-- Moves a context to a state: CX_CHG, vector 2 of the PF and of the bound function (R468). -/
def setSt (s : State) (n : Nat) (st : CtxState) : State :=
  if (gCtx s n).st = st then s
  else
    let s := uCtx s n (fun c => { c with st := st })
    let s := { s with hi := { s.hi with cxChg := s.hi.cxChg ||| ((1 : Word) <<< n) } }
    let s := raiseVec s 0 2
    if n = 0 then s else raiseCtx s n 2

/-- A context enters Faulted with a code at the next tick (R149, R177, R575); the lowest code is kept (R567). -/
def faultAtTick (s : State) (n : Nat) (c : Code) : State :=
  uCtx s n (fun x => { x with sch := { x.sch with faultNext := lowCode x.sch.faultNext c } })

/-! ## Rings of indices (R458) -/

/-- The index after a ring index of a ring of 2^k entries: [16] is the phase. -/
def ringNext (k : Nat) (x : BitVec 17) : BitVec 17 :=
  if x.toNat % 65536 + 1 = 2 ^ k then BitVec.ofNat 17 (65536 * (1 - x.toNat / 65536)) else x + 1

/-- Entries between head and tail of a ring of 2^k entries. -/
def ringCount (k : Nat) (head tail : BitVec 17) : Nat :=
  let h := head.toNat % 65536
  let t := tail.toNat % 65536
  if head.toNat / 65536 = tail.toNat / 65536 then t - h else 2 ^ k + t - h

/-! ## Completions (R466) -/

/-- Completion entry bytes. -/
def cqeBytes (phase : Bool) (c : Cqe) : Bytes :=
  wordBytes (place (b2n phase) 63 63 ||| place c.code.toNat 55 48 ||| place c.cid.toNat 31 0) ++ wordBytes c.w1 ++ slice c.tag 0 16

/-- The function's DMA may run: rings enabled, Bus Master Enable set, TDI not in ERROR (R465, R477). -/
def dmaOn (f : Fn) : Bool := f.bme && f.tdi != 3

/-- Writes the waiting completions of a context while its ring has room. -/
def flushCq (s : State) (n : Nat) : Nat → State
  | 0 => s
  | k + 1 =>
    match (gCtx s n).ring.cqes, fnOf s n with
    | c :: rest, some f =>
      let fn := gFn s f
      let r := (gCtx s n).ring
      let lg := fn.cqLog2.toNat
      if !fn.ringEn || !dmaOn fn || 2 ^ lg ≤ ringCount lg r.cqHead r.cqTail then s
      else
        let idx := r.cqTail.toNat % 65536
        let s := emit s (.hostWrite f (fn.cqBaseOn + BitVec.ofNat 64 (32 * idx)) (cqeBytes (!r.cqTail.getLsbD 16) c))
        let s := uCtx s n (fun x => { x with ring := { x.ring with cqes := rest, cqTail := ringNext lg r.cqTail } })
        flushCq (raiseVec s f 0) n k
    | _, _ => s

/-- Adds a completion; it waits while the ring is full, and none is lost. -/
def pushCqe (s : State) (n : Nat) (c : Cqe) : State :=
  let s := uCtx s n (fun x => { x with ring := { x.ring with cqes := x.ring.cqes ++ [c] } })
  flushCq s n (gCtx s n).ring.cqes.length

/-- Completes a submission entry with a code and takes it off the list (R460, R466). -/
def completeEntry (s : State) (n : Nat) (e : SqEntry) (code : Code) (tag : Bytes) (w1 : Word) : State :=
  let s := uCtx s n (fun x => { x with ring := { x.ring with entries := x.ring.entries.filter (fun y => y.id != e.id) } })
  pushCqe s n { code := code, cid := e.cid, w1 := w1, tag := tag }

/-- Word 1 of an entry's completion (R466). -/
def entryW1 (s : State) (n : Nat) (e : SqEntry) : Word :=
  if e.op = 1 || e.op = 2 then (gCtx s n).sch.step
  else if e.op = 4 && e.sealed then e.nonce
  else if e.op = 3 || e.op = 4 then BitVec.ofNat 64 e.len
  else 0

/-- Every fetched entry that has not completed completes with a code, in the order of fetching (R467). -/
def failEntries (s : State) (n : Nat) (code : Code) : List SqEntry → State
  | [] => uCtx s n (fun x => { x with ring := { x.ring with runActive := false, haltReq := false } })
  | e :: r => failEntries (completeEntry s n e code [] (entryW1 s n e)) n code r

/-! ## Ending the work of a context -/

/-- Discards the agents of a context: threads, operations, unit commands, transfers, flights, codec jobs, faults, remote requests,
harts, its segments (R58, R508, R579). -/
def discardAgents (s : State) (n : Nat) : State :=
  let s := { s with
    ops := s.ops.filter (fun o => o.ctx != n)
    tows := s.tows.filter (fun o => o.ctx != n)
    flights := s.flights.filter (fun o => o.ctx != n)
    faults := s.faults.filter (fun o => o.ctx != n)
    rtxs := s.rtxs.filter (fun o => o.ctx != n)
    units := s.units.filter (fun e => e.1 / 240 != n)
    queues := Tab.mapV {} (fun q => { q with descs := q.descs.filter (fun d => d.ctx != n) }) s.queues
    lanes := Tab.mapV {} (fun l => if l.ctx = some n then { l with ctx := none, flight := 0, stage := 0, saving := false } else l) s.lanes }
  let s := uCtx s n (fun c => { c with coll := none, sch := { c.sch with segs := [], threads := [], barriers := [], harts := [], faultNext := 0, issued := false } })
  if s.rot.holder = some n then { s with threads := [], barriers := [], harts := [] } else s

/-- A context enters Faulted with a code (R58): its work ends, its entries complete with the code (R467). -/
def enterFaulted (s : State) (n : Nat) (c : Code) : State :=
  if (gCtx s n).st = .free || (gCtx s n).st = .faulted then s
  else
    let s := discardAgents s n
    let s := setSt s n .faulted
    let s := uCtx s n (fun x => { x with err := c })
    failEntries s n c (gCtx s n).ring.entries

/-! ## Pre-emption and security events (R64 to R66, R507, R508) -/

/-- Pre-empts a context in mid-pound: its agents halt and its save begins. Two events in one pound make one save. -/
def preempt (s : State) (n : Nat) : State :=
  if holds s n then { s with rot := { s.rot with saving := true, savingCtx := some n } } else s

/-- A security event of a kind (R513: 1 integrity, 2 Lockway tag, 3 Lockway replay) against a context. -/
def securityEvent (s : State) (n kind : Nat) : State :=
  let s := { s with sec := if kind = 1 then { s.sec with icf := bump16 s.sec.icf 1 } else { s.sec with auth := bump16 s.sec.auth 1 } }
  let s := logRec s 0x0060 0 63 2 (BitVec.ofNat 64 kind) 0
  if (gCtx s n).st = .free || n = 0 then s
  else
    let s := uCtx s n (fun c => { c with secEvt := bump16 c.secEvt 1, secKind := BitVec.ofNat 8 kind })
    if (manOf s n).secTol < (gCtx s n).secEvt.toNat then faultAtTick (preempt s n) n eIntegrity else s

/-! ## Leaving the reach and going offline (R51, R104, R579) -/

/-- The chip leaves its reach: the reach key is destroyed (R500), the event logged. -/
def leaveReachCore (s : State) : State :=
  if s.reach.rstate = 1 then
    logRec { s with reach := { s.reach with rstate := 2, members := 1 <<< s.cfg.chipNum, key := [] } } 0x0011 2 63 1 (BitVec.ofNat 64 s.cfg.chipNum) 0
  else s

/-- Ends every context with a code. -/
def faultAll (s : State) (c : Code) : State := (List.range 64).foldl (fun s n => enterFaulted s n c) s

def uBoot (s : State) (f : Boot → Boot) : State := { s with boot := f s.boot }

/-- The slot that a COMMIT writes is B: the slot that is not Active (R93). -/
def targetIsB (b : Boot) : Bool := b.slotA.st == .active || (b.slotB.st != .active && b.slotA.st == .standby && b.slotB.st != .standby)

/-- A flash write in progress stops; its target slot is Failed (R94). -/
def commitFail (s : State) : State :=
  if s.boot.upd = 4 then
    uBoot s (fun b => if targetIsB b then { b with upd := 0, slotB := { b.slotB with st := .failed } } else { b with upd := 0, slotA := { b.slotA with st := .failed } })
  else s

/-- The 2840 goes offline (R579). -/
def goOffline (s : State) : State :=
  let s := faultAll (commitFail s) eUnitLost
  let s := leaveReachCore s
  { s with boot := { s.boot with phase := .offline }, rot := { s.rot with holder := none, saving := false, savingCtx := none } }

end Sys2Proof.Machine
end

