-- ==== Sys2Proof/Machine/Mem.lean ====
section
/-! DEFINITION. Local memory (spec/06_memory_and_translation.md): HBM lines with taint and their latent errors, the page walker,
fault records, page requests, statistics counters, cluster memory. -/

namespace Sys2Proof.Machine

/-- Cuts [addr, addr + n) at multiples of `g`: (address, length) pieces in order. -/
def pieces (g : Nat) : Nat → Nat → Nat → List (Nat × Nat)
  | 0, _, _ => []
  | f + 1, addr, n =>
    if n = 0 then [] else
      let k := min n (g - addr % g)
      (addr, k) :: pieces g f (addr + k) (n - k)

/-- The pieces with enough fuel. -/
def cut (g addr n : Nat) : List (Nat × Nat) := pieces g (n / g + 2) addr n

/-- The canonical form of every sparse table of memory: keys strictly rising, nothing listed that reads the same unlisted. -/
def Memory.wf (m : Mem) : Bool :=
  Tab.wf 0 m.hbm && Tab.wf false m.taint && Tab.wf 0 m.lineErr && Tab.wf false m.noResp && Tab.wf 0 m.own && Tab.wf 0 m.pte && Tab.wf 0 m.tables &&
  Tab.wf {} m.stks && Tab.wf 0 m.cmem && Tab.wf {} m.cline && Tab.wf false m.cmemErr && Tab.wf 0 m.cmemUe

/-! ## HBM (R168 to R174, R609, R575, R577)

`Mem.hbm` holds each line as the bytes that its owner wrote: what the controller gives back when it decrypts the line under the key it
was encrypted with (R171). What the stack itself holds is a function of the state: `dramLine`, and `tagWord` beside it. -/

/-- The end of the context pages (R168). -/
def ctxPageEnd : Nat := 0x33D0000000
/-- The end of HBM (R37). -/
def hbmEnd : Nat := 0x3600000000

/-- The first local address of the firmware reserve and of the integrity-tag carve-out (R168). -/
def reserveBase : Nat := 0x33D0000000
def carveOut : Nat := 0x3450000000

/-- The keys of a context; the system's for context 0 (R498). -/
def memKeys (s : State) (n : Nat) : Keys := if n = 0 then { mem := s.sec.sysMemKey, exp := s.sec.sysExpKey } else (gCtx s n).bind.keys

/-- The context whose accesses reach a line of context pages: the owner of its page (R183). -/
def lineCtx (s : State) (line : Nat) : Option Nat := match Tab.get 0 s.mem.own (line / 1024) with
  | 0 => none
  | k + 1 => some k

/-- The ciphertext of a line under a context's memory key: AES-256-XTS, the data unit one line, the tweak the line's local address
(R171). -/
def sealLine (s : State) (ctx line : Nat) (b : Bytes) : Bytes := xtsSeal (memKeys s ctx).mem (64 * line) b

/-- The controller's inverse of `sealLine`. -/
def openLine (s : State) (ctx line : Nat) (b : Bytes) : Bytes := xtsOpen (memKeys s ctx).mem (64 * line) b

/-- The 64 bytes that a stack holds of a line of an owned page (R171). -/
def dramLine (s : State) (line : Nat) : Option Bytes :=
  (lineCtx s line).map (fun n => sealLine s n line (Tab.getMany 0 s.mem.hbm (64 * line) 64))

/-- The local address of a line's tag word (R172). -/
def tagAddr (line : Nat) : Nat := carveOut + line * 2

/-- The tag word of a line of an owned page (R172): TAINT, and a CODE over the ciphertext, the line address and the context number, which
does not verify where integrity was lost. -/
def tagWord (s : State) (line : Nat) : Option (BitVec 16) :=
  match lineCtx s line, dramLine s line with
  | some n, some c =>
    let good := Config.lineCode c (64 * line) n
    some (BitVec.ofBool (Tab.get false s.mem.taint line) ++ (if Tab.get 0 s.mem.lineErr line = 2 then ~~~good else good))
  | _, _ => none

/-- The tag word at a local address of the carve-out; words of lines inside the reserve and the carve-out are unused (R172). -/
def tagAt (s : State) (addr : Nat) : Option (BitVec 16) :=
  let line := (addr - carveOut) / 2
  if carveOut ≤ addr && addr % 2 = 0 && decide (64 * line < ctxPageEnd) then tagWord s line else none

/-- The stack of a local address (R169). -/
def stackOf (addr : Nat) : Nat := (addr / 4096) % 6

/-- A transaction of a stack got its response: the run of timeouts ends. -/
def stackOk (s : State) (line : Nat) : State :=
  if (gStack s (stackOf (64 * line))).tmoRun = 0 then s else uStack s (stackOf (64 * line)) (fun k => { k with tmoRun := 0 })

/-- A transaction on a line timed out (R575): 256 in a row fail the stack. -/
def stackTimeout (s : State) (line : Nat) : State :=
  let k := stackOf (64 * line)
  let s := uStack s k (fun x => { x with tmoRun := x.tmoRun + 1 })
  let s := uMem s (fun m => { m with noResp := Tab.set false m.noResp line false })
  if 256 ≤ (gStack s k).tmoRun then goOffline s else s

/-- A line met by a read (R173, R174): its latent error takes its effect once. `ctx` is the issuing context. -/
def settleLine (s : State) (ctx line : Nat) : State :=
  match Tab.get 0 s.mem.lineErr line with
  | 0 => s
  | e =>
    let s := uMem s (fun m => { m with lineErr := Tab.set 0 m.lineErr line 0 })
    let k := stackOf (64 * line)
    if e = 3 then uStack s k (fun x => { x with ce := bump16 x.ce 1 })
    else
      let s := uMem s (fun m => { m with taint := Tab.set false m.taint line true })
      if e = 1 then uStack s k (fun x => { x with ue := bump16 x.ue 1 })
      else
        let s := uMem s (fun m => { m with hbm := Tab.clear m.hbm (64 * line) (64 * line + 64) })
        let s := uStack s k (fun x => { x with icf := bump16 x.icf 1 })
        securityEvent s ctx 1

/-- Reads bytes of one HBM line: bytes, taint, state. -/
def hbmPiece (s : State) (ctx : Nat) (addr n : Nat) : Bytes × Bool × State :=
  let line := addr / 64
  if Tab.get false s.mem.noResp line then
    let s := uStack s (stackOf addr) (fun x => { x with ue := bump16 x.ue 1 })
    (List.replicate n 0, true, stackTimeout s line)
  else
    let s := settleLine (stackOk s line) ctx line
    (Tab.getMany 0 s.mem.hbm addr n, Tab.get false s.mem.taint line, s)

/-- Reads local HBM: bytes, the OR of the taints, state. -/
def hbmRead (s : State) (ctx addr n : Nat) : Bytes × Bool × State :=
  (cut 64 addr n).foldl (fun (b, t, s) p =>
    let (b', t', s) := hbmPiece s ctx p.1 p.2
    (b ++ b', t || t', s)) ([], false, s)

/-- Writes bytes of one HBM line with a taint (R142, R609). A write that covers part of a line reads it first. -/
def hbmWritePiece (s : State) (ctx addr : Nat) (b : Bytes) (taint : Bool) : State :=
  let line := addr / 64
  if Tab.get false s.mem.noResp line then stackTimeout s line
  else if b.length = 64 then
    uMem (stackOk s line) (fun m => { m with
      hbm := Tab.setMany 0 m.hbm addr b
      taint := Tab.set false m.taint line taint
      lineErr := Tab.set 0 m.lineErr line 0 })
  else
    let s := settleLine (stackOk s line) ctx line
    uMem s (fun m => { m with
      hbm := Tab.setMany 0 m.hbm addr b
      taint := Tab.set false m.taint line (Tab.get false m.taint line || taint) })

/-- Writes local HBM with one taint: the state, and whether a write was lost to a timeout (R575). -/
def hbmWrite (s : State) (ctx addr : Nat) (b : Bytes) (taint : Bool) : State × Bool :=
  (cut 64 addr b.length).foldl (fun (s, lost) p =>
    let line := p.1 / 64
    let gone := Tab.get false s.mem.noResp line
    (hbmWritePiece s ctx p.1 (slice b (p.1 - addr) p.2) taint, lost || gone)) (s, false)

/-- What a stack's temperature sensor reads now (R207): its Reset value before the first tick, then a new sample each pound. -/
def stackTemp (s : State) (k : Nat) : Byte := if s.tick.started then Config.stackTemp (6 * s.tick.pound.toNat + k) else 0

/-- The highest stack temperature (R603). -/
def hbmMax (s : State) : Nat := (List.range 6).foldl (fun a k => max a (stackTemp s k).toNat) 0

/-- Whole hours since the last completed patrol pass, counted in ticks of 10 ns times CFG_TICK_PERIOD (R207). -/
def patrolHours (s : State) : Nat := s.mem.patrolRun * s.cfg.tickPeriod / 360000000000 % 2 ^ 32

/-- Writes zeros with clear tag words over [lo, hi), multiples of 64 (R181, R185). -/
def hbmZero (s : State) (lo hi : Nat) : State :=
  uMem s (fun m => { m with
    hbm := Tab.clear m.hbm lo hi
    taint := Tab.clear m.taint (lo / 64) (hi / 64)
    lineErr := Tab.clear m.lineErr (lo / 64) (hi / 64) })

/-! ## Page tables (R179 to R181, R189, R190) -/

/-- The key of an entry: context, level, and the part of the address that chooses it down to that level. -/
def pteKey (ctx level va : Nat) : Nat :=
  ctx * 2 ^ 40 + level * 2 ^ 36 + (if level = 1 then va / 2 ^ 42 else if level = 2 then va / 2 ^ 29 else va / 2 ^ 16)

def pteOf (s : State) (key : Nat) : Word := Tab.get 0 s.mem.pte key
def setPte (s : State) (key : Nat) (e : Word) : State := uMem s (fun m => { m with pte := Tab.set 0 m.pte key e })

/-- A pointer to a table is well formed: only V and PA are used (R180). -/
def ptrOk (e : Word) : Bool := onlyBits e (msk 59 24 ||| 1)

/-- What a walk finds: a leaf with its level, key and entry, or a fault of a KIND. -/
inductive Walk where
  | leaf (level key : Nat) (e : Word)
  | bad (kind : Nat)
deriving DecidableEq, Repr

/-- The chip and the local address of a global physical address (R36). -/
def chipOf (pa : Nat) : Nat := pa / 2 ^ 44
def localOf (pa : Nat) : Nat := pa % 2 ^ 44

/-- The physical address that a leaf gives a virtual address. -/
def leafPa (level : Nat) (e : Word) (va : Nat) : Nat :=
  fld e 59 24 * 65536 + (if level = 2 then va % 2 ^ 29 else va % 65536)

/-- A leaf is well formed (R180, R189). -/
def leafOk (s : State) (level : Nat) (e : Word) : Bool :=
  fld e 63 60 = 0 && !bitOf e 3 && (bitOf e 7 == (level == 2)) && !(bitOf e 2 && chipOf (fld e 59 24 * 65536) != s.cfg.chipNum)

/-- The walk of a context's tables (R179). -/
def walk (s : State) (ctx va : Nat) : Walk :=
  let e1 := pteOf s (pteKey ctx 1 va)
  if !bitOf e1 0 then .bad 0
  else if !ptrOk e1 then .bad 2
  else
    let e2 := pteOf s (pteKey ctx 2 va)
    if !bitOf e2 0 then .bad 0
    else if bitOf e2 7 then (if leafOk s 2 e2 then .leaf 2 (pteKey ctx 2 va) e2 else .bad 2)
    else if !ptrOk e2 then .bad 2
    else
      let e3 := pteOf s (pteKey ctx 3 va)
      if !bitOf e3 0 then .bad 0
      else if leafOk s 3 e3 then .leaf 3 (pteKey ctx 3 va) e3 else .bad 2

/-- The window of logical cluster c (R38). -/
def windowBase : Nat := 0x80000000000
/-- The cluster and the offset that a local address of the window range names. -/
def windowOf (loc : Nat) : Option (Nat × Nat) :=
  if windowBase ≤ loc && loc < windowBase + 48 * 0x1000000 && (loc - windowBase) % 0x1000000 < 0x800000 then
    some ((loc - windowBase) / 0x1000000, (loc - windowBase) % 0x1000000)
  else none

/-- The basins of a context on a cluster. -/
def basinsOf (s : State) (ctx cl : Nat) : List Basin := ((manOf s ctx).cls.getD cl {}).basins

/-- A leaf onto a cluster window is one that firmware wrote for a basin (R175, R190). -/
def basinLeaf (s : State) (ctx va pa : Nat) : Bool :=
  chipOf pa = s.cfg.chipNum &&
  match windowOf (localOf pa) with
  | none => false
  | some (cl, off) =>
    (basinsOf s ctx cl).any (fun b =>
      decide (b.va.toNat / 65536 ≤ va / 65536) && decide (va / 65536 ≤ (b.va.toNat + b.size - 1) / 65536) &&
      decide (off + b.va.toNat = va + b.base))

/-- A translated access. -/
structure Xl where
  level : Nat
  key : Nat
  e : Word
  pa : Nat
deriving DecidableEq, Repr

/-- ACCESS values of R191. -/
def accRead : Nat := 0
def accWrite : Nat := 1
def accAtomic : Nat := 2

/-- Translates an access (R190): the translation, or the KIND of the fault. -/
def xlate (s : State) (ctx acc va : Nat) : Except Nat Xl :=
  match walk s ctx va with
  | .bad k => .error k
  | .leaf level key e =>
    let pa := leafPa level e va
    if (acc = accWrite || acc = accAtomic) && !bitOf e 1 then .error 1
    else if localOf pa < ctxPageEnd || basinLeaf s ctx va pa then .ok { level := level, key := key, e := e, pa := pa }
    else .error 3

/-- The sub-block of a leaf that an address lies in, and its size (R180). -/
def subBlock (level va : Nat) : Nat := if level = 2 then va % 2 ^ 29 / 2 ^ 25 else va % 65536 / 4096
def subSize (level : Nat) : Nat := if level = 2 then 2 ^ 25 else 4096

/-- A sub-block of a zero-fill leaf that nothing has written (R181). -/
def isHole (x : Xl) (va : Nat) : Bool := bitOf x.e 2 && !bitOf x.e (8 + subBlock x.level va)

/-- The walker's atomic update of A and D (R181). -/
def touchLeaf (s : State) (x : Xl) (wr : Bool) : State :=
  setPte s x.key (pteOf s x.key ||| place 1 6 6 ||| (if wr then place 1 5 5 else 0))

/-- The first write to an unwritten sub-block: zeros, then its WMASK bit (R181). -/
def fillHole (s : State) (x : Xl) (va : Nat) : State :=
  if isHole x va then
    let lo := localOf x.pa / subSize x.level * subSize x.level
    let i := 8 + subBlock x.level va
    let s := hbmZero s lo (lo + subSize x.level)
    setPte s x.key (pteOf s x.key ||| place 1 i i)
  else s

/-! ## Cluster memory (R175 to R178) -/

/-- The key of a byte of a cluster's memory, and of a line. -/
def clKey (cl off : Nat) : Nat := cl * 0x800000 + off
def clLine (s : State) (key : Nat) : LineBits := Tab.get {} s.mem.cline (key / 64)

/-- A range lies inside one basin of a context on a cluster (R139, R178). -/
def inBasin (s : State) (ctx cl off n : Nat) : Bool :=
  (basinsOf s ctx cl).any (fun b => decide (b.base ≤ off) && decide (off + n ≤ b.base + b.size))

/-- The lines of a range of cluster memory that nothing has written since the switch (R177). -/
def unwritten (s : State) (cl off n : Nat) : Nat :=
  ((cut 64 (clKey cl off) n).filter (fun p => !(clLine s p.1).written)).length

/-- Reads cluster memory: bytes, taint, state. A line with an uncorrectable error is tainted and counted in the cluster's CCC log
(R204). Unwritten lines read zero; their count is `unwritten`. -/
def clRead (s : State) (cl off n : Nat) : Bytes × Bool × State :=
  (cut 64 (clKey cl off) n).foldl (fun (b, t, s) p =>
    let line := p.1 / 64
    let s := if Tab.get false s.mem.cmemErr line then
        uMem s (fun m => { m with
          cmemErr := Tab.set false m.cmemErr line false
          cmemUe := Tab.modify 0 m.cmemUe cl (· + 1)
          cline := Tab.modify {} m.cline line (fun l => { l with taint := true }) })
      else s
    let lb := clLine s p.1
    if lb.written then (b ++ Tab.getMany 0 s.mem.cmem p.1 p.2, t || lb.taint, s) else (b ++ List.replicate p.2 0, t, s))
    ([], false, s)

/-- Writes bytes inside one line of cluster memory (R176, R142): an unwritten line is first set to zero and its taint cleared. -/
def clWritePiece (m : Mem) (key : Nat) (b : Bytes) (taint : Bool) : Mem :=
  let line := key / 64
  let lb := Tab.get {} m.cline line
  let m := if lb.written then m else { m with cmem := Tab.clear m.cmem (64 * line) (64 * line + 64) }
  let old := lb.written && lb.taint
  { m with
    cmem := Tab.setMany 0 m.cmem key b
    cmemErr := if b.length = 64 then Tab.set false m.cmemErr line false else m.cmemErr
    cline := Tab.set {} m.cline line { written := true, taint := if b.length = 64 then taint else old || taint } }

/-- Taints a line of cluster memory and leaves its bytes; an unwritten line becomes zeros (R204). -/
def clTaint (m : Mem) (key : Nat) : Mem :=
  let line := key / 64
  let m := if (Tab.get {} m.cline line).written then m else { m with cmem := Tab.clear m.cmem (64 * line) (64 * line + 64) }
  { m with cline := Tab.set {} m.cline line { written := true, taint := true } }

/-- Writes cluster memory with one taint. -/
def clWrite (s : State) (cl off : Nat) (b : Bytes) (taint : Bool) : State :=
  uMem s (fun m => (cut 64 (clKey cl off) b.length).foldl (fun m p => clWritePiece m p.1 (slice b (p.1 - clKey cl off) p.2) taint) m)

/-! ## Fault records and page requests (R191 to R193) -/

/-- Who accesses memory, as a fault record names it; `id` names the operation, `cls` its Lockway class. -/
structure Agent where
  id : Nat
  ctx : Nat
  kind : Nat := 7
  cluster : Nat := 63
  core : Nat := 0
  thread : Nat := 0
  hart : Nat := 0
  detail : Word := 0
  cls : Nat := 1
deriving DecidableEq, Repr

/-- The words of a fault record but for V and PHASE (R191). -/
def recWord0 (code : Code) (kind acc : Nat) (ag : Agent) : Word :=
  place code.toNat 63 56 ||| place kind 55 52 ||| place ag.kind 51 48 ||| place acc 47 46 ||| place ag.cluster 45 40 |||
  place ag.core 39 37 ||| place ag.thread 36 34 ||| place ag.hart 33 30 ||| 2

def dropRecord (s : State) (n : Nat) : State :=
  uCtx s n (fun c => { c with mmu := { c.mmu with fltDrop := bump16 c.mmu.fltDrop 1 } })

/-- The virtual address of the fault ring's next slot. -/
def recordSlot (s : State) (n : Nat) : Nat := (manOf s n).fltVa.toNat + 64 * (gCtx s n).fltIdx

/-- A record's bytes, with the PHASE of the ring's present pass. -/
def recordBytes (s : State) (n : Nat) (ws : List Word) : Bytes :=
  wordsBytes (((ws.headD 0) ||| place (b2n (gCtx s n).fltPhase) 0 0) :: ws.drop 1)

/-- A record is in the ring: the index moves on, and vector 1 is raised (R192). -/
def recordDone (s : State) (n : Nat) : State :=
  let s := uCtx s n (fun c =>
    if c.fltIdx + 1 = 2 ^ (manOf s n).fltLog2 then { c with fltIdx := 0, fltPhase := !c.fltPhase } else { c with fltIdx := c.fltIdx + 1 })
  raiseCtx s n 1

/-- A record waits for a ring slot that no write of this chip's firmware reaches at once. -/
def queueRecord (s : State) (n : Nat) (ws : List Word) : State :=
  let (id, s) := freshId s
  uCtx s n (fun c => { c with fltPend := c.fltPend ++ [(id, ws)] })

/-- A record meets its slot, which translates to `x`: written where the slot's V is clear, dropped and counted where it is set (R192), or
queued. -/
def recordAt (s : State) (n : Nat) (ws : List Word) (x : Xl) : State :=
  if chipOf x.pa != s.cfg.chipNum then queueRecord s n ws
  else match windowOf (localOf x.pa) with
    | some (cl, off) =>
      if !inBasin s n cl off 64 then dropRecord s n
      else if !holds s n then queueRecord s n ws
      else
        let r := clRead s cl off 8
        if (ofLe r.1).testBit 1 then dropRecord r.2.2 n
        else recordDone (clWrite (touchLeaf r.2.2 x true) cl off (recordBytes s n ws) false) n
    | none =>
      let sva := recordSlot s n
      if !isHole x sva && (ofLe (Tab.getMany 0 s.mem.hbm (localOf x.pa) 8)).testBit 1 then dropRecord s n
      else recordDone (hbmWrite (fillHole (touchLeaf s x true) x sva) n (localOf x.pa) (recordBytes s n ws) false).1 n

/-- Writes the words of a record, but for PHASE, to the context's ring. A slot on another chip, or in a basin of a context that does not
hold the pound, is written later, in order. -/
def putRecordWords (s : State) (n : Nat) (ws : List Word) : State :=
  if (gCtx s n).bind.man.isNone then dropRecord s n
  else if !(gCtx s n).fltPend.isEmpty then queueRecord s n ws
  else match xlate s n accWrite (recordSlot s n) with
    | .error _ => dropRecord s n
    | .ok x => recordAt s n ws x

/-- Writes a fault record to the context's ring, or drops and counts it (R192). -/
def writeRecord (s : State) (ag : Agent) (code : Code) (kind acc va : Nat) : State :=
  putRecordWords s ag.ctx [recWord0 code kind acc ag, place va 47 0, s.tick.pound, ag.detail, 0, 0, 0, 0]

/-- An error record: CODE and no fault kind. -/
def errRecord (s : State) (ag : Agent) (code : Code) : State := writeRecord s ag code 0 0 0

/-- Adds a page request (R193): whether it is in the queue. -/
def postPage (s : State) (n page : Nat) (wr : Bool) : State × Bool :=
  let q := (gCtx s n).mmu.prq
  if q.any (fun r => r.page == page) then
    (uCtx s n (fun c => { c with mmu := { c.mmu with prq := c.mmu.prq.map (fun r => if r.page = page then { r with wr := r.wr || wr } else r) } }), true)
  else if q.length < 4096 then
    let s := uCtx s n (fun c => { c with mmu := { c.mmu with prq := c.mmu.prq ++ [{ page := page, wr := wr }] } })
    (if q.isEmpty then raiseVec s 0 1 else s, true)
  else (s, false)

/-- A place in the page request queue frees: the oldest faults whose requests are not queued enter (R193). -/
def refillPrq (s : State) (n : Nat) : List FaultWait → State
  | [] => s
  | w :: r =>
    if w.ctx = n && !w.queued then
      let (s, ok) := postPage s n w.page w.wr
      let s := if ok then { s with faults := s.faults.map (fun v => if v.id = w.id then { v with queued := true } else v) } else s
      refillPrq s n r
    else refillPrq s n r

/-- A translation fault: the record, the page request, and the agent parks (R190). -/
def parkFault (s : State) (ag : Agent) (kind acc va : Nat) : State :=
  let s := writeRecord s ag 0 kind acc va
  let (s, ok) := postPage s ag.ctx (va / 65536) (acc != 0)
  { s with faults := s.faults ++ [{ id := ag.id, ctx := ag.ctx, page := va / 65536, wr := acc != 0, queued := ok }], rot := { s.rot with poundStarted := true } }

/-- An operation is parked on a fault. -/
def isParked (s : State) (id : Nat) : Bool := s.faults.any (fun w => w.id == id)

/-! ## Statistics counters (R569) -/

/-- The E_SAT notice of a counter of a context: written when the SAT bit goes from clear to set. `off` is the BAR0 offset of the
counter's _LO register, `sel` the table number or weir group. -/
def satNotice (s : State) (n : Nat) (was now : Bool) (off sel : Nat) : State :=
  if now && !was && n != 0 && consentStats s n then
    errRecord s { id := 0, ctx := n, kind := 7, detail := BitVec.ofNat 64 (sel * 2 ^ 32 + off) } eSat
  else s

/-- MMU_UNINIT counts reads of unwritten basin lines (R177). -/
def countUninit (s : State) (n k : Nat) : State :=
  if k = 0 then s else
    let m := (gCtx s n).mmu
    let sat := m.sat || sat64 m.uninit k
    let s := uCtx s n (fun c => { c with mmu := { c.mmu with uninit := bump64 m.uninit k, sat := sat } })
    satNotice s n m.sat sat (0x6000 + n * 0x40 + 0x28) 0

end Sys2Proof.Machine
end

