-- ==== Sys2Proof/Machine/Link.lean ====
section
/-! DEFINITION. Lockway below its messages' meanings (spec/13_lockway.md): headers, encryption and replay windows, credits,
flits, routes, sending, forwarding and receiving a message. -/

namespace Sys2Proof.Machine

/-! ## Headers (R407 to R409) -/

def mType (m : Msg) : Nat := fld m.w0 63 59
def mClass (m : Msg) : Nat := fld m.w0 58 57
def mVc (m : Msg) : Nat := fld m.w0 56 55
def mCtx (m : Msg) : Nat := fld m.w0 54 49
def mSrc (m : Msg) : Nat := fld m.w0 48 41
def mDst (m : Msg) : Nat := fld m.w0 40 33
def mLen (m : Msg) : Nat := fld m.w0 32 28
def mSys (m : Msg) : Bool := bitOf m.w0 27
def mWdrn (m : Msg) : Bool := bitOf m.w0 26
def mRer (m : Msg) : Bool := bitOf m.w0 25
def mTaint (m : Msg) : Nat := fld m.w0 24 21
def mHops (m : Msg) : Nat := fld m.w0 20 16
def mRid (m : Msg) : BitVec 16 := BitVec.ofNat 16 (fld m.w0 15 0)

def tRdReq : Nat := 1
def tRdRsp : Nat := 2
def tWrReq : Nat := 3
def tWrRsp : Nat := 4
def tAmoReq : Nat := 5
def tAmoRsp : Nat := 6
def tTuReq : Nat := 9
def tTuRsp : Nat := 10
def tColl : Nat := 11
def tTick : Nat := 12
def tTrig : Nat := 13
def tMgmt : Nat := 14
def tRefuse : Nat := 15

/-- The types that carry the extension (R408). -/
def hasExt (ty : Nat) : Bool := ty == 1 || ty == 3 || ty == 5 || ty == 9 || ty == 11 || ty == 14

/-- The chunks of a message: header, extension, payload, tag (R407). -/
def msgChunks (m : Msg) : Nat := 2 + b2n (hasExt (mType m)) + ceilDiv m.payload.length 16

/-- The bytes of a message as they travel. -/
def msgBytes (m : Msg) : Bytes :=
  wordBytes m.w0 ++ wordBytes m.w1 ++ (if hasExt (mType m) then wordBytes m.w2 ++ wordBytes m.w3 else []) ++
  m.payload ++ List.replicate (ceilDiv m.payload.length 16 * 16 - m.payload.length) 0 ++ slice m.tag 0 16

/-- The additional data: header and extension with HOPS, WDRN and RER zero (R411). -/
def msgAad (m : Msg) : Bytes :=
  let w0 := m.w0 &&& ~~~(place 0x1F 20 16 ||| place 3 26 25)
  wordBytes w0 ++ wordBytes m.w1 ++ (if hasExt (mType m) then wordBytes m.w2 ++ wordBytes m.w3 else [])

/-- The IV (R411). -/
def msgIv (m : Msg) : Bytes := [BitVec.ofNat 8 (mSrc m), BitVec.ofNat 8 (mDst m), BitVec.ofNat 8 (mClass m), 0] ++ wordBytes m.w1

/-- The key of a message: the reach key with SYS, else the context's Lockway key (R411, R414). -/
def msgKey (s : State) (m : Msg) : Bytes := if mSys m then s.reach.key else (gCtx s (mCtx m)).bind.keys.lw

/-- A message with its payload encrypted and its tag (R411, R414). -/
def sealMsg (key : Bytes) (m : Msg) : Msg :=
  let iv := msgIv m
  let ct := gcmCrypt key iv m.payload
  { m with payload := ct, tag := gcmTag key iv (msgAad m) ct }

/-! ## Slack water -/

/-- A wake that comes in the pound of a pending entry: the entry comes first and the wake follows it at once; the two are one
collision (spec/03 Corners, R526, R527). -/
def wakeLater (s : State) (src : BitVec 4) : State :=
  if s.pm.wakeNext = 0 then collideRec { s with pm := { s.pm with wakeNext := src } } 6 6 else s

/-- A wake event (R102): `src` is the bit of PM_ WAKE_SRC. A doorbell in a pound before its ENTER_SLACK is kept for it. -/
def wakeUp (s : State) (src : BitVec 4) : State :=
  if s.pm.st = 1 then raiseVec { s with pm := { s.pm with st := 0, wakeSrc := src, idleRun := 0 } } 0 3
  else if s.pm.st = 0 && s.pm.enterNext then wakeLater s src
  else if s.pm.st = 0 && src = 1 then { s with pm := { s.pm with bellSeen := true } }
  else s

/-! ## Credits and flits (R397 to R403) -/

/-- The buffer of a class and VC, in chunks (R401). -/
def bufSize (cvc : Nat) : Nat :=
  if cvc < 3 then (if cvc = 2 then 64 else 128) else (if cvc % 3 = 2 then 256 else 4096)

/-- The credit counter of a message at the hop it takes next. -/
def msgCvc (m : Msg) : Nat := mClass m * 3 + mVc m

/-- A flit: type, sequence, acknowledgement, NAK, credit returned, first-message chunk, payload of 240 bytes (R397). -/
def flitBytes (ftype fseq fack : Nat) (nak : Bool) (csel ccnt fmb : Nat) (payload : Bytes) : Bytes :=
  let w := place ftype 63 62 ||| place fseq 61 50 ||| place fack 49 38 ||| place (b2n nak) 37 37 ||| place csel 36 33 |||
    place ccnt 32 22 ||| place fmb 21 18
  let b := wordBytes w ++ slice payload 0 240
  b ++ leBytes (crc32c 0xFFFFFFFF b) 4 ++ [0, 0, 0, 0]

/-- The credit that the next flit returns: class and VC, chunks. -/
def owedCredit (p : Port) : Nat × Nat :=
  match p.owed with
  | [] => (0, 0)
  | (k, n) :: _ => (k, min n 2047)

/-- A port is in service. -/
def portUp (p : Port) : Bool := p.st == 2 || p.st == 3

/-- The number of active lanes. -/
def laneCount (p : Port) : Nat := popN p.lanes.toNat 8

/-- A statistics counter of a port stops at its top and sets its SAT bit (R439, R569). -/
def bumpPort (p : Port) (bit : Nat) (get : Port → Word) (set : Port → Word → Port) : Port :=
  let sat := sat64 (get p) 1
  let p := set p (bump64 (get p) 1)
  if sat then { p with sat := p.sat ||| ((1 : BitVec 3) <<< bit) } else p

/-- Sends one idle flit that carries the acknowledgement and the credits owed. -/
def sendIdle (s : State) (i : Nat) (nak : Bool) : State :=
  let p := gPort s i
  if !portUp p then s else
  let (k, n) := owedCredit p
  let s := uPort s i (fun p => { p with owed := Tab.modify 0 p.owed k (· - n) })
  emit s (.flit i (flitBytes 0 p.txSeq.toNat p.rxLast.toNat nak k n 15 []))

/-- Sends the data flits of a message; the last one remembers the message (R399, R406). -/
def sendFlits (s : State) (i : Nat) (m : Msg) : List Bytes → Bool → State
  | [], _ => s
  | c :: r, first =>
    let p := gPort s i
    let (k, n) := owedCredit p
    let f := flitBytes 1 p.txSeq.toNat p.rxLast.toNat false k n (if first then 0 else 15) c
    let s := uPort s i (fun p =>
      let p := bumpPort p 1 (·.txf) (fun p x => { p with txf := x })
      { p with
        owed := Tab.modify 0 p.owed k (· - n)
        unacked := p.unacked ++ [{ seq := p.txSeq, data := f, replays := 0, msg := if r.isEmpty then some m else none }]
        txSeq := p.txSeq + 1 })
    sendFlits (emit s (.flit i f)) i m r false

/-- The flits of a message: a message starts a new flit. -/
def msgFlits (m : Msg) : List Bytes :=
  let b := msgBytes m
  chunksOf 240 (b.length / 240 + 1) b

/-- The port holds credit and room for a message. -/
def canSend (p : Port) (m : Msg) : Bool :=
  decide (Tab.get 0 p.used (msgCvc m) + msgChunks m ≤ bufSize (msgCvc m)) && decide (p.unacked.length + (msgFlits m).length ≤ 1024)

/-- A message leaves a receive buffer: its chunks are free and their credit is owed (R402). -/
def freeRx (s : State) (inP cvc n : Nat) : State :=
  uPort s inP (fun p => { p with rxUsed := Tab.modify 0 p.rxUsed cvc (· - n), owed := Tab.modify 0 p.owed cvc (· + n) })

/-- Sends a message at a port, or lets it wait for credit (R402, R422). `from_` is the port it came in by plus 1, or 0. -/
def transmit (s : State) (i from_ : Nat) (m : Msg) : State :=
  let p := gPort s i
  if canSend p m && !(p.waitTx.any (fun w => msgCvc w.2 == msgCvc m)) then
    let s := uPort s i (fun p => { p with used := Tab.modify 0 p.used (msgCvc m) (· + msgChunks m) })
    sendFlits s i m (msgFlits m) true
  else
    uPort s i (fun p => { p with
      waitTx := p.waitTx ++ [(from_, m)]
      c0Over := if mClass m = 0 then bump16 p.c0Over 1 else p.c0Over })

/-- Sends the waiting messages that now have credit, oldest first of each class and VC. -/
def drainTx (s : State) (i : Nat) : Nat → State
  | 0 => s
  | k + 1 =>
    let p := gPort s i
    match p.waitTx.find? (fun w => canSend p w.2) with
    | none => s
    | some w =>
      let s := uPort s i (fun p => { p with waitTx := p.waitTx.erase w, used := Tab.modify 0 p.used (msgCvc w.2) (· + msgChunks w.2) })
      let s := sendFlits s i w.2 (msgFlits w.2) true
      let s := if w.1 = 0 then s else freeRx s (w.1 - 1) (msgCvc w.2) (msgChunks w.2)
      drainTx s i k

/-! ## Routes (R432, R433, R441) -/

def routeOf (s : State) (dst : Nat) : BitVec 32 := Tab.get 0 s.reach.routes dst

/-- The ports of a trunk that are in service. -/
def trunkPorts (s : State) (mask : Nat) : List Nat := (List.range 12).filter (fun i => mask.testBit i && portUp (gPort s i))

/-- The port of a flow (R432): the hash of the flow chooses among the ports in service. -/
def flowPort (m : Msg) (ports : List Nat) : Option Nat :=
  ports[Config.flowHash (mCtx m) (mSrc m) (mDst m) (mClass m) % ports.length]?

/-- The x and the y of a chip in a torus (R429). -/
def chipX (s : State) (c : Nat) : Nat := c % s.cfg.topoX
def chipY (s : State) (c : Nat) : Nat := c / s.cfg.topoX

/-- Whether a step between two chips crosses the wrap link of its dimension. -/
def isWrap (s : State) (a b : Nat) : Bool :=
  let far (x y : Nat) : Bool := x != y && x + 1 != y && y + 1 != x
  far (chipX s a) (chipX s b) || far (chipY s a) (chipY s b)

/-- The VC of a message's next hop (R432, R433): VC2 when rerouted; in a torus VC1 after the wrap link of the present dimension. -/
def nextVc (s : State) (m : Msg) (rer : Bool) (inP : Option Nat) (outP : Nat) : Nat :=
  if rer || mRer m then 2
  else if s.cfg.topo != 1 then 0
  else match inP with
    | none => 0
    | some i =>
      let prev := (gPort s i).peerChip.toNat
      let me := s.cfg.chipNum
      let next := (gPort s outP).peerChip.toNat
      let turn := chipX s prev != chipX s me && chipY s me != chipY s next
      if turn then 0 else if isWrap s prev me then 1 else mVc m

/-- Sends a message by a route record, when a port of its trunk is in service. -/
def routeBy (s : State) (inP : Option Nat) (m : Msg) (r : BitVec 32) : Option State :=
  if !r.getLsbD 31 then none
  else match flowPort m (trunkPorts s (r.toNat / 4096 % 4096)) with
    | none => none
    | some i =>
      let rer := r.getLsbD 29
      let p := gPort s i
      let wd := rer || r.getLsbD 30 || p.st == 3 || laneCount p < 8
      let vc := nextVc s m rer inP i
      let w0 := (m.w0 &&& ~~~(place 3 56 55)) ||| place vc 56 55 ||| place (b2n wd) 26 26 ||| place (b2n rer) 25 25
      some (transmit s i (match inP with | none => 0 | some j => j + 1) { m with w0 := w0 })

/-- Sends a message on its route, or on the route that a seen failure gives (R423, R432, R433); lost when there is none. -/
def routeMsg (s : State) (inP : Option Nat) (m : Msg) : State :=
  match routeBy s inP m (routeOf s (mDst m)) with
  | some s => s
  | none =>
    (routeBy s inP m (Tab.get 0 s.reach.seenRoutes (mDst m))).getD s

/-! ## Sending -/

/-- Word 0 of a message (R407). -/
def header0 (ty cls ctx src dst len : Nat) (sys wdrn : Bool) (taint : Nat) (rid : BitVec 16) : Word :=
  place ty 63 59 ||| place cls 58 57 ||| place ctx 54 49 ||| place src 48 41 ||| place dst 40 33 ||| place len 32 28 |||
  place (b2n sys) 27 27 ||| place (b2n wdrn) 26 26 ||| place taint 24 21 ||| place 31 20 16 ||| place rid.toNat 15 0

/-- Counts a message sent by a context (R440). -/
def countTx (s : State) (n : Nat) : State :=
  let l := (gCtx s n).lw
  let sat := l.sat.getLsbD 0 || sat64 l.tx 1
  let s := uCtx s n (fun c => { c with lw := { c.lw with tx := bump64 l.tx 1, sat := c.lw.sat ||| BitVec.ofNat 2 (b2n sat) } })
  satNotice s n (l.sat.getLsbD 0) sat (0x13800 + n * 0x20) 0

/-- Counts a message received for a context (R440). -/
def countRx (s : State) (n : Nat) : State :=
  let l := (gCtx s n).lw
  let sat := l.sat.getLsbD 1 || sat64 l.rx 1
  let s := uCtx s n (fun c => { c with lw := { c.lw with rx := bump64 l.rx 1, sat := c.lw.sat ||| BitVec.ofNat 2 (2 * b2n sat) } })
  satNotice s n (l.sat.getLsbD 1) sat (0x13800 + n * 0x20 + 8) 0

/-- The next SEQ of a tenant's class (R412, R572), or of the system's. -/
def takeSeq (s : State) (n cls : Nat) (sys : Bool) : Word × State :=
  if sys then
    let q := Tab.get 1 s.reach.seq cls
    (q, { s with reach := { s.reach with seq := Tab.set 1 s.reach.seq cls (q + 1) } })
  else
    let q := Tab.get 1 (gCtx s n).lw.seq cls
    let s := uCtx s n (fun c => { c with lw := { c.lw with seq := Tab.set 1 c.lw.seq cls (q + 1) } })
    (q, if q.toNat + 1 = 2 ^ 64 then faultAtTick s n eRange else s)

/-- Sends a message from this chip. -/
def sendMsg (s : State) (n : Nat) (sys : Bool) (ty cls dst : Nat) (rid : BitVec 16) (wdrn : Bool) (taint : Nat) (w2 w3 : Word)
    (payload : Bytes) : State :=
  let payload := pad16 payload
  let (q, s) := takeSeq s n cls sys
  let m : Msg := { w0 := header0 ty cls n s.cfg.chipNum dst (payload.length / 16) sys wdrn taint rid, w1 := q, w2 := w2, w3 := w3, payload := payload, tag := [] }
  let key := msgKey s m
  let m := if key.isEmpty then m else sealMsg key m
  let s := if sys then s else countTx s n
  routeMsg s none m

/-! ## Receiving (R410, R411, R413 to R415) -/

/-- A hop drops this message (R410). -/
def badMsg (s : State) (m : Msg) : Bool :=
  let ty := mType m
  let masked := ty == tWrReq && bitOf m.w3 9
  !((1 ≤ ty && ty ≤ 6) || (9 ≤ ty && ty ≤ 15)) || mVc m == 3 ||
  (hasExt ty && fld m.w2 63 52 != 0) ||
  (mLen m > 16 && !masked) || mLen m > 18 ||
  (mDst m != s.cfg.chipNum && mHops m ≤ 1)

/-- The reserved bits of AUX (R409). -/
def auxOk (m : Msg) : Bool :=
  let ty := mType m
  if ty = tRdReq then onlyBits m.w3 (msk 8 0)
  else if ty = tWrReq then onlyBits m.w3 (msk 9 0)
  else if ty = tAmoReq then onlyBits m.w3 (msk 5 0)
  else if ty = tTuReq then onlyBits m.w3 (msk 31 0)
  else if ty = tColl then onlyBits m.w3 (msk 47 0)
  else if ty = tMgmt then onlyBits m.w3 (msk 15 0)
  else true

/-- The window of SEQ values (R413): the new window, or none for a replay. -/
def windowStep (w : Word × BitVec 1024) (q : Word) : Option (Word × BitVec 1024) :=
  let top := w.1.toNat
  let x := q.toNat
  if top < x then some (q, (if x - top < 1024 then w.2 <<< (x - top) else 0) ||| 1)
  else if 1024 ≤ top - x then none
  else if w.2.getLsbD (top - x) then none
  else some (w.1, w.2 ||| ((1 : BitVec 1024) <<< (top - x)))

/-- What receiving a message for this chip gives. -/
inductive Rx where
  | drop (s : State)
  | take (m : Msg) (s : State)

/-- A request of a tenant context that is not bound here: no key opens it, and no page here is the context's (spec/13 Corners). -/
def strangeReq (s : State) (m : Msg) : Bool :=
  let ty := mType m
  !mSys m && mCtx m != 0 && (gCtx s (mCtx m)).st == .free && (ty == tRdReq || ty == tWrReq || ty == tAmoReq || ty == tTuReq)

/-- Refuses it as an ownership mismatch (R189), under the reach key; the RID names the request. -/
def refuseStrange (s : State) (m : Msg) : State :=
  if s.reach.key.isEmpty then s
  else sendMsg s 0 true tRefuse (mClass m) (mSrc m) (mRid m) (mWdrn m) 0 0 0 (eDenied :: List.replicate 15 0)

/-- Opens a message for this chip: verification, replay check, decryption (R413 to R415). -/
def openMsg (s : State) (m : Msg) : Rx :=
  let n := mCtx m
  let key := msgKey s m
  let sysOk := mSys m == (n == 0 || mType m == tTick || mType m == tMgmt) || (mSys m && mType m == tTrig)
  let open_ := mSys m && key.isEmpty && mType m == tMgmt
  if open_ then .take m s
  else if key.isEmpty && strangeReq s m then .drop (refuseStrange s m)
  else if !sysOk || key.isEmpty || gcmTag key (msgIv m) (msgAad m) m.payload != m.tag then
    let s := if n = 0 || (gCtx s n).st = .free then s else uCtx s n (fun c => { c with lw := { c.lw with auth := bump16 c.lw.auth 1 } })
    .drop (securityEvent s n 2)
  else
    let k := mSrc m * 4 + mClass m
    let win := if mSys m then Tab.get (0, 0) s.reach.win k else Tab.get (0, 0) (gCtx s n).lw.win k
    match windowStep win m.w1 with
    | none =>
      let s := if n = 0 || (gCtx s n).st = .free then s else uCtx s n (fun c => { c with lw := { c.lw with replay := bump16 c.lw.replay 1 } })
      .drop (securityEvent s n 3)
    | some w =>
      let s := if mSys m then { s with reach := { s.reach with win := Tab.set (0, 0) s.reach.win k w } }
        else countRx (uCtx s n (fun c => { c with lw := { c.lw with win := Tab.set (0, 0) c.lw.win k w } })) n
      .take { m with payload := gcmCrypt key (msgIv m) m.payload } s

/-- Receives a message at a port: dropped (R403, R410), forwarded, or taken for this chip when it is of the type `ty`. -/
def recvMsg (s : State) (port ty : Nat) (m : Msg) : Rx :=
  let p := gPort s port
  if !isReady s || !portUp p || mType m != ty then .drop s
  else if bufSize (msgCvc m) < Tab.get 0 p.rxUsed (msgCvc m) + msgChunks m then
    .drop (uPort s port (fun p => { p with creditErr := bump16 p.creditErr 1 }))
  else if badMsg s m || !auxOk m || m.payload.length != 16 * mLen m then
    .drop (uPort s port (fun p => { p with badMsg := bump16 p.badMsg 1, owed := Tab.modify 0 p.owed (msgCvc m) (· + msgChunks m) }))
  else
    let s := if mCtx m != 0 then wakeUp s 4 else s
    if mDst m != s.cfg.chipNum then
      let s := uPort s port (fun p => { p with rxUsed := Tab.modify 0 p.rxUsed (msgCvc m) (· + msgChunks m) })
      let m' := { m with w0 := m.w0 - place 1 16 16 }
      let before := (routeOf s (mDst m)).toNat / 4096 % 4096
      let s' := routeMsg s (some port) m'
      let waits := (trunkPorts s before).any (fun i => (gPort s' i).waitTx.any (fun w => w.1 == port + 1 && w.2.tag == m.tag && w.2.w1 == m.w1))
      .drop (if waits then s' else sendIdle (freeRx s' port (msgCvc m) (msgChunks m)) port false)
    else
      let s := sendIdle (uPort s port (fun p => { p with owed := Tab.modify 0 p.owed (msgCvc m) (· + msgChunks m) })) port false
      openMsg s m

/-- The order numbers of MGMT (DESIGN CHOICE: the spec names the orders and gives no number). -/
def mopHello : Nat := 1
def mopShare : Nat := 2
def mopReach : Nat := 3
def mopRotation : Nat := 4
def mopLink : Nat := 5
def mopPhaseDone : Nat := 6
def mopCollEnd : Nat := 7
def mopMap : Nat := 8
def mopMapAns : Nat := 9
def mopCollAsk : Nat := 10
def mopUnmap : Nat := 11

/-- Sends a MGMT order: word 0 of its payload is the stamp pound (R414, R427). -/
def sendMgmt (s : State) (dst mop : Nat) (body : Bytes) : State :=
  sendMsg s 0 true tMgmt 0 dst 0 false 0 0 (place mop 15 0) (wordBytes s.tick.pound ++ body)

/-- The address of a request, and the length of a read or write (R407, R409). -/
def mAddr (m : Msg) : Nat := fld m.w2 51 0
def mLenB (m : Msg) : Nat := fld m.w3 8 0

end Sys2Proof.Machine
end

