-- ==== Sys2Proof/Machine/Access.lean ====
section
/-! DEFINITION. How an agent reads and writes context memory by virtual address: translation, zero-fill, basin windows, other
chips (spec/06 R178, R181, R189, R190, R194; spec/13 R416 to R419, R436). -/

namespace Sys2Proof.Machine

/-- Why an operation does not end now: a translation fault, an error code, a remote answer that has not come, or input of a flight stage
that has not been handed on. -/
inductive Halt where
  | fault (kind acc va : Nat)
  | code (c : Code)
  | wait
  | starve
deriving DecidableEq, Repr

/-- An operation on memory: it changes the state and answers, or halts. -/
abbrev M := EStateM Halt State

def kRead : Nat := 0
def kWrite : Nat := 1
def kAmo : Nat := 2
def kRow : Nat := 3
def kStage : Nat := 4
/-- A request that only taints granules of another chip (R234, R253); nothing waits for its answer. -/
def kTaint : Nat := 5

/-- The barge engine whose transaction slots an agent's requests take (R212): cluster + 1, 49 the I/O tile's; 0 for another agent. -/
def engineOf (ag : Agent) : Nat := if ag.kind = 1 || ag.kind = 2 || ag.kind = 4 then (if ag.cluster < 48 then ag.cluster + 1 else 49) else 0

/-- A request that has been issued or is held, and is not answered. -/
def inFlight (t : RTx) : Bool := t.st == 0 || t.st == 4

/-- The transaction slots of an engine (R26, R212). -/
def engineSlots (e : Nat) : Nat := if e = 49 then 8192 else 512

/-- The agent may have one more transaction outstanding: a slot of its engine is free, and a barge stays within the OUTLIM of its queue
(R212). -/
def slotFree (s : State) (ag : Agent) : Bool :=
  let e := engineOf ag
  e == 0 || (decide ((s.rtxs.filter (fun t => t.eng == e && inFlight t)).length < engineSlots e) &&
    (ag.kind != 1 || decide ((s.rtxs.filter (fun t => t.owner == ag.id && inFlight t)).length < max 1 (gQueue s ag.detail.toNat).outlim)))

/-- The next request identifier that no request in flight carries. -/
def freeRid (s : State) : Nat → BitVec 16 → BitVec 16
  | 0, r => r
  | k + 1, r => if s.rtxs.any (fun t => t.rid == r) then freeRid s k (r + 1) else r

/-- A request of the same flow that left under another route generation and has no answer yet (R419). -/
def flowBusy (s : State) (n dst cls : Nat) : Bool :=
  s.rtxs.any (fun t => t.ctx == n && t.dst == dst && t.cls == cls && (t.st == 4 || (t.st == 0 && t.gen != s.reach.routeGen.toNat)))

/-- Sends a request and notes it, or holds it (R419). -/
def sendReq (s : State) (ag : Agent) (kind ty pa len seqNo taint : Nat) (dst : Nat) (w3 : Word) (payload : Bytes) : State :=
  let rid := freeRid s (s.rtxs.length + 1) (s.rid + 1)
  let held := flowBusy s ag.ctx dst ag.cls
  let msg : Msg := { w0 := header0 ty ag.cls ag.ctx s.cfg.chipNum dst 0 false false taint rid, w1 := 0, w2 := BitVec.ofNat 64 (pa % 2 ^ 52), w3 := w3, payload := payload, tag := [] }
  let t : RTx := { rid := rid, owner := ag.id, ctx := ag.ctx, kind := kind, addr := pa, len := len, st := if held then 4 else 0, seqNo := seqNo, cls := ag.cls, dst := dst, gen := s.reach.routeGen.toNat, eng := engineOf ag, msg := if held then some msg else none }
  let s := { s with rid := rid, rtxs := s.rtxs.filter (fun t => !(t.owner == ag.id && t.seqNo == seqNo)) ++ [t] }
  if held then s else sendMsg s ag.ctx false ty ag.cls dst rid false taint (BitVec.ofNat 64 (pa % 2 ^ 52)) w3 payload

/-- Releases held requests whose flow has no older request left (R419). -/
def releaseHeld (s : State) : List RTx → State
  | [] => s
  | t :: r =>
    match t.st, t.msg with
    | 4, some m =>
      if s.rtxs.any (fun u => u.ctx == t.ctx && u.dst == t.dst && u.cls == t.cls && u.st == 0 && u.gen != s.reach.routeGen.toNat) then releaseHeld s r
      else
        let s := { s with rtxs := s.rtxs.map (fun u => if u.rid = t.rid then { u with st := 0, msg := none, gen := s.reach.routeGen.toNat } else u) }
        releaseHeld (sendMsg s t.ctx false (mType m) t.cls t.dst t.rid false (mTaint m) m.w2 m.w3 m.payload) r
    | _, _ => releaseHeld s r

/-- The request that stands for the next remote access of an operation; it is sent when this access is met for the first time and a
transaction slot is free (R212). -/
def remoteReq (ag : Agent) (kind ty pa len taint : Nat) (w3 : Word) (payload : Bytes) : M RTx := fun s =>
  let i := s.racc
  let s := { s with racc := i + 1 }
  match s.rtxs.find? (fun t => t.owner == ag.id && t.seqNo == i && t.kind == kind && t.addr == pa && t.len == len) with
  | some t => .ok t s
  | none =>
    if !slotFree s ag then .error .wait s else
    let s := sendReq s ag kind ty pa len i taint (chipOf pa) w3 payload
    .ok { rid := s.rid, owner := ag.id, ctx := ag.ctx, kind := kind, addr := pa, len := len } s

/-- The answer of a request: bytes and taint; zeros and taint after a timeout (R436); a refusal (R189, R417). -/
def remoteAns (t : RTx) (acc va : Nat) : M (Bytes × Nat) :=
  if t.st = 1 then pure (slice t.data 0 t.len, t.taint)
  else if t.st = 2 then pure (List.replicate t.len 0, 15)
  else if t.st = 3 then (if t.code = eDenied then throw (.fault 4 acc va) else throw (.code t.code))
  else throw .wait

/-- A chip of the reach (R39). -/
def chipPresent (s : State) (c : Nat) : Bool := c == s.cfg.chipNum || (s.reach.rstate == 1 && s.reach.members.getLsbD c)

/-- Where a piece of an access lands. -/
inductive Place where
  | hole (x : Xl)
  | hbm (x : Xl)
  | win (cl off : Nat)
  | remote (pa : Nat)
deriving DecidableEq, Repr

/-- Translates one piece [a, a + k) of the access [va, va + n) (R178, R190, R39). -/
def placeOf (ag : Agent) (acc va n a : Nat) : M Place := do
  let s ← get
  match xlate s ag.ctx acc a with
  | .error k => throw (.fault k acc a)
  | .ok x =>
    set (touchLeaf s x (acc != accRead))
    if chipOf x.pa != s.cfg.chipNum then
      if chipPresent s (chipOf x.pa) then return .remote x.pa else throw (.code eRange)
    else match windowOf (localOf x.pa) with
      | some (cl, off) =>
        if a - va ≤ off && inBasin s ag.ctx cl (off - (a - va)) n then return .win cl off else throw (.code eRange)
      | none => if isHole x a then return .hole x else return .hbm x

/-- Reads cluster memory through the unit port (R177). -/
def readWin (ag : Agent) (cl off n : Nat) : M (Bytes × Bool) := do
  let s ← get
  let u := unwritten s cl off n
  if 0 < u && isExpert s ag.ctx then throw (.code eUninit)
  let (b, t, s) := clRead (countUninit s ag.ctx u) cl off n
  set s
  return (b, t)

/-- Starts the remote reads of an access, so that all of them are on their way before the first is awaited. -/
def startReads (ag : Agent) (pa n : Nat) : M (List RTx) :=
  (cut 256 pa n).mapM (fun p => remoteReq ag kRead tRdReq p.1 p.2 0 (place p.2 8 0) [])

/-- The granule taint bits of a response, one per granule the piece touches. -/
def taintBits (t : Nat) (pa n : Nat) : List Bool := (List.range ((cut 64 pa n).length)).map (fun i => t.testBit i)

/-- Reads [va, va + n): its bytes and, for each 64-byte granule it touches, the bytes' taint. -/
def readParts (ag : Agent) (va n : Nat) : M (List (Bytes × Bool)) := do
  let ps ← (cut 4096 va n).mapM (fun p => do
    let pl ← placeOf ag accRead va n p.1
    match pl with
    | .remote pa => do
      let ts ← startReads ag pa p.2
      return (p, pl, ts)
    | _ => return (p, pl, []))
  let parts ← ps.mapM (fun (p, pl, ts) =>
    match pl with
    | .hole _ => (cut 64 p.1 p.2).mapM (fun q => pure (List.replicate q.2 (0 : Byte), false))
    | .hbm x => (cut 64 (localOf x.pa) p.2).mapM (fun q => do
        let s ← get
        let (b, t, s) := hbmRead s ag.ctx q.1 q.2
        set s
        return (b, t))
    | .win cl off => (cut 64 off p.2).mapM (fun q => readWin ag cl q.1 q.2)
    | .remote pa => do
      let rs ← ts.mapM (fun t => remoteAns t accRead (p.1 + (t.addr - pa)))
      let pieces := (ts.zip rs).flatMap (fun (t, b, tt) =>
        ((cut 64 t.addr t.len).zip (taintBits tt t.addr t.len)).map (fun (q, f) => (slice b (q.1 - t.addr) q.2, f)))
      return pieces)
  return parts.flatten

/-- Reads [va, va + n): bytes, and the OR of the granules' taints (R141). -/
def readVa (ag : Agent) (va n : Nat) : M (Bytes × Bool) := do
  let ps ← readParts ag va n
  return (ps.flatMap (·.1), ps.any (·.2))

/-- A write that an HBM timeout lost (R575): a record, and the context faults at the next tick. -/
def lostWrite (ag : Agent) : M Unit := do
  let s ← get
  set (faultAtTick (errRecord s ag eTmoHbm) ag.ctx eTmoHbm)

/-- The taint bits of a write for the header: one per granule (R407) of which it writes a byte. -/
def writeTaint (pa n : Nat) (mask : List Bool) (t : Bool) : Nat :=
  let ps := cut 64 pa n
  if t then (ps.zip (List.range ps.length)).foldl (fun a (q, i) =>
    if mask.isEmpty || ((mask.drop (q.1 - pa)).take q.2).any id then a + 2 ^ i else a) 0
  else 0

/-- A byte mask as two chunks (R408). -/
def maskBytes (m : List Bool) : Bytes :=
  leBytes ((m.foldr (fun b acc => b2n b + 2 * acc) 0)) 32

/-- Writes bytes at [va, va + |b|) with one taint; `mask`, when not empty, enables single bytes. Remote pieces first, so that
nothing local changes while an answer is awaited. -/
def writeMasked (ag : Agent) (va : Nat) (b : Bytes) (mask : List Bool) (taint : Bool) : M Unit := do
  let n := b.length
  let ps ← (cut 4096 va n).mapM (fun p => do
    let pl ← placeOf ag accWrite va n p.1
    match pl with
    | .remote pa => do
      let ts ← (cut 256 pa p.2).mapM (fun q =>
        let off := p.1 - va + (q.1 - pa)
        let mk := (mask.drop off).take q.2
        let d := slice b off q.2
        if mask.isEmpty then remoteReq ag kWrite tWrReq q.1 q.2 (writeTaint q.1 q.2 [] taint) (place q.2 8 0) d
        else remoteReq ag kWrite tWrReq q.1 q.2 (writeTaint q.1 q.2 mk taint) (place q.2 8 0 ||| place 1 9 9) (maskBytes mk ++ d))
      return (p, pl, ts)
    | _ => return (p, pl, []))
  ps.forM (fun (p, _, ts) => ts.forM (fun t => do
    let _ ← remoteAns t accWrite p.1
    return))
  ps.forM (fun (p, pl, _) => do
    let d := slice b (p.1 - va) p.2
    let mk := (mask.drop (p.1 - va)).take p.2
    let runs : List (Nat × Bytes) :=
      if mask.isEmpty then [(0, d)]
      else
        let idx := (List.range p.2).filter (fun i => mk.getD i false)
        let full := (cut 64 p.1 p.2).filter (fun q => (List.range q.2).all (fun i => mk.getD (q.1 - p.1 + i) false))
        full.map (fun q => (q.1 - p.1, slice d (q.1 - p.1) q.2)) ++
        (idx.filter (fun i => !(full.any (fun q => decide (q.1 - p.1 ≤ i) && decide (i < q.1 - p.1 + q.2))))).map (fun i => (i, [d.getD i 0]))
    let local_ (x : Xl) : M Unit := do
      let s ← get
      let x := match xlate s ag.ctx accWrite p.1 with | .ok y => y | .error _ => x
      let s := fillHole s x p.1
      let (s, lost) := runs.foldl (fun (s, l) r => let (s, l') := hbmWrite s ag.ctx (localOf x.pa + r.1) r.2 taint; (s, l || l')) (s, false)
      set s
      if lost then lostWrite ag
    match pl with
    | .hole x => local_ x
    | .hbm x => local_ x
    | .win cl off => do
      let s ← get
      set (runs.foldl (fun s r => clWrite s cl (off + r.1) r.2 taint) s)
    | .remote _ => return)

/-- Writes bytes with one taint. -/
def writeVa (ag : Agent) (va : Nat) (b : Bytes) (taint : Bool) : M Unit := writeMasked ag va b [] taint

/-- Writes pieces one after another, each with its own taint (R245). -/
def writeParts (ag : Agent) (va : Nat) (ps : List (Bytes × Bool)) : M Unit := do
  let _ ← ps.foldlM (fun (a : Nat) p => do
    writeVa ag a p.1 p.2
    return a + p.1.length) va
  return

/-- The new value of an atomic operation (R123); none for a cas without a match. -/
def amoNew (fn sz : Nat) (old x cmp : Nat) : Option Nat :=
  let w := 8 * 2 ^ sz
  let m := 2 ^ w
  let o := old % m
  let y := x % m
  let so := sgn w o
  let sy := sgn w y
  match fn with
  | 0 => some ((o + y) % m)
  | 1 => some (if sy < so then y else o)
  | 2 => some (if so < sy then y else o)
  | 3 => some (min o y)
  | 4 => some (max o y)
  | 5 => some y
  | 6 => if o = cmp % m then some y else none
  | 7 => some (o &&& y)
  | 8 => some (o ||| y)
  | _ => some (o ^^^ y)

/-- An atomic operation at a virtual address: the old value and its granule's taint (R123, R138). -/
def amoVa (ag : Agent) (va fn sz x cmp : Nat) (taint : Bool) : M (Nat × Bool) := do
  let n := 2 ^ sz
  let pl ← placeOf ag accAtomic va n va
  let upd (old : Nat) (t : Bool) (w : Bytes → M Unit) : M (Nat × Bool) := do
    match amoNew fn sz old x cmp with
    | some v => w (leBytes v n)
    | none => pure ()
    return (old, t)
  let local_ (y : Xl) : M (Nat × Bool) := do
    let s ← get
    let (b, t, s) := hbmRead (fillHole s y va) ag.ctx (localOf y.pa) n
    set s
    upd (ofLe b) t (fun b => do
      let s ← get
      let (s, lost) := hbmWrite s ag.ctx (localOf y.pa) b taint
      set s
      if lost then lostWrite ag)
  match pl with
  | .hole y => local_ y
  | .hbm y => local_ y
  | .win cl off => do
    let (b, t) ← readWin ag cl off n
    upd (ofLe b) t (fun b => modify (fun s => clWrite s cl off b taint))
  | .remote pa => do
    let t ← remoteReq ag kAmo tAmoReq pa n (b2n taint) (place sz 5 4 ||| place fn 3 0) (leBytes x 8 ++ leBytes cmp 8)
    let (b, tt) ← remoteAns t accAtomic va
    return (ofLe b, tt.testBit 0)

/-- What an operation that must wait leaves behind: the requests it sent. -/
def keepNet (s0 s1 : State) : State :=
  { s0 with
    rtxs := s1.rtxs, ports := s1.ports, out := s1.out, rid := s1.rid, reach := s1.reach,
    ctxs := s1.ctxs.foldl (fun t e => Tab.modify {} t e.1 (fun c => { c with lw := e.2.lw })) s0.ctxs }

/-- The requests of an operation are no longer needed. -/
def dropReqs (s : State) (id : Nat) : State := { s with rtxs := s.rtxs.filter (fun t => t.owner != id) }

/-- Runs an operation of an agent: nothing while it is parked; a wait keeps its requests; a fault parks it (R190); an error code
goes to `bad`, with none of the operation's effects but the table counters. -/
def runOp {α : Type} (s : State) (ag : Agent) (m : M α) (good : α → State → State) (bad : Code → State → State) : State :=
  if isParked s ag.id then s
  else match m { s with racc := 0 } with
    | .ok a s' => good a { dropReqs s' ag.id with racc := 0 }
    | .error .wait s' => keepNet s s'
    | .error .starve s' => keepNet s s'
    | .error (.fault k acc va) s' => parkFault (keepNet s s') ag k acc va
    | .error (.code c) s' =>
      let s := uCtx (dropReqs (keepNet s s') ag.id) ag.ctx (fun c => { c with tu := (gCtx s' ag.ctx).tu })
      bad c (if c = eUninit then faultAtTick s ag.ctx eUninit else s)

/-! ## Records of a ring that is not in this chip's HBM (R192) -/

/-- Firmware as the agent that writes a waiting record. -/
def recordAgent (n id : Nat) : Agent := { id := id, ctx := n }

/-- Writes a record to the ring's next slot, unless the slot holds one whose V is 1. -/
def putRecord (n id : Nat) (ws : List Word) : M Bool := do
  let ag := recordAgent n id
  let s ← get
  let sva := recordSlot s n
  let old ← match ← placeOf ag accWrite sva 64 sva with
    | .hole _ => pure []
    | .hbm x => pure (Tab.getMany 0 s.mem.hbm (localOf x.pa) 8)
    | .win cl off => pure (clRead s cl off 8).1
    | .remote pa => do
      let t ← remoteReq ag kRead tRdReq pa 8 0 (place 8 8 0) []
      pure (← remoteAns t accRead sva).1
  if (ofLe old).testBit 1 then return false
  writeVa ag sva (recordBytes s n ws) false
  return true

/-- The next slot lies in a basin of a context that does not hold the pound, so its record waits for the context. -/
def slotAway (s : State) (n : Nat) : Bool :=
  match xlate s n accWrite (recordSlot s n) with
  | .ok x => chipOf x.pa == s.cfg.chipNum && (windowOf (localOf x.pa)).isSome && !holds s n
  | .error _ => false

/-- Writes the waiting records of a context, oldest first, as far as they go; a record that faults is dropped. -/
def pumpRecords (n : Nat) : Nat → State → State
  | 0, s => s
  | f + 1, s =>
    match (gCtx s n).fltPend with
    | [] => s
    | (id, ws) :: r =>
      if slotAway s n then s
      else
        let pop (s : State) : State := uCtx (dropReqs s id) n (fun c => { c with fltPend := r ++ c.fltPend.drop (r.length + 1) })
        match putRecord n id ws { s with racc := 0 } with
        | .ok true s' => pumpRecords n f (recordDone (pop { s' with racc := 0 }) n)
        | .ok false s' => pumpRecords n f (dropRecord (pop { s' with racc := 0 }) n)
        | .error .wait s' => keepNet s s'
        | .error _ s' => pumpRecords n f (dropRecord (pop (keepNet s s')) n)

/-- Writes the waiting records of every context. -/
def allRecords (s : State) : State :=
  ((List.range 64).filter (fun n => !(gCtx s n).fltPend.isEmpty)).foldl (fun s n => pumpRecords n ((gCtx s n).fltPend.length + 1) s) s

end Sys2Proof.Machine
end

