-- ==== Sys2Proof/Machine/Ops.lean ====
section
/-! DEFINITION. Shared operations of the agents: threads wherever they are kept, the end of an operation, error records, trace
packets, and submission to queues (spec/04, spec/07, spec/17). -/

namespace Sys2Proof.Machine

/-! ## Threads of a context, live or kept (R63) -/

/-- The threads of a context are live on the cores. -/
def isLive (s : State) (n : Nat) : Bool := s.rot.holder == some n

def ctxTh (s : State) (n key : Nat) : Thread :=
  if isLive s n then gTh s key else Tab.get {} (gCtx s n).sch.threads key

def uCtxTh (s : State) (n key : Nat) (f : Thread → Thread) : State :=
  if isLive s n then uTh s key f
  else uCtx s n (fun c => { c with sch := { c.sch with threads := Tab.modify {} c.sch.threads key f } })

/-- Completion subtracts 1 from a mooring flag (R132). -/
def lowerFlag (s : State) (n key mf : Nat) : State :=
  uCtxTh s n key (fun t => { t with m := Tab.modify 0 t.m mf (· - 1) })

/-- An operation that names a flag raises its count (R132). -/
def raiseFlag (s : State) (n key mf : Nat) : State :=
  uCtxTh s n key (fun t => { t with m := Tab.modify 0 t.m mf (· + 1) })

/-- Changes a hart of a context, live or kept (R165; spec/05 Corners: counts survive the switch). -/
def uCtxHart (s : State) (n h : Nat) (f : Hart → Hart) : State :=
  if isLive s n then uHart s h f
  else uCtx s n (fun c => { c with sch := { c.sch with harts := Tab.modify {} c.sch.harts h f } })

/-- Tells the owner of an operation that it has ended (R132, R160, R161). -/
def endOwner (s : State) (n : Nat) (dropped : Bool) : Owner → State
  | .thread key mf _ => if dropped then s else lowerFlag s n key mf
  | .hart h => uCtxHart s n h (fun x => { x with out := x.out - 1 })
  | .none => s

/-- The fields of a fault record that name an owner. -/
def ownerAgent (ag : Agent) : Owner → Agent
  | .thread key _ _ => { ag with cluster := key / 64, core := key / 8 % 8, thread := key % 8 }
  | .hart h => { ag with hart := h }
  | .none => ag

/-- The Yoren thread as an agent (R191). -/
def threadAgent (n key : Nat) (pc : BitVec 32) (id : Nat) : Agent :=
  { id := id, ctx := n, kind := 0, cluster := key / 64, core := key / 8 % 8, thread := key % 8, detail := BitVec.ofNat 64 pc.toNat, cls := 1 }

/-- An operation ends with an error code: the record, and the context enters Faulted with it at the next tick (R216, R265, R287). -/
def failOp (s : State) (ag : Agent) (code : Code) : State := faultAtTick (errRecord s ag code) ag.ctx code

/-! ## Trace (R546 to R563) -/

/-- The buffer's address and size. -/
def tjBase (t : Trace) : Nat := t.bufLo.toNat * 4096 + t.bufHi.toNat * 2 ^ 32
def tjSize (t : Trace) : Nat := 4096 * 2 ^ t.size.toNat

/-- Writes 16 bytes through the context's page tables; packets are never faults (R559). -/
def tjStore (s : State) (n va : Nat) (b : Bytes) : State :=
  match xlate s n accWrite va with
  | .error _ => s
  | .ok x =>
    if chipOf x.pa != s.cfg.chipNum || ctxPageEnd ≤ localOf x.pa then s
    else (hbmWrite (fillHole (touchLeaf s x true) x va) n (localOf x.pa) b false).1

/-- Trace moves to DONE and raises vector 3 (R558, R563). -/
def tjDone (s : State) (n : Nat) : State :=
  raiseCtx (uCtx s n (fun c => { c with tj := { c.tj with state := 3 } })) n 3

/-- Counts packets written (R564, R569). -/
def tjCount (s : State) (n : Nat) : State :=
  let t := (gCtx s n).tj
  let sat := t.sat || sat64 t.pkt 1
  satNotice (uCtx s n (fun c => { c with tj := { c.tj with pkt := bump64 t.pkt 1, sat := sat } })) n t.sat sat (0x16000 + n * 0x40 + 0x20) 0

/-- Writes one packet at WPTR and moves it; MODE 0 wraps, flips the phase and raises vector 3. -/
def tjPut (s : State) (n : Nat) (w0 w1 : Word) : State :=
  let t := (gCtx s n).tj
  let s := tjStore s n (tjBase t + t.wptr.toNat) (wordBytes w0 ++ wordBytes w1)
  let s := tjCount s n
  let next := t.wptr.toNat + 16
  if next < tjSize t then uCtx s n (fun c => { c with tj := { c.tj with wptr := BitVec.ofNat 30 next } })
  else
    let s := uCtx s n (fun c => { c with tj := { c.tj with wptr := 0, wph := !c.tj.wph } })
    if t.ctrl.getLsbD 10 then s else raiseCtx s n 3

/-- The packet header (R549). -/
def tjHead (src ptype delta : Nat) (low : Word) : Word := place src 63 54 ||| place ptype 53 50 ||| place delta 49 38 ||| (low &&& BitVec.ofNat 64 (2 ^ 38 - 1))

/-- A source's packet goes to the buffer while trace runs: with an EXT packet after it when the delta is 4,095 or more (R551). In
MODE 1 a packet that leaves no room for the final LOSS packet ends the trace; it and its EXT are counted in that LOSS (R560). -/
def tjEmit (s : State) (n src ptype : Nat) (low w1 : Word) : State :=
  let t := (gCtx s n).tj
  if t.state != 2 then s
  else
    let (i, s) := freshFree s
    let delta := Config.traceDelta i
    let count := if 4095 ≤ delta then 2 else 1
    let room := tjSize t - t.wptr.toNat
    if t.ctrl.getLsbD 10 && room < 16 * (count + 1) then
      let s := uCtx s n (fun c => { c with tj := { c.tj with loss := bump16 c.tj.loss count } })
      tjDone (tjPut s n (tjHead 473 7 0 (BitVec.ofNat 64 src)) (BitVec.ofNat 64 count)) n
    else
      let s := tjPut s n (tjHead src ptype (min delta 4095) low) w1
      if 4095 ≤ delta then tjPut s n (tjHead src 15 0 0) (BitVec.ofNat 64 delta) else s

/-- The trace takes a kind of source on a cluster (R564): bit 12 Yoren, 13 harbor, 14 barge, 15 codec. -/
def tjWants (s : State) (n bit : Nat) (cl : Option Nat) : Bool :=
  let t := (gCtx s n).tj
  t.state == 2 && t.ctrl.getLsbD bit && (match cl with | none => true | some c => t.clmask.getLsbD c)

/-- The source of a barge engine: a cluster's, or the I/O tile's (R546). -/
def bargeSrc (cl : Nat) : Nat := if cl < 48 then 400 + cl else 448

/-- A BARGE packet (R550, R553). -/
def tjBarge (s : State) (n cl event queue : Nat) (code : Code) (tag bytes : Nat) : State :=
  if tjWants s n 14 (if cl < 48 then some cl else none) then
    tjEmit s n (bargeSrc cl) 4 (place event 37 34 ||| place queue 33 17 ||| place code.toNat 7 0) (place tag 63 32 ||| place bytes 31 0)
  else s

/-- A CODEC packet. -/
def tjCodec (s : State) (n lane event fmt : Nat) (code : Code) (inp outp : Nat) : State :=
  if tjWants s n 15 none then
    tjEmit s n (449 + lane) 5 (place event 37 34 ||| place fmt 33 30 ||| place code.toNat 7 0) (place inp 63 32 ||| place outp 31 0)
  else s

/-- A YADDR packet for a thread: COUNT is the run since its last packet (R552). -/
def tjYoren (s : State) (n key reason segId pc : Nat) : State :=
  if tjWants s n 12 (some (key / 64)) then
    let run := Tab.get 0 (gCtx s n).tj.runs key
    let s := tjEmit s n (key / 8) 2 (place (key % 8) 37 35 ||| place run 34 22 ||| place reason 21 20) (place (if reason = 0 then segId else 0) 63 32 ||| place pc 31 0)
    uCtx s n (fun c => { c with tj := { c.tj with runs := Tab.set 0 c.tj.runs key 0 } })
  else s

/-- One more bundle of a thread's run; at 8,191 a packet (R552). -/
def tjRun (s : State) (n key pc : Nat) : State :=
  if tjWants s n 12 (some (key / 64)) then
    let s := uCtx s n (fun c => { c with tj := { c.tj with runs := Tab.modify 0 c.tj.runs key (· + 1) } })
    if 8191 ≤ Tab.get 0 (gCtx s n).tj.runs key then tjYoren s n key 2 0 pc else s
  else s

/-- A HADDR packet for a hart. -/
def tjHarbor (s : State) (n h reason : Nat) (pc : Word) : State :=
  if tjWants s n 13 none then
    let key := 1000000 + h
    let run := Tab.get 0 (gCtx s n).tj.runs key
    let s := tjEmit s n (384 + h) 3 (place run 37 24 ||| place reason 23 22) pc
    uCtx s n (fun c => { c with tj := { c.tj with runs := Tab.set 0 c.tj.runs key 0 } })
  else s

/-- One more instruction of a hart's run; at 16,383 a packet. -/
def tjHartRun (s : State) (n h : Nat) (pc : Word) : State :=
  if tjWants s n 13 none then
    let key := 1000000 + h
    let s := uCtx s n (fun c => { c with tj := { c.tj with runs := Tab.modify 0 c.tj.runs key (· + 1) } })
    if 16383 ≤ Tab.get 0 (gCtx s n).tj.runs key then tjHarbor s n h 2 pc else s
  else s

/-! ## Counters of a context's blocks -/

/-- BE_ BYTES and TAINT (R249). -/
def countBe (s : State) (n bytes tainted : Nat) : State :=
  let b := (gCtx s n).be
  let s0 := b.sat.getLsbD 0
  let s1 := b.sat.getLsbD 1
  let n0 := s0 || sat64 b.bytes bytes
  let n1 := s1 || sat64 b.taint tainted
  let s := uCtx s n (fun c => { c with be := { c.be with bytes := bump64 b.bytes bytes, taint := bump64 b.taint tainted, sat := BitVec.ofNat 2 (b2n n0 + 2 * b2n n1) } })
  let s := satNotice s n s0 n0 (0x9000 + n * 0x40) 0
  satNotice s n s1 n1 (0x9000 + n * 0x40 + 8) 0

/-- TP_ DONE (R251). -/
def countTp (s : State) (n : Nat) : State :=
  let t := (gCtx s n).tp
  let sat := t.sat || sat64 t.done 1
  satNotice (uCtx s n (fun c => { c with tp := { c.tp with done := bump64 t.done 1, sat := sat } })) n t.sat sat (0xB000 + n * 0x40) 0

/-- WEIR_ HELD of a group (R250). -/
def countHeld (s : State) (n g k : Nat) : State :=
  if k = 0 then s else
    let c := gCtx s n
    let w := Tab.get {} c.weirs g
    let sat := c.weirSat || sat64 w.held k
    satNotice (uCtx s n (fun c => { c with weirs := Tab.set {} c.weirs g { w with held := bump64 w.held k }, weirSat := sat })) n c.weirSat sat (0xA000 + n * 0x40 + 0xC) g

/-- FL_ STALL (R252). -/
def countStall (s : State) (n k : Nat) : State :=
  let f := (gCtx s n).fl
  let sat := f.sat || sat64 f.stall k
  satNotice (uCtx s n (fun c => { c with fl := { c.fl with stall := bump64 f.stall k, sat := sat } })) n f.sat sat (0xC000 + n * 0x40 + 8) 0

/-- Counts the cycles of a wait on a gate. -/
def countDaWait (s : State) (n k : Nat) : State :=
  let d := (gCtx s n).da
  let was := d.sat.getLsbD 1
  let now := was || sat64 d.wait k
  let s := uCtx s n (fun c => { c with da := { c.da with wait := bump64 d.wait k, sat := if now then c.da.sat ||| 2 else c.da.sat } })
  satNotice s n was now (0x11000 + n * 0x40 + 8) 0

/-- A wait on a gate is over, open or cancelled: its cycles are counted (R360). -/
def gateCount (s : State) (n : Nat) : State :=
  let (i, s) := freshFree s
  countDaWait s n (Config.waitCycles i)

/-- The tainted pieces of a write. -/
def taintedOf (ps : List (Bytes × Bool)) : Nat := (ps.filter (·.2)).length

/-- Reads a 64-byte descriptor or command at a basin offset through the unit port (R263, R284): a code when it is not there. -/
def fetchBasin (s : State) (n cl off len : Nat) : Except Code (Bytes × Bool) × State :=
  if off % 64 != 0 || !inBasin s n cl off len then (.error eRange, s)
  else
    let u := unwritten s cl off len
    if 0 < u && isExpert s n then (.error eUninit, s)
    else
      let (b, t, s) := clRead (countUninit s n u) cl off len
      (.ok (b, t), s)

end Sys2Proof.Machine
end

