-- ==== Sys2Proof/Machine/Barge.lean ====
section
/-! DEFINITION. Barge queues, the towpath and the flight descriptor (spec/07_barges_towpath_and_flights.md): submission, the checks
of a descriptor, how a barge moves its bytes, persistent rounds, and the ends of barges and transfers. -/

namespace Sys2Proof.Machine

/-! ## Queues (R208 to R212) -/

/-- The bytes of a berth (R211). -/
def berthSize (bshift : Nat) : Nat := 256 * 2 ^ bshift

/-- The logical cluster of a queue; none for the I/O tile's (R208). -/
def queueCluster (q : Nat) : Option Nat := if q < 98304 then some (q / 2048) else none

/-- A queue is assigned to a context (R209). -/
def ownQueue (s : State) (n q : Nat) : Bool := (gQueue s q).ctx == some n

/-- A queue has room for a descriptor (R210). -/
def queueRoom (s : State) (q : Nat) : Bool := decide ((gQueue s q).descs.length < 256)

/-! ## The descriptor (R213 to R215) -/

def dWord (d : Bytes) (i : Nat) : Word := wordAt d (8 * i)
def bType (d : Bytes) : Nat := fld (dWord d 0) 63 56
def bClass (d : Bytes) : Nat := fld (dWord d 0) 55 54
def bPersist (d : Bytes) : Bool := bitOf (dWord d 0) 53
def bIdxW (d : Bytes) : Nat := fld (dWord d 0) 49 48
def bDl (d : Bytes) : Nat := fld (dWord d 0) 47 32
def bTag (d : Bytes) : Nat := fld (dWord d 0) 31 0
def bSrc (d : Bytes) : Nat := fld (dWord d 1) 47 0
def bDst (d : Bytes) : Nat := fld (dWord d 2) 47 0
def bCount (d : Bytes) : Nat := fld (dWord d 3) 63 32
def bSize (d : Bytes) : Nat := fld (dWord d 3) 31 0
def bDstStride (d : Bytes) : Int := sgn 32 (fld (dWord d 4) 63 32)
def bSrcStride (d : Bytes) : Int := sgn 32 (fld (dWord d 4) 31 0)
def bIdx (d : Bytes) : Nat := fld (dWord d 5) 47 0
def bLimit (d : Bytes) : Nat := fld (dWord d 6) 39 0
def bRearm (d : Bytes) : Nat := fld (dWord d 7) 47 0
/-- Relay: the basin and the offset of DST, the chain. -/
def bBasin (d : Bytes) : Nat := fld (dWord d 2) 36 32
def bOffset (d : Bytes) : Nat := fld (dWord d 2) 22 0

/-- The clusters of a relay in order: the issuing one, then those of CHAIN above it, wrapping through 0 (R243). -/
def relayChain (d : Bytes) (cl : Nat) : List Nat :=
  cl :: (List.range 47).filterMap (fun i => let c := (cl + 1 + i) % 48; if (bIdx d).testBit c then some c else none)

/-- A relay's range lies inside the basin on every cluster of the chain (R243). -/
def relayOk (s : State) (n : Nat) (d : Bytes) (cl : Nat) : Bool :=
  decide (cl < 48) && (relayChain d cl).all (fun c =>
    match (basinsOf s n c)[bBasin d]? with
    | some b => decide (bOffset d + bSize d ≤ b.size)
    | none => false)

/-- The re-arm record lies in the declared live set of the issuing cluster (R228). -/
def rearmOk (s : State) (n : Nat) (d : Bytes) (cl : Nat) : Bool :=
  (basinsOf s n cl).any (fun b =>
    decide (b.va.toNat + b.liveOff ≤ bRearm d) && decide (bRearm d + 64 ≤ b.va.toNat + b.liveOff + b.liveLen))

/-- A multiple of 4. -/
def by4 (x : Nat) : Bool := x % 4 == 0

/-- R215: whether a descriptor is accepted, on a queue of a mode. -/
def bargeOk (s : State) (n : Nat) (weir : Bool) (cl : Nat) (d : Bytes) : Bool :=
  let w := dWord d
  let ty := bType d
  d.length == 64 && fld (w 0) 52 50 == 0 && fld (w 1) 63 48 == 0 && fld (w 2) 63 48 == 0 && fld (w 5) 63 48 == 0 && fld (w 7) 63 48 == 0 &&
  1 ≤ ty && ty ≤ 5 && 1 ≤ bClass d && bCount d != 0 && bSize d != 0 &&
  (bPersist d || w 7 == 0) && (!bPersist d || rearmOk s n d cl) &&
  (weir || ((w 2 == 0) && bDstStride d == 0)) &&
  (match ty with
    | 1 => bCount d == 1 && w 4 == 0 && w 5 == 0 && w 6 == 0 && bIdxW d == 0
    | 2 => w 5 == 0 && w 6 == 0 && bIdxW d == 0 && by4 (bSize d) && bSize d ≤ 65536 && by4 (bSrc d) && by4 (bDst d) &&
        by4 (fld (w 4) 63 32) && by4 (fld (w 4) 31 0)
    | 3 => bIdxW d != 3 && fld (w 6) 63 40 == 0 && by4 (bSize d) && bSize d ≤ 65536 && by4 (bSrc d) && by4 (bDst d) &&
        by4 (fld (w 4) 63 32) && by4 (fld (w 4) 31 0)
    | 4 => bCount d == 1 && w 1 == 0 && w 4 == 0 && w 5 == 0 && bIdxW d == 0 && bSize d % 8 == 0
    | _ => bCount d == 1 && w 4 == 0 && w 6 == 0 && bIdxW d == 0 && fld (w 2) 47 37 == 0 && fld (w 2) 31 23 == 0 && relayOk s n d cl)

/-- The agent of a barge (R191). -/
def bargeAgent (n q cl id : Nat) (cls : Nat) (o : Owner) : Agent :=
  ownerAgent { id := id, ctx := n, kind := 1, cluster := if cl < 48 then cl else 63, detail := BitVec.ofNat 64 q, cls := cls } o

/-- A VA range lies in one basin of a cluster (R219, R237). -/
def vaInBasin (s : State) (n cl va len : Nat) : Bool :=
  (basinsOf s n cl).any (fun b => decide (b.va.toNat ≤ va) && decide (va + len ≤ b.va.toNat + b.size))

/-- The ring of a berth-mode queue lies in one basin of the queue's cluster (R219); a queue of the I/O tile has no cluster. -/
def queueRingOk (s : State) (n q : Nat) : Bool :=
  let x := gQueue s q
  match queueCluster q with
  | some c => x.weir || vaInBasin s n c x.ring.toNat (64 + x.berths * berthSize x.bshift)
  | none => true

/-- Checks a submission: the code that rejects it, or none (R209, R215, R219, R567). A BSUB names a queue of its cluster; an HBSUB a queue
of the I/O tile, which serves harbor submissions (R208). `cl` is the issuing cluster, or 63 for the I/O tile. -/
def bargeReject (s : State) (n q cl : Nat) (d : Bytes) : Option Code :=
  let own := ownQueue s n q
  let astray := if cl < 48 then decide (98304 ≤ q) || q / 2048 != cl else own && decide (q < 98304)
  if astray || !bargeOk s n (if own then (gQueue s q).weir else true) cl d || (own && !queueRingOk s n q) then some eRange
  else if !own then some eDenied
  else none

/-- Puts an accepted descriptor into its queue (R210). -/
def enqueueBarge (s : State) (n q cl : Nat) (o : Owner) (d : Bytes) : State :=
  let (id, s) := freshId s
  let s := tjBarge s n cl 0 q 0 (bTag d) 0
  uQueue s q (fun x => { x with descs := x.descs ++ [{ id := id, owner := o, ctx := n, d := d, pIssue := s.tick.pound, cl := cl }] })

/-- A BSUB (R215, R216): the flag is raised by its issue; a rejection lowers it and writes a record. -/
def submitBarge (s : State) (n q cl : Nat) (o : Owner) (d : Except Code Bytes) : State :=
  match (match d with | .error c => some c | .ok d => bargeReject s n q cl d), d with
  | some c, _ =>
    let s := if (gQueue s q).ctx = some n then uQueue s q (fun x => { x with lastErr := c }) else s
    let s := tjBarge s n cl 5 q c 0 0
    endOwner (failOp s (bargeAgent n q cl 0 1 o) c) n false o
  | none, .ok d => enqueueBarge s n q cl o d
  | none, .error _ => s

/-! ## Berths (R219 to R221) -/

/-- BREL (R221). -/
def returnBerths (s : State) (n q cl : Nat) (k : Word) : State :=
  let x := gQueue s q
  if q / 2048 != cl || 98304 ≤ q then failOp s (bargeAgent n q cl 0 1 .none) eRange
  else if x.ctx != some n then failOp s (bargeAgent n q cl 0 1 .none) eDenied
  else if x.berths < x.free + k.toNat then uQueue s q (fun x => { x with creditErr := bump16 x.creditErr 1, lastErr := eCredit })
  else uQueue s q (fun x => { x with free := x.free + k.toNat, returned := x.returned + k.toNat })

/-- FILLED in word 0 of a ring header: a 64-bit count that stops at its top (R220, R569). -/
def bumpFilled (ag : Agent) (ring k : Nat) : M Unit := do
  let (b, t) ← readVa ag ring 8
  writeVa ag ring (leBytes (min (ofLe b + k) (2 ^ 64 - 1)) 8) t

/-! ## How a barge moves its bytes (R214, R217, R245) -/

/-- Where the next piece of a barge goes: its row, its offset in the row, its address, its length. -/
structure BPiece where
  row : Nat
  off : Nat
  dst : Nat
  len : Nat
deriving DecidableEq, Repr

/-- The piece at position `pos`: it crosses no 64-byte granule of the destination, no row and no berth (R219). -/
def bargePiece (x : BQueue) (d : Bytes) (pos : Nat) : BPiece :=
  let row := pos / bSize d
  let off := pos % bSize d
  if x.weir then
    let dst := (((bDst d : Int) + row * bDstStride d + off) % 2 ^ 64).toNat
    { row := row, off := off, dst := dst, len := min (bSize d - off) (64 - dst % 64) }
  else
    let bs := berthSize x.bshift
    let dst := x.ring.toNat + 64 + ((x.writePt + pos / bs) % x.berths) * bs + pos % bs
    { row := row, off := off, dst := dst, len := min (min (bSize d - off) (bs - pos % bs)) (64 - dst % 64) }

/-- What a piece carries: bytes, taint, and whether its index was out of range (R214, R217). -/
def bargeBytes (ag : Agent) (d : Bytes) (p : BPiece) : M (Bytes × Bool × Bool) := do
  match bType d with
  | 3 =>
    let w := 2 * 2 ^ bIdxW d
    let (ib, it) ← readVa ag (bIdx d + p.row * w) w
    let i := ofLe ib
    if i = 2 ^ (8 * w) - 1 then return (List.replicate p.len 0, it, false)
    else if bLimit d ≤ i then return (List.replicate p.len 0, it, p.off == 0)
    else
      let (b, t) ← readVa ag (((bSrc d : Int) + i * bSrcStride d + p.off) % 2 ^ 64).toNat p.len
      return (b, t || it, false)
  | 4 => return (List.ofFn (fun (i : Fin p.len) => (slice (wordBytes (dWord d 6)) ((p.off + i.val) % 8) 1).headD 0), false, false)
  | _ =>
    let (b, t) ← readVa ag (((bSrc d : Int) + p.row * bSrcStride d + p.off) % 2 ^ 64).toNat p.len
    return (b, t, false)

/-- The length of a relay's piece: it crosses no granule of its destinations, whose basins begin at granule bounds (R175, R245). -/
def relayLen (d : Bytes) (pos : Nat) : Nat := min (bSize d - pos) (64 - (bOffset d + pos) % 64)

/-- One piece of a barge, whole or not at all: how many tainted granules it wrote, whether its index was out of range. A relay
writes every cluster of its chain. -/
def bargeMove (ag : Agent) (x : BQueue) (desc : BDesc) : M (Nat × Bool) := do
  let d := desc.d
  if bType d = 5 then
    let len := relayLen d desc.pos
    let (b, t) ← readVa ag (bSrc d + desc.pos) len
    (relayChain d desc.cl).forM (fun c => do
      let s ← get
      match (basinsOf s desc.ctx c)[bBasin d]? with
      | some bs => set (clWrite s c (bs.base + bOffset d + desc.pos) b t)
      | none => throw (.code eRange))
    return (if t then (relayChain d desc.cl).length else 0, false)
  else
    let p := bargePiece x d desc.pos
    let (b, t, oob) ← bargeBytes ag d p
    writeVa ag p.dst b t
    if !x.weir then
      let bs := berthSize x.bshift
      let last := desc.pos + p.len == bSize d * bCount d
      if (desc.pos + p.len) % bs = 0 || last then bumpFilled ag x.ring.toNat 1
    return (b2n t, oob)

/-- Length of the piece that `bargeMove` moves. -/
def bargeStep (x : BQueue) (desc : BDesc) : Nat :=
  if bType desc.d = 5 then relayLen desc.d desc.pos else (bargePiece x desc.d desc.pos).len

/-- The destination granule of a barge's next piece, + 1; a relay's piece counts by its offset. -/
def bargeGran (x : BQueue) (desc : BDesc) : Nat :=
  1 + (if bType desc.d = 5 then bOffset desc.d + desc.pos else (bargePiece x desc.d desc.pos).dst) / 64

/-- The deadline of a barge has passed and is not counted yet (R227). -/
def overdue (s : State) (desc : BDesc) : Bool :=
  bDl desc.d != 0 && !desc.missed && !desc.complete && decide (desc.pIssue.toNat + bDl desc.d < s.tick.pound.toNat)

/-- A barge ends: a deadline that passed in slack water is counted now (R227, spec/07 Corners). -/
def countLate (s : State) (q : Nat) (desc : BDesc) : State :=
  if overdue s desc then uQueue s q (fun x => { x with dlMiss := bump16 x.dlMiss 1 }) else s

/-- A barge ends before its last byte: the berths that it took stay taken, and the write point moves past them (R219). -/
def leaveBerths (s : State) (q : Nat) (desc : BDesc) : State :=
  uQueue s q (fun x => { x with writePt := if x.weir || bType desc.d = 5 then x.writePt else (x.writePt + ceilDiv desc.pos (berthSize x.bshift)) % max 1 x.berths })

/-- Changes the descriptor at the front of a queue. -/
def uFront (s : State) (q : Nat) (f : BDesc → BDesc) : State :=
  uQueue s q (fun x => { x with descs := match x.descs with | [] => [] | a :: r => f a :: r })

/-- Takes the front descriptor off its queue. -/
def popFront (s : State) (q : Nat) : State := uQueue s q (fun x => { x with descs := x.descs.drop 1 })

/-- The relay receipt counts of a context (R357). -/
def addRelay (s : State) (n : Nat) (cls : List Nat) : State :=
  uCtx s n (fun c => { c with da := { c.da with relay := cls.foldl (fun t k => Tab.modify 0 t k (· + 1)) c.da.relay } })

/-- A barge, or a round of a persistent one, has moved its last byte (R227, R229, R243, R357). -/
def bargeDone (s : State) (q : Nat) (desc : BDesc) : State :=
  let n := desc.ctx
  let d := desc.d
  let total := bSize d * bCount d
  let (i, s) := freshFree s
  let s := if (gQueue s q).weir then countHeld s n (gQueue s q).weirGrp (Config.weirHeld i) else s
  let s := uQueue (countLate s q desc) q (fun x => { x with
    count := x.count + 1
    writePt := if x.weir || bType d = 5 then x.writePt else (x.writePt + ceilDiv total (berthSize x.bshift)) % x.berths })
  let s := if (gQueue s q).count = 0 then faultAtTick s n eRange else s
  let s := if bType d = 5 then addRelay s n (relayChain d desc.cl) else s
  let s := tjBarge s n desc.cl 2 q 0 (bTag d) total
  let s := if desc.round = 0 then endOwner s n false desc.owner else s
  if bPersist d then uFront s q (fun x => { x with complete := true, pos := 0, round := x.round + 1 }) else popFront s q

/-- A barge ends with an error code (R216). -/
def bargeFail (s : State) (q : Nat) (desc : BDesc) (code : Code) : State :=
  let n := desc.ctx
  let s := uQueue (leaveBerths (countLate s q desc) q desc) q (fun x => { x with lastErr := code })
  let s := popFront (failOp s (bargeAgent n q desc.cl desc.id (bClass desc.d) desc.owner) code) q
  let s := tjBarge s n desc.cl 5 q code (bTag desc.d) 0
  if desc.round = 0 then endOwner s n false desc.owner else s

/-- Runs the front barge of a queue until it ends, waits for a berth or an answer, or faults. -/
def runBarge (q : Nat) : Nat → State → State
  | 0, s => s
  | k + 1, s =>
    let x := gQueue s q
    match x.descs with
    | [] => s
    | desc :: _ =>
      let d := desc.d
      let total := bSize d * bCount d
      if desc.complete || !holds s desc.ctx then s
      else if total ≤ desc.pos then bargeDone s q desc
      else
        let bs := berthSize x.bshift
        let needs := !x.weir && bType d != 5 && desc.pos % bs == 0
        if needs && x.free == 0 then s
        else
          let ag := bargeAgent desc.ctx q desc.cl desc.id (bClass d) desc.owner
          let len := bargeStep x desc
          let s' := runOp s ag (bargeMove ag x desc)
            (fun (t, oob) s =>
              let s := if desc.pos = 0 then tjBarge s desc.ctx desc.cl 1 q 0 (bTag d) 0 else s
              let g := bargeGran x desc
              let s := countBe s desc.ctx len (if g = desc.tgran then 0 else t)
              uFront (uQueue s q (fun x => { x with
                free := if needs then x.free - 1 else x.free
                idxOob := if oob then bump16 x.idxOob 1 else x.idxOob })) q (fun x => { x with pos := x.pos + len, tgran := if t = 0 then 0 else g }))
            (fun c s => bargeFail s q desc c)
          if (gQueue s' q).descs.head?.map (·.pos) = some desc.pos then
            if isParked s' desc.id && !isParked s desc.id then tjBarge s' desc.ctx desc.cl 3 q 0 (bTag d) 0 else s'
          else if (gQueue s' q).descs.head?.map (·.id) = some desc.id then runBarge q k s'
          else s'

/-- The work that a barge has left, as fuel. -/
def bargeFuel (s : State) (q : Nat) : Nat :=
  match (gQueue s q).descs with
  | [] => 0
  | x :: _ => bSize x.d * bCount x.d + 2

/-- Taints a granule of another chip: a write that enables none of its bytes and carries its taint (R142, R407). -/
def taintRemote (s : State) (n cls pa : Nat) : State :=
  if !chipPresent s (chipOf pa) then s
  else
    let (id, s) := freshId s
    sendReq s { id := id, ctx := n, cls := cls } kTaint tWrReq (pa / 64 * 64) 64 0 1 (chipOf pa) (place 64 8 0 ||| place 1 9 9)
      (maskBytes [] ++ List.replicate 64 0)

/-- The destination granules that a barge has not written are tainted and left unchanged (R253): by address, whole granules. -/
def taintVa (s : State) (n cls va : Nat) : State :=
  match xlate s n accWrite va with
  | .error _ => s
  | .ok x =>
    if chipOf x.pa != s.cfg.chipNum then taintRemote s n cls x.pa
    else match windowOf (localOf x.pa) with
      | some (cl, off) => uMem s (fun m => clTaint m (clKey cl off))
      | none => let s := fillHole s x va; uMem s (fun m => { m with taint := Tab.set false m.taint (localOf x.pa / 64) true })

/-- Taints what is left of a barge's destination. -/
def taintRest (x : BQueue) (desc : BDesc) : Nat → Nat → State → State
  | 0, _, s => s
  | k + 1, pos, s =>
    if bSize desc.d * bCount desc.d ≤ pos then s
    else
      let p := bargePiece x desc.d pos
      taintRest x desc k (pos + max 1 p.len) (taintVa s desc.ctx (bClass desc.d) p.dst)

/-! ## Persistent rounds at the tick (R228 to R230) -/

/-- Retires a persistent barge; one whose first round still runs lowers the flag of its segment (R229). -/
def retire (s : State) (q : Nat) (desc : BDesc) : State :=
  let s := if desc.complete then s else leaveBerths (countLate s q desc) q desc
  let s := uQueue s q (fun x => { x with descs := x.descs.filter (fun y => y.id != desc.id) })
  let s := { s with faults := s.faults.filter (fun f => f.id != desc.id) }
  if desc.round = 0 then endOwner s desc.ctx false desc.owner else s

/-- The descriptor with the bases of a re-arm record; a base that its TYPE does not use, and a relay's CHAIN, stay (R228, R230). -/
def rearmed (weir : Bool) (d r : Bytes) : Bytes :=
  let ty := bType d
  d.take 8 ++ (if ty = 4 then slice d 8 8 else slice r 8 8) ++ (if weir || ty = 5 then slice r 16 8 else slice d 16 8) ++
    slice d 24 16 ++ (if ty = 3 then slice r 24 8 else slice d 40 8) ++ d.drop 48

/-- The re-arm record of a persistent barge at a tick (R229, R230). -/
def rearmOne (s : State) (q : Nat) (desc : BDesc) : State :=
  let n := desc.ctx
  let d := desc.d
  let ag := bargeAgent n q desc.cl 0 (bClass d) desc.owner
  runOp s ag (readVa ag (bRearm d) 64)
    (fun (r, _) s =>
      let w := dWord r
      let bad := fld (w 0) 61 0 != 0 || fld (w 1) 63 48 != 0 || fld (w 2) 63 48 != 0 || fld (w 3) 63 48 != 0 || w 5 != 0 || w 6 != 0 || w 7 != 0
      let d' := rearmed (gQueue s q).weir d r
      let reject (s : State) : State := retire (failOp (uQueue s q (fun x => { x with lastErr := eRange })) ag eRange) q desc
      if bitOf (w 0) 62 then retire s q desc
      else if bad then reject s
      else if !bitOf (w 0) 63 then s
      else if !desc.complete then uQueue s q (fun x => { x with rearmLate := bump16 x.rearmLate 1 })
      else
        if !bargeOk s n (gQueue s q).weir desc.cl d' then reject s
        else
          let s := runOp s ag (writeVa ag (bRearm d) (wordBytes (w 0 &&& ~~~(place 1 63 63))) false) (fun _ s => s) (fun _ s => s)
          let s := tjBarge s n desc.cl 6 q 0 (bTag d) 0
          uQueue s q (fun x => { x with descs := x.descs.map (fun y => if y.id = desc.id then { y with d := d', complete := false, pos := 0, pIssue := s.tick.pound, missed := false, tgran := 0 } else y) }))
    (fun _ s => s)

/-- LAST in the re-arm record: the pound of the last completed round (R228). -/
def writeLast (s : State) (q : Nat) (desc : BDesc) : State :=
  if bPersist desc.d then
    let ag := bargeAgent desc.ctx q desc.cl 0 (bClass desc.d) desc.owner
    runOp s ag (writeVa ag (bRearm desc.d + 32) (wordBytes s.tick.pound) false) (fun _ s => s) (fun _ s => s)
  else s

/-! ## The towpath (R231 to R234) -/

def tOp (d : Bytes) : Nat := fld (dWord d 0) 63 56
def tLen (d : Bytes) : Nat := fld (dWord d 0) 8 0

/-- A range lies within one 64 KiB page. -/
def onePage (va n : Nat) : Bool := va / 65536 == (va + n - 1) / 65536

/-- R232, R233: whether a towpath descriptor is accepted. DATA bytes that OP and LEN do not use are no reserved field and are not
checked (DESIGN CHOICE: R232 does not say). -/
def towOk (d : Bytes) : Bool :=
  let w := dWord d
  let len := tLen d
  d.length == 64 && fld (w 0) 55 9 == 0 && fld (w 1) 63 48 == 0 && fld (w 2) 63 48 == 0 && w 3 == 0 && 1 ≤ len && onePage (bDst d) len &&
  (if tOp d = 1 then len ≤ 256 && onePage (bSrc d) len else tOp d == 2 && len ≤ 32 && w 1 == 0)

def towAgent (n cl id : Nat) (o : Owner) : Agent :=
  ownerAgent { id := id, ctx := n, kind := 2, cluster := if cl < 48 then cl else 63, cls := 0, detail := Config.recordDetail (2 * id) } o

/-- Transfers of a cluster that are outstanding (R231). -/
def towCount (s : State) (cl : Nat) : Nat := (s.tows.filter (fun t => t.cl == cl)).length

/-- A TSUB or an accepted HTSUB. -/
def submitTow (s : State) (n cl : Nat) (o : Owner) (d : Except Code (Bytes × Bool)) : State :=
  match d with
  | .error c => endOwner (failOp s (towAgent n cl 0 o) c) n false o
  | .ok (d, t) =>
    if !towOk d then endOwner (failOp s (towAgent n cl 0 o) eRange) n false o
    else
      let (id, s) := freshId s
      { s with tows := s.tows ++ [{ id := id, owner := o, ctx := n, cl := cl, d := d, taint := t }] }

/-- Performs a towpath transfer, whole or not at all (R233); an inline write takes no taint but its descriptor's. -/
def towMove (ag : Agent) (t : TowOp) : M Unit := do
  let len := tLen t.d
  if tOp t.d = 1 then
    let ps ← readParts ag (bSrc t.d) len
    let bytes := ps.flatMap (·.1)
    let lens := ps.map (fun p => (p.1.length, p.2))
    let marks : List Bool := lens.flatMap (fun (k, f) => List.replicate k f)
    (cut 64 (bDst t.d) len).forM (fun p => do
      let o := p.1 - bDst t.d
      writeVa ag p.1 (slice bytes o p.2) (((marks.drop o).take p.2).any id))
  else writeVa ag (bDst t.d) (slice t.d 32 len) t.taint

/-- A towpath transfer leaves its queue; one on a path whose bound was withdrawn is counted in WDRN, however it ends (R251, R423). -/
def endTow (s : State) (t : TowOp) (wdrn : Bool) : State :=
  let s := { s with tows := s.tows.filter (fun x => x.id != t.id) }
  if wdrn then uCtx s t.ctx (fun c => { c with tp := { c.tp with wdrn := bump16 c.tp.wdrn 1 } }) else s

/-- A towpath transfer is complete: DONE, WDRN, its flag. -/
def towDone (s : State) (t : TowOp) (wdrn : Bool) : State := endOwner (endTow (countTp s t.ctx) t wdrn) t.ctx false t.owner

/-- Some answer to the transfer, or its path, carried WDRN (R423). -/
def towWdrn (s : State) (t : TowOp) : Bool := t.wdrn || s.rtxs.any (fun r => r.owner == t.id && r.wdrn)

/-- Runs a transfer. -/
def runTow (s : State) (t : TowOp) : State :=
  let w := towWdrn s t
  let ag := towAgent t.ctx t.cl t.id t.owner
  runOp s ag (towMove ag t) (fun _ s => towDone s t w)
    (fun c s => endOwner (failOp (endTow s t w) ag c) t.ctx false t.owner)

/-! ## Flights: the descriptor (R235 to R237, R239, R241) -/

def fClass (h : Bytes) : Nat := fld (dWord h 0) 55 54
def fNlast (h : Bytes) : Nat := fld (dWord h 0) 2 0
def fSrcLen (h : Bytes) : Nat := fld (dWord h 3) 31 0
def fDstMax (h : Bytes) : Nat := fld (dWord h 4) 31 0
def fDone (h : Bytes) : Nat := fld (dWord h 5) 47 0
def stUnit (r : Bytes) : Nat := fld (dWord r 0) 55 53
def stCmd (r : Bytes) : Nat := fld (dWord r 0) 47 0
def stRing (r : Bytes) : Nat := fld (dWord r 1) 47 0
def stShift (r : Bytes) : Nat := fld (dWord r 2) 19 16
def stBerths (r : Bytes) : Nat := fld (dWord r 2) 15 0

/-- A ring: its header and berths lie in one basin, its parameters are in range (R211, R219, R237). -/
def ringOk (s : State) (n cl ring shift berths : Nat) : Bool :=
  shift ≤ 8 && 1 ≤ berths && vaInBasin s n cl ring (64 + berths * berthSize shift)

/-- The length of a codec job, Feature, AMU, Order or Dense command is one 64-byte line; so is a Table Unit command. -/
def flightOk (s : State) (n cl : Nat) (h : Bytes) (rs : List Bytes) : Bool :=
  let w := dWord h
  onlyBits (w 0) (msk 55 54 ||| msk 47 32 ||| msk 2 0) && 1 ≤ fClass h && fld (w 1) 63 48 == 0 && fld (w 2) 63 48 == 0 &&
  fld (w 3) 63 32 == 0 && fld (w 4) 63 32 == 0 && fld (w 5) 63 48 == 0 && fld (w 6) 63 48 == 0 && fld (w 7) 63 20 == 0 &&
  ringOk s n cl (fld (w 6) 47 0) (fld (w 7) 19 16) (fld (w 7) 15 0) &&
  rs.all (fun r =>
    onlyBits (dWord r 0) (msk 55 53 ||| msk 47 0) && stUnit r != 7 && fld (dWord r 1) 63 48 == 0 && onlyBits (dWord r 2) (msk 19 0) && dWord r 3 == 0 &&
    ringOk s n cl (stRing r) (stShift r) (stBerths r) && vaInBasin s n cl (stCmd r) 64)

/-- Flights of a cluster: running, held (R239). -/
def flightsRun (s : State) (cl : Nat) : Nat := (s.flights.filter (fun f => f.cl == cl && f.active)).length
def flightsHeld (s : State) (cl : Nat) : Nat := (s.flights.filter (fun f => f.cl == cl && !f.active)).length

def flightAgent (n cl id : Nat) (cls stage : Nat) (o : Owner) : Agent :=
  ownerAgent { id := id, ctx := n, kind := 4, cluster := cl, detail := BitVec.ofNat 64 stage, cls := cls } o

/-- The ring that feeds stage `k` of a flight (R237). -/
def feeder (f : Flight) (k : Nat) : FRing := if k = 0 then f.inRing else match f.stages[k - 1]? with | some p => p.ring | none => {}

/-- Stage `k` of a flight waits for a codec lane: its first berth has arrived, or its input has ended (R238, R367). -/
def wantsLane (f : Flight) (k : Nat) : Bool :=
  match f.stages[k]? with
  | some st =>
    (stUnit st.rec_ == 5 || stUnit st.rec_ == 6) && f.active && f.err.isNone && !st.ring.ended && st.lane.isNone &&
    (!(feeder f k).full.isEmpty || (feeder f k).ended || !st.got.isEmpty)
  | none => false

/-- Brings the list of stages that wait for a lane up to date: new ones join at its end, the lower cluster first (R367). -/
def refreshWait (s : State) : State :=
  let old := s.codecWait.filter (fun w => s.flights.any (fun f => f.id == w.1 && wantsLane f w.2))
  let new := (List.range 48).flatMap (fun c => (s.flights.filter (fun f => f.cl == c)).flatMap (fun f =>
    ((List.range f.stages.length).filter (fun k => wantsLane f k && !(old.contains (f.id, k)))).map (fun k => (f.id, k))))
  { s with codecWait := old ++ new }

/-- The stage that an agent of a flight counts as: the filling of IN_RING as stage 0, the output as the last (R191). -/
def agentStage (f : Flight) (id : Nat) : Nat :=
  if id / 2 ^ 64 = 10 then 0 else if id / 2 ^ 64 = 9 then f.stages.length - 1 else id / 2 ^ 64 - 1

/-- The BARGE packet of an agent that resumes after a fault (R553). -/
def traceResume (s : State) (n id : Nat) : State :=
  match s.queues.find? (fun e => e.2.descs.any (fun d => d.id == id)) with
  | some (q, x) =>
    (match x.descs.find? (fun d => d.id == id) with
      | some d => tjBarge s n d.cl 4 q 0 (bTag d.d) 0
      | none => s)
  | none =>
    match s.flights.find? (fun f => f.id == id % 2 ^ 64 && decide (2 ^ 64 ≤ id)) with
    | some f => tjBarge s n f.cl 4 (agentStage f id) 0 0 0
    | none => s

/-- Puts an accepted flight to its cluster's barge engine; up to 4 run (R239). -/
def enqueueFlight (s : State) (n cl : Nat) (o : Owner) (h : Bytes) (rs : List Bytes) : State :=
  let (id, s) := freshId s
  let go := decide (flightsRun s cl < 4) && flightsHeld s cl == 0
  let f : Flight := { id := id, cl := cl, owner := o, ctx := n, hdr := h, stages := rs.map (fun r => { rec_ := r, ring := { free := stBerths r } }), active := go, pIssue := s.tick.pound, inRing := { free := fld (dWord h 7) 15 0 } }
  let s := { s with flights := s.flights ++ [f] }
  refreshWait (if go then tjBarge s n cl 7 0 0 0 0 else s)

/-- An FSUB: `d` is the header and the stage records, or the code that stopped their fetch (R241). -/
def submitFlight (s : State) (n cl : Nat) (o : Owner) (d : Except Code (Bytes × List Bytes)) : State :=
  match d with
  | .error c => endOwner (failOp s (flightAgent n cl 0 1 0 o) c) n false o
  | .ok (h, rs) =>
    if !flightOk s n cl h rs then endOwner (failOp s (flightAgent n cl 0 1 0 o) eRange) n false o
    else enqueueFlight s n cl o h rs

/-- The next held flight of a cluster starts when one ends. -/
def startFlight (s : State) (cl : Nat) : State :=
  if flightsRun s cl < 4 then
    match s.flights.find? (fun f => f.cl == cl && !f.active) with
    | some f =>
      let s := { s with flights := s.flights.map (fun x => if x.id = f.id then { x with active := true } else x) }
      refreshWait (tjBarge s f.ctx cl 7 0 0 0 0)
    | none => s
  else s

/-! ## Meanings -/

/-- BARGE_COMPLETE (R227): the front barge of a queue runs to its end, or as far as it can. -/
def execBargeComplete (q : BitVec 17) (s : State) : Ans :=
  match (gQueue s q.toNat).descs with
  | [] => .next s
  | d :: _ =>
    let before := (gQueue s q.toNat).count
    let s' := runBarge q.toNat (bargeFuel s q.toNat) s
    .next (if (gQueue s' q.toNat).count = before then s' else writeLast s' q.toNat d)

/-- BARGE_TIMEOUT (R253): a transaction that the front barge issued got no answer for 2 ms: what it has not written is tainted, and it
ends. A barge that waits for a fault, a berth or a token does not time out. -/
def execBargeTimeout (q : BitVec 17) (s : State) : Ans :=
  let x := gQueue s q.toNat
  match x.descs with
  | [] => .next s
  | d :: _ =>
    if holds s d.ctx && !isParked s d.id && s.rtxs.any (fun t => t.owner == d.id && t.st == 0) then
      let s := if bType d.d = 5 then (relayChain d.d d.cl).foldl (fun s c =>
          match (basinsOf s d.ctx c)[bBasin d.d]? with
          | some b => uMem s (fun m => (cut 64 (clKey c (b.base + bOffset d.d + d.pos)) (bSize d.d - d.pos)).foldl (fun m p => clTaint m p.1) m)
          | none => s) s
        else taintRest x d (bSize d.d * bCount d.d + 1) d.pos s
      let s := uCtx s d.ctx (fun c => { c with be := { c.be with tmo := bump16 c.be.tmo 1 } })
      let s := uQueue (leaveBerths (countLate (dropReqs s d.id) q.toNat d) q.toNat d) q.toNat (fun x => { x with lastErr := eTmoBarge })
      let s := popFront s q.toNat
      .next (if d.round = 0 then endOwner s d.ctx false d.owner else s)
    else .next s

/-- TOWPATH_COMPLETE (R233): the transfer is performed and lowers its flag. -/
def execTowpathComplete (id : Nat) (s : State) : Ans :=
  match s.tows.find? (fun t => t.id == id) with
  | some t => if holds s t.ctx then .next (runTow s t) else .next s
  | none => .next s

/-- TOWPATH_TIMEOUT (R234). -/
def execTowpathTimeout (id : Nat) (s : State) : Ans :=
  match s.tows.find? (fun t => t.id == id) with
  | some t =>
    if holds s t.ctx then
      let w := towWdrn s t
      let s := if tOp t.d = 1 then (cut 64 (bDst t.d) (tLen t.d)).foldl (fun s p => taintVa s t.ctx 0 p.1) s else s
      let s := uCtx s t.ctx (fun c => { c with tp := { c.tp with tmo := bump16 c.tp.tmo 1 } })
      let s := endTow { dropReqs s id with faults := s.faults.filter (fun f => f.id != id) } t w
      .next (endOwner s t.ctx false t.owner)
    else .next s
  | none => .next s

end Sys2Proof.Machine
end

