-- ==== Sys2Proof/Machine/Units.lean ====
section
/-! DEFINITION. What the units of a cluster share (spec/07 R235 to R242, spec/08 R265, spec/09 R284 to R287): commands held in arrival
order, positions at which a command parks and resumes, flight stages and the berths they hand on, and how a command ends. -/

namespace Sys2Proof.Machine

/-! ## Pieces of a stream -/

/-- Bytes with the taint of each piece of them. -/
abbrev Parts := List (Bytes × Bool)

/-- The number of bytes of a stream. -/
def partsLen (l : Parts) : Nat := l.foldl (fun a p => a + p.1.length) 0

/-- Reads `n` bytes of a stream from an offset: bytes and the OR of the taints; beyond its end zeros. -/
def partsRead : Parts → Nat → Nat → Bytes × Bool
  | _, _, 0 => ([], false)
  | [], _, n => (List.replicate n 0, false)
  | (b, t) :: r, off, n =>
    if b.length ≤ off then partsRead r (off - b.length) n
    else
      let k := min n (b.length - off)
      let (c, u) := partsRead r 0 (n - k)
      ((b.drop off).take k ++ c, t || u)

/-- A stream cut into 64-byte lines, each tainted when a piece of it is. -/
def linesOf (b : Bytes) (marks : List Bool) : Parts :=
  let n := b.length / 64 + 1
  (chunksOf 64 n b).zipWith (fun x y => (x, y.any id)) (chunksOf 64 n marks)

/-- A stream cut into berths of a size (R219). -/
def berthsOf (size : Nat) (l : Parts) : List Chunk :=
  let b := l.flatMap (·.1)
  let m := l.flatMap (fun p => List.replicate p.1.length p.2)
  let n := b.length / size + 1
  (chunksOf size n b).zipWith (fun x y => { lines := linesOf x y }) (chunksOf size n m)

/-- A stream cut after `n` bytes. -/
def partsSplit : Parts → Nat → Parts × Parts
  | [], _ => ([], [])
  | (b, t) :: r, n =>
    if n = 0 then ([], (b, t) :: r)
    else if b.length ≤ n then ((b, t) :: (partsSplit r (n - b.length)).1, (partsSplit r (n - b.length)).2)
    else ([(b.take n, t)], (b.drop n, t) :: r)

/-- A stream cut at the granules of the place it goes to, each piece with the OR of its taints (R245). -/
def laid (p : Parts) (va : Nat) : Parts := (cut 64 va (partsLen p)).map (fun q => partsRead p (q.1 - va) q.2)

/-- The stream that berths hold. -/
def berthParts (l : List Chunk) : Parts := l.flatMap (·.lines)

/-! ## A unit command at work -/

/-- Where a command reads and who it is: its own queue's command, or a flight stage with the berths it has taken so far and whether
they are all it gets. -/
structure UEnv where
  ag : Agent
  cl : Nat
  cmd : Bytes
  flight : Bool := false
  later : List Nat := []
  berths : List Chunk := []
  inp : Parts := []
  ended : Bool := true

/-- One step of a command: what it writes next, where it stands then, and whether and how it has ended, and
whether it waits on a gate (R358). -/
structure UStep where
  out : Parts := []
  pos : Nat := 0
  scratch : Bytes := []
  done : Bool := false
  code : Code := 0
  gated : Bool := false

/-- Reads input of a command: from the berths its stage was given, or at `base` in memory. -/
def uRead (e : UEnv) (base off n : Nat) : M (Bytes × Bool) :=
  if e.flight then (if !e.ended && partsLen e.inp < off + n then throw .starve else pure (partsRead e.inp off n)) else readVa e.ag (base + off) n

/-- Waits until a stage has its whole input. -/
def uAll (e : UEnv) : M Unit := if e.flight && !e.ended then throw .starve else pure ()

/-- How many rows of `rb` bytes a command reads: COUNT, or what its stage is given; one more row may come while its input goes on. -/
def uCount (e : UEnv) (count rb : Nat) : Nat := if e.flight then partsLen e.inp / rb + b2n (!e.ended) else count

/-- Sets bit `k` of a taint bitmap (R292, R340). -/
def setTaintMap (ag : Agent) (map k : Nat) : M Unit := do
  if map = 0 then return
  let (b, t) ← readVa ag (map + k / 8) 1
  writeVa ag (map + k / 8) [(b.headD 0) ||| BitVec.ofNat 8 (2 ^ (k % 8))] t

/-- Changes the state inside an operation. -/
def tell (f : State → State) : M Unit := modify f

/-! ## Commands in a unit's queue -/

/-- The key of unit `u` of a cluster, for context `n`. -/
def unitKey (n cl u : Nat) : Nat := 240 * n + 5 * cl + u

/-- The context whose commands the units serve: the one that holds the pound. -/
def unitCtx (s : State) : Nat := s.rot.holder.getD 0

/-- The agent of a unit command (R191): AGENT 7, whose DETAIL is free, or 3 for a gather or an update, DETAIL its position. -/
def unitAgent (cl : Nat) (c : UCmd) (kind cls : Nat) : Agent :=
  ownerAgent { id := c.id, ctx := c.ctx, kind := kind, cluster := cl, cls := cls
               detail := if kind = 3 then BitVec.ofNat 64 c.pos else Config.recordDetail (2 * c.id) } c.owner

/-- The last error code of a unit, in its own register and in the context's block (R266, R288, R315, R341, R363). -/
def unitErr (s : State) (cl u n : Nat) (code : Code) : State :=
  if code = 0 then s
  else
    let s := uUnit s (unitKey n cl u) (fun x => { x with lastErr := code })
    uCtx s n (fun c => match u with
      | 1 => { c with fx := { c.fx with err := code, parse := if code = eParse then bump16 c.fx.parse 1 else c.fx.parse } }
      | 2 => { c with amu := { c.amu with err := code } }
      | 3 => { c with ou := { c.ou with err := code } }
      | 4 => { c with da := { c.da with err := code } }
      | _ => c)

/-- The last error code of a table (R283). -/
def tuErr (s : State) (n : Nat) (cmd : Bytes) (code : Code) : State :=
  let t := fld (wordAt cmd 0) 43 32
  if code = 0 || cmd.length != 64 || (manOf s n).ntables ≤ t then s
  else uCtx s n (fun c => { c with tu := Tab.modify {} c.tu t (fun x => { x with lastErr := code }) })

/-- Puts a command to a unit (R124, R265); its flag is up. -/
def submitUnit (s : State) (n cl u : Nat) (o : Owner) (d : Except Code (Bytes × Bool)) : State :=
  let (id, s) := freshId s
  let c : UCmd := match d with
    | .ok (b, t) => { id := id, owner := o, ctx := n, cmd := b, taint := t }
    | .error e => { id := id, owner := o, ctx := n, cmd := [e] }
  uUnit s (unitKey n cl u) (fun x => { x with held := x.held ++ [c] })

/-- Changes a held command. -/
def uHeld (s : State) (n cl u id : Nat) (f : UCmd → UCmd) : State :=
  uUnit s (unitKey n cl u) (fun x => { x with held := x.held.map (fun c => if c.id = id then f c else c) })

/-- A command ends: with an error, the record and the fault of its context (R265, R287, R323, R353); its flag lowers. -/
def endCmd (s : State) (cl u : Nat) (ag : Agent) (c : UCmd) (code : Code) : State :=
  let s := uUnit s (unitKey c.ctx cl u) (fun x => { x with held := x.held.filter (fun h => h.id != c.id) })
  let s := if u = 0 then tuErr s c.ctx c.cmd code else s
  let s := if code = 0 then s else failOp (unitErr s cl u c.ctx code) ag code
  endOwner s c.ctx false c.owner

/-- The command at the front of a unit, of those of the running context that `sel` names. -/
def frontCmd (s : State) (cl u : Nat) (sel : UCmd → Bool) : Option UCmd := (gUnit s (unitKey (unitCtx s) cl u)).held.find? sel

/-- Runs a held command from its position until it ends, waits, or faults. -/
def runCmd (cl u id : Nat) (agOf : UCmd → Agent) (dst : Nat) (step : UCmd → M UStep) : Nat → State → State
  | 0, s => s
  | k + 1, s =>
    match frontCmd s cl u (fun c => c.id == id) with
    | none => s
    | some c =>
      let ag := agOf c
      let s' := runOp s ag (do
          let r ← step c
          writeParts ag (dst + c.aux) r.out
          return r)
        (fun r s =>
          if r.done then endCmd s cl u ag c r.code
          else uHeld s c.ctx cl u id (fun c => { c with pos := r.pos, aux := c.aux + partsLen r.out, scratch := r.scratch, waiting := r.gated }))
        (fun code s => endCmd s cl u ag c code)
      match frontCmd s' cl u (fun c => c.id == id) with
      | none => s'
      | some c' => if c' = c then s' else runCmd cl u id agOf dst step k s'

/-- A row of a unit meets the front command: a command that could not be fetched, or that the unit rejects, ends with its code;
one of another OP is not this row's. -/
def frontRow (s : State) (cl u : Nat) (agOf : UCmd → Agent) (op : Nat) (sel : UCmd → Bool) (ok : UCmd → Bool) (run : UCmd → State) : State :=
  match frontCmd s cl u sel with
  | none => s
  | some c =>
    if !holds s c.ctx || !clServes s cl then s
    else match c.cmd with
      | [] => endCmd s cl u (agOf c) c eRange
      | [e] => endCmd s cl u (agOf c) c e
      | _ =>
        if !ok c then endCmd s cl u (agOf c) c eRange
        else if fld (wordAt c.cmd 0) 63 56 = op then run c else s

/-! ## Flight stages -/

def flightOf (s : State) (id : Nat) : Option Flight := s.flights.find? (fun f => f.id == id)
def uFlight (s : State) (id : Nat) (f : Flight → Flight) : State :=
  { s with flights := s.flights.map (fun x => if x.id = id then f x else x) }
def uStage (s : State) (id k : Nat) (f : Stage → Stage) : State :=
  uFlight s id (fun x => { x with stages := x.stages.mapIdx (fun i st => if i = k then f st else st) })

/-- Changes the ring that feeds stage `k`. -/
def uFeeder (s : State) (id k : Nat) (f : FRing → FRing) : State :=
  if k = 0 then uFlight s id (fun x => { x with inRing := f x.inRing }) else uStage s id (k - 1) (fun x => { x with ring := f x.ring })

/-- The header and the berth size of the ring that feeds stage `k`. -/
def feederAt (f : Flight) (k : Nat) : Nat × Nat :=
  if k = 0 then (fld (dWord f.hdr 6) 47 0, berthSize (fld (dWord f.hdr 7) 19 16))
  else match f.stages[k - 1]? with | some p => (stRing p.rec_, berthSize (stShift p.rec_)) | none => (0, 0)

/-- The oldest full berth of a ring has been taken. -/
def ringTake (r : FRing) : FRing := { r with full := r.full.drop 1, free := r.free + 1 }

/-- `n` bytes have gone into the next berth of a ring of `berths` berths, which ends there when `full`. -/
def ringFill (r : FRing) (berths n : Nat) (full : Bool) : FRing :=
  let free := if r.fill = 0 then r.free - 1 else r.free
  if full then { r with free := free, fill := 0, next := (r.next + 1) % max 1 berths, full := r.full ++ [(r.next, r.fill + n)] }
  else { r with free := free, fill := r.fill + n }

/-- A flight ends with a code at a stage; the first code stays (R240, R241). -/
def flightErr (s : State) (id k : Nat) (code : Code) : State :=
  uFlight s id (fun x => { x with err := match x.err with | some e => some e | none => some (code, k) })

/-! ### The input barge (R237) -/

/-- The agents of a flight: what fills IN_RING, and stage `k`. -/
def inAgent (f : Flight) : Agent := flightAgent f.ctx f.cl (f.id + 10 * 2 ^ 64) (fClass f.hdr) 0 f.owner
def stageAgent (f : Flight) (k : Nat) : Agent := flightAgent f.ctx f.cl (f.id + (k + 1) * 2 ^ 64) (fClass f.hdr) k f.owner

/-- A BARGE packet when an agent of a flight has just parked (R553). -/
def traceParked (s0 s : State) (f : Flight) (ag : Agent) : State :=
  if isParked s ag.id && !isParked s0 ag.id then tjBarge s f.ctx f.cl 3 (agentStage f ag.id) 0 0 0 else s

/-- Moves the next piece of SRC into IN_RING, up to a granule of the ring or the end of a berth; after the last one the end marker. -/
def fillPiece (s : State) (f : Flight) : State :=
  let r := f.inRing
  let (base, size) := feederAt f 0
  let va := base + 64 + r.next * size + r.fill
  let n := min (min (fSrcLen f.hdr - f.filled) (size - r.fill)) (64 - va % 64)
  let full := r.fill + n == size || f.filled + n == fSrcLen f.hdr
  let ag := inAgent f
  if r.ended || f.err.isSome then s
  else if fSrcLen f.hdr ≤ f.filled then uFeeder s f.id 0 (fun r => { r with ended := true })
  else if r.fill = 0 && r.free = 0 then s
  else
    traceParked s (runOp s ag (do
        let (b, t) ← readVa ag (bSrc f.hdr + f.filled) n
        writeVa ag va b t
        if full then bumpFilled ag base 1
        return t)
      (fun t s =>
        let new := t && f.igran != va / 64 + 1
        countBe (uFlight s f.id (fun x => { x with
          filled := x.filled + n, igran := if t then va / 64 + 1 else x.igran, inRing := ringFill x.inRing (fld (dWord f.hdr 7) 15 0) n full })) f.ctx n (b2n new))
      (fun c s => flightErr s f.id 0 c)) f ag

/-- Fills IN_RING as far as it can. -/
def pumpIn (fid : Nat) : Nat → State → State
  | 0, s => s
  | k + 1, s =>
    match flightOf s fid with
    | none => s
    | some f =>
      let s' := fillPiece s f
      if (flightOf s' fid).map (fun x => (x.filled, x.inRing.ended)) = some (f.filled, f.inRing.ended) then s' else pumpIn fid k s'

/-! ### The output barge (R237, R240, R245) -/

/-- The agent of a flight's output: its last stage. -/
def outAgent (f : Flight) : Agent := flightAgent f.ctx f.cl (f.id + 9 * 2 ^ 64) (fClass f.hdr) (f.stages.length - 1) f.owner

/-- The ring that the output barge drains is empty behind the end marker. -/
def drained (f : Flight) : Bool := (feeder f f.stages.length).ended && (feeder f f.stages.length).full.isEmpty

/-- The output barge writes the next piece of what it has taken, up to a granule of DST (R240, R245); output beyond DST_MAX ends the flight
(R241). -/
def writePiece (s : State) (f : Flight) (n : Nat) : State :=
  let ag := outAgent f
  let va := bDst f.hdr + f.pos
  let (b, t) := partsRead f.obuf 0 n
  if n = 0 then flightErr s f.id (f.stages.length - 1) eRange
  else
    traceParked s (runOp s ag (writeVa ag va b t)
      (fun _ s =>
        let new := t && f.ogran != va / 64 + 1
        countBe (uFlight s f.id (fun x => { x with
          obuf := (partsSplit x.obuf n).2, pos := x.pos + n, tainted := x.tainted + b2n new, ogran := if t then va / 64 + 1 else x.ogran })) f.ctx n (b2n new))
      (fun c s => flightErr s f.id (f.stages.length - 1) c)) f ag

/-- The output barge takes the oldest full berth of the last ring. -/
def takeOut (s : State) (f : Flight) : State :=
  let k := f.stages.length
  let ag := outAgent f
  match (feeder f k).full with
  | [] => s
  | (i, n) :: _ =>
    traceParked s (runOp s ag (readParts ag ((feederAt f k).1 + 64 + i * (feederAt f k).2) n)
      (fun ps s => uFlight (uFeeder s f.id k ringTake) f.id (fun x => { x with obuf := x.obuf ++ ps }))
      (fun c s => flightErr s f.id (k - 1) c)) f ag

/-- One move of the output barge: a piece once a granule of DST, or the last bytes, are there; else another berth. -/
def drainPiece (s : State) (f : Flight) : State :=
  let have_ := partsLen f.obuf
  let room := 64 - (bDst f.hdr + f.pos) % 64
  if f.err.isSome then s
  else if room ≤ have_ || (drained f && 0 < have_) then writePiece s f (min (min have_ room) (fDstMax f.hdr - f.pos))
  else takeOut s f

/-- Drains the last ring as far as it can. -/
def pumpOut (fid : Nat) : Nat → State → State
  | 0, s => s
  | k + 1, s =>
    match flightOf s fid with
    | none => s
    | some f =>
      let s' := drainPiece s f
      if flightOf s' fid = some f then s' else pumpOut fid k s'

/-! ### A stage at work (R238, R240 to R242) -/

/-- A unit ends a flight at stage `k` with a code (R241, R266, R283). -/
def stageErr (s : State) (cl u : Nat) (f : Flight) (k : Nat) (cmd : Bytes) (code : Code) : State :=
  if code = 0 then s
  else if 5 ≤ u then uCtx (flightErr s f.id k code) f.ctx (fun c => { c with cd := { c.cd with err := code } })
  else unitErr (if u = 0 then tuErr (flightErr s f.id k code) f.ctx cmd code else flightErr s f.id k code) cl u f.ctx code

/-- What a stage has made goes into whole berths; the rest of it with the end marker (R240). -/
def pushOut (st : Stage) (r : UStep) : Stage :=
  let size := berthSize (stShift st.rec_)
  let b := st.buf ++ r.out
  let n := if r.done then partsLen b else partsLen b / size * size
  let (now, later) := partsSplit b n
  { st with queue := st.queue ++ berthsOf size now, buf := later, pos := r.pos, aux := st.aux + partsLen r.out, scratch := r.scratch, done := r.done, waiting := r.gated }

/-- Stage `k` takes the oldest full berth of its ring, or the end marker. -/
def takeBerth (s : State) (cl u : Nat) (f : Flight) (k : Nat) (ag : Agent) : State :=
  match (feeder f k).full with
  | [] => if (feeder f k).ended then uStage s f.id k (fun x => { x with inEnd := true }) else s
  | (i, n) :: _ =>
    runOp s ag (readParts ag ((feederAt f k).1 + 64 + i * (feederAt f k).2) n)
      (fun ps s => uStage (uFeeder s f.id k ringTake) f.id k (fun x => { x with got := x.got ++ [{ lines := ps }] }))
      (fun c s => stageErr s cl u f k [] c)

/-- Stage `k` puts its next berth into its ring while one is free (R219, R220). -/
def putBerth (s : State) (cl u : Nat) (f : Flight) (k : Nat) (st : Stage) (ag : Agent) : State :=
  match st.queue with
  | [] => s
  | c :: rest =>
    if st.ring.free = 0 then s
    else
      let va := stRing st.rec_ + 64 + st.ring.next * berthSize (stShift st.rec_)
      runOp s ag (do
          writeParts ag va (laid c.lines va)
          bumpFilled ag (stRing st.rec_) 1)
        (fun _ s => uStage s f.id k (fun x => { x with queue := rest, ring := ringFill x.ring (stBerths st.rec_) (partsLen c.lines) true }))
        (fun code s => stageErr s cl u f k [] code)

/-- What a stage's command finds. -/
def stageEnv (f : Flight) (k cl : Nat) (st : Stage) (cmd : Bytes) : UEnv :=
  { ag := stageAgent f k, cl := cl, cmd := cmd, flight := true, later := (f.stages.drop (k + 1)).map (fun x => stUnit x.rec_),
    berths := st.got, inp := berthParts st.got, ended := st.inEnd }

/-- One step of a stage's command. -/
def stepOnce (s : State) (cl u : Nat) (f : Flight) (k : Nat) (st : Stage) (cmd : Bytes) (step : UEnv → Nat → Nat → Bytes → M UStep) : State :=
  runOp s (stageAgent f k) (step (stageEnv f k cl st cmd) st.pos st.aux st.scratch)
    (fun r s => stageErr (uStage s f.id k (fun x => pushOut x r)) cl u f k cmd r.code)
    (fun c s => stageErr s cl u f k cmd c)

/-- One turn of a stage (R238): it hands on what it has made, works on what it was given, and takes up to `left` berths more; the Dense Array
runs up to `left` batches instead (R352). It stops where its ring is full, its input is not there, it waits, it faults or it ends. -/
def stageTurn (cl u fid k : Nat) (step : UEnv → Nat → Nat → Bytes → M UStep) : Nat → Nat → State → State
  | 0, _, s => s
  | fuel + 1, left, s =>
    match flightOf s fid with
    | none => s
    | some f =>
      match f.stages[k]? with
      | none => s
      | some st =>
        let now (s : State) : Option Stage := (flightOf s fid).bind (fun f => f.stages[k]?)
        let ag := stageAgent f k
        if isParked s ag.id || f.err.isSome || st.ring.ended || st.waiting then s
        else if !st.queue.isEmpty then
          let s' := putBerth s cl u f k st ag
          if now s' = some st then s' else stageTurn cl u fid k step fuel left s'
        else if st.done then uStage s fid k (fun x => { x with ring := { x.ring with ended := true } })
        else if u = 4 && left = 0 then s
        else
          let s' := stepOnce s cl u f k st (st.cmd.getD []) step
          if now s' != some st then
            stageTurn cl u fid k step fuel (if u = 4 && (now s').map (·.pos) != some st.pos then left - 1 else left) s'
          else if isParked s' ag.id || (u != 4 && left = 0) then s'
          else
            let s' := takeBerth s' cl u f k ag
            if now s' = some st then s'
            else stageTurn cl u fid k step fuel (if u = 4 || (feeder f k).full.isEmpty then left else left - 1) s'

/-- The place of a stage in the turn of its unit (R238); 0 is the unit's queue. -/
def stageKey (fid k : Nat) : Nat := 8 * fid + k + 1

/-- A stage has something to do: a berth to hand on, one to take, or the end marker. -/
def stageReady (s : State) (f : Flight) (k : Nat) (st : Stage) : Bool :=
  f.active && f.err.isNone && holds s f.ctx && !isParked s (stageAgent f k).id && !st.ring.ended && !st.waiting &&
  (if st.queue.isEmpty then st.done || !(feeder f k).full.isEmpty || ((feeder f k).ended && !st.inEnd) else decide (0 < st.ring.free))

/-- Those that wait for unit `u`: its stages, and for the Dense Array its queue (R238, R352). -/
def readyKeys (s : State) (cl u : Nat) : List Nat :=
  (match frontCmd s cl u (fun _ => true) with
    | some c => if u == 4 && !c.waiting && !isParked s c.id then [0] else []
    | none => []) ++
  (s.flights.filter (fun f => f.cl == cl)).flatMap (fun f =>
    (f.stages.zipIdx.filter (fun (st, k) => stUnit st.rec_ == u && stageReady s f k st)).map (fun (_, k) => stageKey f.id k))

/-- It is the turn of `key` at a unit: nothing that waits comes between the one served last and it. -/
def turnOf (s : State) (cl u key : Nat) : Bool :=
  let last := (gUnit s (unitKey (unitCtx s) cl u)).turn
  !(readyKeys s cl u).any (fun r => if last < key then decide (last < r) && decide (r < key) else decide (last < r) || decide (r < key))

/-- The unit has served `key`. -/
def served (s : State) (cl u key : Nat) : State := uUnit s (unitKey (unitCtx s) cl u) (fun x => { x with turn := key })

/-- The rounds of a stage's turn are never more. -/
def turnFuel : Nat := 2 ^ 34

/-- Reads and checks a stage's command when the stage starts: rejected, its unit's code ends the flight (R241); of another OP, nothing
happens. -/
def startStage (s : State) (cl u : Nat) (f : Flight) (k op : Nat) (st : Stage) (ok : UEnv → Bool) : State :=
  match st.cmd with
  | some _ => s
  | none =>
    let ag := stageAgent f k
    runOp s ag (if stCmd st.rec_ % 64 != 0 then throw (.code eRange) else readVa ag (stCmd st.rec_) 64)
      (fun (cmd, _) s' =>
        if !ok (stageEnv f k cl st cmd) then stageErr s' cl u f k cmd eRange
        else if fld (wordAt cmd 0) 63 56 != op then s
        else uStage s' f.id k (fun x => { x with cmd := some cmd }))
      (fun c s => stageErr s cl u f k [] c)

/-- A unit serves stage `k` of a flight for one turn with a command of its OP; the input barge runs before stage 0, the output barge
after the last one. -/
def stepStage (s : State) (cl u fid k op : Nat) (ok : UEnv → Bool) (step : UEnv → Nat → Nat → Bytes → M UStep) : State :=
  match flightOf s fid with
  | none => s
  | some f =>
    match f.stages[k]? with
    | none => s
    | some st =>
      if f.cl != cl || !f.active || !holds s f.ctx || !clServes s cl || f.err.isSome || stUnit st.rec_ != u || st.ring.ended || !turnOf s cl u (stageKey fid k) then s
      else
        let s1 := startStage (if k = 0 then pumpIn fid (fSrcLen f.hdr + 2) s else s) cl u f k op st ok
        match (flightOf s1 fid).bind (fun f => f.stages[k]?) with
        | none => s1
        | some st1 =>
          if fld (wordAt (st1.cmd.getD []) 0) 63 56 != op then refreshWait (traceParked s s1 f (stageAgent f k))
          else
            let s2 := traceParked s (stageTurn cl u fid k step turnFuel 1 (served s1 cl u (stageKey fid k))) f (stageAgent f k)
            refreshWait (if k + 1 = f.stages.length then pumpOut fid (2 * fDstMax f.hdr + 3) s2 else s2)

end Sys2Proof.Machine
end

