-- ==== Sys2Proof/Machine/Amu.lean ====
section
/-! DEFINITION. The associative match unit (spec/10_search_and_order.md R316 to R330, R340, R341): lookups, updates, replacement, and
its commands from the unit's queue and as flight stages. -/

namespace Sys2Proof.Machine

/-! ## Entries and lookups (R316, R317, R320) -/

def amuKey (cl i : Nat) : Nat := 8192 * cl + i
def gAmu (s : State) (cl i : Nat) : AmuEntry := Tab.get {} s.amu (amuKey cl i)
def setAmu (s : State) (cl i : Nat) (e : AmuEntry) : State := { s with amu := Tab.set {} s.amu (amuKey cl i) e }

/-- An entry matches a key (R316). -/
def amuHit (e : AmuEntry) (x : BitVec 128) : Bool := e.valid && ((x ^^^ e.key) &&& e.mask) == 0

/-- The winning entry: the highest priority, then the lowest index (R317). -/
def amuBest : Option (Nat × AmuEntry) → List (Nat × AmuEntry) → Option (Nat × AmuEntry)
  | b, [] => b
  | none, e :: r => amuBest (some e) r
  | some b, e :: r => amuBest (if b.2.prio < e.2.prio then some e else some b) r

/-- A lookup in the AMU of a cluster. -/
def amuFind (s : State) (cl : Nat) (x : BitVec 128) : Option (Nat × AmuEntry) :=
  (amuBest none (s.amu.filter (fun e => decide (8192 * cl ≤ e.1) && decide (e.1 < 8192 * cl + 8192) && amuHit e.2 x))).map (fun e => (e.1 - 8192 * cl, e.2))

/-- The result word of a lookup (R320). -/
def amuWord (r : Option (Nat × AmuEntry)) (keyTaint : Bool) : Word :=
  match r with
  | none => place (b2n keyTaint) 62 62
  | some (i, e) => place 1 63 63 ||| place (b2n (keyTaint || e.taint)) 62 62 ||| place i 60 48 ||| place e.result.toNat 47 0

/-- The taint of a lookup: its key's or its winner's (R320, R340). -/
def amuTaint (r : Option (Nat × AmuEntry)) (keyTaint : Bool) : Bool :=
  keyTaint || (match r with | some (_, e) => e.taint | none => false)

/-- The valid entries of a cluster (R325). -/
def amuValid (s : State) (cl : Nat) : Nat :=
  (s.amu.filter (fun e => decide (8192 * cl ≤ e.1) && decide (e.1 < 8192 * cl + 8192) && e.2.valid)).length

/-- Counts lookups, hits and entries written (R341). -/
def countAmu (s : State) (n look hit upd : Nat) : State :=
  let a := (gCtx s n).amu
  let s0 := a.sat.getLsbD 0
  let s1 := a.sat.getLsbD 1
  let s2 := a.sat.getLsbD 2
  let n0 := s0 || sat64 a.look look
  let n1 := s1 || sat64 a.hit hit
  let n2 := s2 || sat64 a.upd upd
  let s := uCtx s n (fun c => { c with amu := { c.amu with
    look := bump64 a.look look, hit := bump64 a.hit hit, upd := bump64 a.upd upd, sat := BitVec.ofNat 3 (b2n n0 + 2 * b2n n1 + 4 * b2n n2) } })
  let s := satNotice s n s0 n0 (0xF000 + n * 0x40) 0
  let s := satNotice s n s1 n1 (0xF000 + n * 0x40 + 8) 0
  satNotice s n s2 n2 (0xF000 + n * 0x40 + 0x10) 0

/-- A lookup of a context through the port: result, state with its counts. -/
def amuLookup (s : State) (n cl : Nat) (x : BitVec 128) : Option (Nat × AmuEntry) × State :=
  let r := amuFind s cl x
  (r, countAmu s n 1 (b2n r.isSome) 0)

/-- A 128-bit key from its two halves (R319). -/
def amuKey128 (hi lo : Nat) : BitVec 128 := BitVec.ofNat 128 (hi % 2 ^ 64 * 2 ^ 64 + lo % 2 ^ 64)

/-! ## Commands (R319, R321 to R323) -/

def aOp (d : Bytes) : Nat := fld (wordAt d 0) 63 56
def aVictim (d : Bytes) : Nat := fld (wordAt d 0) 55 54
def aNullPass (d : Bytes) : Bool := bitOf (wordAt d 0) 53
def aSf (d : Bytes) : Nat := fld (wordAt d 0) 52 48
def aNf (d : Bytes) : Nat := fld (wordAt d 0) 44 40 + 1
def aIndex (d : Bytes) : Nat := fld (wordAt d 0) 28 16
def aSrc (d : Bytes) : Nat := fld (wordAt d 8) 47 0
def aDst (d : Bytes) : Nat := fld (wordAt d 16) 47 0
def aCount (d : Bytes) : Nat := fld (wordAt d 24) 31 0
def aKeyHi (d : Bytes) : Nat := (wordAt d 32).toNat
def aVidx (d : Bytes) : Nat := fld (wordAt d 40) 12 0
def aMap (d : Bytes) : Nat := fld (wordAt d 56) 47 0

/-- The commands that update entries (R324). -/
def aUpdate (d : Bytes) : Bool := d.length == 64 && 1 ≤ aOp d && aOp d ≤ 3

/-- An AMU command is accepted (R321 to R323). -/
def amuOk (expert flight : Bool) (d : Bytes) : Bool :=
  let op := aOp d
  let w := fun i => wordAt d (8 * i)
  d.length == 64 && 1 ≤ op && op ≤ 6 &&
  onlyBits (w 0) (msk 63 48 ||| msk 44 40 ||| msk 28 16) && fld (w 1) 63 48 == 0 && fld (w 2) 63 48 == 0 && fld (w 3) 63 32 == 0 &&
  fld (w 5) 63 13 == 0 && w 6 == 0 && fld (w 7) 63 48 == 0 &&
  (op == 2 || aVictim d == 0) && aVictim d != 3 && (expert || aVictim d == 0) && (aVictim d != 2 || aCount d == 1) &&
  (aVictim d == 2 || aVidx d == 0) &&
  (op == 6 || (!aNullPass d && aSf d == 0 && aNf d == 1 && w 4 == 0)) && aSf d < aNf d &&
  (op == 1 || op == 3 || op == 5 || aIndex d == 0) &&
  (op == 4 || op == 6 || aMap d == 0) &&
  (op == 1 || op == 2 || op == 4 || op == 6 || aSrc d == 0) && (op == 2 || op == 4 || op == 5 || op == 6 || aDst d == 0) &&
  ((op != 1 && op != 2) || aSrc d % 8 == 0) && (op != 5 || aDst d % 8 == 0) &&
  (if flight then (op == 4 || op == 6) && aSrc d == 0 && aDst d == 0 && (if op = 6 then aCount d == 0 else 1 ≤ aCount d) else 1 ≤ aCount d)

/-- A record is well formed (R319). -/
def recOk (r : Bytes) : Bool := onlyBits (wordAt r 40) 1

/-- The entry that a record writes. -/
def recEntry (r : Bytes) (t : Bool) : AmuEntry :=
  { valid := bitOf (wordAt r 40) 0, key := amuKey128 (wordAt r 8).toNat (wordAt r 0).toNat, mask := amuKey128 (wordAt r 24).toNat (wordAt r 16).toNat,
    prio := BitVec.ofNat 16 (fld (wordAt r 32) 63 48), result := BitVec.ofNat 48 (fld (wordAt r 32) 47 0), taint := t }

/-- An entry as a record. -/
def entryRec (e : AmuEntry) : Bytes :=
  leBytes e.key.toNat 16 ++ leBytes e.mask.toNat 16 ++ wordBytes (place e.prio.toNat 63 48 ||| place e.result.toNat 47 0) ++ wordBytes (place (b2n e.valid) 0 0)

/-- Writes an entry from a record; V 0 invalidates it and leaves the rest (R322). -/
def writeEntry (s : State) (n cl i : Nat) (e : AmuEntry) : State :=
  countAmu (if e.valid then setAmu s cl i e else setAmu s cl i { gAmu s cl i with valid := false }) n 0 0 1

/-- The lowest-numbered invalid entry of a cluster. -/
def firstInvalid (s : State) (cl : Nat) : Nat → Nat → Option Nat
  | 0, _ => none
  | k + 1, i => if (gAmu s cl i).valid then firstInvalid s cl k (i + 1) else some i

/-- The victim of the cluster control core: the lowest priority, then the highest index (R329). -/
def amuVictim (s : State) (cl : Nat) : Nat :=
  ((List.range 8192).foldl (fun (b : Nat × Nat) i => let p := (gAmu s cl i).prio.toNat; if p ≤ b.2 then (i, p) else b) (0, 65536)).1

/-- The entry that INSERT takes and whether it replaces one; none when the command must fail (R329). -/
def insertAt (s : State) (cl victim vidx : Nat) : Option (Nat × Bool) :=
  if victim = 2 then some (vidx, (gAmu s cl vidx).valid)
  else match firstInvalid s cl 8192 0 with
    | some i => some (i, false)
    | none => if victim = 1 then none else some (amuVictim s cl, true)

/-- Counts a tainted output (R340). -/
def amuTainted (n : Nat) (t : Bool) : M Unit :=
  if t then tell (fun s => uCtx s n (fun c => { c with amu := { c.amu with taint := bump16 c.amu.taint 1 } })) else pure ()

/-- A step that ends a command. -/
def uDone (code : Code) : UStep := { done := true, code := code }

/-- WRITE and INSERT check their records, one at a step, before the first is written: a record that is not well formed rejects the command
whole. The scratch holds a byte once all are checked. -/
def checkedRecs (e : UEnv) (pos : Nat) (scr : Bytes) (act : Bytes → Bool → M UStep) : M UStep := do
  if scr.isEmpty then
    if aCount e.cmd ≤ pos then return { scratch := [1] }
    let (r, _) ← readVa e.ag (aSrc e.cmd + 48 * pos) 48
    if !recOk r then throw (.code eRange)
    return { pos := pos + 1 }
  if aCount e.cmd ≤ pos then return uDone 0
  let (r, t) ← readVa e.ag (aSrc e.cmd + 48 * pos) 48
  act r t

def amuWriteStep (e : UEnv) (pos : Nat) (scr : Bytes) : M UStep :=
  checkedRecs e pos scr (fun r t => do
    if 8192 ≤ aIndex e.cmd + pos then return uDone eTableFull
    tell (fun s => writeEntry s e.ag.ctx e.cl (aIndex e.cmd + pos) (recEntry r t))
    return { pos := pos + 1, scratch := scr })

def amuInsertStep (e : UEnv) (pos : Nat) (scr : Bytes) : M UStep :=
  checkedRecs e pos scr (fun r t => do
    let n := e.ag.ctx
    match insertAt (← get) e.cl (aVictim e.cmd) (aVidx e.cmd) with
    | none => return uDone eTableFull
    | some (i, rep) =>
      tell (fun s => writeEntry s n e.cl i (recEntry r t))
      if rep then tell (fun s => uCtx s n (fun c => { c with amu := { c.amu with repl := bump16 c.amu.repl 1 } }))
      amuTainted n t
      return { out := [(wordBytes (place (b2n rep) 63 63 ||| place i 12 0), t)], pos := pos + 1, scratch := scr })

def amuInvalStep (e : UEnv) (pos : Nat) : M UStep := do
  if aCount e.cmd ≤ pos then return uDone 0
  if 8192 ≤ aIndex e.cmd + pos then return uDone eTableFull
  tell (fun s => setAmu s e.cl (aIndex e.cmd + pos) { gAmu s e.cl (aIndex e.cmd + pos) with valid := false })
  return { pos := pos + 1 }

def amuLookupStep (e : UEnv) (pos : Nat) : M UStep := do
  let n := e.ag.ctx
  if min (aCount e.cmd) (uCount e (aCount e.cmd) 16) ≤ pos then return uDone 0
  let (k, t) ← uRead e (aSrc e.cmd) (16 * pos) 16
  let (r, s) := amuLookup (← get) n e.cl (BitVec.ofNat 128 (ofLe k))
  set s
  let tt := amuTaint r t
  amuTainted n tt
  if tt then setTaintMap e.ag (aMap e.cmd) pos
  return { out := [(wordBytes (amuWord r t), tt)], pos := pos + 1 }

def amuReadStep (e : UEnv) (pos : Nat) : M UStep := do
  if aCount e.cmd ≤ pos then return uDone 0
  if 8192 ≤ aIndex e.cmd + pos then return uDone eTableFull
  let x := gAmu (← get) e.cl (aIndex e.cmd + pos)
  amuTainted e.ag.ctx x.taint
  return { out := [(entryRec x, x.taint)], pos := pos + 1 }

/-- FILTER: `aux` output bytes give the number of rows written (R322, R340). -/
def amuFilterStep (e : UEnv) (pos aux : Nat) : M UStep := do
  let n := e.ag.ctx
  let rb := 8 + 8 * aNf e.cmd
  if uCount e (aCount e.cmd) rb ≤ pos then return uDone 0
  let (row, t) ← uRead e (aSrc e.cmd) (rb * pos) rb
  let null := bitOf (wordAt row 0) (aSf e.cmd)
  let (pass, tt) ← if null then pure (aNullPass e.cmd, t) else do
      let (r, s) := amuLookup (← get) n e.cl (amuKey128 (aKeyHi e.cmd) (wordAt row (8 + 8 * aSf e.cmd)).toNat)
      set s
      pure (r.isSome, amuTaint r t)
  if pass then
    amuTainted n tt
    if tt then setTaintMap e.ag (aMap e.cmd) (aux / rb)
    return { out := [(row, tt)], pos := pos + 1 }
  else
    tell (fun s => uCtx s n (fun c => { c with amu := { c.amu with
      fdrop := bump16 c.amu.fdrop 1, tdrop := if tt then bump16 c.amu.tdrop 1 else c.amu.tdrop } }))
    return { pos := pos + 1 }

/-- The place of a running Feature Unit BUILD with AMU among the update commands (R324): it arrives at the AMU when it starts (DESIGN
CHOICE), and its scratch holds that stamp. -/
def buildStamp (c : UCmd) : Option Nat :=
  if c.cmd.length == 64 && aOp c.cmd == 9 && bitOf (wordAt c.cmd 0) 40 && !c.scratch.isEmpty then some (numAt c.scratch 0 16) else none

/-- A BUILD with AMU of the running context that arrived before command `id` is not done. -/
def buildBefore (s : State) (cl id : Nat) : Bool :=
  (gUnit s (unitKey (unitCtx s) cl 1)).held.any (fun c => match buildStamp c with | some b => decide (b < id) | none => false)

/-- An update command of the AMU that arrived before stamp `b` is not done. -/
def updateBefore (s : State) (cl b : Nat) : Bool :=
  (gUnit s (unitKey (unitCtx s) cl 2)).held.any (fun c => aUpdate c.cmd && decide (c.id < b))

/-- Runs one AMU command: of the queue, first of its kind in arrival order (R324), or of a flight stage. -/
def amuRow (op : Nat) (step : UEnv → Nat → Nat → Bytes → M UStep) (cl : Nat) (t : UTarget) (s : State) : State :=
  match t with
  | .queue =>
    frontRow s cl 2 (fun c => unitAgent cl c 7 1) op (fun c => aUpdate c.cmd == (1 ≤ op && op ≤ 3)) (fun c => amuOk (isExpert s c.ctx) false c.cmd)
      (fun c => if aUpdate c.cmd && buildBefore s cl c.id then s else runCmd cl 2 c.id (fun c => unitAgent cl c 7 1) (aDst c.cmd)
        (fun c => step { ag := unitAgent cl c 7 1, cl := cl, cmd := c.cmd } c.pos c.aux c.scratch) (2 * aCount c.cmd + 3) s)
  | .stage f k =>
    stepStage s cl 2 f k.val op (fun e => amuOk (isExpert s e.ag.ctx) true e.cmd) step

/-- AMU_WRITE. -/
def execAmuWrite (cl : Fin 48) (t : UTarget) (s : State) : Ans := .next (amuRow 1 (fun e p _ c => amuWriteStep e p c) cl.val t s)
/-- INSERT. -/
def execInsert (cl : Fin 48) (t : UTarget) (s : State) : Ans := .next (amuRow 2 (fun e p _ c => amuInsertStep e p c) cl.val t s)
/-- INVAL. -/
def execInval (cl : Fin 48) (t : UTarget) (s : State) : Ans := .next (amuRow 3 (fun e p _ _ => amuInvalStep e p) cl.val t s)
/-- LOOKUP. -/
def execLookup (cl : Fin 48) (t : UTarget) (s : State) : Ans := .next (amuRow 4 (fun e p _ _ => amuLookupStep e p) cl.val t s)
/-- AMU_READ. -/
def execAmuRead (cl : Fin 48) (t : UTarget) (s : State) : Ans := .next (amuRow 5 (fun e p _ _ => amuReadStep e p) cl.val t s)
/-- AMU_FILTER. -/
def execAmuFilter (cl : Fin 48) (t : UTarget) (s : State) : Ans := .next (amuRow 6 (fun e p a _ => amuFilterStep e p a) cl.val t s)

end Sys2Proof.Machine
end

