-- ==== Sys2Proof/Machine/Float.lean ====
section
/-! DEFINITION. Number formats (R17, R608): exact values, one rounding to nearest even, canonical NaNs, tininess after rounding. -/

namespace Sys2Proof.Machine

/-- A binary floating-point format: exponent bits, fraction bits, bias. `fn` is the E4M3 layout, which has no infinity and
one NaN pattern per sign. -/
structure FFmt where
  eb : Nat
  mb : Nat
  bias : Nat
  fn : Bool := false
deriving DecidableEq, Repr

/-- FP32 (R17). -/
def fp32 : FFmt := ⟨8, 23, 127, false⟩
/-- FP16 (R17). -/
def fp16 : FFmt := ⟨5, 10, 15, false⟩
/-- BF16, the upper 16 bits of FP32 (R17). -/
def bf16 : FFmt := ⟨8, 7, 127, false⟩
/-- FP64, an input type of PARSE only (R294). -/
def fp64 : FFmt := ⟨11, 52, 1023, false⟩
/-- FP8 E5M2 (R17). -/
def e5m2 : FFmt := ⟨5, 2, 15, false⟩
/-- FP8 E4M3 (R17). -/
def e4m3 : FFmt := ⟨4, 3, 7, true⟩
/-- FP4 E2M1, the element of MXFP4; it has neither infinity nor NaN, and no result is rounded to it through `fRound`. -/
def e2m1 : FFmt := ⟨2, 1, 1, true⟩

/-- A value: NaN (signaling or quiet), an infinity, or ±m·2^e. -/
inductive FV where
  | nan (sig : Bool)
  | inf (neg : Bool)
  | fin (neg : Bool) (m : Nat) (e : Int)
deriving DecidableEq, Repr

/-- Width of a format in bits. -/
def FFmt.bits (f : FFmt) : Nat := 1 + f.eb + f.mb

/-- The canonical quiet NaN (R608): sign 0, exponent all ones, top fraction bit 1 and the rest 0; 0x7F in E4M3. -/
def fNan (f : FFmt) : Nat := if f.fn then 2 ^ (f.eb + f.mb) - 1 else ((2 ^ f.eb - 1) <<< f.mb) + 2 ^ (f.mb - 1)

/-- An infinity pattern. -/
def fInf (f : FFmt) (neg : Bool) : Nat := (b2n neg <<< (f.eb + f.mb)) + ((2 ^ f.eb - 1) <<< f.mb)

/-- The value of a bit pattern. -/
def fDecode (f : FFmt) (x : Nat) : FV :=
  let neg := x.testBit (f.eb + f.mb)
  let ex := (x >>> f.mb) % 2 ^ f.eb
  let man := x % 2 ^ f.mb
  if ex = 2 ^ f.eb - 1 && !f.fn then
    (if man = 0 then .inf neg else .nan (!man.testBit (f.mb - 1)))
  else if f.fn && f.eb = 4 && ex = 15 && man = 7 then .nan false
  else if ex = 0 then .fin neg man (1 - (f.bias : Int) - f.mb)
  else .fin neg (man + 2 ^ f.mb) ((ex : Int) - f.bias - f.mb)

/-- IEEE flags of TSW [4:0] (R112). -/
def flNV : Nat := 16
def flDZ : Nat := 8
def flOF : Nat := 4
def flUF : Nat := 2
def flNX : Nat := 1

/-- Bits in a number (0 for 0). -/
def bitLen (n : Nat) : Nat := if n = 0 then 0 else n.log2 + 1

/-- m·2^e rounded to a multiple of 2^q, nearest even: the multiple and whether it is inexact. -/
def rneAt (m : Nat) (e q : Int) : Nat × Bool :=
  if q ≤ e then (m <<< (e - q).toNat, false)
  else
    let sh := (q - e).toNat
    let n := m >>> sh
    let r := m % 2 ^ sh
    let half := 2 ^ (sh - 1)
    let up := decide (half < r) || (r == half && n % 2 == 1)
    (n + b2n up, r != 0)

/-- Rounds ±m·2^e (plus a little when `sticky`) to a format: the pattern and the flags it raises (R122, R608). -/
def fRound (f : FFmt) (neg : Bool) (m : Nat) (e : Int) (sticky : Bool) : Nat × Nat :=
  let sgnBits := b2n neg <<< (f.eb + f.mb)
  if m = 0 && !sticky then (sgnBits, 0)
  else
    let p := f.mb + 1
    let g := p + 3
    let m1 := (m <<< g) + b2n sticky
    let e1 := e - g
    let qmin : Int := 1 - (f.bias : Int) - f.mb
    let qf : Int := e1 + bitLen m1 - p
    let (n, inex) := rneAt m1 e1 (max qf qmin)
    let (nu, _) := rneAt m1 e1 qf
    let q := max qf qmin
    let tiny := decide (qf + (bitLen nu : Int) ≤ 1 - (f.bias : Int))
    let emaxF : Nat := if f.fn then 2 ^ f.eb - 1 else 2 ^ f.eb - 2
    if n < 2 ^ f.mb then (sgnBits + n, (if inex then flNX else 0) ||| (if tiny && inex then flUF else 0))
    else
      let (n', q') := if n = 2 ^ p then (2 ^ f.mb, q + 1) else (n, q)
      let ex := q' + f.mb + f.bias
      if (emaxF : Int) < ex || (f.fn && f.eb == 4 && ex == 15 && n' == 15) then
        ((if f.fn then sgnBits + fNan f else fInf f neg), flOF ||| flNX)
      else
        (sgnBits + (ex.toNat <<< f.mb) + (n' - 2 ^ f.mb),
          (if inex then flNX else 0) ||| (if tiny && inex then flUF else 0))

/-- A value in a format; the flags are those of the rounding. -/
def fEncode (f : FFmt) : FV → Nat × Nat
  | .nan _ => (fNan f, 0)
  | .inf neg => (if f.fn then fNan f else fInf f neg, 0)
  | .fin neg m e => fRound f neg m e false

/-- The signed integer ±m·2^(e - k) for k at or below e. -/
def scaled (neg : Bool) (m : Nat) (e k : Int) : Int :=
  let x : Int := (m <<< (e - k).toNat : Nat)
  if neg then -x else x

/-- The exact sum of two values and the invalid flag. -/
def vAdd (a b : FV) : FV × Nat :=
  match a, b with
  | .nan s, .nan t => (.nan false, if s || t then flNV else 0)
  | .nan s, _ => (.nan false, if s then flNV else 0)
  | _, .nan t => (.nan false, if t then flNV else 0)
  | .inf s, .inf t => if s = t then (.inf s, 0) else (.nan false, flNV)
  | .inf s, _ => (.inf s, 0)
  | _, .inf t => (.inf t, 0)
  | .fin s m e, .fin t n f =>
    if m = 0 && n = 0 then (.fin (s && t) 0 0, 0)
    else
      let k := min e f
      let x := scaled s m e k + scaled t n f k
      (.fin (decide (x < 0)) x.natAbs k, 0)

/-- Negation of a value. -/
def vNeg : FV → FV
  | .nan s => .nan s
  | .inf s => .inf (!s)
  | .fin s m e => .fin (!s) m e

/-- The exact product of two values and the invalid flag (R608: 0 × ∞ is invalid). -/
def vMul (a b : FV) : FV × Nat :=
  match a, b with
  | .nan s, .nan t => (.nan false, if s || t then flNV else 0)
  | .nan s, _ => (.nan false, if s then flNV else 0)
  | _, .nan t => (.nan false, if t then flNV else 0)
  | .inf s, .inf t => (.inf (s != t), 0)
  | .inf s, .fin t n _ => if n = 0 then (.nan false, flNV) else (.inf (s != t), 0)
  | .fin s m _, .inf t => if m = 0 then (.nan false, flNV) else (.inf (s != t), 0)
  | .fin s m e, .fin t n f => (.fin (s != t) (m * n) (e + f), 0)

/-- a × b + c in a format, rounded once (R121; R608: 0 × ∞ is invalid even beside a quiet NaN). -/
def fFma (f : FFmt) (a b c : Nat) : Nat × Nat :=
  let (p, f1) := vMul (fDecode f a) (fDecode f b)
  let (r, f2) := vAdd p (fDecode f c)
  let (x, f3) := fEncode f r
  (x, f1 ||| f2 ||| f3)

/-- a + b in a format. -/
def fAdd (f : FFmt) (a b : Nat) : Nat × Nat :=
  let (r, f1) := vAdd (fDecode f a) (fDecode f b)
  let (x, f2) := fEncode f r
  (x, f1 ||| f2)

/-- a − b in a format. -/
def fSub (f : FFmt) (a b : Nat) : Nat × Nat :=
  let (r, f1) := vAdd (fDecode f a) (vNeg (fDecode f b))
  let (x, f2) := fEncode f r
  (x, f1 ||| f2)

/-- a × b in a format. -/
def fMul (f : FFmt) (a b : Nat) : Nat × Nat :=
  let (r, f1) := vMul (fDecode f a) (fDecode f b)
  let (x, f2) := fEncode f r
  (x, f1 ||| f2)

/-- Rounds the quotient of two positive numbers scaled by 2^e. -/
def fRoundDiv (f : FFmt) (neg : Bool) (m n : Nat) (e : Int) : Nat × Nat :=
  let sh := bitLen n + f.mb + 8
  let q := (m <<< sh) / n
  fRound f neg q (e - sh) ((m <<< sh) % n != 0)

/-- a ÷ b in a format. -/
def fDiv (f : FFmt) (a b : Nat) : Nat × Nat :=
  match fDecode f a, fDecode f b with
  | .nan s, .nan t => (fNan f, if s || t then flNV else 0)
  | .nan s, _ => (fNan f, if s then flNV else 0)
  | _, .nan t => (fNan f, if t then flNV else 0)
  | .inf _, .inf _ => (fNan f, flNV)
  | .inf s, .fin t _ _ => (fInf f (s != t), 0)
  | .fin s _ _, .inf t => fRound f (s != t) 0 0 false
  | .fin s m e, .fin t n g =>
    if n = 0 then (if m = 0 then (fNan f, flNV) else (fInf f (s != t), flDZ))
    else fRoundDiv f (s != t) m n (e - g)

/-- Integer square root by bits. -/
def isqrtGo (x : Nat) : Nat → Nat → Nat
  | 0, r => r
  | k + 1, r => let c := r + 2 ^ k; isqrtGo x k (if c * c ≤ x then c else r)

/-- The integer square root. -/
def isqrt (x : Nat) : Nat := isqrtGo x (bitLen x / 2 + 1) 0

/-- √a, correctly rounded (R280). -/
def fSqrt (f : FFmt) (a : Nat) : Nat × Nat :=
  match fDecode f a with
  | .nan s => (fNan f, if s then flNV else 0)
  | .inf s => if s then (fNan f, flNV) else (fInf f false, 0)
  | .fin s m e =>
    if m = 0 then (b2n s <<< (f.eb + f.mb), 0)
    else if s then (fNan f, flNV)
    else
      let odd := e % 2 != 0
      let m1 := if odd then m * 2 else m
      let e1 := if odd then e - 1 else e
      let sh := 2 * (f.mb + 6)
      let x := m1 <<< sh
      let r := isqrt x
      fRound f false r ((e1 - sh) / 2) (r * r != x)

/-- Orders two values that are not NaN: negative, zero or positive as a is below, equal to or above b. −0 equals +0. -/
def vCmp (a b : FV) : Int :=
  match a, b with
  | .inf s, .inf t => if s = t then 0 else if s then -1 else 1
  | .inf s, _ => if s then -1 else 1
  | _, .inf t => if t then 1 else -1
  | .fin s m e, .fin t n f =>
    let k := min e f
    let x := scaled s m e k - scaled t n f k
    if x < 0 then -1 else if x = 0 then 0 else 1
  | _, _ => 0

/-- A pattern is a NaN. -/
def fIsNan (f : FFmt) (a : Nat) : Bool := match fDecode f a with | .nan _ => true | _ => false

/-- A pattern is a signaling NaN. -/
def fIsSnan (f : FFmt) (a : Nat) : Bool := match fDecode f a with | .nan s => s | _ => false

/-- a < b, false for NaN (R122). -/
def fLt (f : FFmt) (a b : Nat) : Bool := !fIsNan f a && !fIsNan f b && decide (vCmp (fDecode f a) (fDecode f b) < 0)
/-- a ≤ b, false for NaN (R122). -/
def fLe (f : FFmt) (a b : Nat) : Bool := !fIsNan f a && !fIsNan f b && decide (vCmp (fDecode f a) (fDecode f b) ≤ 0)
/-- a = b, false for NaN, −0 equal to +0 (R299). -/
def fEq (f : FFmt) (a b : Nat) : Bool := !fIsNan f a && !fIsNan f b && decide (vCmp (fDecode f a) (fDecode f b) = 0)

/-- IEEE 754-2019 minimum: NaN propagates as the canonical NaN, −0 is below +0 (R121). -/
def fMin (f : FFmt) (a b : Nat) : Nat × Nat :=
  if fIsNan f a || fIsNan f b then (fNan f, if fIsSnan f a || fIsSnan f b then flNV else 0)
  else
    let c := vCmp (fDecode f a) (fDecode f b)
    if c < 0 then (a, 0) else if c > 0 then (b, 0) else (if a.testBit (f.eb + f.mb) then (a, 0) else (b, 0))

/-- IEEE 754-2019 maximum. -/
def fMax (f : FFmt) (a b : Nat) : Nat × Nat :=
  if fIsNan f a || fIsNan f b then (fNan f, if fIsSnan f a || fIsSnan f b then flNV else 0)
  else
    let c := vCmp (fDecode f a) (fDecode f b)
    if c < 0 then (b, 0) else if c > 0 then (a, 0) else (if a.testBit (f.eb + f.mb) then (b, 0) else (a, 0))

/-- Conversion between formats; a NaN becomes the canonical NaN, a signaling one raises invalid. -/
def fCvt (f g : FFmt) (a : Nat) : Nat × Nat :=
  let v := fDecode f a
  let (x, fl) := fEncode g v
  (x, fl ||| (match v with | .nan true => flNV | _ => 0))

/-- A signed integer in a format, rounded to nearest even. -/
def fOfInt (f : FFmt) (x : Int) : Nat × Nat := fRound f (decide (x < 0)) x.natAbs 0 false

/-- A value rounded to the nearest integer, ties to even, saturated to [lo, hi]; NaN gives 0 (R122). The flags: invalid when
NaN or out of range, else inexact. -/
def vToInt (v : FV) (lo hi : Int) : Int × Nat :=
  match v with
  | .nan _ => (0, flNV)
  | .inf s => (if s then lo else hi, flNV)
  | .fin s m e =>
    let (n, inex) := rneAt m e 0
    let x : Int := if s then -(n : Int) else n
    if x < lo then (lo, flNV) else if hi < x then (hi, flNV) else (x, if inex then flNX else 0)

/-! FP32 operations without their flags, for the units that report none (R608). -/

def f32add (a b : Nat) : Nat := (fAdd fp32 a b).1
def f32sub (a b : Nat) : Nat := (fSub fp32 a b).1
def f32mul (a b : Nat) : Nat := (fMul fp32 a b).1
def f32div (a b : Nat) : Nat := (fDiv fp32 a b).1
def f32sqrt (a : Nat) : Nat := (fSqrt fp32 a).1
def f32fma (a b c : Nat) : Nat := (fFma fp32 a b c).1
def f32max (a b : Nat) : Nat := (fMax fp32 a b).1
def f32min (a b : Nat) : Nat := (fMin fp32 a b).1
def f32neg (a : Nat) : Nat := a ^^^ 0x80000000
def f32ofInt (x : Int) : Nat := (fOfInt fp32 x).1

/-! Correctly rounded elementary functions (R306 LOG1P, R355 sigmoid and GELU), from fixed-point series with far more bits than
any FP32 argument needs to decide the rounding. -/

/-- Fraction bits of the fixed-point series. -/
def fxBits : Nat := 700

/-- 1 in fixed point. -/
def fxOne : Nat := 2 ^ fxBits

/-- Σ z^(2i+1)/(2i+1), z in fixed point below 1/2: atanh z. -/
def atanhGo (z2 : Nat) : Nat → Nat → Nat → Nat → Nat
  | 0, _, _, acc => acc
  | k + 1, i, t, acc => if t = 0 then acc else atanhGo z2 k (i + 1) (t * z2 / fxOne) (acc + t / (2 * i + 1))

/-- atanh of num/den below 1/2 in fixed point. -/
def fxAtanh (num den : Nat) : Nat :=
  let z := num * fxOne / den
  atanhGo (z * z / fxOne) 400 0 z 0

/-- ln 2 in fixed point. -/
def fxLn2 : Nat := 2 * fxAtanh 1 3

/-- e^r for r in [0, 1) in fixed point. -/
def expGo (r : Nat) : Nat → Nat → Nat → Nat → Nat
  | 0, _, _, acc => acc
  | k + 1, i, t, acc => if t = 0 then acc else expGo r k (i + 1) (t * r / fxOne / (i + 1)) (acc + t)

/-- e^x for x ≥ 0 in fixed point: a mantissa in fixed point and a power of two. -/
def fxExp (x : Nat) : Nat × Nat :=
  let k := x / fxLn2
  (expGo (x - k * fxLn2) 200 0 fxOne 0, k)

/-- Σ (−1)^i /((2i+1) d^(2i+1)): arctan (1/d). -/
def atanInvGo (d2 : Nat) : Nat → Nat → Nat → Int → Int
  | 0, _, _, acc => acc
  | k + 1, i, t, acc =>
    if t = 0 then acc
    else atanInvGo d2 k (i + 1) (t / d2) (if i % 2 = 0 then acc + (t / (2 * i + 1) : Nat) else acc - (t / (2 * i + 1) : Nat))

/-- π in fixed point (Machin). -/
def fxPi : Nat := (16 * atanInvGo 25 400 0 (fxOne / 5) 0 - 4 * atanInvGo (239 * 239) 120 0 (fxOne / 239) 0).toNat

/-- ±m·2^e as a fixed-point magnitude. -/
def toFx (m : Nat) (e : Int) : Nat :=
  let k := e + fxBits
  if 0 ≤ k then m <<< k.toNat else m >>> (-k).toNat

/-- log1p, correctly rounded in FP32; −∞ at −1, NaN below −1 (R306). -/
def f32log1p (a : Nat) : Nat :=
  match fDecode fp32 a with
  | .nan _ => fNan fp32
  | .inf s => if s then fNan fp32 else fInf fp32 false
  | .fin s m e =>
    if m = 0 then a
    else
      let x := toFx m e
      if s && decide (fxOne < x) then fNan fp32
      else if s && x == fxOne then fInf fp32 true
      else
        let y := if s then fxOne - x else fxOne + x
        let l := bitLen y
        let k : Int := (l : Int) - 1 - fxBits
        let f := if 0 ≤ k then y >>> k.toNat else y <<< (-k).toNat
        let lf := 2 * fxAtanh (f - fxOne) (f + fxOne)
        let r : Int := k * fxLn2 + lf
        (fRound fp32 (decide (r < 0)) r.natAbs (-(fxBits : Int)) true).1

/-- 1 ÷ (1 + e^−y), correctly rounded in FP32 (R355). -/
def f32sigmoid (a : Nat) : Nat :=
  match fDecode fp32 a with
  | .nan _ => fNan fp32
  | .inf s => if s then 0 else 0x3F800000
  | .fin s m e =>
    let x := toFx m e
    if 200 * fxOne < x then (if s then 0 else 0x3F800000)
    else
      let (E, k) := fxExp x
      let big := E <<< k
      if s then (fRoundDiv fp32 false fxOne (fxOne + big) 0).1 else (fRoundDiv fp32 false big (fxOne + big) 0).1

/-- Σ y^(2n+1)/(1·3·…·(2n+1)). -/
def phiGo (y2 : Nat) : Nat → Nat → Nat → Nat → Nat
  | 0, _, _, acc => acc
  | k + 1, n, t, acc => if t = 0 then acc else phiGo y2 k (n + 1) (t * y2 / fxOne / (2 * n + 3)) (acc + t)

/-- Φ(|y|) − 1/2 in fixed point, for |y| below 16. -/
def fxPhi (y : Nat) : Nat :=
  let y2 := y * y / fxOne
  let (E, k) := fxExp (y2 / 2)
  let sum := phiGo y2 1200 0 y 0
  let root := isqrt (2 * fxPi * fxOne)
  sum * fxOne / (E <<< k) * fxOne / root

/-- y × Φ(y), correctly rounded in FP32 (R355); −∞ × 0 is NaN (R354, R608). -/
def f32gelu (a : Nat) : Nat :=
  match fDecode fp32 a with
  | .nan _ => fNan fp32
  | .inf s => if s then fNan fp32 else fInf fp32 false
  | .fin s m e =>
    if m = 0 then a
    else
      let y := toFx m e
      if 16 * fxOne < y then (if s then 0x80000000 else a)
      else
        let h := fxPhi y
        let ph := if s then fxOne / 2 - h else fxOne / 2 + h
        (fRound fp32 s (m * ph) (e - fxBits) true).1

end Sys2Proof.Machine
end

