-- ==== Sys2Proof/Machine/Flags.lean ====
section
/-! DEFINITION. The thread status word (R112): its computed fields, its W1C bits, and how operations set them (R122, R141). -/

namespace Sys2Proof.Machine

/-- TSW.TAINT. -/
def tswTaint : Word := 0x100
/-- TSW.SPAWNFAIL. -/
def tswSpawnFail : Word := 0x200
/-- The bits that STCLR clears (R112). -/
def tswW1c : Word := 0x31F

/-- TSW as STRD reads it: chip, cluster, core, thread, and the sticky bits. -/
def tswWord (chip key : Nat) (sticky : Word) : Word :=
  place chip 37 30 ||| place (key / 64) 29 24 ||| place (key / 8 % 8) 23 21 ||| place (key % 8) 20 18 ||| (sticky &&& tswW1c)

/-- Sets sticky bits of a thread. -/
def setTsw (s : State) (key : Nat) (bits : Word) : State := if bits = 0 then s else uTh s key (fun t => { t with tsw := t.tsw ||| bits })

/-- FPFLAGS as TSW bits [4:0]: invalid, divide by zero, overflow, underflow, inexact (R112). -/
def fpBits (fl : Nat) : Word := BitVec.ofNat 64 (fl % 32)

/-- TSW.TAINT when a source was tainted (R141). -/
def taintBit (t : Bool) : Word := if t then tswTaint else 0

end Sys2Proof.Machine
end

