-- ==== Sys2Proof/Machine/Operands.lean ====
section
/-! DEFINITION. Slot words and register operands of the Yoren core (spec/04_yoren_core.md): the fields of R116 and R118, the register
files of R110 with results that are not visible yet (R119, R128, R129), predicates (R117). -/

namespace Sys2Proof.Machine

/-! ## Fields of a slot word (R116, R118) -/

def fOp (w : Word) : Nat := fld w 63 56
def fPred (w : Word) : Nat := fld w 55 53
def fPneg (w : Word) : Bool := bitOf w 52
def fDst (w : Word) : Nat := fld w 51 46
def fA (w : Word) : Nat := fld w 45 40
def fB (w : Word) : Nat := fld w 39 34
def fBit33 (w : Word) : Bool := bitOf w 33
def fImm (w : Word) : Int := sgn 32 (fld w 31 0)
def fVd (w : Word) : Nat := fld w 50 46
def fVa (w : Word) : Nat := fld w 44 40
def fVb (w : Word) : Nat := fld w 38 34
def fEt (w : Word) : Nat := fld w 31 29
def fVc (w : Word) : Nat := fld w 28 24
def fSs (w : Word) : Nat := fld w 23 18
def fLane (w : Word) : Nat := fld w 17 11
def fMf (w : Word) : Nat := fld w 39 36
def fSz (w : Word) : Nat := fld w 35 34
def fFn (w : Word) : Nat := fld w 31 28
def fOff (w : Word) : Int := if fOp w = 9 then sgn 28 (fld w 27 0) else sgn 32 (fld w 31 0)
def fUnit (w : Word) : Nat := fld w 2 0
def fMfT (w : Word) : Nat := fld w 3 0

/-- The slot word of a row: its opcode above the bits the command carries. -/
def slotWord (op : Nat) (w : BitVec 56) : Word := place op 63 56 ||| BitVec.ofNat 64 w.toNat

/-- The key of a thread: 64·cluster + 8·core + thread (R112). -/
def thKey (t : ThreadRef) : Nat := 64 * t.cl.val + 8 * t.core.val + t.th.val

/-! ## Register files -/

/-- The mask that enables every byte. -/
def allOnes : BitVec 128 := BitVec.ofNat 128 (2 ^ 128 - 1)

/-- A vector with the bytes of `x` where the mask is set, those of `old` elsewhere. -/
def vMerge (old x : BitVec 1024) (mask : BitVec 128) : BitVec 1024 :=
  let wide : Nat := (List.range 128).foldr (fun i acc => (if mask.getLsbD i then 255 else 0) * 2 ^ (8 * i) + acc) 0
  let m : BitVec 1024 := BitVec.ofNat 1024 wide
  (x &&& m) ||| (old &&& ~~~m)

/-- The taint bit after a masked write (R141). -/
def mergeTaint (old t : Bool) (mask : BitVec 128) : Bool := if mask = 0 then old else if mask = allOnes then t else old || t

/-- Puts a register write into the files; s0 and p0 ignore writes (R110). -/
def applyW (th : Thread) : RegW → Thread
  | .s r x t => if r = 0 then th else { th with s := Tab.set 0 th.s r x, sT := Tab.set false th.sT r t }
  | .v r x mask t =>
    { th with
      v := Tab.set 0 th.v r (vMerge (Tab.get 0 th.v r) x mask)
      vT := Tab.set false th.vT r (mergeTaint (Tab.get false th.vT r) t mask) }
  | .p r x mask => if r = 0 then th else { th with p := Tab.set 0 th.p r ((x &&& mask) ||| (Tab.get 0 th.p r &&& ~~~mask)) }

/-- The order of pending results: by the bundle they become visible to, then by issue, then by slot (R129). -/
def pendBefore (a b : Pend) : Bool :=
  decide (a.at_ < b.at_) || (a.at_ == b.at_ && (decide (a.issued < b.issued) || (a.issued == b.issued && decide (a.slot ≤ b.slot))))

/-- Adds a pending result in its place. -/
def addPend (p : Pend) : List Pend → List Pend
  | [] => [p]
  | q :: r => if pendBefore q p then q :: addPend p r else p :: q :: r

/-- The results visible to bundle `n` enter the files (R119). -/
def commitPend (th : Thread) (n : Nat) : Thread :=
  let vis := th.pend.filter (fun p => decide (p.at_ ≤ n))
  let th' := vis.foldl (fun t p => applyW t p.w) th
  { th' with pend := th.pend.filter (fun p => decide (n < p.at_)) }

/-- What a bundle reads: the thread with its visible results, and the index of its free values. -/
structure Env where
  th : Thread
  free : Nat
deriving DecidableEq, Repr

/-- R128: whether read number `tag` of the bundle takes the new value. -/
def early (e : Env) (tag : Nat) : Bool := Config.earlyRead (64 * e.free + tag)

/-- Reads a scalar register with its taint: a result still on its way may or may not be seen. -/
def readS (e : Env) (tag r : Nat) : Word × Bool :=
  if r = 0 then (0, false)
  else
    let old := (Tab.get 0 e.th.s r, Tab.get false e.th.sT r)
    let coming := e.th.pend.filterMap (fun p => match p.w with | .s r' x t => if r' = r then some (x, t) else none | _ => none)
    match coming.getLast? with
    | some x => if early e tag then x else old
    | none => old

/-- Reads a vector register with its taint. -/
def readV (e : Env) (tag r : Nat) : BitVec 1024 × Bool :=
  let old := (Tab.get 0 e.th.v r, Tab.get false e.th.vT r)
  let coming := e.th.pend.filterMap (fun p => match p.w with | .v r' x m t => if r' = r then some (x, m, t) else none | _ => none)
  if coming.isEmpty then old
  else if early e tag then coming.foldl (fun (o, ot) (x, m, t) => (vMerge o x m, mergeTaint ot t m)) old
  else old

/-- Reads a predicate register: p0 reads all ones (R110). -/
def readP (e : Env) (tag r : Nat) : BitVec 128 :=
  if r = 0 then allOnes
  else
    let old := Tab.get 0 e.th.p r
    let coming := e.th.pend.filterMap (fun p => match p.w with | .p r' x m => if r' = r then some (x, m) else none | _ => none)
    if coming.isEmpty then old
    else if early e tag then coming.foldl (fun o (x, m) => (x &&& m) ||| (o &&& ~~~m)) old
    else old

/-- The predicate bits of a slot, PNEG applied (R117). -/
def slotPred (e : Env) (slot : Nat) (w : Word) : BitVec 128 :=
  let p := readP e (8 * slot) (fPred w)
  if fPneg w then ~~~p else p

/-- A slot other than a vector slot is enabled by bit 0 of its predicate (R117); a vector store by any enabled byte (R123). -/
def slotOn (e : Env) (slot : Nat) (w : Word) : Bool :=
  if slot = 4 && (fOp w = 4 || fOp w = 8) then slotPred e slot w != 0 else (slotPred e slot w).getLsbD 0

/-! ## Elements (R110, R118) -/

/-- The bytes of an element type: I8, I16, I32, I64, FP16, BF16, FP32. -/
def etBytes (et : Nat) : Nat := match et with | 0 => 1 | 1 => 2 | 2 => 4 | 3 => 8 | 4 => 2 | 5 => 2 | _ => 4

/-- Element `i` of `es` bytes. -/
def vElem (x : BitVec 1024) (es i : Nat) : Nat := (x.toNat >>> (8 * es * i)) % 2 ^ (8 * es)

/-- A vector from its elements, element 0 first. -/
def vPack (es : Nat) (l : List Nat) : BitVec 1024 :=
  BitVec.ofNat 1024 (l.foldr (fun e acc => e % 2 ^ (8 * es) + 2 ^ (8 * es) * acc) 0)

/-- The enable of element `i` (R117). -/
def elemOn (p : BitVec 128) (es i : Nat) : Bool := p.getLsbD (es * i)

/-- The byte mask of the enabled elements. -/
def elemMask (p : BitVec 128) (es : Nat) : BitVec 128 :=
  BitVec.ofNat 128 ((List.range 128).foldr (fun i acc => (if elemOn p es (i / es) then 1 else 0) * 2 ^ i + acc) 0)

end Sys2Proof.Machine
end

