-- ==== Sys2Proof/Machine/Alu.lean ====
section
/-! DEFINITION. What the scalar and vector operations of the Yoren core compute (R119 to R122), as functions of their operands, and
their encoding checks. -/

namespace Sys2Proof.Machine

/-! ## Scalar operations (R120) -/

/-- Signed division, truncated; by zero all ones; −2⁶³ by −1 wraps. -/
def sDiv (a b : Word) : Word := if b = 0 then BitVec.ofNat 64 (2 ^ 64 - 1) else BitVec.ofInt 64 (Int.tdiv a.toInt b.toInt)

/-- Signed remainder; by zero the dividend. -/
def sRem (a b : Word) : Word := if b = 0 then a else BitVec.ofInt 64 (Int.tmod a.toInt b.toInt)

/-- The result of a scalar operation (R120); PSET's is 1 or 0. -/
def sResult (op : Nat) (a b : Word) : Word :=
  match op with
  | 0x01 => a + b
  | 0x02 => a - b
  | 0x03 => a &&& b
  | 0x04 => a ||| b
  | 0x05 => a ^^^ b
  | 0x06 => a <<< (b.toNat % 64)
  | 0x07 => a >>> (b.toNat % 64)
  | 0x08 => a.sshiftRight (b.toNat % 64)
  | 0x0A => if a.toInt < b.toInt then 1 else 0
  | 0x0B => if a.toNat < b.toNat then 1 else 0
  | 0x0C => if a = b then 1 else 0
  | 0x0D => if a = 0 then 0 else 1
  | 0x10 => a * b
  | 0x11 => BitVec.ofInt 64 (a.toInt * b.toInt / 2 ^ 64)
  | 0x12 => sDiv a b
  | 0x13 => sRem a b
  | 0x14 => b
  | 0x15 => (a &&& 0xFFFFFFFF) ||| (b <<< 32)
  | 0x18 => BitVec.ofNat 64 (popN a.toNat 64)
  | 0x19 => BitVec.ofNat 64 (clzN a.toNat 64)
  | _ => 0

/-- Latency of a scalar operation (R120). -/
def sLatency (op : Nat) : Nat :=
  if op = 0x10 || op = 0x11 then 3 else if op = 0x12 || op = 0x13 then 18 else if op = 0x18 || op = 0x19 then 2 else 1

/-- The listed scalar opcodes (R120). -/
def sListed (op : Nat) : Bool :=
  (1 ≤ op && op ≤ 8) || (0x0A ≤ op && op ≤ 0x0D) || (0x10 ≤ op && op ≤ 0x15) || op == 0x18 || op == 0x19

/-- The operation reads SRCA (all but MOVI), and the second operand. -/
def sReadsA (op : Nat) : Bool := op != 0x14
def sReadsB (op : Nat) : Bool := op != 0x0D && op != 0x18 && op != 0x19

/-- An illegal scalar slot word (R116, R118, R120, R127). -/
def sIllegal (slot : Nat) (w : Word) : Bool :=
  let op := fOp w
  !sListed op || bitOf w 32 || (slot == 1 && (op == 0x12 || op == 0x13)) || ((op == 0x14 || op == 0x15) && !fBit33 w)

/-! ## Vector operations (R121, R122) -/

/-- The float format of an element type. -/
def etFmt (et : Nat) : FFmt := if et = 4 then fp16 else if et = 5 then bf16 else fp32

def isFloat (et : Nat) : Bool := decide (4 ≤ et)

/-- The elements of an integer operation of two operands on `n` bits. -/
def vInt (op n a b : Nat) : Nat :=
  let sh := b % n
  match op with
  | 0x01 => (a + b) % 2 ^ n
  | 0x02 => (a + 2 ^ n - b) % 2 ^ n
  | 0x03 => (a * b) % 2 ^ n
  | 0x05 => if sgn n b < sgn n a then b else a
  | 0x06 => if sgn n a < sgn n b then b else a
  | 0x07 => a &&& b
  | 0x08 => a ||| b
  | 0x09 => a ^^^ b
  | 0x0A => (a <<< sh) % 2 ^ n
  | 0x0B => a >>> sh
  | 0x0C => unsgn n (sgn n a / 2 ^ sh)
  | _ => 0

/-- The elements of a float operation of two operands: result and flags. -/
def vFloat (op : Nat) (f : FFmt) (a b : Nat) : Nat × Nat :=
  match op with
  | 0x01 => fAdd f a b
  | 0x02 => fSub f a b
  | 0x03 => fMul f a b
  | 0x05 => fMin f a b
  | _ => fMax f a b

/-- A compare (R121, R122): its outcome and flags. An ordered test of a NaN, and any test of a signaling NaN, is invalid (R608). -/
def vTest (test et a b : Nat) : Bool × Nat :=
  if isFloat et then
    let f := etFmt et
    let nan := fIsNan f a || fIsNan f b
    let snan := fIsSnan f a || fIsSnan f b
    match test with
    | 0 => (fEq f a b, if snan then flNV else 0)
    | 1 => (!fEq f a b, if snan then flNV else 0)
    | 2 => (fLt f a b, if nan then flNV else 0)
    | _ => (fLe f a b, if nan then flNV else 0)
  else
    let n := 8 * etBytes et
    (match test with
      | 0 => a == b
      | 1 => a != b
      | 2 => decide (sgn n a < sgn n b)
      | 3 => decide (sgn n a ≤ sgn n b)
      | 4 => decide (a < b)
      | _ => decide (a ≤ b), 0)

/-- The signed range of an integer element type. -/
def etRange (et : Nat) : Int × Int := let n := 8 * etBytes et; (-(2 ^ (n - 1) : Int), (2 ^ (n - 1) : Int) - 1)

/-- VCVT of one element (R122). -/
def vConv (src dst a : Nat) : Nat × Nat :=
  let (lo, hi) := etRange dst
  let n := 8 * etBytes dst
  match isFloat src, isFloat dst with
  | true, true => fCvt (etFmt src) (etFmt dst) a
  | true, false => let (x, fl) := vToInt (fDecode (etFmt src) a) lo hi; (unsgn n x, fl)
  | false, true => fOfInt (etFmt dst) (sgn (8 * etBytes src) a)
  | false, false => (unsgn n (max lo (min hi (sgn (8 * etBytes src) a))), 0)

/-- One level of the pairwise tree of VRED (R122): absent elements are passed over. -/
def redLevel (add : Nat → Nat → Nat × Nat) : List (Option Nat) → List (Option Nat) × Nat
  | some a :: some b :: r => let (x, fl) := add a b; let (l, g) := redLevel add r; (some x :: l, fl ||| g)
  | a :: b :: r => let (l, g) := redLevel add r; ((match a with | some x => some x | none => b) :: l, g)
  | l => (l, 0)

/-- The tree of VRED: the sum, none when no element takes part, and the flags. -/
def redTree (add : Nat → Nat → Nat × Nat) : Nat → List (Option Nat) → Option Nat × Nat
  | 0, l => (l.headD none, 0)
  | k + 1, l => let (l', fl) := redLevel add l; let (x, g) := redTree add k l'; (x, fl ||| g)

/-- Latency of a vector operation (R121). -/
def vLatency (op et : Nat) : Nat :=
  match op with
  | 0x01 | 0x02 | 0x05 | 0x06 => if isFloat et then 4 else 2
  | 0x03 => if isFloat et then 4 else 3
  | 0x04 => 4
  | 0x07 | 0x08 | 0x09 | 0x10 => 1
  | 0x0A | 0x0B | 0x0C | 0x0D => 2
  | 0x0E => 4
  | 0x0F | 0x11 => 3
  | 0x12 => 6
  | _ => 8

/-- The slots a vector operation may sit in (R121): V0 allowed, V1 allowed. -/
def vSlots (op et : Nat) : Bool × Bool :=
  match op with
  | 0x01 | 0x02 | 0x05 | 0x06 => (true, !isFloat et)
  | 0x03 | 0x04 | 0x0E | 0x13 => (true, false)
  | 0x07 | 0x08 | 0x09 | 0x10 => (true, true)
  | _ => (false, true)

/-- An illegal vector slot word (R116 to R118, R121, R127). -/
def vIllegal (slot : Nat) (w : Word) : Bool :=
  let op := fOp w
  let et := fEt w
  let vc := fVc w
  op == 0 || 0x13 < op || bitOf w 51 || bitOf w 45 || bitOf w 39 || bitOf w 32 || fld w 10 0 != 0 || et == 7 ||
  (slot == 2 && !(vSlots op et).1) || (slot == 3 && !(vSlots op et).2) ||
  (op == 0x04 && !isFloat et) || ((op == 0x0A || op == 0x0B || op == 0x0C) && isFloat et) ||
  (op == 0x0D && (8 ≤ fVd w || 5 < vc || (4 ≤ vc && isFloat et))) ||
  (op == 0x0E && 7 ≤ vc) ||
  (op == 0x11 && decide (128 / etBytes et ≤ fLane w)) ||
  (op == 0x12 && (et != 3 || 2 < vc))

/-- What a vector slot operation writes, its flags, and whether a source was tainted. -/
structure VOut where
  w : Option RegW
  fl : Nat := 0
  taint : Bool := false
deriving DecidableEq, Repr

/-- Operand b: v[VB], or the low bits of s[SS] in every element with BS (R118). -/
def vOpB (e : Env) (slot : Nat) (w : Word) (es : Nat) : BitVec 1024 × Bool :=
  if fBit33 w then
    let (x, t) := readS e (8 * slot + 2) (fSs w)
    (vPack es (List.replicate (128 / es) x.toNat), t)
  else readV e (8 * slot + 2) (fVb w)

/-- The elements of a two-operand operation, enabled ones only. -/
def vMap2 (p : BitVec 128) (es : Nat) (a b : BitVec 1024) (f : Nat → Nat → Nat × Nat) : BitVec 1024 × Nat :=
  let l := (List.range (128 / es)).map (fun i => if elemOn p es i then f (vElem a es i) (vElem b es i) else (0, 0))
  (vPack es (l.map (·.1)), l.foldl (fun acc x => acc ||| x.2) 0)

/-- A vector slot operation (R121). -/
def vResult (e : Env) (slot : Nat) (w : Word) : VOut :=
  let op := fOp w
  let et := fEt w
  let es := etBytes et
  let p := slotPred e slot w
  let mask := elemMask p es
  let (a, ta) := readV e (8 * slot + 1) (fVa w)
  let (b, tb) := vOpB e slot w es
  let n := 128 / es
  let dst (x : BitVec 1024) (fl : Nat) (t : Bool) : VOut := { w := some (.v (fVd w) x mask t), fl := fl, taint := t }
  match op with
  | 0x04 =>
    let (c, tc) := readV e (8 * slot + 3) (fVc w)
    let l := (List.range n).map (fun i => if elemOn p es i then fFma (etFmt et) (vElem a es i) (vElem b es i) (vElem c es i) else (0, 0))
    dst (vPack es (l.map (·.1))) (l.foldl (fun acc x => acc ||| x.2) 0) (ta || tb || tc)
  | 0x0D =>
    let l := (List.range n).map (fun i => if elemOn p es i then vTest (fVc w) et (vElem a es i) (vElem b es i) else (false, 0))
    let bits : Nat := (List.range 128).foldr (fun i acc => b2n ((l.getD (i / es) (false, 0)).1) * 2 ^ i + acc) 0
    { w := some (.p (fVd w) (BitVec.ofNat 128 bits) mask), fl := l.foldl (fun acc x => acc ||| x.2) 0, taint := ta || tb }
  | 0x0E =>
    let dt := fVc w
    let ds := etBytes dt
    let rest := Config.cvtRest (64 * e.free + 8 * slot)
    let l := (List.range (128 / ds)).map (fun i =>
      if elemOn p ds i then (if i < n then vConv et dt (vElem a es i) else (vElem rest ds i, 0)) else (0, 0))
    { w := some (.v (fVd w) (vPack ds (l.map (·.1))) (elemMask p ds) ta), fl := l.foldl (fun acc x => acc ||| x.2) 0, taint := ta }
  | 0x0F =>
    let l := (List.range 128).map (fun j => vElem a 1 (vElem b 1 j % 128))
    dst (vPack 1 l) 0 (ta || tb)
  | 0x10 =>
    let (x, t) := readS e (8 * slot + 2) (fSs w)
    dst (vPack es (List.replicate n x.toNat)) 0 t
  | 0x11 =>
    if elemOn p es (fLane w) then
      let x := vElem a es (fLane w)
      let y := if isFloat et then BitVec.ofNat 64 x else BitVec.ofInt 64 (sgn (8 * es) x)
      { w := some (.s (fSs w) y ta), taint := ta }
    else { w := none, taint := ta }
  | 0x12 =>
    match fVc w with
    | 0 => dst (vMap2 p 8 a a (fun x _ => (mix64 x 0, 0))).1 0 ta
    | 1 =>
      let (seed, ts) := readS e (8 * slot + 3) (fSs w)
      dst (vMap2 p 8 a a (fun x _ => (xxh64 seed.toNat (leBytes x 8), 0))).1 0 (ta || ts)
    | _ => dst (vMap2 p 8 a b (fun x y => (crc32c (y % 2 ^ 32) (leBytes x 8), 0))).1 0 (ta || tb)
  | 0x13 =>
    let l := (List.range n).map (fun i => if elemOn p es i then some (vElem a es i) else none)
    let add (x y : Nat) : Nat × Nat := if isFloat et then fAdd (etFmt et) x y else ((x + y) % 2 ^ (8 * es), 0)
    let (x, fl) := redTree add 7 l
    let any := l.any Option.isSome
    let (x, fl) := if isFloat et && x.any (fIsNan (etFmt et)) then
        (some (fNan (etFmt et)), if x.any (fIsSnan (etFmt et)) then fl ||| flNV else fl) else (x, fl)
    { w := some (.v (fVd w) (vPack es [x.getD 0]) allOnes (if any then ta else (readV e (8 * slot + 3) (fVd w)).2)), fl := fl, taint := ta }
  | _ =>
    if isFloat et && (op = 0x01 || op = 0x02 || op = 0x03 || op = 0x05 || op = 0x06) then
      let (x, fl) := vMap2 p es a b (vFloat op (etFmt et))
      dst x fl (ta || tb)
    else dst (vMap2 p es a b (fun x y => (vInt op (8 * es) x y, 0))).1 0 (ta || tb)

end Sys2Proof.Machine
end

