-- ==== Sys2Proof/Machine/Order.lean ====
section
/-! DEFINITION. The Order Unit (spec/10_search_and_order.md R331 to R341): orderings, sorting, merging, selection with carry records,
exact sums, and its commands from the unit's queue and as flight stages. -/

namespace Sys2Proof.Machine

/-! ## Sorting, by structural recursion -/

/-- Merges two sorted lists; the left one first among equals. -/
def mergeL {α : Type} (le : α → α → Bool) : Nat → List α → List α → List α
  | 0, a, b => a ++ b
  | _ + 1, [], b => b
  | _ + 1, a, [] => a
  | k + 1, x :: a, y :: b => if le x y then x :: mergeL le k a (y :: b) else y :: mergeL le k (x :: a) b

/-- A stable merge sort. -/
def sortL {α : Type} (le : α → α → Bool) : Nat → List α → List α
  | 0, l => l
  | k + 1, l =>
    if l.length ≤ 1 then l
    else
      let h := l.length / 2
      mergeL le l.length (sortL le k (l.take h)) (sortL le k (l.drop h))

/-- Sorts a list, stably. -/
def stableSort {α : Type} (le : α → α → Bool) (l : List α) : List α := sortL le (l.length.log2 + 2) l

/-! ## Commands (R331, R332) -/

def oKt (d : Bytes) : Nat := fld (wordAt d 0) 55 53
def oDrop (d : Bytes) : Bool := bitOf (wordAt d 0) 52
def oSums (d : Bytes) : Bool := bitOf (wordAt d 0) 51
def oIw (d : Bytes) : Nat := if bitOf (wordAt d 0) 50 then 8 else 4
def oCarry (d : Bytes) : Bool := bitOf (wordAt d 0) 49
def oEmit (d : Bytes) : Bool := bitOf (wordAt d 0) 48
def oDesc (d : Bytes) : Bool := bitOf (wordAt d 0) 47
def oCount (d : Bytes) : Nat := fld (wordAt d 0) 31 0
def oStride (d : Bytes) : Nat := fld (wordAt d 24) 63 48
def oNrun (d : Bytes) : Nat := fld (wordAt d 24) 20 16
def oK (d : Bytes) : Nat := fld (wordAt d 24) 12 0
def oTbl (d : Bytes) : Nat := fld (wordAt d 32) 47 0
def oBase (d : Bytes) : Nat := (wordAt d 40).toNat
def oRes (d : Bytes) : Nat := fld (wordAt d 48) 47 0

/-- The bytes of a key type. -/
def ktBytes (kt : Nat) : Nat := match kt with | 0 => 4 | 1 => 8 | 2 => 4 | 3 => 8 | 4 => 2 | 5 => 2 | _ => 4
def ktFloat (kt : Nat) : Bool := decide (4 ≤ kt)
def ktFmt (kt : Nat) : FFmt := if kt = 4 then fp16 else if kt = 5 then bf16 else fp32

/-- An Order Unit command is accepted. -/
def ouOk (flight : Bool) (d : Bytes) : Bool :=
  let op := aOp d
  let w := fun i => wordAt d (8 * i)
  let sel := op == 3 || op == 4
  d.length == 64 && 1 ≤ op && op ≤ 4 && oKt d != 7 &&
  onlyBits (w 0) (msk 63 47 ||| msk 31 0) && fld (w 1) 63 48 == 0 && fld (w 2) 63 48 == 0 && onlyBits (w 3) (msk 63 48 ||| msk 20 16 ||| msk 12 0) &&
  fld (w 4) 63 48 == 0 && fld (w 6) 63 48 == 0 && fld (w 7) 63 48 == 0 &&
  (ktFloat (oKt d) || (!oDrop d && !oSums d)) && (sel || (!oSums d && !oCarry d && oK d == 0)) && (oCarry d || !oEmit d) && (!sel || !oDesc d) &&
  (op == 2 || oNrun d == 0) && (op != 2 || (2 ≤ oNrun d && oNrun d ≤ 16)) && (!sel || (1 ≤ oK d && oK d ≤ 4096)) &&
  (op == 2 || oCarry d || oTbl d == 0) && (op != 2 || fld (w 5) 63 48 == 0) &&
  1 ≤ oCount d && (op != 1 || oCount d ≤ 65536) && ktBytes (oKt d) ≤ oStride d && oStride d % ktBytes (oKt d) == 0 && oRes d != 0 &&
  (!flight || (op != 2 && !oCarry d && aSrc d == 0 && aDst d == 0))

/-! ## Orderings (R334) -/

/-- An element: key pattern, index, taint. -/
structure OElem where
  key : Nat
  idx : Nat
  t : Bool
deriving DecidableEq, Repr

/-- Key a lies strictly below key b: integers as their type, floats by value with NaN above +∞. -/
def keyLt (kt a b : Nat) : Bool :=
  match kt with
  | 0 => decide (sgn 32 a < sgn 32 b)
  | 1 => decide (sgn 64 a < sgn 64 b)
  | 2 => decide (a < b)
  | 3 => decide (a < b)
  | _ =>
    let f := ktFmt kt
    if fIsNan f a then false else if fIsNan f b then true else fLt f a b

/-- A NaN key. -/
def keyNan (kt a : Nat) : Bool := ktFloat kt && fIsNan (ktFmt kt) a

/-- The order in which elements are written: by key, then the lower index first. -/
def elemLe (kt : Nat) (desc : Bool) (a b : OElem) : Bool :=
  let lt := if desc then keyLt kt b.key a.key else keyLt kt a.key b.key
  let gt := if desc then keyLt kt a.key b.key else keyLt kt b.key a.key
  lt || (!gt && decide (a.idx ≤ b.idx))

/-- A key widened to 8 bytes (R338): signed integers keep their value. -/
def keyWide (kt a : Nat) : Nat := if kt = 0 then unsgn 64 (sgn 32 a) else a
def keyNarrow (kt a : Nat) : Nat := a % 2 ^ (8 * ktBytes kt)

/-! ## Exact sums (R337) -/

/-- The sum of a set of keys: its finite part, in units of 2^-149 for float keys and of 1 for integers (DESIGN CHOICE), and how many NaNs, +∞
and −∞ it holds. -/
structure OSum where
  fin : Int := 0
  nan : Nat := 0
  pinf : Nat := 0
  ninf : Nat := 0
deriving DecidableEq, Repr

/-- One key into a sum. -/
def sumKey (kt : Nat) (s : OSum) (key : Nat) : OSum :=
  if !ktFloat kt then { s with fin := s.fin + (if kt = 0 then sgn 32 key else if kt = 1 then sgn 64 key else (key : Int)) }
  else
  let x := if kt = 6 then key else (fCvt (ktFmt kt) fp32 key).1
  match fDecode fp32 x with
  | .nan _ => { s with nan := s.nan + 1 }
  | .inf neg => if neg then { s with ninf := s.ninf + 1 } else { s with pinf := s.pinf + 1 }
  | .fin neg m e => { s with fin := s.fin + scaled neg m e (-149) }

/-- One set less another. -/
def sumSub (a b : OSum) : OSum := { fin := a.fin - b.fin, nan := a.nan - b.nan, pinf := a.pinf - b.pinf, ninf := a.ninf - b.ninf }

/-- A sum rounded once to FP32. -/
def sumRound (s : OSum) : Nat :=
  if s.nan != 0 || (s.pinf != 0 && s.ninf != 0) then fNan fp32
  else if s.pinf != 0 then fInf fp32 false
  else if s.ninf != 0 then fInf fp32 true
  else if s.fin = 0 then 0
  else (fRound fp32 (decide (s.fin < 0)) s.fin.natAbs (-149) false).1

/-! ## Counters (R341) -/

/-- Counts keys read, NaNs dropped, commands completed. -/
def countOu (s : State) (n elem nan cmd : Nat) : State :=
  let a := (gCtx s n).ou
  let s0 := a.sat.getLsbD 0
  let s1 := a.sat.getLsbD 1
  let s2 := a.sat.getLsbD 2
  let n0 := s0 || sat64 a.elem elem
  let n1 := s1 || sat64 a.nan nan
  let n2 := s2 || sat64 a.cmd cmd
  let s := uCtx s n (fun c => { c with ou := { c.ou with
    elem := bump64 a.elem elem, nan := bump64 a.nan nan, cmd := bump64 a.cmd cmd, sat := BitVec.ofNat 3 (b2n n0 + 2 * b2n n1 + 4 * b2n n2) } })
  let s := satNotice s n s0 n0 (0x10000 + n * 0x40) 0
  let s := satNotice s n s1 n1 (0x10000 + n * 0x40 + 8) 0
  satNotice s n s2 n2 (0x10000 + n * 0x40 + 0x10) 0

/-! ## What a command finds -/

/-- An element as the unit keeps it while it reads keys: 17 bytes. -/
def elemBytes (x : OElem) : Bytes := leBytes x.key 8 ++ leBytes x.idx 8 ++ [BitVec.ofNat 8 (b2n x.t)]
def elemOf (b : Bytes) : OElem := { key := numAt b 0 8, idx := numAt b 8 8, t := (b.getD 16 0).getLsbD 0 }

/-- All keys of a command are read: COUNT of them, or what its stage was given. -/
def ouRead (e : UEnv) (pos : Nat) : Bool :=
  decide (oCount e.cmd ≤ pos) || (e.flight && e.ended && decide (partsLen e.inp < pos * oStride e.cmd + ktBytes (oKt e.cmd)))

/-- Reads key `i`, at SRC + i·STRIDE, with its index: its number, or for a MERGE its value in the index stream. -/
def ouKey (e : UEnv) (i : Nat) : M OElem := do
  let d := e.cmd
  let (b, t) ← uRead e (aSrc d) (i * oStride d) (ktBytes (oKt d))
  if aOp d != 2 then return { key := ofLe b, idx := (oBase d + i) % 2 ^ 64, t := t }
  else if oBase d = 0 then return { key := ofLe b, idx := i, t := t }
  else
    let (x, u) ← readVa e.ag (oBase d + i * oIw d) (oIw d)
    return { key := ofLe b, idx := ofLe x, t := t || u }

/-- The run lengths of a MERGE, which sum to COUNT (R332). -/
def ouRuns (e : UEnv) : M Bytes := do
  if aOp e.cmd != 2 then return []
  let (tb, _) ← readVa e.ag (oTbl e.cmd) (4 * oNrun e.cmd)
  if ((chunksOf 4 (oNrun e.cmd + 1) tb).map ofLe).foldl (· + ·) 0 != oCount e.cmd then throw (.code eRange)
  return tb

/-- What a command will write: its outputs in order, NaNs dropped, SEL and LEFT with the taint of their word, whether it writes the
whole result record, and the code that ends it after them. -/
structure OPlan where
  outs : List OElem
  nan : Nat
  sel : Nat := 0
  left : Nat := 0
  t : Bool := false
  whole : Bool := true
  code : Code := 0

/-- Merges runs whose heads are `runs` (R334, R335): the first head in key order, the lower index among equals, then the earlier run; a run whose
keys leave the order stops it. -/
def mergeRuns (kt : Nat) (desc : Bool) : Nat → List (List OElem) → List OElem → List OElem × Bool
  | 0, _, acc => (acc.reverse, false)
  | k + 1, runs, acc =>
    let lt (a b : OElem) : Bool := if desc then keyLt kt b.key a.key else keyLt kt a.key b.key
    let heads := runs.zipIdx.filterMap (fun (r, i) => r.head?.map (fun h => (h, i)))
    match heads with
    | [] => (acc.reverse, false)
    | h :: r =>
      let before (a b : OElem) : Bool := lt a b || (!lt b a && decide (a.idx < b.idx))
      let best := r.foldl (fun b x => if before x.1 b.1 then x else b) h
      let rest := (runs.getD best.2 []).drop 1
      match rest.head? with
      | some y => if lt y best.1 then ((best.1 :: acc).reverse, true) else mergeRuns kt desc k (runs.set best.2 rest) (best.1 :: acc)
      | none => mergeRuns kt desc k (runs.set best.2 rest) (best.1 :: acc)

/-- Cuts a list into runs of given lengths. -/
def cutRuns {α : Type} : List Nat → List α → List (List α)
  | [], _ => []
  | n :: r, l => l.take n :: cutRuns r (l.drop n)

/-- Two's complement of 320 bits (R338). -/
def sumWord (x : Int) : Nat := unsgn 320 x

/-- Plans a SORT, TOPK or BOTK without a carry record. -/
def planSelect (d : Bytes) (l : List OElem) : OPlan :=
  let kt := oKt d
  let kept := if oDrop d then l.filter (fun x => !keyNan kt x.key) else l
  let op := aOp d
  let sorted := stableSort (elemLe kt (if op = 1 then oDesc d else op == 3)) kept
  let outs := if op = 1 then sorted else sorted.take (oK d)
  let total := kept.foldl (fun s x => sumKey kt s x.key) ({} : OSum)
  let part := outs.foldl (fun s x => sumKey kt s x.key) ({} : OSum)
  { outs := outs, nan := l.length - kept.length, t := oSums d && l.any (·.t)
    sel := if oSums d then sumRound part else 0, left := if oSums d then sumRound (sumSub total part) else 0 }

/-- Plans a MERGE of runs of given lengths. -/
def planMerge (d : Bytes) (lens : List Nat) (l : List OElem) : OPlan :=
  let kt := oKt d
  let runs := (cutRuns lens l).map (fun r => if oDrop d then r.filter (fun x => !keyNan kt x.key) else r)
  let kept := runs.foldl (fun a r => a + r.length) 0
  let (outs, bad) := mergeRuns kt (oDesc d) (kept + 1) runs []
  { outs := outs, nan := l.length - kept, code := if bad then eRange else 0 }

/-- Plans a TOPK or BOTK with a carry record: its elements join the record (R338). -/
def planCarry (e : UEnv) (l : List OElem) : M OPlan := do
  let d := e.cmd
  let kt := oKt d
  let k := oK d
  let (r, rt) ← readVa e.ag (oTbl d) 128
  let held := fld (wordAt r 0) 31 0
  if k < held || !allZero (slice r 80 48) then throw (.code eRange)
  let old ← (List.range held).mapM (fun i => do
    let (x, t) ← readVa e.ag (oTbl d + 128 + 16 * i) 16
    return ({ key := keyNarrow kt (numAt x 0 8), idx := numAt x 8 8, t := t } : OElem))
  let kept := if oDrop d then l.filter (fun x => !keyNan kt x.key) else l
  let nan := fld (wordAt r 0) 63 32 + (l.length - kept.length)
  let cand := (stableSort (elemLe kt (aOp d == 3)) (old ++ kept)).take k
  let before : OSum := { fin := sgn 320 (numAt r 16 40), nan := numAt r 56 8, pinf := numAt r 64 8, ninf := numAt r 72 8 }
  let total := kept.foldl (fun s x => sumKey kt s x.key) before
  let t := rt || l.any (·.t)
  writeVa e.ag (oTbl d) (wordBytes (place nan 63 32 ||| place cand.length 31 0) ++ leBytes (numAt r 8 8 + l.length) 8 ++ leBytes (sumWord total.fin) 40 ++
    leBytes total.nan 8 ++ leBytes total.pinf 8 ++ leBytes total.ninf 8 ++ List.replicate 48 0) t
  let lines := chunksOf 4 (k / 4 + 1) (cand.map (fun x => (leBytes (keyWide kt x.key) 8 ++ leBytes x.idx 8, x.t)) ++ List.replicate (k - cand.length) (List.replicate 16 (0 : Byte), false))
  writeParts e.ag (oTbl d + 128) (lines.map (fun c => (c.flatMap (·.1), c.any (·.2))))
  let part := cand.foldl (fun s x => sumKey kt s x.key) ({} : OSum)
  return { outs := if oEmit d then cand else [], nan := nan, t := oSums d && t, whole := oEmit d
           sel := if oSums d then sumRound part else 0, left := if oSums d then sumRound (sumSub total part) else 0 }

/-- A plan as the unit keeps it between its steps: 9 bytes for each output, then the result. -/
def planBytes (p : OPlan) : Bytes :=
  leBytes p.outs.length 8 ++ leBytes p.nan 8 ++ leBytes p.sel 4 ++ leBytes p.left 4 ++ [BitVec.ofNat 8 (b2n p.t + 2 * b2n p.whole), p.code] ++
  p.outs.flatMap (fun x => leBytes x.idx 8 ++ [BitVec.ofNat 8 (b2n x.t)])

/-- The result record (R336). -/
def ouResult (e : UEnv) (scr : Bytes) : M Unit := do
  let whole := ((slice scr 24 1).headD 0).getLsbD 1
  let w0 := wordBytes (place (numAt scr 8 8) 63 32 ||| place (numAt scr 0 8) 31 0)
  if whole then
    writeVa e.ag (oRes e.cmd) (w0 ++ wordBytes (place (numAt scr 16 4) 63 32 ||| place (numAt scr 20 4) 31 0)) (((slice scr 24 1).headD 0).getLsbD 0)
  else writeVa e.ag (oRes e.cmd) w0 false

/-- The keys are read: they are ordered, and the command writes its outputs from position 0 on. -/
def ouPlan (e : UEnv) (lens : Bytes) (l : List OElem) : M UStep := do
  let d := e.cmd
  let n := e.ag.ctx
  let p ← if aOp d = 2 then pure (planMerge d ((chunksOf 4 (oNrun d + 1) lens).map ofLe) l) else if oCarry d then planCarry e l else pure (planSelect d l)
  let dropped := if oDrop d then (l.filter (fun x => keyNan (oKt d) x.key)).length else 0
  tell (fun s => countOu s n l.length dropped 0)
  if p.code != 0 then tell (fun s => uCtx s n (fun c => { c with ou := { c.ou with order := bump16 c.ou.order 1 } }))
  return { scratch := 1 :: planBytes p }

/-- Writes output `pos` of a plan, or ends the command with its result record. -/
def ouWrite (e : UEnv) (pos : Nat) (plan : Bytes) : M UStep := do
  let n := e.ag.ctx
  let code := (slice plan 25 1).headD 0
  if numAt plan 0 8 ≤ pos then
    if code = 0 then
      ouResult e plan
      tell (fun s => countOu s n 0 0 1)
    return uDone code
  else
    let t := ((slice plan (26 + 9 * pos + 8) 1).headD 0).getLsbD 0
    if t then
      setTaintMap e.ag (aMap e.cmd) pos
      tell (fun s => uCtx s n (fun c => { c with ou := { c.ou with taint := bump16 c.ou.taint 1 } }))
    return { out := [(leBytes (numAt plan (26 + 9 * pos) 8) (oIw e.cmd), t)], pos := pos + 1, scratch := 1 :: plan }

/-- One step of an Order Unit command: it reads the run lengths, then key `pos` at a step, orders the keys, and then writes output `pos` at
a step. The scratch begins with 0 while it reads, followed by the run lengths and the keys read, and with 1 while it writes. -/
def ouStep (e : UEnv) (pos : Nat) (scr : Bytes) : M UStep := do
  match scr with
  | [] =>
    let tb ← ouRuns e
    return { scratch := 0 :: tb }
  | ph :: r =>
    if ph != 0 then ouWrite e pos r
    else
      let m := if aOp e.cmd = 2 then 4 * oNrun e.cmd else 0
      if ouRead e pos then ouPlan e (r.take m) ((chunksOf 17 (pos + 1) (r.drop m)).map elemOf)
      else
        let x ← ouKey e pos
        return { pos := pos + 1, scratch := scr ++ elemBytes x }

/-- Runs one Order Unit command. -/
def ouRow (op cl : Nat) (t : UTarget) (s : State) : State :=
  match t with
  | .queue =>
    frontRow s cl 3 (fun c => unitAgent cl c 7 1) op (fun _ => true) (fun c => ouOk false c.cmd)
      (fun c => runCmd cl 3 c.id (fun c => unitAgent cl c 7 1) (aDst c.cmd)
        (fun c => ouStep { ag := unitAgent cl c 7 1, cl := cl, cmd := c.cmd } c.pos c.scratch) (2 * oCount c.cmd + oK c.cmd + 5) s)
  | .stage f k =>
    stepStage s cl 3 f k.val op (fun e => ouOk true e.cmd) (fun e pos _ scr => ouStep e pos scr)

/-- SORT. -/
def execSort (cl : Fin 48) (t : UTarget) (s : State) : Ans := .next (ouRow 1 cl.val t s)
/-- OU_MERGE. -/
def execOuMerge (cl : Fin 48) (t : UTarget) (s : State) : Ans := .next (ouRow 2 cl.val t s)
/-- TOPK. -/
def execTopk (cl : Fin 48) (t : UTarget) (s : State) : Ans := .next (ouRow 3 cl.val t s)
/-- BOTK. -/
def execBotk (cl : Fin 48) (t : UTarget) (s : State) : Ans := .next (ouRow 4 cl.val t s)

end Sys2Proof.Machine
end

