-- ==== Sys2Proof/Machine/Trigger.lean ====
section
/-! DEFINITION. Trace triggers (spec/17_trace.md R555 to R558): events by pin, by message and by the TRIG instruction, and what a
context's trace does with them. -/

namespace Sys2Proof.Machine

/-- A TRIG packet of the junction (R550, R557). -/
def tjTrigPacket (s : State) (n bit origin : Nat) (pound : Word) (chip : Nat) : State :=
  tjEmit s n 473 6 (place origin 37 36 ||| place (bit % 2) 35 35 ||| place chip 33 26) pound

/-- A context acts on trigger event `bit` (R557, R558): halt beats run; a START while RUNNING and a STOP while ARMED do nothing. -/
def tjEvent (s : State) (n bit origin : Nat) (pound : Word) (chip : Nat) : State :=
  let t := (gCtx s n).tj
  if !consentTrace s n then s
  else if t.ctrl.getLsbD (4 + bit) then
    if t.state = 2 then
      let s := tjTrigPacket s n bit origin pound chip
      if (gCtx s n).tj.state != 2 then s
      else if t.ctrl.getLsbD 11 then tjDone s n
      else uCtx s n (fun c => { c with tj := { c.tj with state := 1 } })
    else s
  else if t.ctrl.getLsbD bit && t.state == 1 then
    let s := uCtx s n (fun c => { c with tj := { c.tj with state := 2 } })
    let s := tjTrigPacket s n bit origin pound chip
    tjEmit s n 473 1 0 s.tick.pound
  else s

/-- A trigger event meets a context: now while it holds the pound, else held for its next one (R557). -/
def tjTrigger (s : State) (n bit origin chip : Nat) : State :=
  if n = 0 || (gCtx s n).st = .free || !consentTrace s n then s
  else if holds s n then tjEvent s n bit origin s.tick.pound chip
  else uCtx s n (fun c => { c with tj := { c.tj with heldTrig := c.tj.heldTrig ++ [(bit, origin, s.tick.pound, BitVec.ofNat 8 chip)] } })

/-- The held events of a context that holds the new pound take effect, with their original pounds (R557). -/
def tjHeld (s : State) (n : Nat) : State :=
  let l := (gCtx s n).tj.heldTrig
  l.foldl (fun s e => tjEvent s n e.1 e.2.1 e.2.2.1 e.2.2.2.toNat) (uCtx s n (fun c => { c with tj := { c.tj with heldTrig := [] } }))

/-- The other chips of the reach. -/
def otherChips (s : State) : List Nat :=
  if s.reach.rstate = 1 then (List.range 256).filter (fun c => s.reach.members.getLsbD c && c != s.cfg.chipNum) else []

/-- Sends a TRIG message to every other chip of the reach (R426, R555). -/
def sendTrig (s : State) (n : Nat) (sys : Bool) (k : Nat) : State :=
  (otherChips s).foldl (fun s c => sendMsg s n sys tTrig 0 c 0 false 0 0 0 (leBytes k 16)) s

/-- The chip acts on a system trigger (R555, R556). -/
def sysTrigger (s : State) (k origin chip : Nat) : State :=
  let s := { s with sysTrig := Tab.modify 0 s.sysTrig k (fun c => bump16 c 1) }
  let s := emit s (.pulse (if k = 0 then "TRIG_OUT0" else "TRIG_OUT1"))
  (List.range 64).foldl (fun s n => tjTrigger s n k origin chip) s

/-- The TRIG instruction: a tenant trigger here and on the other chips (R555). -/
def tenantTrigger (s : State) (n k : Nat) : State :=
  sendTrig (tjTrigger s n (2 + k) 2 s.cfg.chipNum) n false k

/-- TRIG_IN_EDGE (R555). -/
def execTrigInEdge (n : Fin 2) (s : State) : Ans :=
  if isReady s then .next (sendTrig (sysTrigger s n.val 0 s.cfg.chipNum) 0 true n.val) else .next s

/-- TRIG_MESSAGE (R426, R555). -/
def execTrigMessage (port : Fin 12) (m : Msg) (s : State) : Ans :=
  match recvMsg s port.val tTrig m with
  | .drop s => .next s
  | .take m s =>
    let k := b2n ((slice m.payload 0 1).headD 0 |>.getLsbD 0)
    if mSys m then .next (sysTrigger s k 1 (mSrc m)) else .next (tjTrigger s (mCtx m) (2 + k) 1 (mSrc m))

/-- TRACE_JUNCTION_FAIL (R576): every context's trace moves to DONE. -/
def execTraceJunctionFail (s : State) : Ans :=
  .next ((List.range 64).foldl (fun s n =>
    if consentTrace s n && (gCtx s n).tj.state != 3 then tjDone s n else s) s)

end Sys2Proof.Machine
end

