-- ==== Sys2Proof/Machine/Yoren.lean ====
section
/-! DEFINITION. How a bundle issues (spec/04_yoren_core.md): staging of its slot operations, encoding checks and exceptions (R148 to
R150), waits for room (R132, R210, R231, R239), and the effects of each slot in order (R120 to R126). -/

namespace Sys2Proof.Machine

/-- The thread that issues, and what its bundle reads. -/
structure YCtx where
  n : Nat
  key : Nat
  cl : Nat
  pc : BitVec 32
  bundle : Nat
  e : Env

/-! ## Encodings of the memory, unit, stream and control slots (R116, R118, R123 to R127) -/

def memVec (op : Nat) : Bool := op == 3 || op == 4 || op == 7 || op == 8
def memGlobal (op : Nat) : Bool := 5 ≤ op && op ≤ 9

def mIllegal (w : Word) : Bool :=
  let op := fOp w
  op == 0 || 10 < op || bitOf w 32 || (memVec op && bitOf w 51) ||
  (op == 9 && (fSz w < 2 || 9 < fFn w || (fFn w == 6 && fDst w % 2 == 1)))

def uIllegal (w : Word) : Bool :=
  let op := fOp w
  op == 0 || 3 < op || fld w 35 34 != 0 || fBit33 w || bitOf w 32 || fld w 31 3 != 0 || 4 < fUnit w || (op == 3 && bitOf w 45)

def tIllegal (w : Word) : Bool :=
  let op := fOp w
  op == 0 || 5 < op || fBit33 w || bitOf w 32 || fld w 31 4 != 0

def cIllegal (w : Word) : Bool :=
  let op := fOp w
  op == 0 || 13 < op || fld w 35 34 != 0 || fBit33 w || bitOf w 32

/-- An illegal slot word; the all-zero word is NOP (R116). -/
def slotIllegal (slot : Nat) (w : Word) : Bool :=
  if w = 0 then false
  else match slot with
    | 0 => sIllegal 0 w
    | 1 => sIllegal 1 w
    | 2 => vIllegal 2 w
    | 3 => vIllegal 3 w
    | 4 => mIllegal w
    | 5 => uIllegal w
    | 6 => tIllegal w
    | _ => cIllegal w

/-! ## Memory addresses (R123, R139, R148) -/

/-- The address of a memory slot, and whether its base is tainted. -/
def memAddr (b : YCtx) (w : Word) : Nat × Bool :=
  let (x, t) := readS b.e 33 (fA w)
  ((x + BitVec.ofInt 64 (fOff w)).toNat, t)

/-- The bytes of an access. -/
def memSize (w : Word) : Nat := if memVec (fOp w) then 128 else 2 ^ fSz w

/-- The exception of an enabled memory slot, the lowest code of those it raises. -/
def memExc (s : State) (b : YCtx) (w : Word) : Option Code :=
  let op := fOp w
  if op = 10 then none
  else
    let (a, _) := memAddr b w
    let n := memSize w
    if memGlobal op then (if 2 ^ 48 ≤ a then some eRange else if a % n != 0 then some eAlign else none)
    else if !inBasin s b.n b.cl a n then some eRange
    else if a % n != 0 then some eAlign
    else if (op == 1 || op == 3) && isExpert s b.n && unwritten s b.cl a n != 0 then some eUninit
    else none

/-- The exception of a slot: an illegal encoding whether enabled or not, an access error when enabled (R117, R148). -/
def slotExc (s : State) (b : YCtx) (slot : Nat) (w : Word) : Option Code :=
  if slotIllegal slot w then some eIllegal
  else if slot = 4 && w != 0 && slotOn b.e 4 w then memExc s b w
  else none

/-! ## Room (R132, R210, R231, R239, R265, R284, R324, R333, R352) -/

/-- The mooring flag that an enabled slot raises. -/
def slotFlag (slot : Nat) (w : Word) : Option Nat :=
  match slot with
  | 4 => if memGlobal (fOp w) then some (fMf w) else none
  | 5 => if fOp w = 1 then some (fMf w) else none
  | 6 => if fOp w = 1 || fOp w = 3 || fOp w = 4 then some (fMfT w) else none
  | _ => none

/-- Why a bundle cannot issue yet. -/
def roomWait (s : State) (b : YCtx) (slots : List (Nat × Word)) : Option Park :=
  let flags := slots.filterMap (fun (k, w) => slotFlag k w)
  match flags.find? (fun m => 63 < Tab.get 0 b.e.th.m m + (flags.filter (· == m)).length) with
  | some m => some (.flagRoom (Fin.ofNat 16 m))
  | none =>
    slots.findSome? (fun (k, w) =>
      if k = 5 && fOp w = 1 then (if 16 ≤ (gUnit s (unitKey b.n b.cl (fUnit w))).held.length then some (.unitRoom (Fin.ofNat 5 (fUnit w))) else none)
      else if k = 6 then
        (match fOp w with
          | 1 => let q := (readS b.e 50 (fB w)).1.toNat; if queueCluster q == some b.cl && ownQueue s b.n q && !queueRoom s q then some (.queueRoom q) else none
          | 3 => if 64 ≤ towCount s b.cl then some .towRoom else none
          | 4 => if 4 ≤ flightsRun s b.cl && 16 ≤ flightsHeld s b.cl then some .flightRoom else none
          | _ => none)
      else none)

/-! ## Effects of a slot -/

/-- A result on its way (R119). -/
def addResult (s : State) (b : YCtx) (slot lat : Nat) (w : RegW) : State :=
  uTh s b.key (fun t => { t with pend := addPend { at_ := b.bundle + lat, issued := b.bundle, slot := slot, w := w } t.pend })

/-- A scalar slot (R120, R141). -/
def scalarFx (s : State) (b : YCtx) (slot : Nat) (w : Word) : State :=
  let op := fOp w
  let (a, ta) := if sReadsA op then readS b.e (8 * slot + 1) (fA w) else (0, false)
  let (y, tb) := if fBit33 w then (BitVec.ofInt 64 (fImm w), false) else if sReadsB op then readS b.e (8 * slot + 2) (fB w) else (0, false)
  let t := ta || tb
  let r := sResult op a y
  let s := setTsw s b.key (taintBit t)
  if op = 0x0D then addResult s b slot 1 (.p (fDst w % 8) (if r = 0 then 0 else allOnes) allOnes)
  else addResult s b slot (sLatency op) (.s (fDst w) r t)

/-- A vector slot (R121, R122, R141). -/
def vectorFx (s : State) (b : YCtx) (slot : Nat) (w : Word) : State :=
  let o := vResult b.e slot w
  let s := setTsw s b.key (fpBits o.fl ||| taintBit o.taint)
  match o.w with
  | some r => addResult s b slot (vLatency (fOp w) (fEt w)) r
  | none => s

/-- A loaded value: zero- or sign-extended (R118). -/
def extend (sx : Bool) (sz : Nat) (x : Nat) : Word := if sx then BitVec.ofInt 64 (sgn (8 * 2 ^ sz) x) else BitVec.ofNat 64 x

/-- The bytes of a vector register. -/
def vBytes (x : BitVec 1024) : Bytes := leBytes x.toNat 128

/-- Stores the enabled bytes of a vector to a basin, granule by granule: a granule whose bytes are all enabled in one write (R123,
R142). -/
def storeMasked (s : State) (cl off : Nat) (b : Bytes) (mask : BitVec 128) (t : Bool) : State :=
  [0, 64].foldl (fun s k =>
    if (List.range 64).all (fun i => mask.getLsbD (k + i)) then clWrite s cl (off + k) (slice b k 64) t
    else (rangeFrom k 64).foldl (fun s i => if mask.getLsbD i then clWrite s cl (off + i) (slice b i 1) t else s) s) s

/-- An enabled memory slot (R123). -/
def memFx (s : State) (b : YCtx) (w : Word) : State :=
  let op := fOp w
  let (a, bt) := memAddr b w
  let n := memSize w
  let glob (s : State) (kind : MemKind) (t : Bool) : State :=
    let (id, s) := freshId s
    let s := raiseFlag s b.n b.key (fMf w)
    { s with ops := s.ops ++ [{ id := id, thread := b.key, ctx := b.n, mf := fMf w, kind := kind, va := BitVec.ofNat 64 a, taint := t, pc := b.pc, dropped := false }] }
  if op = 10 then s
  else
    let s := setTsw s b.key (taintBit bt)
    match op with
    | 1 =>
      let (d, t, s) := clRead (countUninit s b.n (unwritten s b.cl a n)) b.cl a n
      addResult (setTsw s b.key (taintBit t)) b 4 6 (.s (fDst w) (extend (fBit33 w) (fSz w) (ofLe d)) t)
    | 2 =>
      let (x, t) := readS b.e 34 (fDst w)
      clWrite (setTsw s b.key (taintBit t)) b.cl a (leBytes x.toNat n) t
    | 3 =>
      let (d, t, s) := clRead (countUninit s b.n (unwritten s b.cl a n)) b.cl a n
      addResult (setTsw s b.key (taintBit t)) b 4 8 (.v (fVd w) (BitVec.ofNat 1024 (ofLe d)) allOnes t)
    | 4 =>
      let (x, t) := readV b.e 34 (fVd w)
      storeMasked (setTsw s b.key (taintBit t)) b.cl a (vBytes x) (slotPred b.e 4 w) t
    | 5 => glob s (.ldg (fDst w) (fSz w) (fBit33 w)) false
    | 6 =>
      let (x, t) := readS b.e 34 (fDst w)
      glob (setTsw s b.key (taintBit t)) (.stg x (fSz w)) t
    | 7 => glob s (.vldg (fVd w)) false
    | 8 =>
      let (x, t) := readV b.e 34 (fVd w)
      glob (setTsw s b.key (taintBit t)) (.vstg x (slotPred b.e 4 w)) t
    | _ =>
      let (x, t) := readS b.e 34 (fDst w)
      let (c, tc) := if fFn w = 6 then readS b.e 35 (fDst w + 1) else (0, false)
      glob (setTsw s b.key (taintBit (t || tc))) (.amo (if fBit33 w then fFn w + 16 else fFn w) (fSz w) (fDst w) x c) (t || tc)

/-- The stages of a context's flights that a unit of a cluster has begun and not ended. -/
def unitStages (s : State) (n cl u : Nat) : List Stage :=
  (s.flights.filter (fun f => f.cl == cl && f.ctx == n && f.active && f.err.isNone)).flatMap (fun f =>
    f.stages.filter (fun st => stUnit st.rec_ == u && st.cmd.isSome && !st.ring.ended))

/-- The status word of a unit, to context `n` (R266, R288, R325, R333, R353). -/
def unitStatus (s : State) (n cl u : Nat) : Word :=
  let x := gUnit s (unitKey n cl u)
  let st := unitStages s n cl u
  let low := place x.held.length 15 8 ||| place x.lastErr.toNat 7 0
  let busy := place (b2n (!x.held.isEmpty || !st.isEmpty)) 16 16
  let build := (gUnit s (unitKey n cl 1)).held.any (fun c => (buildStamp c).isSome)
  match u with
  | 0 => low ||| place (b2n (x.held.any (·.waiting))) 16 16
  | 2 => low ||| place (b2n (x.held.any (fun c => aUpdate c.cmd) || build)) 30 30 ||| place (amuValid s cl) 29 16
  | 4 => low ||| busy ||| place (b2n (x.held.any (·.waiting) || st.any (·.waiting))) 17 17
  | _ => low ||| busy

/-- The owner that a flag-naming slot leaves with its operation. -/
def yOwner (b : YCtx) (mf : Nat) : Owner := .thread b.key mf b.pc

/-- An enabled unit slot (R124, R330). -/
def unitFx (s : State) (b : YCtx) (w : Word) : State :=
  match fOp w with
  | 1 =>
    let (x, t) := readS b.e 41 (fA w)
    let s := raiseFlag (setTsw s b.key (taintBit t)) b.n b.key (fMf w)
    let (d, s) := fetchBasin s b.n b.cl x.toNat 64
    submitUnit s b.n b.cl (fUnit w) (yOwner b (fMf w)) d
  | 2 => addResult s b 5 4 (.s (fDst w) (unitStatus s b.n b.cl (fUnit w)) false)
  | _ =>
    let (x, t) := readV b.e 41 (fVa w)
    let (r, s) := amuLookup s b.n b.cl (BitVec.ofNat 128 x.toNat)
    let tt := amuTaint r t
    addResult (setTsw s b.key (taintBit tt)) b 5 12 (.s (fDst w) (amuWord r t) tt)

/-- The transactions of a queue that are outstanding: issued and not answered (R212, R248). -/
def queueOut (s : State) (q : Nat) : Nat :=
  (s.rtxs.filter (fun t => t.st == 0 && (gQueue s q).descs.any (fun d => d.id == t.owner))).length

/-- The status word of a queue as BSTAT returns it (R248); zero for a queue that is not the context's. -/
def queueStatus (s : State) (n q : Nat) : Word :=
  let x := gQueue s q
  if x.ctx != some n then 0
  else place 1 63 63 ||| place (b2n x.weir) 62 62 ||| place (queueOut s q) 58 48 ||| place x.free 47 32 ||| place x.lastErr.toNat 31 24 ||| place x.descs.length 8 0

/-- Fetches a flight descriptor: the header, then its stage records (R235). -/
def fetchFlight (s : State) (n cl off : Nat) : Except Code (Bytes × List Bytes) × State :=
  match fetchBasin s n cl off 64 with
  | (.error c, s) => (.error c, s)
  | (.ok (h, _), s) =>
    match fetchBasin s n cl (off + 64) (32 * (fNlast h + 1)) with
    | (.error c, s) => (.error c, s)
    | (.ok (r, _), s) => (.ok (h, (List.range (fNlast h + 1)).map (fun i => slice r (32 * i) 32)), s)

/-- An enabled stream slot (R125). -/
def streamFx (s : State) (b : YCtx) (w : Word) : State :=
  let (a, ta) := readS b.e 49 (fA w)
  let (q, tq) := if fOp w = 1 || fOp w = 2 then readS b.e 50 (fB w) else (0, false)
  let s := setTsw s b.key (taintBit (ta || tq))
  let o := yOwner b (fMfT w)
  match fOp w with
  | 1 =>
    let s := raiseFlag s b.n b.key (fMfT w)
    let (d, s) := fetchBasin s b.n b.cl a.toNat 64
    submitBarge s b.n q.toNat b.cl o (d.map (·.1))
  | 2 => returnBerths s b.n q.toNat b.cl a
  | 3 =>
    let s := raiseFlag s b.n b.key (fMfT w)
    let (d, s) := fetchBasin s b.n b.cl a.toNat 64
    submitTow s b.n b.cl o d
  | 4 =>
    let s := raiseFlag s b.n b.key (fMfT w)
    let (d, s) := fetchFlight s b.n b.cl a.toNat
    submitFlight s b.n b.cl o d
  | _ => addResult s b 6 6 (.s (fDst w) (queueStatus s b.n a.toNat) ta)

/-- Every flag count of a thread is zero. -/
def flagsZero (t : Thread) : Bool := t.m.all (fun e => e.2 == 0)

/-- A global access of a thread is not complete (R123 FENCE). -/
def hasOps (s : State) (n key : Nat) : Bool := s.ops.any (fun o => o.ctx == n && o.thread == key && !o.dropped)

/-- A branch target. -/
def pcPlus (pc : BitVec 32) (d : Int) : BitVec 32 := BitVec.ofInt 32 ((pc.toNat : Int) + d)

/-- TSPAWN (R126, Corners): starts an Idle or Ended thread of the core, else sets SPAWNFAIL. -/
def spawn (s : State) (b : YCtx) (w : Word) : State :=
  let key := b.key / 8 * 8 + fld w 31 29
  match (gTh s key).st with
  | .idle | .ended =>
    if key = b.key then setTsw s b.key tswSpawnFail
    else
      let pc := pcPlus b.pc (sgn 29 (fld w 28 0))
      let s := uTh s key (fun t => { t with st := .ready, pc := pc, member := true, staged := [] })
      tjYoren s b.n key 0 (Tab.get {} (gCtx s b.n).sch.segs b.cl).segId.toNat pc.toNat
  | _ => setTsw s b.key tswSpawnFail

/-- What a control slot decides: why the thread parks, where it goes on. -/
structure CtrlOut where
  parks : List Park := []
  target : Option (BitVec 32) := none
  ends : Bool := false

/-- An enabled control slot (R126). -/
def ctrlFx (s : State) (b : YCtx) (w : Word) : State × CtrlOut :=
  let (a, ta) := readS b.e 57 (fA w)
  let st := setTsw s b.key (taintBit ta)
  let mf := fMf w
  let th := gTh s b.key
  match fOp w with
  | 0x01 => (s, { target := some (pcPlus b.pc (fImm w)) })
  | 0x02 => (st, { target := some (BitVec.ofNat 32 (min a.toNat 0xFFFFFFFF)) })
  | 0x03 => (addResult s b 7 1 (.s (fDst w) (BitVec.ofNat 64 (b.pc.toNat + 1)) false), { target := some (pcPlus b.pc (fImm w)) })
  | 0x04 => (s, { parks := if Tab.get 0 th.m mf = 0 then [] else [.flag (Fin.ofNat 16 mf)] })
  | 0x05 =>
    let mask := BitVec.ofNat 16 (fld w 15 0)
    (s, { parks := if (List.range 16).any (fun i => mask.getLsbD i && Tab.get 0 th.m i != 0) then [.flags mask] else [] })
  | 0x06 => (spawn s b w, {})
  | 0x07 => (s, if flagsZero th then { ends := true } else { parks := [.eos] })
  | 0x08 => (addResult s b 7 2 (.s (fDst w) s.tick.pound false), {})
  | 0x09 => (addResult s b 7 2 (.s (fDst w) (BitVec.ofNat 64 (Config.remainNs b.e.free % (10 * s.cfg.tickPeriod + 1))) false), {})
  | 0x0A => (tenantTrigger s b.n (b2n (bitOf w 0)), {})
  | 0x0B =>
    let k := 8 * b.cl + fld w 2 0
    let l := Tab.get [] s.barriers k ++ [b.key]
    if a.toNat ≤ l.length then ({ st with barriers := Tab.set [] st.barriers k [] }, {})
    else ({ st with barriers := Tab.set [] st.barriers k l }, { parks := [.barrier (Fin.ofNat 8 (fld w 2 0)) a] })
  | 0x0C => (addResult s b 7 2 (.s (fDst w) (tswWord s.cfg.chipNum b.key b.e.th.tsw) false), {})
  | _ => (setTsw (uTh s b.key (fun t => { t with tsw := t.tsw &&& ~~~(a &&& tswW1c) })) b.key (taintBit ta), {})

/-- The effects of an enabled slot other than the control slot. -/
def slotFx (s : State) (b : YCtx) (slot : Nat) (w : Word) : State :=
  match slot with
  | 0 => scalarFx s b 0 w
  | 1 => scalarFx s b 1 w
  | 2 => vectorFx s b 2 w
  | 3 => vectorFx s b 3 w
  | 4 => memFx s b w
  | 5 => unitFx s b w
  | 6 => streamFx s b w
  | _ => s

/-- A vector slot acts by element; every other slot by bit 0 of its predicate (R117). -/
def slotActs (b : YCtx) (slot : Nat) (w : Word) : Bool := w != 0 && (slot == 2 || slot == 3 || slotOn b.e slot w)

/-! ## Issue -/

/-- An exception stops a thread; its segment does not reach its end (R149). -/
def stopThread (s : State) (n key : Nat) (c : Code) : State :=
  let s := uCtxTh s n key (fun t => { t with st := .parked [.stopped], staged := [] })
  uCtx s n (fun x => { x with sch := { x.sch with segs := Tab.modify {} x.sch.segs (key / 64) (fun g => { g with exc := lowCode g.exc c }) } })

/-- A program exception (R149): the thread stops, its record is written, the context is Faulted at the next tick. -/
def programExc (s : State) (b : YCtx) (c : Code) : State := failOp (stopThread s b.n b.key c) (threadAgent b.n b.key b.pc 0) c

/-- The thread as its next bundle reads it: every result visible to that bundle is in the files (R119). -/
def issueThread (s : State) (key : Nat) : Thread := commitPend { gTh s key with staged := [] } (gTh s key).bundle

/-- The view of the thread's next bundle. -/
def issueView (s : State) (n key : Nat) : YCtx :=
  { n := n, key := key, cl := key / 64, pc := (gTh s key).pc, bundle := (gTh s key).bundle, e := { th := issueThread s key, free := s.free } }

/-- The end of an issue: where the thread goes on and in which state, and what the trace notes (R108, R552). -/
def issueEnd (s : State) (n key : Nat) (pc : BitVec 32) (c : CtrlOut) (fence : Bool) : State :=
  let parks := (if fence then [Park.fence] else []) ++ c.parks
  let next := match c.target with | some p => p | none => pc + 1
  let st : TState := if !parks.isEmpty then .parked parks else if c.ends then .ended else if c.target.isSome then .bubble else .ready
  let s := uTh s key (fun t => { t with pc := next, st := st })
  if c.ends || c.parks == [Park.eos] then tjYoren s n key 3 0 pc.toNat
  else
    let s := tjRun s n key next.toNat
    if c.target.isSome then tjYoren s n key 1 0 next.toNat else s

/-- A thread has issued: its core's round-robin order goes on from the next one (R107). -/
def takeTurn (s : State) (key : Nat) : State := { s with turn := Tab.set 0 s.turn (key / 8) ((key + 1) % 8) }

/-- The acting slots of a bundle take effect, the control slot last. -/
def issueSlots (s : State) (b : YCtx) (act : List (Nat × Word)) : State :=
  let s := takeTurn (uTh s b.key (fun _ => { b.e.th with bundle := b.bundle + 1 })) b.key
  let s := act.foldl (fun s (k, w) => slotFx s b k w) s
  let fence := act.any (fun (k, w) => k == 4 && fOp w == 10) && hasOps s b.n b.key
  match act.find? (fun (k, _) => k == 7) with
  | some (_, w) => issueEnd (ctrlFx s b w).1 b.n b.key b.pc (ctrlFx s b w).2 fence
  | none => issueEnd s b.n b.key b.pc {} fence

/-- Issues the bundle whose slots a thread has staged. -/
def issueBundle (s : State) (n key : Nat) : State :=
  let b := issueView s n key
  let slots := (gTh s key).staged
  if (Tab.get {} (gCtx s n).sch.segs b.cl).codeLen ≤ b.pc.toNat then programExc (useFree s) b eRange
  else match slots.findSome? (fun (k, w) => slotExc s b k w) with
  | some c => programExc (useFree s) b c
  | none =>
    let act := slots.filter (fun (k, w) => slotActs b k w)
    match roomWait s b act with
    | some r => uTh (useFree s) key (fun t => { t with st := .parked [r], staged := [] })
    | none => issueSlots (useFree s) b act

/-- Puts a slot operation into a staged bundle, slots in ascending order; a later one of the same slot replaces it. -/
def stageSlot (slot : Nat) (w : Word) : List (Nat × Word) → List (Nat × Word)
  | [] => [(slot, w)]
  | (k, v) :: r => if slot < k then (slot, w) :: (k, v) :: r else if slot = k then (slot, w) :: r else (k, v) :: stageSlot slot w r

/-- The round-robin order gives a thread its core's next issue: it is the first Ready thread from the one after the thread that last
issued (R107). -/
def myTurn (s : State) (key : Nat) : Bool :=
  let first := Tab.get 0 s.turn (key / 8)
  ((List.range 8).map (fun k => key / 8 * 8 + (first + k) % 8)).find? (fun k => (gTh s k).st == .ready) == some key

/-- The word of a slot arrives: only a Ready thread of the context that holds the pound issues, in its turn, and not on a cluster that
failed its scrub (R107, R108, R502). -/
def wordRow (slot : Nat) (i : Issue) (w : Word) (s : State) : State :=
  let key := thKey i.t
  match s.rot.holder with
  | none => s
  | some n =>
    if !holds s n || (gTh s key).st != .ready || !myTurn s key || !clServes s (key / 64) then s
    else
      let s := uTh s key (fun t => { t with staged := stageSlot slot w t.staged })
      if i.more then s else issueBundle s n key

/-- A slot operation of a row: its opcode above the bits that the command carries. -/
def slotRow (slot op : Nat) (i : Issue) (w : BitVec 56) (s : State) : State := wordRow slot i (slotWord op w) s

/-- The slot of a scalar row, and of a vector row. -/
def sSlot (i : Issue) : Nat := if i.alt then 1 else 0
def vSlot (i : Issue) : Nat := if i.alt then 3 else 2

/-! ## Completion of global accesses (R132 to R136) -/

/-- The bytes of an access. -/
def opSize (k : MemKind) : Nat :=
  match k with
  | .ldg _ sz _ => 2 ^ sz
  | .stg _ sz => 2 ^ sz
  | .amo _ sz _ _ _ => 2 ^ sz
  | _ => 128

/-- An earlier access of the same thread whose bytes overlap is not complete (R135). -/
def opBlocked (o : MemOp) : List MemOp → Bool
  | [] => false
  | p :: r =>
    if p.id = o.id then false
    else (p.thread == o.thread && p.ctx == o.ctx && decide (p.va.toNat < o.va.toNat + opSize o.kind) && decide (o.va.toNat < p.va.toNat + opSize p.kind)) || opBlocked o r

/-- Performs an access: what it writes into a register. -/
def opMove (ag : Agent) (o : MemOp) : M (Option RegW) := do
  let va := o.va.toNat
  match o.kind with
  | .ldg d sz sx =>
    let (b, t) ← readVa ag va (2 ^ sz)
    return some (.s d (extend sx sz (ofLe b)) t)
  | .stg x sz =>
    writeVa ag va (leBytes x.toNat (2 ^ sz)) o.taint
    return none
  | .vldg d =>
    let (b, t) ← readVa ag va 128
    return some (.v d (BitVec.ofNat 1024 (ofLe b)) allOnes t)
  | .vstg x mask =>
    if mask = allOnes then writeVa ag va (vBytes x) o.taint
    else writeMasked ag va (vBytes x) ((List.range 128).map (fun i => mask.getLsbD i)) o.taint
    return none
  | .amo fn sz d x c =>
    let (v, t) ← amoVa ag va (fn % 16) sz x.toNat c.toNat o.taint
    return some (.s d (extend (decide (16 ≤ fn)) sz v) t)

/-- A register write that a completion makes, with TSW.TAINT (R133, R141). -/
def landReg (th : Thread) (w : RegW) : Thread :=
  let t := match w with | .s _ _ t => t | .v _ _ _ t => t | .p _ _ _ => false
  let th := applyW th w
  { th with tsw := th.tsw ||| taintBit t }

/-- Ends a global access: its register, then its flag (R133). -/
def endOp (s : State) (o : MemOp) (w : Option RegW) : State :=
  let s := { s with ops := s.ops.filter (fun p => p.id != o.id) }
  if o.dropped then s
  else
    let s := match w with | some w => uCtxTh s o.ctx o.thread (fun t => landReg t w) | none => s
    lowerFlag s o.ctx o.thread o.mf

/-- FLAG_COMPLETION. A read through a basin window that R177 ends with E_UNINIT is a program exception of the thread (R148, R149). -/
def execFlagCompletion (id : Nat) (s : State) : Ans :=
  match s.ops.find? (fun o => o.id == id) with
  | none => .next s
  | some o =>
    if !isRunning s || (s.rot.saving && s.rot.savingCtx == some o.ctx) || opBlocked o s.ops then .next s
    else
      let ag := threadAgent o.ctx o.thread o.pc o.id
      .next (runOp s ag (opMove ag o) (fun w s => endOp s o w) (fun c s => endOp (failOp (if c = eUninit && !o.dropped then stopThread s o.ctx o.thread c else s) ag c) o none))

/-- A parked thread's wait is over (R108). -/
def parkOver (s : State) (n key : Nat) (t : Thread) : Park → Bool
  | .flag m => Tab.get 0 t.m m.val == 0
  | .flags mask => (List.range 16).all (fun i => !mask.getLsbD i || Tab.get 0 t.m i == 0)
  | .fence => !hasOps s n key
  | .barrier b c => let l := Tab.get [] s.barriers (8 * (key / 64) + b.val); !l.contains key || decide (c.toNat ≤ l.length)
  | .eos => flagsZero t
  | .flagRoom m => decide (Tab.get 0 t.m m.val < 63)
  | .queueRoom q => queueRoom s q
  | .unitRoom u => decide ((gUnit s (unitKey n (key / 64) u.val)).held.length < 16)
  | .towRoom => decide (towCount s (key / 64) < 64)
  | .flightRoom => decide (flightsRun s (key / 64) < 4) || decide (flightsHeld s (key / 64) < 16)
  | .stopped => false

/-- THREAD_UNPARK: Ready from the next cycle, or Ended after EOS (R108, R140). -/
def execThreadUnpark (t : ThreadRef) (s : State) : Ans :=
  let key := thKey t
  match s.rot.holder, (gTh s key).st with
  | some n, .parked why =>
    if holds s n && why.all (parkOver s n key (gTh s key)) then
      .next (uTh s key (fun t => { t with st := if why.contains .eos then .ended else .ready }))
    else .next s
  | _, _ => .next s

/-- BUBBLE_END (R108). -/
def execBubbleEnd (t : ThreadRef) (s : State) : Ans :=
  let key := thKey t
  match s.rot.holder with
  | some n => if holds s n && (gTh s key).st == .bubble then .next (uTh s key (fun t => { t with st := .ready })) else .next s
  | none => .next s

/-! ## The rows -/

/-- NOP: the whole word of any slot (R115). The all-zero word is NOP; a word with opcode 0 or an opcode that no table lists for the slot
raises E_ILLEGAL (R116, R127). -/
def execNop (i : Issue) (x : SlotIn) (s : State) : Ans := .next (wordRow x.slot.val i x.word s)
/-- ADD. -/
def execAdd (i : Issue) (w : BitVec 56) (s : State) : Ans := .next (slotRow (sSlot i) 0x01 i w s)
/-- SUB. -/
def execSub (i : Issue) (w : BitVec 56) (s : State) : Ans := .next (slotRow (sSlot i) 0x02 i w s)
/-- AND. -/
def execAndOp (i : Issue) (w : BitVec 56) (s : State) : Ans := .next (slotRow (sSlot i) 0x03 i w s)
/-- OR. -/
def execOrOp (i : Issue) (w : BitVec 56) (s : State) : Ans := .next (slotRow (sSlot i) 0x04 i w s)
/-- XOR. -/
def execXorOp (i : Issue) (w : BitVec 56) (s : State) : Ans := .next (slotRow (sSlot i) 0x05 i w s)
/-- SHL. -/
def execShl (i : Issue) (w : BitVec 56) (s : State) : Ans := .next (slotRow (sSlot i) 0x06 i w s)
/-- SHR. -/
def execShr (i : Issue) (w : BitVec 56) (s : State) : Ans := .next (slotRow (sSlot i) 0x07 i w s)
/-- SAR. -/
def execSar (i : Issue) (w : BitVec 56) (s : State) : Ans := .next (slotRow (sSlot i) 0x08 i w s)
/-- SLT. -/
def execSlt (i : Issue) (w : BitVec 56) (s : State) : Ans := .next (slotRow (sSlot i) 0x0A i w s)
/-- SLTU. -/
def execSltu (i : Issue) (w : BitVec 56) (s : State) : Ans := .next (slotRow (sSlot i) 0x0B i w s)
/-- SEQ. -/
def execSeq (i : Issue) (w : BitVec 56) (s : State) : Ans := .next (slotRow (sSlot i) 0x0C i w s)
/-- PSET. -/
def execPset (i : Issue) (w : BitVec 56) (s : State) : Ans := .next (slotRow (sSlot i) 0x0D i w s)
/-- MUL. -/
def execMul (i : Issue) (w : BitVec 56) (s : State) : Ans := .next (slotRow (sSlot i) 0x10 i w s)
/-- MULH. -/
def execMulh (i : Issue) (w : BitVec 56) (s : State) : Ans := .next (slotRow (sSlot i) 0x11 i w s)
/-- DIV. -/
def execDivOp (i : Issue) (w : BitVec 56) (s : State) : Ans := .next (slotRow (sSlot i) 0x12 i w s)
/-- REM. -/
def execRemOp (i : Issue) (w : BitVec 56) (s : State) : Ans := .next (slotRow (sSlot i) 0x13 i w s)
/-- MOVI. -/
def execMovi (i : Issue) (w : BitVec 56) (s : State) : Ans := .next (slotRow (sSlot i) 0x14 i w s)
/-- MOVHI. -/
def execMovhi (i : Issue) (w : BitVec 56) (s : State) : Ans := .next (slotRow (sSlot i) 0x15 i w s)
/-- POPC. -/
def execPopc (i : Issue) (w : BitVec 56) (s : State) : Ans := .next (slotRow (sSlot i) 0x18 i w s)
/-- CLZ. -/
def execClz (i : Issue) (w : BitVec 56) (s : State) : Ans := .next (slotRow (sSlot i) 0x19 i w s)
/-- VADD. -/
def execVadd (i : Issue) (w : BitVec 56) (s : State) : Ans := .next (slotRow (vSlot i) 0x01 i w s)
/-- VSUB. -/
def execVsub (i : Issue) (w : BitVec 56) (s : State) : Ans := .next (slotRow (vSlot i) 0x02 i w s)
/-- VMUL. -/
def execVmul (i : Issue) (w : BitVec 56) (s : State) : Ans := .next (slotRow (vSlot i) 0x03 i w s)
/-- VFMA. -/
def execVfma (i : Issue) (w : BitVec 56) (s : State) : Ans := .next (slotRow (vSlot i) 0x04 i w s)
/-- VMIN. -/
def execVmin (i : Issue) (w : BitVec 56) (s : State) : Ans := .next (slotRow (vSlot i) 0x05 i w s)
/-- VMAX. -/
def execVmax (i : Issue) (w : BitVec 56) (s : State) : Ans := .next (slotRow (vSlot i) 0x06 i w s)
/-- VAND. -/
def execVand (i : Issue) (w : BitVec 56) (s : State) : Ans := .next (slotRow (vSlot i) 0x07 i w s)
/-- VOR. -/
def execVor (i : Issue) (w : BitVec 56) (s : State) : Ans := .next (slotRow (vSlot i) 0x08 i w s)
/-- VXOR. -/
def execVxor (i : Issue) (w : BitVec 56) (s : State) : Ans := .next (slotRow (vSlot i) 0x09 i w s)
/-- VSHL. -/
def execVshl (i : Issue) (w : BitVec 56) (s : State) : Ans := .next (slotRow (vSlot i) 0x0A i w s)
/-- VSHR. -/
def execVshr (i : Issue) (w : BitVec 56) (s : State) : Ans := .next (slotRow (vSlot i) 0x0B i w s)
/-- VSAR. -/
def execVsar (i : Issue) (w : BitVec 56) (s : State) : Ans := .next (slotRow (vSlot i) 0x0C i w s)
/-- VCMP. -/
def execVcmp (i : Issue) (w : BitVec 56) (s : State) : Ans := .next (slotRow (vSlot i) 0x0D i w s)
/-- VCVT. -/
def execVcvt (i : Issue) (w : BitVec 56) (s : State) : Ans := .next (slotRow (vSlot i) 0x0E i w s)
/-- VPERM. -/
def execVperm (i : Issue) (w : BitVec 56) (s : State) : Ans := .next (slotRow (vSlot i) 0x0F i w s)
/-- VBCAST. -/
def execVbcast (i : Issue) (w : BitVec 56) (s : State) : Ans := .next (slotRow (vSlot i) 0x10 i w s)
/-- VEXT. -/
def execVext (i : Issue) (w : BitVec 56) (s : State) : Ans := .next (slotRow (vSlot i) 0x11 i w s)
/-- VHASH. -/
def execVhash (i : Issue) (w : BitVec 56) (s : State) : Ans := .next (slotRow (vSlot i) 0x12 i w s)
/-- VRED. -/
def execVred (i : Issue) (w : BitVec 56) (s : State) : Ans := .next (slotRow (vSlot i) 0x13 i w s)
/-- LDB. -/
def execLdb (i : Issue) (w : BitVec 56) (s : State) : Ans := .next (slotRow 4 0x01 i w s)
/-- STB. -/
def execStb (i : Issue) (w : BitVec 56) (s : State) : Ans := .next (slotRow 4 0x02 i w s)
/-- VLDB. -/
def execVldb (i : Issue) (w : BitVec 56) (s : State) : Ans := .next (slotRow 4 0x03 i w s)
/-- VSTB. -/
def execVstb (i : Issue) (w : BitVec 56) (s : State) : Ans := .next (slotRow 4 0x04 i w s)
/-- LDG. -/
def execLdg (i : Issue) (w : BitVec 56) (s : State) : Ans := .next (slotRow 4 0x05 i w s)
/-- STG. -/
def execStg (i : Issue) (w : BitVec 56) (s : State) : Ans := .next (slotRow 4 0x06 i w s)
/-- VLDG. -/
def execVldg (i : Issue) (w : BitVec 56) (s : State) : Ans := .next (slotRow 4 0x07 i w s)
/-- VSTG. -/
def execVstg (i : Issue) (w : BitVec 56) (s : State) : Ans := .next (slotRow 4 0x08 i w s)
/-- AMO. -/
def execAmo (i : Issue) (w : BitVec 56) (s : State) : Ans := .next (slotRow 4 0x09 i w s)
/-- FENCE. -/
def execFence (i : Issue) (w : BitVec 56) (s : State) : Ans := .next (slotRow 4 0x0A i w s)
/-- UCMD. -/
def execUcmd (i : Issue) (w : BitVec 56) (s : State) : Ans := .next (slotRow 5 0x01 i w s)
/-- USTAT. -/
def execUstat (i : Issue) (w : BitVec 56) (s : State) : Ans := .next (slotRow 5 0x02 i w s)
/-- ALOOK. -/
def execAlook (i : Issue) (w : BitVec 56) (s : State) : Ans := .next (slotRow 5 0x03 i w s)
/-- BSUB. -/
def execBsub (i : Issue) (w : BitVec 56) (s : State) : Ans := .next (slotRow 6 0x01 i w s)
/-- BREL. -/
def execBrel (i : Issue) (w : BitVec 56) (s : State) : Ans := .next (slotRow 6 0x02 i w s)
/-- TSUB. -/
def execTsub (i : Issue) (w : BitVec 56) (s : State) : Ans := .next (slotRow 6 0x03 i w s)
/-- FSUB. -/
def execFsub (i : Issue) (w : BitVec 56) (s : State) : Ans := .next (slotRow 6 0x04 i w s)
/-- BSTAT. -/
def execBstat (i : Issue) (w : BitVec 56) (s : State) : Ans := .next (slotRow 6 0x05 i w s)
/-- BR. -/
def execBr (i : Issue) (w : BitVec 56) (s : State) : Ans := .next (slotRow 7 0x01 i w s)
/-- BRI. -/
def execBri (i : Issue) (w : BitVec 56) (s : State) : Ans := .next (slotRow 7 0x02 i w s)
/-- CALL. -/
def execCall (i : Issue) (w : BitVec 56) (s : State) : Ans := .next (slotRow 7 0x03 i w s)
/-- MWAIT. -/
def execMwait (i : Issue) (w : BitVec 56) (s : State) : Ans := .next (slotRow 7 0x04 i w s)
/-- MWAITM. -/
def execMwaitm (i : Issue) (w : BitVec 56) (s : State) : Ans := .next (slotRow 7 0x05 i w s)
/-- TSPAWN. -/
def execTspawn (i : Issue) (w : BitVec 56) (s : State) : Ans := .next (slotRow 7 0x06 i w s)
/-- EOS. -/
def execEos (i : Issue) (w : BitVec 56) (s : State) : Ans := .next (slotRow 7 0x07 i w s)
/-- TICKRD. -/
def execTickrd (i : Issue) (w : BitVec 56) (s : State) : Ans := .next (slotRow 7 0x08 i w s)
/-- TREM. -/
def execTrem (i : Issue) (w : BitVec 56) (s : State) : Ans := .next (slotRow 7 0x09 i w s)
/-- TRIG. -/
def execTrig (i : Issue) (w : BitVec 56) (s : State) : Ans := .next (slotRow 7 0x0A i w s)
/-- SYNC. -/
def execSync (i : Issue) (w : BitVec 56) (s : State) : Ans := .next (slotRow 7 0x0B i w s)
/-- STRD. -/
def execStrd (i : Issue) (w : BitVec 56) (s : State) : Ans := .next (slotRow 7 0x0C i w s)
/-- STCLR. -/
def execStclr (i : Issue) (w : BitVec 56) (s : State) : Ans := .next (slotRow 7 0x0D i w s)

end Sys2Proof.Machine
end

