-- ==== Sys2Proof/Machine/Mmu.lean ====
section
/-! DEFINITION. The lock keeper's mapping commands (spec/06 R183 to R188, R195, R196, R199 to R203, R206, R610) and the failures of HBM
and of a tile link (R24, R173, R575, R577). -/

namespace Sys2Proof.Machine

/-- The code of a function's BAR0 access (R447, R450). -/
def setAcc (s : State) (fn : Nat) (c : Code) : State := uFn s fn (fun f => { f with accCode := c })

/-- The check of a BAR0 write before it takes effect (R444, R447, R450, R452, R579): closed BARs and functions that are not bound
ignore it, an offline 2840 answers E_UNIT_LOST, one that is not `allowed` is refused. -/
def barWrite (s : State) (fn : Nat) (allowed : Bool) (f : State → State) : State :=
  if !barOpen s fn || s.boot.lkcFailed then s
  else if s.boot.phase == .offline then setAcc s fn eUnitLost
  else if !isReady s || (ctxOf s fn).isNone then s
  else if !allowed then setAcc s fn eDenied
  else f s

def uMmu (s : State) (n : Nat) (f : Mmu → Mmu) : State := uCtx s n (fun c => { c with mmu := f c.mmu })

/-! ## Tables and ownership -/

/-- The key of the table that holds the entry of a level. -/
def tableKey (n level va : Nat) : Nat := if level = 1 then n * 2 ^ 40 else if level = 2 then pteKey n 1 va else pteKey n 2 va

/-- The tables that a leaf of a level needs and does not have yet (R187). -/
def missingTables (s : State) (n level va : Nat) : List Nat :=
  ((rangeFrom 1 level).map (fun l => tableKey n l va)).filter (fun k => Tab.get 0 s.mem.tables k == 0)

/-- Table pages in use. -/
def tablesUsed (s : State) : Nat := s.mem.tables.length

/-- The lowest page of the pool that holds no table (notes/assumptions: the pool of table pages). -/
def poolPage (s : State) : Nat := ((List.range 16384).find? (fun i => !s.mem.tables.any (fun e => e.2 == i + 1))).getD 0

/-- The global physical address of a table (R170, R187): the pool lies at the base of the firmware reserve. -/
def tablePa (s : State) (key : Nat) : Nat := s.cfg.chipNum * 2 ^ 44 + reserveBase + 65536 * (Tab.get 0 s.mem.tables key - 1)

/-- Puts tables and the pointers to them in place (R180). -/
def addTables (s : State) (n level va : Nat) : State :=
  let s := (missingTables s n level va).foldl (fun s k => uMem s (fun m => { m with tables := Tab.set 0 m.tables k (poolPage s + 1) })) s
  (rangeFrom 1 (level - 1)).foldl (fun s l => setPte s (pteKey n l va) (place (tablePa s (tableKey n (l + 1) va) / 65536) 59 24 ||| 1)) s

/-- Some entry of the table with this key is valid; `level` is the table's. -/
def tableUsed (s : State) (n level va : Nat) : Bool :=
  s.mem.pte.any (fun e => bitOf e.2 0 &&
    (if level = 3 then decide (pteKey n 3 (va / 2 ^ 29 * 2 ^ 29) ≤ e.1) && decide (e.1 < pteKey n 3 (va / 2 ^ 29 * 2 ^ 29) + 8192)
     else decide (pteKey n 2 (va / 2 ^ 42 * 2 ^ 42) ≤ e.1) && decide (e.1 < pteKey n 2 (va / 2 ^ 42 * 2 ^ 42) + 8192)))

/-- Returns an emptied table to the pool, with the entry that points to it (R185). -/
def pruneTable (s : State) (n level va : Nat) : State :=
  if Tab.get 0 s.mem.tables (tableKey n level va) != 0 && !tableUsed s n level va then
    uMem (setPte s (pteKey n (level - 1) va) 0) (fun m => { m with tables := Tab.set 0 m.tables (tableKey n level va) 0 })
  else s

/-- The pages [p, p + k) have an owner that `bad` names. -/
def ownedBy (s : State) (p k : Nat) (bad : Nat → Bool) : Bool :=
  s.mem.own.any (fun e => decide (p ≤ e.1) && decide (e.1 < p + k) && bad e.2)

def setOwner (s : State) (p k v : Nat) : State :=
  uMem s (fun m => { m with own := (rangeFrom p k).foldl (fun t i => Tab.set 0 t i v) (Tab.clear m.own p (p + k)) })

/-- A virtual range overlaps a pinned range of the manifest (R184). -/
def isPinned (s : State) (n va len : Nat) : Bool :=
  (manOf s n).pins.any (fun (a, l) => decide (va < a.toNat + l.toNat) && decide (a.toNat < va + len))

/-- A valid leaf lies anywhere in [va, va + 2^29) or in a page. -/
def isMapped (s : State) (n va : Nat) (block : Bool) : Bool :=
  bitOf (pteOf s (pteKey n 1 va)) 0 && bitOf (pteOf s (pteKey n 2 va)) 0 &&
  (block || bitOf (pteOf s (pteKey n 2 va)) 7 || bitOf (pteOf s (pteKey n 3 va)) 0)

/-- Wakes the agents whose faults lie in a range of pages, and takes its requests off the queue (R195). -/
def wakePages (s : State) (n lo hi : Nat) : State :=
  let hit (w : FaultWait) : Bool := w.ctx == n && decide (lo ≤ w.page) && decide (w.page < hi)
  let fl := s.faults
  let s := uMmu s n (fun m => { m with prq := m.prq.filter (fun r => !(decide (lo ≤ r.page) && decide (r.page < hi))) })
  let s := { s with faults := if holds s n then s.faults.filter (fun w => !hit w) else s.faults.map (fun w => if hit w then { w with woken := true, queued := true } else w) }
  let s := if holds s n then (fl.filter hit).foldl (fun s w => traceResume s n w.id) s else s
  refillPrq s n s.faults

/-! ## The commands -/

/-- A leaf word (R180, R184). -/
def leafWord (pa : Nat) (block pin zf w : Bool) (wmask : Nat) : Word :=
  place (pa / 65536) 59 24 ||| place wmask 23 8 ||| place (b2n block) 7 7 ||| place (b2n pin) 4 4 ||| place (b2n zf) 2 2 ||| place (b2n w) 1 1 ||| 1

/-- The leaf of a MAP or MAP_BLOCK is written and wakes who waits for it (R183, R188, R195). -/
def putLeaf (s : State) (n va pa : Nat) (block w : Bool) : State :=
  let here := chipOf pa == s.cfg.chipNum
  let level := if block then 2 else 3
  let pages := if block then 8192 else 1
  let s := addTables s n level va
  let s := setPte s (pteKey n level va) (leafWord pa block (isPinned s n va (if block then 2 ^ 29 else 65536)) here w (if here then 0 else 0xFFFF))
  wakePages s n (va / 65536) (va / 65536 + pages)

/-- The code of a MAP or MAP_BLOCK, and the state after it (R183, R184, R187). A page of another chip is asked for there (R188): the
command then waits for the answer. -/
def mmuMap (s : State) (n va pa : Nat) (block w : Bool) : Code × State :=
  let loc := localOf pa
  let size := if block then 2 ^ 29 else 65536
  let level := if block then 2 else 3
  let here := chipOf pa == s.cfg.chipNum
  let pages := if block then 8192 else 1
  if pa % size != 0 || va % size != 0 || ctxPageEnd < loc + size || isMapped s n va block || !chipPresent s (chipOf pa) || (here && ownedBy s (loc / 65536) pages (· == n + 1)) then (eRange, s)
  else if here && ownedBy s (loc / 65536) pages (· != 0) then (eDenied, s)
  else if 16384 < tablesUsed s + (missingTables s n level va).length then (eTableFull, s)
  else if here then (0, putLeaf (setOwner s (loc / 65536) pages (n + 1)) n va pa block w)
  else (0, uMmu (sendMgmt s (chipOf pa) mopMap (leBytes n 4 ++ leBytes (b2n block) 4 ++ leBytes pa 8)) n (fun m => { m with waitChip := true, cmdVa := va, cmdPa := pa }))

/-- A MAP that another chip asks for (R188): the code of the answer, and the pages assigned and zeroed. -/
def mapFor (s : State) (n pa : Nat) (block : Bool) : Code × State :=
  let p := localOf pa / 65536
  let pages := if block then 8192 else 1
  if !isBound s n || chipOf pa != s.cfg.chipNum || ctxPageEnd < localOf pa + pages * 65536 || ownedBy s p pages (· == n + 1) then (eRange, s)
  else if ownedBy s p pages (· != 0) then (eDenied, s)
  else (0, setOwner (hbmZero s (65536 * p) (65536 * (p + pages))) p pages (n + 1))

/-- An UNMAP that another chip asks for: the pages that the context owns here are zeroed and released (R185, R188). -/
def unmapFor (s : State) (n pa : Nat) (block : Bool) : Code × State :=
  let p := localOf pa / 65536
  let pages := if block then 8192 else 1
  if chipOf pa != s.cfg.chipNum || ctxPageEnd < localOf pa + pages * 65536 || ownedBy s p pages (· != n + 1) then (eRange, s)
  else (0, setOwner (hbmZero s (65536 * p) (65536 * (p + pages))) p pages 0)

/-- The answer to a MAP or UNMAP on another chip (R185, R188). -/
def mapAnswer (s : State) (n : Nat) (code : Code) : State :=
  let m := (gCtx s n).mmu
  if !m.busy || !m.waitChip then s
  else
    let s := if code = 0 && m.op != 3 then putLeaf s n m.cmdVa m.cmdPa (m.op == 2) m.w else s
    uMmu s n (fun m => { m with waitChip := false, result := code })

/-- The leaf that a command names: a page, or a block by its base (R610). -/
def namedLeaf (s : State) (n va : Nat) : Option (Nat × Nat × Word) :=
  match walk s n va with
  | .leaf level key e => if basinLeaf s n va (leafPa level e va) || (level = 2 && va % 2 ^ 29 != 0) then none else some (level, key, e)
  | .bad _ => none

/-- Clears a leaf, zeros its pages and releases them (R185). -/
def dropLeaf (s : State) (n va level key : Nat) (e : Word) : State :=
  let pages := if level = 2 then 8192 else 1
  let pa := fld e 59 24 * 65536
  let s := setPte s key 0
  let s := if chipOf pa = s.cfg.chipNum then
      setOwner (hbmZero s (localOf pa) (localOf pa + pages * 65536)) (localOf pa / 65536) pages 0
    else s
  pruneTable (pruneTable s n 3 va) n 2 va

/-- UNMAP (R185). Pages of another chip are zeroed and released there, and the command waits for the answer. -/
def mmuUnmap (s : State) (n va : Nat) : Code × State :=
  match namedLeaf s n va with
  | none => (eRange, s)
  | some (level, key, e) =>
    let pa := fld e 59 24 * 65536
    if bitOf e 4 then (eRange, s)
    else
      let s := dropLeaf s n va level key e
      (0, if chipOf pa = s.cfg.chipNum then s
        else uMmu (sendMgmt s (chipOf pa) mopUnmap (leBytes n 4 ++ leBytes (b2n (level == 2)) 4 ++ leBytes pa 8)) n (fun m => { m with waitChip := true, cmdVa := va, cmdPa := pa }))

def mmuProtect (s : State) (n va : Nat) (w : Bool) : Code × State :=
  match namedLeaf s n va with
  | none => (eRange, s)
  | some (level, key, e) =>
    let s := setPte s key ((e &&& ~~~(place 1 1 1)) ||| place (b2n w) 1 1)
    (0, wakePages s n (va / 65536) (va / 65536 + if level = 2 then 8192 else 1))

/-- A page as it stands: its bytes, its granules' taints (R199); a zero-fill hole reads zero. -/
def pageBytes (s : State) (n : Nat) (e : Word) (loc : Nat) : Bytes × List Bool × State :=
  (List.range 1024).foldl (fun (b, t, s) i =>
    if bitOf e 2 && !bitOf e (8 + i / 64) then (b ++ List.replicate 64 0, t ++ [false], s)
    else
      let (x, u, s) := hbmPiece s n (loc + 64 * i) 64
      (b ++ x, t ++ [u], s)) ([], [], s)

/-- 1,024 taint bits as 128 bytes. -/
def bitmapBytes (l : List Bool) : Bytes := leBytes (l.foldr (fun b a => b2n b + 2 * a) 0) 128

/-- The IV of a blob (R200). -/
def blobIv (va : Nat) (version : Word) : Bytes := leBytes (va / 65536) 4 ++ wordBytes version

/-- The header of a blob. -/
def blobHead (n va : Nat) (version : Word) (w : Bool) (wmask : Nat) : Bytes :=
  leBytes (va / 65536 * 65536) 8 ++ wordBytes version ++ [BitVec.ofNat 8 n, BitVec.ofNat 8 (b2n w)] ++ leBytes wmask 2 ++ List.replicate 12 0

/-- EXPORT (R199 to R201). -/
def mmuExport (s : State) (n va host : Nat) : Code × State :=
  match namedLeaf s n va with
  | none => (eRange, s)
  | some (level, key, e) =>
    let pa := fld e 59 24 * 65536
    if level = 2 || chipOf pa != s.cfg.chipNum || bitOf e 4 || host % 64 != 0 then (eRange, s)
    else if 262144 ≤ (gCtx s n).versions.length then (eTableFull, s)
    else
      let v := (gCtx s n).expNext
      let (data, taints, s) := pageBytes s n e (localOf pa)
      let bm := bitmapBytes taints
      let hd := blobHead n va v (bitOf e 1) (fld e 23 8)
      let k := (memKeys s n).exp
      let ct := gcmCrypt k (blobIv va v) data
      let tag := gcmTag k (blobIv va v) (hd ++ bm) ct
      let s := emit s (.hostWrite 0 (BitVec.ofNat 64 host) (hd ++ tag ++ List.replicate 16 0 ++ bm ++ ct))
      let s := uCtx s n (fun c => { c with expNext := v + 1, versions := Tab.set 0 c.versions (va / 65536) v })
      (0, dropLeaf s n va level key e)

/-- IMPORT (R202). -/
def mmuImport (s : State) (n va pa host : Nat) (blob : HostRead) : Code × State :=
  let loc := localOf pa
  if host % 64 != 0 || chipOf pa != s.cfg.chipNum || ctxPageEnd < loc + 65536 || isMapped s n va false || ownedBy s (loc / 65536) 1 (· == n + 1) then (eRange, s)
  else if ownedBy s (loc / 65536) 1 (· != 0) then (eDenied, s)
  else if 16384 < tablesUsed s + (missingTables s n 3 va).length then (eTableFull, s)
  else match blob with
    | .failed => (eHost, s)
    | .data b =>
      let hd := slice b 0 32
      let bm := slice b 0x40 128
      let ct := slice b 0xC0 65536
      let v := wordAt b 8
      let k := (memKeys s n).exp
      let bva := fld (wordAt b 0) 47 16 * 65536
      if gcmTag k (blobIv bva v) (hd ++ bm) ct != slice b 0x20 16 then (eIntegrity, s)
      else if (wordAt b 0).toNat != va || v = 0 || Tab.get 0 (gCtx s n).versions (va / 65536) != v then (eReplay, s)
      else
        let s := addTables s n 3 va
        let s := setPte s (pteKey n 3 va) (leafWord pa false (isPinned s n va 65536) true ((slice b 17 1).headD 0 |>.getLsbD 0) (numAt b 18 2))
        let s := setOwner s (loc / 65536) 1 (n + 1)
        let s := uMem s (fun m => { m with
          hbm := Tab.setMany 0 (Tab.clear m.hbm loc (loc + 65536)) loc (gcmCrypt k (blobIv bva v) ct)
          taint := Tab.setMany false m.taint (loc / 64) ((List.range 1024).map (fun i => (ofLe bm).testBit i))
          lineErr := Tab.clear m.lineErr (loc / 64) (loc / 64 + 1024) })
        let s := uCtx s n (fun c => { c with versions := Tab.set 0 c.versions (va / 65536) 0 })
        (0, wakePages s n (va / 65536) (va / 65536 + 1))

/-- DROP (R196). -/
def mmuDrop (s : State) (n : Nat) : Code × State :=
  let s := uMmu s n (fun m => { m with prq := m.prq.drop 1 })
  (0, refillPrq s n s.faults)

/-- QUERY (R206, R610). -/
def mmuQuery (s : State) (n va : Nat) : Code × State :=
  match walk s n va with
  | .bad _ => (eRange, s)
  | .leaf _ key e =>
    let s := setPte s key (e &&& ~~~(place 1 6 6))
    (0, uMmu s n (fun m => { m with qry := BitVec.ofNat 3 (4 * fld e 4 4 + 2 * fld e 5 5 + fld e 6 6) }))

/-- A function reaches the MMU_ registers of a context (R206, R452). -/
def mmuReach (s : State) (fn n : Nat) : Bool := fn == 0 || ctxOf s fn == some n

/-- A write of MMU_CMD that names a listed operation (R186, R206): it is performed, and RESULT stays BUSY until MMU_COMMAND_DONE. -/
def mmuCmd (s : State) (fn n op : Nat) (w : Bool) (run : Nat → Nat → Nat → State → Code × State) : State :=
  barWrite s fn (mmuReach s fn n) (fun s =>
  if (gCtx s n).mmu.busy then setAcc s fn eBusy
  else
    let m := (gCtx s n).mmu
    let va := m.va.toNat * 65536
    let pa := m.paHi.toNat * 2 ^ 48 + m.paLo.toNat * 65536
    let host := m.hostHi.toNat * 2 ^ 32 + m.hostLo.toNat
    let s := uMmu (setAcc s fn 0) n (fun m => { m with op := BitVec.ofNat 4 op, w := w, busy := true })
    let (c, s) := if isBound s n then run va pa host s else (eRange, s)
    uMmu s n (fun m => { m with result := c }))

/-- MAP. -/
def execMapPage (fn : Fin 64) (ctx : Fin 64) (w : Bool) (s : State) : Ans :=
  .next (mmuCmd s fn.val ctx.val 1 w (fun va pa _ s => mmuMap s ctx.val va pa false w))
/-- MAP_BLOCK. -/
def execMapBlock (fn : Fin 64) (ctx : Fin 64) (w : Bool) (s : State) : Ans :=
  .next (mmuCmd s fn.val ctx.val 2 w (fun va pa _ s => mmuMap s ctx.val va pa true w))
/-- UNMAP. -/
def execUnmap (fn : Fin 64) (ctx : Fin 64) (s : State) : Ans :=
  .next (mmuCmd s fn.val ctx.val 3 false (fun va _ _ s => mmuUnmap s ctx.val va))
/-- PROTECT. -/
def execProtect (fn : Fin 64) (ctx : Fin 64) (w : Bool) (s : State) : Ans :=
  .next (mmuCmd s fn.val ctx.val 4 w (fun va _ _ s => mmuProtect s ctx.val va w))
/-- EXPORT. -/
def execExportPage (fn : Fin 64) (ctx : Fin 64) (s : State) : Ans :=
  .next (mmuCmd s fn.val ctx.val 5 false (fun va _ host s => mmuExport s ctx.val va host))
/-- IMPORT. -/
def execImportPage (fn : Fin 64) (ctx : Fin 64) (blob : HostRead) (s : State) : Ans :=
  .next (mmuCmd s fn.val ctx.val 6 false (fun va pa host s => mmuImport s ctx.val va pa host blob))
/-- DROP. -/
def execDrop (fn : Fin 64) (ctx : Fin 64) (s : State) : Ans :=
  .next (mmuCmd s fn.val ctx.val 7 false (fun _ _ _ s => mmuDrop s ctx.val))
/-- QUERY. -/
def execQuery (fn : Fin 64) (ctx : Fin 64) (s : State) : Ans :=
  .next (mmuCmd s fn.val ctx.val 8 false (fun va _ _ s => mmuQuery s ctx.val va))

/-- MMU_OP_INVALID: an unlisted OP completes at once with E_RANGE in CODE (R206). -/
def execMmuOpInvalid (fn : Fin 64) (ctx : Fin 64) (op : BitVec 4) (s : State) : Ans :=
  if !isReady s || !barOpen s fn.val || (1 ≤ op.toNat && op.toNat ≤ 8) then .next s
  else if !mmuReach s fn.val ctx.val then .next (setAcc s fn.val eDenied)
  else if (gCtx s ctx.val).mmu.busy then .next (setAcc s fn.val eBusy)
  else .next (uMmu (setAcc s fn.val 0) ctx.val (fun m => { m with op := op, code := eRange }))

/-- MMU_COMMAND_DONE (R186). -/
def execMmuCommandDone (ctx : Fin 64) (s : State) : Ans :=
  if (gCtx s ctx.val).mmu.busy && !(gCtx s ctx.val).mmu.waitChip then .next (uMmu s ctx.val (fun m => { m with busy := false, code := m.result, result := 0 })) else .next s

/-- HBM_PATROL (R173): the lines that the pass finds with an uncorrectable error are tainted, corrected ones are counted. -/
def execHbmPatrol (ue ce : List Nat) (s : State) : Ans :=
  if !isReady s then .next s
  else
    let latent (k : Nat) : List Nat := (s.mem.lineErr.filter (fun e => e.2 == k)).map (·.1)
    let bad := (ue ++ latent 1).filter (fun l => decide (64 * l < hbmEnd))
    let good := (ce ++ latent 3).filter (fun l => decide (64 * l < hbmEnd))
    let s := bad.foldl (fun s l => uStack (uMem s (fun m => { m with taint := Tab.set false m.taint l true, lineErr := Tab.set 0 m.lineErr l 0 }))
      (stackOf (64 * l)) (fun x => { x with ue := bump16 x.ue 1 })) s
    let s := good.foldl (fun s l => uStack (uMem s (fun m => { m with lineErr := Tab.set 0 m.lineErr l 0 })) (stackOf (64 * l)) (fun x => { x with ce := bump16 x.ce 1 })) s
    .next (uMem s (fun m => { m with patrolRun := 0 }))

/-- HBM_TIMEOUT (R575): the transaction on a line gets no response; `id` names the global access that makes it, when it is one of a
thread's. -/
def execHbmTimeout (line : Nat) (id : Option Nat) (s : State) : Ans :=
  if !isReady s || hbmEnd ≤ 64 * line then .next s
  else
    let s := uMem s (fun m => { m with noResp := Tab.set false m.noResp line true })
    match id with
    | some i => execFlagCompletion i s
    | none => .next s

/-- HBM_STACK_FAIL (R576, R577): the 2840 goes offline. -/
def execHbmStackFail (k : Fin 6) (s : State) : Ans :=
  if isReady s then .next (goOffline (uStack s k.val (fun x => { x with tmoRun := 0 }))) else .next s

/-- UCIE_MODULE_FAIL (R24, R576): the 2840 goes offline. -/
def execUcieModuleFail (s : State) : Ans := if isReady s then .next (goOffline s) else .next s

end Sys2Proof.Machine
end

