-- ==== Sys2Proof/Machine/Rings.lean ====
section
/-! DEFINITION. Doorbells, the submission and completion rings and host copies (spec/14 R457 to R467). -/

namespace Sys2Proof.Machine

/-! ## Doorbells (R457, R458, R477) -/

/-- In RUN a request needs the T bit (R477). -/
def tOk (s : State) (fn : Nat) (t : Bool) : Bool := (gFn s fn).tdi != 2 || t

/-- A request without the T bit: dropped or answered Unsupported Request, and counted (R477). -/
def notT (s : State) (fn : Nat) (read : Bool) : State :=
  let s := uFn s fn (fun f => { f with notT := bump16 f.notT 1 })
  if read then emit s (.unsupported fn) else s

/-- A ring index register as a place in [0, 2^(k+1)), or none when the index is outside the ring. -/
def ringPos (k : Nat) (x : BitVec 17) : Option Nat :=
  if x.toNat % 65536 < 2 ^ k then some (x.toNat / 65536 * 2 ^ k + x.toNat % 65536) else none

/-- How far a place is ahead of another. -/
def ringAhead (k a b : Nat) : Nat := (b + 2 ^ (k + 1) - a) % 2 ^ (k + 1)

def badBell (s : State) (fn : Nat) : State := uFn s fn (fun f => { f with dbBad := bump16 f.dbBad 1 })

/-- A doorbell write to the page of a context: `ok` says whether the value is accepted. -/
def doorbell (s : State) (fn : Nat) (t : Bool) (n : Nat) (ok : Fn → Rings → Bool) (take : State → State) : State :=
  if !barOpen s fn || (fn != 0 && ctxOf s fn != some n) then s
  else if !tOk s fn t then notT s fn false
  else match (if isBound s n then fnOf s n else none) with
    | none => s
    | some g =>
      let s := wakeUp s 1
      if (gFn s g).ringEn && ok (gFn s g) (gCtx s n).ring then take s else badBell s fn

/-- SQ_TAIL. -/
def execSqTail (fn : Fin 64) (t : Bool) (ctx : Fin 64) (v : BitVec 32) (s : State) : Ans :=
  let x := v.extractLsb' 0 17
  .next (doorbell s fn.val t ctx.val (fun f r =>
      let k := f.sqLog2.toNat
      match ringPos k x, ringPos k r.sqHead with
      | some a, some h => decide (ringAhead k h a ≤ 2 ^ k)
      | _, _ => false)
    (fun s => uCtx s ctx.val (fun c => { c with ring := { c.ring with sqTail := x } })))

/-- CQ_HEAD: completions that waited for room may be written. -/
def execCqHead (fn : Fin 64) (t : Bool) (ctx : Fin 64) (v : BitVec 32) (s : State) : Ans :=
  let x := v.extractLsb' 0 17
  .next (doorbell s fn.val t ctx.val (fun f r =>
      let k := f.cqLog2.toNat
      match ringPos k x, ringPos k r.cqHead, ringPos k r.cqTail with
      | some a, some h, some b => decide (ringAhead k h a ≤ ringAhead k h b)
      | _, _, _ => false)
    (fun s =>
      let s := uCtx s ctx.val (fun c => { c with ring := { c.ring with cqHead := x } })
      flushCq s ctx.val (gCtx s ctx.val).ring.cqes.length))

/-! ## Fetching entries (R459, R465, R467) -/

def uRing (s : State) (n : Nat) (f : Rings → Rings) : State := uCtx s n (fun c => { c with ring := f c.ring })

/-- Changes an entry. -/
def uEntry (s : State) (n id : Nat) (f : SqEntry → SqEntry) : State :=
  uRing s n (fun r => { r with entries := r.entries.map (fun e => if e.id = id then f e else e) })

/-- A copy. -/
def isCopy (e : SqEntry) : Bool := e.op == 3 || e.op == 4

/-- An entry as it stands in the ring. -/
def parseEntry (id : Nat) (b : Bytes) : SqEntry :=
  let w := fun i => wordAt b (8 * i)
  { id := id, op := fld (w 0) 63 56, order := bitOf (w 0) 49, sealed := bitOf (w 0) 48, cid := BitVec.ofNat 32 (fld (w 0) 31 0),
    host := w 1, va := place (fld (w 2) 47 0) 47 0, len := fld (w 3) 31 0, steps := w 4, tag := slice b 40 16 }

/-- R459, R467: reserved bits, the OP, the alignments and LEN. -/
def entryOk (b : Bytes) : Bool :=
  let w := fun i => wordAt b (8 * i)
  let op := fld (w 0) 63 56
  let len := fld (w 3) 31 0
  fld (w 0) 55 50 == 0 && fld (w 0) 47 32 == 0 && fld (w 2) 63 48 == 0 && fld (w 3) 63 32 == 0 && w 7 == 0 && 1 ≤ op && op ≤ 5 &&
  (!(op == 3 || op == 4) || ((w 1).toNat % 64 == 0 && (w 2).toNat % 64 == 0 && decide (64 ≤ len) && decide (len ≤ 67108864) && len % 64 == 0))

/-- The ring of a context may be fetched from (R465, R467). -/
def canFetch (s : State) (n : Nat) : Bool :=
  let c := gCtx s n
  match fnOf s n with
  | none => false
  | some f =>
    let fn := gFn s f
    isRunning s && fn.ringEn && dmaOn fn && !c.ring.stop && c.ring.sqHead != c.ring.sqTail && c.ending == 0 &&
    (c.st == .bound || c.st == .admitted || c.st == .running)

/-- The fetch of an entry fails: the ring stops (R465). -/
def fetchFails (s : State) (n : Nat) : State :=
  let s := uRing s n (fun r => { r with stop := true })
  let s := match fnOf s n with
    | some f => uFn s f (fun x => { x with ringErr := eHost })
    | none => s
  faultAtTick s n eHost

/-- SQ_FETCH. -/
def execSqFetch (ctx : Fin 64) (entry : HostRead) (s : State) : Ans :=
  let n := ctx.val
  if !canFetch s n then .next s
  else match entry with
    | .failed => .next (fetchFails s n)
    | .data b =>
      let b := slice b 0 64
      let k := match fnOf s n with | some f => (gFn s f).sqLog2.toNat | none => 0
      let (id, s) := freshId s
      let e := parseEntry id b
      let s := uRing s n (fun r => { r with sqHead := ringNext k r.sqHead })
      if entryOk b then .next (uRing s n (fun r => { r with entries := r.entries ++ [e] }))
      else .next (pushCqe s n { code := eRange, cid := e.cid, w1 := entryW1 s n e, tag := [] })

/-! ## Starting entries (R459, R460, R467) -/

/-- The first entry of an OP that may start or go on: with ORDER nothing may stand before it. -/
def nextEntry (s : State) (n op : Nat) : Option SqEntry :=
  let l := (gCtx s n).ring.entries
  l.find? (fun e => e.op == op && e.st != 2 && (e.st == 1 || !e.order || (l.head?.map (·.id)) == some e.id))

/-- The context is Admitted or Running. -/
def isIn (s : State) (n : Nat) : Bool := (gCtx s n).st == .admitted || (gCtx s n).st == .running

/-- SQ_RUN (R460): one RUN is active at a time. -/
def execSqRun (ctx : Fin 64) (s : State) : Ans :=
  let n := ctx.val
  match nextEntry s n 1 with
  | some e =>
    if isIn s n && isRunning s && e.st = 0 && !(gCtx s n).ring.runActive then
      .next (uRing (uEntry s n e.id (fun e => { e with st := 1, left := e.steps.toNat })) n (fun r => { r with runActive := true }))
    else .next s
  | none => .next s

/-- SQ_HALT (R460; spec/14 Corners): with no RUN active it completes at once. -/
def execSqHalt (ctx : Fin 64) (s : State) : Ans :=
  let n := ctx.val
  match nextEntry s n 2 with
  | some e =>
    if e.st != 0 || !isRunning s || !((gCtx s n).st == .bound || isIn s n) then .next s
    else if (gCtx s n).ring.runActive then .next (uRing (uEntry s n e.id (fun e => { e with st := 1 })) n (fun r => { r with haltReq := true }))
    else .next (completeEntry s n e 0 [] (entryW1 s n e))
  | none => .next s

/-- SQ_NOP (R460). -/
def execSqNop (ctx : Fin 64) (s : State) : Ans :=
  let n := ctx.val
  match nextEntry s n 5 with
  | some e => if isRunning s && ((gCtx s n).st == .bound || isIn s n) then .next (completeEntry s n e 0 [] 0) else .next s
  | none => .next s

/-- The active RUN of a context ends with a code; a HALT that waits for it completes after it (R460). -/
def endRun (s : State) (n : Nat) : State :=
  let l := (gCtx s n).ring.entries
  let s := (l.filter (fun e => e.op == 1 && e.st == 1)).foldl (fun s e => completeEntry s n e 0 [] (entryW1 s n e)) s
  let s := uRing s n (fun r => { r with runActive := false, haltReq := false })
  (l.filter (fun e => e.op == 2 && e.st == 1)).foldl (fun s e => completeEntry s n e 0 [] (entryW1 s n e)) s

/-! ## Copies (R461 to R465) -/

/-- The I/O tile's engine as the agent of a copy (R461). -/
def copyAgent (n : Nat) (e : SqEntry) : Agent := { id := e.id, ctx := n, kind := 7, detail := BitVec.ofNat 64 e.cid.toNat, cls := 2 }

/-- The IV of a sealed transfer (R462). -/
def copyIv (nonce : Word) (out : Bool) : Bytes := wordBytes nonce ++ [if out then 2 else 1, 0, 0, 0]

/-- The additional data: words 2 and 3 of the entry. -/
def copyAad (e : SqEntry) : Bytes := wordBytes e.va ++ leBytes e.len 8

/-- A stretch of a copy's keystream applied at a position, a multiple of 16. -/
def copyCrypt (key : Bytes) (nonce : Word) (out : Bool) (pos : Nat) (b : Bytes) : Bytes := gcmCtr (aesKeys key) (copyIv nonce out) (2 + pos / 16) b

/-- An entry is performed; COPY_COMPLETE writes its completion. -/
def entryDone (s : State) (n id : Nat) (code : Code) (tag : Bytes) : State := uEntry s n id (fun e => { e with st := 2, code := code, tag := tag })

/-- Taints the granules [lo, hi) of a copy's destination. -/
def taintCopy (s : State) (n : Nat) (e : SqEntry) (lo hi : Nat) : State :=
  (cut 64 (e.va.toNat + lo) (hi - lo)).foldl (fun s p => taintVa s n 1 p.1) s

/-- A copy may run: its context holds the pound and its function's DMA is on (R461, R465). -/
def copyOn (s : State) (n : Nat) : Bool :=
  holds s n && (match fnOf s n with | some f => dmaOn (gFn s f) | none => false)

/-- Writes a granule; whether no HBM timeout lost the write (R575). -/
def writeKept (ag : Agent) (va : Nat) (b : Bytes) : M Bool := do
  let s ← get
  writeVa ag va b false
  let t ← get
  return s.mem.noResp == t.mem.noResp

/-- Writes host bytes granule by granule from the entry's position on. -/
def copyInGo (n id : Nat) : Nat → Bytes → State → State
  | 0, _, s => s
  | k + 1, b, s =>
    match (gCtx s n).ring.entries.find? (fun e => e.id == id) with
    | none => s
    | some e =>
      if b.length < 64 || e.len ≤ e.pos then s
      else
        let ct := b.take 64
        let pt := if e.sealed then copyCrypt (gCtx s n).bind.keys.ht e.steps false e.pos ct else ct
        let s' := runOp s (copyAgent n e) (writeKept (copyAgent n e) (e.va.toNat + e.pos) pt)
          (fun kept s => if kept then uEntry s n id (fun e => { e with pos := e.pos + 64, buf := if e.sealed then e.buf ++ ct else [] })
            else entryDone s n id eTmoHbm [])
          (fun code s => entryDone s n id code [])
        match (gCtx s' n).ring.entries.find? (fun x => x.id == id) with
        | some x => if x.pos = e.pos then s' else copyInGo n id k (b.drop 64) s'
        | none => s'

/-- A host read of a copy fails: the granules it would have filled are tainted and the entry ends with E_HOST (R465). A host read
covers up to 4,096 bytes (R442). -/
def copyReadFails (s : State) (n : Nat) (e : SqEntry) : State :=
  entryDone (taintCopy s n e e.pos (min e.len (e.pos + 4096))) n e.id eHost []

/-- A COPY_IN starts: a sealed one needs a fresh NONCE (R463). -/
def startIn (s : State) (n : Nat) (e : SqEntry) : State × Bool :=
  if e.st = 1 || !e.sealed then (uEntry s n e.id (fun e => { e with st := 1 }), true)
  else if e.steps.toNat ≤ (gCtx s n).ring.lastNonce.toNat then (entryDone s n e.id eReplay [], false)
  else (uRing (uEntry s n e.id (fun e => { e with st := 1 })) n (fun r => { r with lastNonce := e.steps }), true)

/-- COPY_IN (R461 to R463, R465): the host's answer for the bytes from the entry's position on. -/
def execCopyIn (ctx : Fin 64) (data : HostRead) (s : State) : Ans :=
  let n := ctx.val
  match nextEntry s n 3 with
  | none => .next s
  | some e =>
    if !copyOn s n then .next s
    else
      let (s, go) := startIn s n e
      if !go then .next s
      else match data with
        | .failed => .next (copyReadFails s n e)
        | .data b =>
          let s := copyInGo n e.id (b.length / 64 + 1) b s
          match (gCtx s n).ring.entries.find? (fun x => x.id == e.id) with
          | none => .next s
          | some x =>
            if x.st != 1 || x.pos < x.len then .next s
            else if x.sealed && gcmTag (gCtx s n).bind.keys.ht (copyIv x.steps false) (copyAad x) x.buf != x.tag then
              .next (entryDone (taintCopy s n x 0 x.len) n x.id eIntegrity [])
            else .next (entryDone s n x.id 0 [])

/-- Plain output is permitted: by the manifest, or with the TDI in RUN (R464). -/
def plainOk (s : State) (n : Nat) : Bool :=
  n == 0 || (manOf s n).permit.getLsbD 1 || (match fnOf s n with | some f => (gFn s f).tdi == 2 | none => false)

/-- Reads context bytes granule by granule and writes them to the host. -/
def copyOutGo (n id f : Nat) : Nat → State → State
  | 0, s => s
  | k + 1, s =>
    match (gCtx s n).ring.entries.find? (fun e => e.id == id) with
    | none => s
    | some e =>
      if e.len ≤ e.pos then s
      else
        let s' := runOp s (copyAgent n e) (readVa (copyAgent n e) (e.va.toNat + e.pos) 64)
          (fun (b, _) s =>
            let ct := if e.sealed then copyCrypt (gCtx s n).bind.keys.ht e.nonce true e.pos b else b
            emit (uEntry s n id (fun e => { e with pos := e.pos + 64, buf := if e.sealed then e.buf ++ ct else [] }))
              (.hostWrite f (e.host + BitVec.ofNat 64 e.pos) ct))
          (fun code s => entryDone s n id code [])
        match (gCtx s' n).ring.entries.find? (fun x => x.id == id) with
        | some x => if x.pos = e.pos then s' else copyOutGo n id f k s'
        | none => s'

/-- COPY_OUT (R461 to R464). -/
def execCopyOut (ctx : Fin 64) (s : State) : Ans :=
  let n := ctx.val
  match nextEntry s n 4, fnOf s n with
  | some e, some f =>
    if !copyOn s n then .next s
    else if !e.sealed && !plainOk s n then .next (entryDone s n e.id eRange [])
    else
      let s := if e.st = 1 then s else
        let q := (gCtx s n).ring.outNonce
        let s := uEntry s n e.id (fun e => { e with st := 1, nonce := if e.sealed then q else 0 })
        if e.sealed then uRing s n (fun r => { r with outNonce := q + 1 }) else s
      let s := copyOutGo n e.id f (e.len / 64 + 1) s
      match (gCtx s n).ring.entries.find? (fun x => x.id == e.id) with
      | some x =>
        if x.st = 1 && x.len ≤ x.pos then
          .next (entryDone s n x.id 0 (if x.sealed then gcmTag (gCtx s n).bind.keys.ht (copyIv x.nonce true) (copyAad x) x.buf else []))
        else .next s
      | none => .next s
  | _, _ => .next s

/-- COPY_COMPLETE (R461, R466): the oldest copy that is performed writes its completion. -/
def execCopyComplete (ctx : Fin 64) (s : State) : Ans :=
  let n := ctx.val
  match (gCtx s n).ring.entries.find? (fun e => e.st == 2) with
  | some e => .next (completeEntry s n e e.code e.tag (entryW1 s n e))
  | none => .next s

/-- HOST_READ_TIMEOUT (R465): the read of a copy, or else the fetch of an entry; nothing is late while DMA waits. -/
def execHostReadTimeout (ctx : Fin 64) (s : State) : Ans :=
  let n := ctx.val
  match nextEntry s n 3 with
  | some e =>
    if copyOn s n && e.st = 1 then .next (copyReadFails s n e)
    else if canFetch s n then .next (fetchFails s n) else .next s
  | none => if canFetch s n then .next (fetchFails s n) else .next s

end Sys2Proof.Machine
end

