-- ==== Sys2Proof/Machine/Bind.lean ====
section
/-! DEFINITION. Binding and unbinding (spec/14 R453 to R456; spec/15 R497 to R499), TDISP and IDE (R474 to R477), the burst window
(R469 to R472). -/

namespace Sys2Proof.Machine

/-! ## BIND (R453, R498) -/

/-- The code that a BIND ends with (R453, R497). -/
def bindCode (s : State) (vf n : Nat) (handle : BitVec 16) : Code :=
  if n = 0 then eRange
  else if (gCtx s n).st != .free || (gFn s vf).ctx.isSome then eBusy
  else if vf = 0 || s.cfg.numVf < vf || !s.hi.vfEnable then eRange
  else match s.sec.pending.find? (fun p => p.handle == handle) with
    | none => eRange
    | some p => if p.man.ctx != 0 && p.man.ctx != n then eRange else 0

/-- The info string of a derived key (R498): 7 letters and the context number. -/
def keyInfo (label : List Nat) (n : Nat) : Bytes := (label ++ [n]).map (BitVec.ofNat 8)

/-- "DX28 LW" and "DX28 HT". -/
def infoLw : List Nat := [0x44, 0x58, 0x32, 0x38, 0x20, 0x4C, 0x57]
def infoHt : List Nat := [0x44, 0x58, 0x32, 0x38, 0x20, 0x48, 0x54]

/-- The keys of a tenant context (R498). -/
def makeKeys (s : State) (n : Nat) (p : PendingMan) : Keys × State :=
  let (mem, s) := randomBytes s 64
  let (exp, s) := randomBytes s 32
  let prk := hkdfExtract p.man.jobId p.jobKey
  ({ mem := mem, exp := exp, lw := hkdfExpand prk (keyInfo infoLw n) 32, ht := hkdfExpand prk (keyInfo infoHt n) 32 }, s)

/-- Firmware maps each basin with basin leaves onto the cluster windows (R175). -/
def mapBasins (s : State) (n : Nat) : State :=
  let cls := (manOf s n).cls
  (cls.zip (List.range cls.length)).foldl (fun s (r, c) =>
    r.basins.foldl (fun s b =>
      let va := b.va.toNat
      (rangeFrom (va / 65536) ((va + b.size - 1) / 65536 + 1 - va / 65536)).foldl (fun s p =>
        let pa := s.cfg.chipNum * 2 ^ 44 + windowBase + c * 0x1000000 + (b.base + 65536 * p - va)
        setPte (addTables s n 3 (65536 * p)) (pteKey n 3 (65536 * p)) (leafWord pa false false false true 0xFFFF)) s) s) s

/-- A queue as its configuration record gives it (R211, R220). -/
def queueOf (n : Nat) (w0 w1 : Word) : BQueue :=
  { ctx := some n, weir := bitOf w0 55, weirGrp := fld w0 59 56, outlim := fld w0 52 42, bshift := fld w0 41 38, berths := fld w0 37 22
    ring := place (fld w1 47 0) 47 0, dlWeight := fld w1 63 56, free := fld w0 37 22 }

/-- The queues of the manifest become the context's. -/
def makeQueues (s : State) (n : Nat) : State :=
  (manOf s n).queues.foldl (fun s (w0, w1) => { s with queues := Tab.set {} s.queues (fld w0 16 0) (queueOf n w0 w1) }) s

/-- The rotation in force names a context. -/
def isNamed (s : State) (n : Nat) : Bool := s.rot.force.any (fun e => e.valid && e.ctx.toNat == n)

/-- The declared live bytes of a cluster (R59). -/
def liveBytes (r : ClRec) : Nat := r.basins.foldl (fun a b => a + b.liveLen) 0 + (if r.amuLive then 327680 else 0)

/-- The harts of a manifest at their entries, in its order (R164). -/
def startHarts (pcs : List Word) : Tab Hart :=
  ((List.range 16).zip pcs).map (fun (h, pc) => (h, { named := true, pc := pc }))

/-- Installs a binding: keys, Reset values, basin leaves, queues; the context is Bound (R15, R453). -/
def installBind (s : State) (vf n : Nat) (p : PendingMan) : State :=
  let (keys, s) := makeKeys s n p
  let s := { s with sec := { s.sec with pending := s.sec.pending.filter (fun q => q.handle != p.handle) } }
  let live := p.man.cls.foldl (fun a r => max a (liveBytes r)) 0
  let c : Ctx := { bind := { vf := some vf, man := some p.man, handle := p.handle, pound := s.tick.pound, keys := keys }
                   expert := p.man.permit.getLsbD 0 && s.cfg.expertEn, live := BitVec.ofNat 32 live
                   sch := { harts := startHarts p.man.hartPcs } }
  let s := { s with ctxs := Tab.set {} s.ctxs n c }
  let s := uFn s vf (fun f => { f with ctx := some n, latch := [] })
  let s := makeQueues (mapBasins s n) n
  let s := setSt s n .bound
  if isNamed s n then setSt s n .admitted else s

/-! ## Rows -/

/-- Only the PF reaches the system registers of HI_ (R478). -/
def pfOnly (s : State) (fn : Nat) (f : State → State) : State := barWrite s fn (fn == 0) (fun s => f (setAcc s 0 0))

/-- The HI_ command BIND (R453): one that fails ends at once with its code. -/
def hiBind (vf n : Nat) (s : State) : State :=
  if s.hi.busy then setAcc s 0 eBusy
  else
    let h := { s.hi with op := 1, ctx := BitVec.ofNat 6 n, vf := BitVec.ofNat 6 vf }
    let c := bindCode s vf n s.hi.handle
    let s := if (gCtx s n).ending != 0 then collideRec s 6 6 else s
    if c != 0 then { s with hi := { h with res := c } }
    else { s with hi := { h with busy := true, bindNext := some (n, vf, s.hi.handle) } }

/-- BIND. -/
def execBind (fn : Fin 64) (vf ctx : Fin 64) (s : State) : Ans := .next (pfOnly s fn.val (hiBind vf.val ctx.val))

/-- BIND_COMPLETE (R453; spec/15 Corners): a manifest that has gone meanwhile ends it with E_RANGE. -/
def execBindComplete (s : State) : Ans :=
  if !s.hi.busy || s.hi.op != 1 then .next s
  else match s.hi.bindNext with
    | none => .next { s with hi := { s.hi with busy := false, res := eBusy } }
    | some (n, vf, handle) =>
      let c := bindCode s vf n handle
      let s := { s with hi := { s.hi with busy := false, bindNext := none, res := c } }
      match s.sec.pending.find? (fun p => p.handle == handle) with
      | some p => if c = 0 then .next (installBind s vf n p) else .next s
      | none => .next s

/-- An unbind of a context begins: at the next tick its work stops (R454). One in the pound of its bind is a collision (R456). -/
def startUnbind (s : State) (n : Nat) : State :=
  let c := gCtx s n
  if n = 0 || c.st = .free || c.ending != 0 then s
  else
    let s := if c.bind.pound = s.tick.pound && c.st = .bound then collideRec s 6 6 else s
    uCtx s n (fun c => { c with ending := 1 })

/-- The HI_ command UNBIND (R453, R454, R456): a Free context completes at once with code 0. -/
def hiUnbind (n : Nat) (s : State) : State :=
  if s.hi.busy then setAcc s 0 eBusy
  else
    let h := { s.hi with op := 2, ctx := BitVec.ofNat 6 n }
    if n = 0 then { s with hi := { h with res := eRange } }
    else if (gCtx s n).st = .free then { s with hi := { h with res := 0 } }
    else startUnbind { s with hi := { h with busy := true, unbindCtx := some n } } n

/-- UNBIND. -/
def execUnbind (fn : Fin 64) (ctx : Fin 64) (s : State) : Ans := .next (pfOnly s fn.val (hiUnbind ctx.val))

/-- An entry of a context's tables. -/
def pteOwner (k : Nat) : Nat := k / 2 ^ 40

/-- The end of an unbind (R187, R454): pages zeroed and released, tables returned, keys destroyed, the context Free. -/
def finishUnbind (s : State) (n : Nat) : State :=
  let s := (s.mem.own.filter (fun e => e.2 == n + 1)).foldl (fun s e => setOwner (hbmZero s (65536 * e.1) (65536 * (e.1 + 1))) e.1 1 0) s
  let s := uMem s (fun m => { m with
    pte := m.pte.filter (fun e => pteOwner e.1 != n)
    tables := m.tables.filter (fun e => pteOwner e.1 != n) })
  let s := { s with queues := s.queues.filter (fun e => e.2.ctx != some n) }
  let s := match (gCtx s n).bind.vf with
    | some f => uFn s f (fun x => { x with ctx := none, ide := false, ideKey := [], tdi := 0 })
    | none => s
  let s := setSt s n .free
  let s := uCtx s n (fun c => { c with ending := 0, bind := {}, ring := {}, coll := none, fltPend := [], versions := [], streams := [], tuWait := [], tuPart := [], tuSnap := [], lastSent := [] })
  if s.hi.unbindCtx = some n then { s with hi := { s.hi with unbindCtx := none, busy := false, res := 0 } } else s

/-- UNBIND_COMPLETE (R454). -/
def execUnbindComplete (ctx : Fin 64) (s : State) : Ans :=
  if (gCtx s ctx.val).ending = 2 then .next (finishUnbind s ctx.val) else .next s

/-- What an FLR leaves of a function: its binding, until the unbind ends (R454). -/
def flrFn (f : Fn) : Fn := { ctx := f.ctx, tdi := f.tdi, ide := f.ide, ideKey := f.ideKey }

/-- An order that ends a VF's context; a BIND of that VF in progress loses (R456). -/
def endVf (s : State) (v : Nat) : State :=
  let s := match s.hi.bindNext with
    | some (_, vf, _) => if vf = v then collideRec { s with hi := { s.hi with bindNext := none } } 6 6 else s
    | none => s
  match (gFn s v).ctx with
  | some n => startUnbind s n
  | none => s

/-- VF_FLR (R454). -/
def execVfFlr (vf : Fin 64) (s : State) : Ans :=
  if vf.val = 0 || !isReady s then .next s else .next (endVf (uFn s vf.val flrFn) vf.val)

/-- VF_DISABLE (R454): the function's registers go with it. -/
def execVfDisable (vf : Fin 64) (s : State) : Ans :=
  if vf.val = 0 || !isReady s then .next s else .next (endVf (uFn s vf.val flrFn) vf.val)

/-- Every function is reset and every tenant context unbound (R455). -/
def resetFns (s : State) : State :=
  let s := (List.range 64).foldl (fun s f => uFn s f flrFn) s
  let s := uFn { s with hi := { s.hi with vfEnable := false, numVfs := 0 } } 0 (fun f => { f with ctx := none })
  (rangeFrom 1 63).foldl endVf s

/-- PF_FLR (R455). -/
def execPfFlr (s : State) : Ans := if isReady s then .next (resetFns s) else .next s
/-- HOT_RESET (R455). -/
def execHotReset (s : State) : Ans := if isReady s then .next (resetFns s) else .next s

/-! ## TDISP and IDE (R474 to R477) -/

/-- The answer to a TDISP request: 0 accepted, 1 refused, then its data. -/
def tdAnswer (s : State) (v : Nat) (ok : Bool) (d : Bytes) : State := emit s (.tdisp v (BitVec.ofNat 8 (b2n (!ok)) :: d))

/-- A TDISP request meets VF `v`. -/
def tdRequest (s : State) (v : Nat) (ok : Bool) (f : State → State) (d : Bytes) : State :=
  if !isReady s || v = 0 then s else if ok then tdAnswer (f s) v true d else tdAnswer s v false []

def setTdi (s : State) (v : Nat) (x : BitVec 2) : State := uFn s v (fun f => { f with tdi := x })

/-- LOCK_INTERFACE_REQUEST. -/
def execLockInterfaceRequest (vf : Fin 64) (s : State) : Ans :=
  let f := gFn s vf.val
  let ok := f.tdi == 0 && f.ide && (match f.ctx with
    | some n => (gCtx s n).st == .bound && (manOf s n).permit.getLsbD 3
    | none => false)
  .next (tdRequest s vf.val ok (fun s => setTdi s vf.val 1) [])

/-- The interface report (R476): the three BAR ranges, then context, manifest digest and pound at bind. -/
def tdReport (s : State) (v : Nat) : Bytes :=
  let f := gFn s v
  let n := f.ctx.getD 0
  let bar (i size : Nat) : Bytes := wordBytes (Tab.get 0 f.bars i) ++ leBytes size 8
  bar 0 0x100000 ++ bar 1 0x10000 ++ bar 2 0x1000 ++ leBytes n 8 ++ (manOf s n).digest ++ wordBytes (gCtx s n).bind.pound

/-- GET_DEVICE_INTERFACE_REPORT. -/
def execGetDeviceInterfaceReport (vf : Fin 64) (s : State) : Ans :=
  .next (tdRequest s vf.val ((gFn s vf.val).tdi == 1 || (gFn s vf.val).tdi == 2) id (tdReport s vf.val))

/-- START_INTERFACE_REQUEST. -/
def execStartInterfaceRequest (vf : Fin 64) (s : State) : Ans :=
  .next (tdRequest s vf.val ((gFn s vf.val).tdi == 1) (fun s => setTdi s vf.val 2) [])

/-- STOP_INTERFACE_REQUEST. -/
def execStopInterfaceRequest (vf : Fin 64) (s : State) : Ans :=
  .next (tdRequest s vf.val true (fun s => endVf (setTdi s vf.val 0) vf.val) [])

/-- A change of a locked VF (R475): ERROR, and its context faults at the next tick. -/
def tdChange (s : State) (v : Nat) : State :=
  let f := gFn s v
  if f.tdi = 1 || f.tdi = 2 then
    let s := setTdi s v 3
    match f.ctx with
    | some n => faultAtTick s n eTdisp
    | none => s
  else s

/-- TDI_CONFIG_CHANGE. -/
def execTdiConfigChange (vf : Fin 64) (s : State) : Ans := if vf.val = 0 then .next s else .next (tdChange s vf.val)

/-- IDE_KM (R474): keys a function's stream over an open session; only for a function whose context is Bound. -/
def execIdeKm (fn : Fin 64) (sess : Nat) (s : State) : Ans :=
  let bound := fn.val == 0 || (match (gFn s fn.val).ctx with | some n => (gCtx s n).st == .bound | none => false)
  if !isReady s || !bound || !(s.sec.sessions.any (fun x => x.id == sess && x.ready)) then .next s
  else
    let (k, s) := randomBytes s 32
    .next (uFn s fn.val (fun f => { f with ide := true, ideKey := k }))

/-! ## The burst window (R469 to R472) -/

/-- A byte of the log ring. -/
def logByte (s : State) (a : Nat) : Byte :=
  let r := Tab.get {} s.fw.log (a / 32)
  (wordsBytes [r.w0, r.w1, r.w2, r.w3]).getD (a % 32) 0

/-- The staging buffer may be reached (R92, R470). -/
def stagingOpen (s : State) : Bool := s.boot.upd == 1 || s.boot.phase == .recovery

/-- The agent of a function's burst accesses. -/
def burstAgent (fn n : Nat) : Agent := { id := 2 ^ 112 + fn, ctx := n, kind := 7, detail := Config.recordDetail (2 * (2 ^ 112 + fn)) }

/-- A context address whose page is a basin of a context that is not on the clusters now (R480). -/
def basinAway (s : State) (n va : Nat) : Bool :=
  match xlate s n accRead va with
  | .ok x => !isLive s n && (windowOf (localOf x.pa)).isSome
  | .error _ => false

/-- What a burst access reaches. -/
inductive Burst where
  | log
  | staging
  | memory (n : Nat)
  | none
deriving DecidableEq, Repr

/-- R470. -/
def burstTarget (s : State) (fn : Nat) (write : Bool) (a len : Nat) : Burst :=
  let f := gFn s fn
  if !f.bwSpace then
    if fn = 0 && !write && a + len ≤ 0x100000 && s.boot.phase != .recovery then .log
    else if fn = 0 && 0x40000000 ≤ a && a + len ≤ 0x41F00000 && stagingOpen s then .staging
    else .none
  else match f.ctx with
    | some n => if fn != 0 && isExpert s n && (manOf s n).permit.getLsbD 2 && f.tdi == 2 && a + len ≤ 2 ^ 48 && !basinAway s n a then .memory n else .none
    | none => .none

/-- Ends a burst access: BW_STATUS, ACC_CODE, the address that INC advances, and the data of a read. -/
def burstEnd (s : State) (fn : Nat) (write : Bool) (off len : Nat) (d : Bytes) (taint : Bool) (code : Code) : State :=
  let s := uFn s fn (fun f => { f with
    bwCode := code, accCode := code, bwTaint := f.bwTaint || taint
    bwAddr := if f.bwInc && off ≤ 0xFFF8 && 0xFFF8 < off + len then f.bwAddr + 0x10000 else f.bwAddr })
  if write then s else emit s (.barData fn off d)

/-- BURST_ACCESS. -/
def execBurstAccess (fn : Fin 64) (t : Bool) (write : Bool) (off : BitVec 16) (len : Nat) (data : Bytes) (s : State) : Ans :=
  let f := gFn s fn.val
  let o := off.toNat
  let n := len % 65537
  let zeros := List.replicate n (0 : Byte)
  if !barOpen s fn.val then .next s
  else if !tOk s fn.val t then .next (notT s fn.val (!write))
  else if (ctxOf s fn.val).isNone then .next (if write then s else emit s (.barData fn.val o zeros))
  else
    let a := f.bwAddr.toNat + o
    let bad (s : State) : State := burstEnd s fn.val write o n zeros false eRange
    match burstTarget s fn.val write a n with
    | .none => .next (bad s)
    | .log => .next (burstEnd s fn.val write o n ((rangeFrom a n).map (logByte s)) false 0)
    | .staging =>
      if write then .next (burstEnd { s with boot := { s.boot with staging := Tab.setMany 0 s.boot.staging (a - 0x40000000) (slice data 0 n) } } fn.val write o n [] false 0)
      else .next (burstEnd s fn.val write o n (Tab.getMany 0 s.boot.staging (a - 0x40000000) n) false 0)
    | .memory c =>
      let ag := burstAgent fn.val c
      let op : M (Bytes × Bool) := if write then (do
          writeVa ag a (slice data 0 n) false
          return ([], false)) else readVa ag a n
      match op { s with racc := 0 } with
      | .ok (d, t) s' => .next (burstEnd { dropReqs s' ag.id with racc := 0 } fn.val write o n d t 0)
      | .error .wait s' => .next (emit (keepNet s s') (.noAnswer fn.val))
      | .error .starve s' => .next (emit (keepNet s s') (.noAnswer fn.val))
      | .error (.fault _ _ _) _ => .next (bad s)
      | .error (.code _) _ => .next (bad s)

end Sys2Proof.Machine
end

