-- ==== Sys2Proof/Machine/Flights.lean ====
section
/-! DEFINITION. The end of a flight (spec/07 R237, R240, R241): the output barge, the completion record, the next flight. -/

namespace Sys2Proof.Machine

/-- The completion record (R240). -/
def flightRecord (inp out tainted : Nat) (code : Code) (stage : Nat) : Bytes :=
  leBytes inp 8 ++ leBytes out 8 ++ leBytes tainted 8 ++ wordBytes (place stage 10 8 ||| place code.toNat 7 0)

/-- Frees the lanes that a flight holds (R238). -/
def freeLanes (s : State) (fid : Nat) : State :=
  { s with lanes := Tab.mapV {} (fun l => if l.ctx.isSome && l.flight = fid && !l.saving then { l with ctx := none, flight := 0, stage := 0 } else l) s.lanes }

/-- The flight is over: its last code, its flag, and the next held flight of its cluster (R239, R240). -/
def endFlight (s : State) (f : Flight) (code : Code) : State :=
  let s := if code = 0 then s else uCtx s f.ctx (fun c => { c with fl := { c.fl with err := code } })
  let s := tjBarge s f.ctx f.cl 8 (f.stages.length - 1) code 0 f.pos
  let s := freeLanes { s with flights := s.flights.filter (fun x => x.id != f.id) } f.id
  startFlight (endOwner s f.ctx false f.owner) f.cl

/-- The code and the stage that a flight ends with. -/
def flightCode (f : Flight) : Code × Nat := f.err.getD (0, 0)

/-- A flight can end: a code has ended it, or all its last stage produced is written. -/
def flightOver (f : Flight) : Bool := f.err.isSome || (drained f && f.obuf.isEmpty)

/-- The completion record is written and the flight ends. -/
def finishFlight (s : State) (f : Flight) : State :=
  let ag := outAgent f
  runOp s ag (writeVa ag (fDone f.hdr) (flightRecord f.filled f.pos f.tainted (flightCode f).1 (flightCode f).2) false)
    (fun _ s => endFlight s f (flightCode f).1)
    (fun c s => endFlight s f (lowCode (flightCode f).1 c))

/-- FLIGHT_COMPLETE: the output barge runs, as far as it can; when it has written the last byte, the flight ends (R240). -/
def execFlightComplete (id : Nat) (s : State) : Ans :=
  match flightOf s id with
  | none => .next s
  | some f =>
    if f.active && holds s f.ctx then
      let s := pumpOut id (2 * fDstMax f.hdr + 3) s
      match flightOf s id with
      | none => .next s
      | some f => .next (if flightOver f then finishFlight s f else s)
    else .next s

end Sys2Proof.Machine
end

