-- ==== Sys2Proof/Machine/Inflate.lean ====
section
/-! DEFINITION. What the codec lanes decode, as functions of a stream's input: the Damxel Block Format (R370 to R374), the Deflate
family (R379, R380). A stream decodes into blocks; each names the input it came from. -/

namespace Sys2Proof.Machine

/-- A decoded block: its input range, its output, whether the output is to be tainted, the code it met (0 for none) and
whether that code ends the job (R383). -/
structure CBlock where
  i0 : Nat
  i1 : Nat
  out : Bytes := []
  spoil : Bool := false
  code : Code := 0
  ends : Bool := false
  tailTaint : Bool := false
  raw : Bool := false
  atBerth : Bool := false
deriving DecidableEq, Repr

/-- What a decoder found: the blocks, how many input bytes they take, and whether it stands at the end of a frame or member. -/
structure Decoded where
  blocks : List CBlock := []
  used : Nat := 0
  boundary : Bool := true
deriving DecidableEq, Repr

/-- The codec error codes (R565). -/
def eCode : Code := 0x51
def eDist : Code := 0x52
def eLen : Code := 0x53
def eCheck : Code := 0x54
def eWindow : Code := 0x55
def eFormat : Code := 0x56
def eChain : Code := 0x57

/-! ## DBF -/

/-- A length that goes on while bytes are 255 (R372): the total and the rest, none when the payload ends. -/
def dbfExtend : Bytes → Nat → Option (Nat × Bytes)
  | [], _ => none
  | b :: r, acc => if b = 255 then dbfExtend r (acc + 255) else some (acc + b.toNat, r)

/-- The distance varint of R372: at most 3 bytes. -/
def dbfDist (b : Bytes) : Except Code (Nat × Bytes) :=
  match b with
  | [] => .error eLen
  | x :: r =>
    if x.toNat < 128 then .ok (x.toNat, r)
    else match r with
      | [] => .error eLen
      | y :: r2 =>
        if y.toNat < 128 then .ok (x.toNat % 128 + 128 * y.toNat, r2)
        else match r2 with
          | [] => .error eLen
          | z :: r3 => if z.toNat < 128 then .ok (x.toNat % 128 + 128 * (y.toNat % 128) + 16384 * z.toNat, r3) else .error eCode

/-- Copies `n` bytes, one at a time, from `d` bytes back in the newest-first output. -/
def copyBack (d : Nat) : Nat → Bytes → Bytes
  | 0, o => o
  | n + 1, o => copyBack d n (o.getD (d - 1) 0 :: o)

/-- The sequences of a DBF payload (R372): the newest-first output `o` (history included), `made` bytes so far, `avail` the
history at the block's start, the error met (0 for none). -/
def dbfSeqs (ulen avail : Nat) : Nat → Bytes → Bytes → Nat → Bytes × Nat × Code
  | 0, _, o, made => (o, made, eLen)
  | _ + 1, [], o, made => (o, made, if made = ulen then 0 else eLen)
  | k + 1, t :: r, o, made =>
    let lit0 := t.toNat / 16
    let m0 := t.toNat % 16
    match (if lit0 = 15 then dbfExtend r 15 else some (lit0, r)) with
    | none => (o, made, eLen)
    | some (lit, r) =>
      if r.length < lit || ulen < made + lit then ((r.take (ulen - made)).reverse ++ o, min ulen (made + min r.length lit), eLen)
      else
        let o := (r.take lit).reverse ++ o
        let made := made + lit
        match r.drop lit with
        | [] => (o, made, if made = ulen then 0 else eLen)
        | r =>
          match dbfDist r with
          | .error c => (o, made, c)
          | .ok (d, r) =>
            match (if m0 = 15 then dbfExtend r 15 else some (m0, r)) with
            | none => (o, made, eLen)
            | some (m, r) =>
              if d = 0 || avail + made < d then (o, made, eDist)
              else if ulen < made + m + 4 then (o, made, eLen)
              else dbfSeqs ulen avail k r (copyBack d (m + 4) o) (made + m + 4)

/-- The blocks of a DBF stream after its header (R371, R374). `hist` is newest first, `done` the original bytes so far, newest
first. Answers the blocks, newest last. -/
def dbfBlocks (final : Bool) : Nat → Bytes → Nat → Bytes → Bytes → Decoded
  | 0, _, pos, _, _ => { used := pos, boundary := false }
  | k + 1, b, pos, hist, done =>
    if b.length < 16 then
      (if final then { blocks := [{ i0 := pos, i1 := pos + b.length, code := eLen, ends := true }], used := pos, boundary := false }
       else { used := pos, boundary := false })
    else
      let w0 := wordAt b 0
      let w1 := wordAt b 8
      let bad (c : Code) : Decoded := { blocks := [{ i0 := pos, i1 := pos + 16, code := c, ends := true }], used := pos, boundary := false }
      if fld w1 63 32 ≠ 0 then bad eFormat
      else if bitOf w0 19 then
        if fld w0 18 0 ≠ 0 || fld w0 63 20 ≠ done.length then bad eFormat
        else
          let ok := fld w1 31 0 == crc32c 0xFFFFFFFF done.reverse
          { blocks := if ok then [] else [{ i0 := pos, i1 := pos + 16, code := eCheck, tailTaint := true }], used := pos + 16, boundary := true }
      else
        let clen := fld w0 63 32
        let ulen := fld w0 16 0
        let raw := bitOf w0 17
        if fld w0 31 20 ≠ 0 || ulen = 0 || 65536 < ulen || 65536 < clen || (raw && clen ≠ ulen) then bad eFormat
        else if b.length < 16 + clen then
          (if final then { blocks := [{ i0 := pos, i1 := pos + b.length, code := eLen, ends := true }], used := pos, boundary := false }
           else { used := pos, boundary := false })
        else
          let hist := if bitOf w0 18 then [] else hist
          let pay := (b.drop 16).take clen
          let (o, made, c) := if raw then (pay.reverse ++ hist, ulen, (0 : Code)) else dbfSeqs ulen hist.length (clen + 1) pay hist 0
          let o := List.replicate (ulen - made) 0 ++ o
          let out := (o.take ulen).reverse
          let chk := crc32c 0xFFFFFFFF out == fld w1 31 0
          let code := if c ≠ 0 then c else if chk then 0 else eCheck
          let rest := dbfBlocks final k (b.drop (16 + clen)) (pos + 16 + clen) (o.take 262144) (o.take ulen ++ done)
          { rest with blocks := { i0 := pos, i1 := pos + 16 + clen, out := out, spoil := code != 0, code := code, raw := raw, atBerth := true } :: rest.blocks }

/-- A DBF stream (R370): header, blocks, trailer. -/
def dbfDecode (final : Bool) (b : Bytes) : Decoded :=
  if b.length < 16 then
    (if final then { blocks := [{ i0 := 0, i1 := b.length, code := eLen, ends := true }], used := 0, boundary := false } else { used := 0, boundary := b.isEmpty })
  else if wordAt b 0 ≠ 0x131464244 || wordAt b 8 ≠ 0 then
    { blocks := [{ i0 := 0, i1 := 16, code := eFormat, ends := true }], used := 0, boundary := false }
  else
    let d := dbfBlocks final (b.length + 1) (b.drop 16) 16 [] []
    if d.boundary && d.used < b.length then
      { d with blocks := d.blocks ++ [{ i0 := d.used, i1 := b.length, code := eFormat, ends := true }] }
    else d

/-! ## Deflate -/

/-- `k` bits at bit position `pos` of a little-endian bit string of `len` bits; none past the end. -/
def takeBits (n len pos k : Nat) : Option Nat := if len < pos + k then none else some ((n >>> pos) % 2 ^ k)

/-- A canonical Huffman code: for each length 1 to 15 the number of codes, and the symbols in code order. -/
structure Huff where
  count : List Nat
  syms : List Nat
deriving DecidableEq, Repr

/-- Builds a canonical code from code lengths. -/
def huffOf (lens : List Nat) : Huff :=
  { count := (List.range 16).map (fun l => if l = 0 then 0 else (lens.filter (· == l)).length)
    syms := (List.range 15).flatMap (fun l => (List.range lens.length).filter (fun i => lens.getD i 0 == l + 1)) }

/-- How far a code is from complete: 0 complete, positive incomplete, negative oversubscribed (times 2^15). -/
def huffLeft (h : Huff) : Int :=
  (2 ^ 15 : Int) - ((List.range 15).foldl (fun acc l => acc + h.count.getD (l + 1) 0 * 2 ^ (14 - l)) 0 : Nat)

/-- Why an inflate step stops: more input is needed, or an error. -/
inductive Stop where
  | more
  | err (c : Code)
deriving DecidableEq, Repr

/-- Decodes one symbol bit by bit. -/
def huffSym (n len : Nat) (h : Huff) : Nat → Nat → Nat → Nat → Nat → Nat → Except Stop (Nat × Nat)
  | 0, _, _, _, _, _ => .error (.err eCode)
  | k + 1, l, pos, code, first, index =>
    match takeBits n len pos 1 with
    | none => .error .more
    | some b =>
      let code := code + b
      let cnt := h.count.getD l 0
      if code < first + cnt then .ok (h.syms.getD (index + (code - first)) 0, pos + 1)
      else huffSym n len h k (l + 1) (pos + 1) (code * 2) ((first + cnt) * 2) (index + cnt)

def huffRead (n len : Nat) (h : Huff) (pos : Nat) : Except Stop (Nat × Nat) := huffSym n len h 15 1 pos 0 0 0

def lenBase : List Nat := [3,4,5,6,7,8,9,10,11,13,15,17,19,23,27,31,35,43,51,59,67,83,99,115,131,163,195,227,258]
def lenExtra : List Nat := [0,0,0,0,0,0,0,0,1,1,1,1,2,2,2,2,3,3,3,3,4,4,4,4,5,5,5,5,0]
def distBase : List Nat := [1,2,3,4,5,7,9,13,17,25,33,49,65,97,129,193,257,385,513,769,1025,1537,2049,3073,4097,6145,8193,12289,16385,24577]
def distExtra : List Nat := [0,0,0,0,1,1,2,2,3,3,4,4,5,5,6,6,7,7,8,8,9,9,10,10,11,11,12,12,13,13]

/-- Bits as an Except. -/
def needBits (n len pos k : Nat) : Except Stop Nat :=
  match takeBits n len pos k with
  | none => .error .more
  | some x => .ok x

/-- The symbols of a compressed block: newest-first output, why it stopped (none at the end of the block), position. -/
def inflateSyms (n len : Nat) (lh dh : Huff) (avail : Nat) : Nat → Nat → Bytes → Nat → Bytes × Option Stop × Nat
  | 0, pos, o, _ => (o, some .more, pos)
  | k + 1, pos, o, made =>
    match huffRead n len lh pos with
    | .error e => (o, some e, pos)
    | .ok (s, p) =>
      if s < 256 then inflateSyms n len lh dh avail k p (BitVec.ofNat 8 s :: o) (made + 1)
      else if s = 256 then (o, none, p)
      else if 285 < s then (o, some (.err eCode), pos)
      else
        let i := s - 257
        match (do
            let x ← needBits n len p (lenExtra.getD i 0)
            let p := p + lenExtra.getD i 0
            let (ds, p) ← huffRead n len dh p
            if 29 < ds then throw (Stop.err eCode)
            let y ← needBits n len p (distExtra.getD ds 0)
            pure (lenBase.getD i 0 + x, distBase.getD ds 0 + y, p + distExtra.getD ds 0) : Except Stop (Nat × Nat × Nat)) with
        | .error e => (o, some e, pos)
        | .ok (l, d, p) =>
          if min 32768 (avail + made) < d then (o, some (.err eDist), pos)
          else inflateSyms n len lh dh avail k p (copyBack d l o) (made + l)

/-- The code lengths of a dynamic block. -/
def inflateLens (n len : Nat) (ch : Huff) (total : Nat) : Nat → Nat → List Nat → Except Stop (List Nat × Nat)
  | 0, _, _ => .error (.err eCode)
  | k + 1, pos, acc =>
    if total ≤ acc.length then (if acc.length = total then .ok (acc.reverse, pos) else .error (.err eCode))
    else
      match huffRead n len ch pos with
      | .error e => .error e
      | .ok (s, p) =>
        if s < 16 then inflateLens n len ch total k p (s :: acc)
        else if s = 16 then
          match acc, needBits n len p 2 with
          | [], _ => .error (.err eCode)
          | _, .error e => .error e
          | a :: r, .ok x => inflateLens n len ch total k (p + 2) (List.replicate (3 + x) a ++ (a :: r))
        else
          let w := if s = 17 then 3 else 7
          match needBits n len p w with
          | .error e => .error e
          | .ok x => inflateLens n len ch total k (p + w) (List.replicate ((if s = 17 then 3 else 11) + x) 0 ++ acc)

def codeOrder : List Nat := [16,17,18,0,8,7,9,6,10,5,11,4,12,3,13,2,14,1,15]

/-- The codes of a dynamic block (R380: incomplete or oversubscribed lengths are E_CODEC_CODE; a code of one symbol or of none is incomplete). -/
def inflateDyn (n len pos : Nat) : Except Stop (Huff × Huff × Nat) := do
  let hl ← needBits n len pos 5
  let hd ← needBits n len (pos + 5) 5
  let hc ← needBits n len (pos + 10) 4
  let nl := hl + 257
  let nd := hd + 1
  let nc := hc + 4
  let cl ← needBits n len (pos + 14) (3 * nc)
  if 286 < nl || 30 < nd then throw (Stop.err eCode)
  let lens := (List.range nc).map (fun i => (cl >>> (3 * i)) % 8)
  let clens := (List.range 19).map (fun s => ((List.range nc).zip lens).foldl (fun acc p => if codeOrder.getD p.1 99 = s then p.2 else acc) 0)
  let ch := huffOf clens
  if huffLeft ch ≠ 0 then throw (Stop.err eCode)
  let (ls, p) ← inflateLens n len ch (nl + nd) (nl + nd + 1) (pos + 14 + 3 * nc) []
  let lh := huffOf (ls.take nl)
  let dh := huffOf (ls.drop nl)
  if ls.getD 256 0 = 0 || huffLeft lh ≠ 0 || huffLeft dh ≠ 0 then throw (Stop.err eCode)
  pure (lh, dh, p)

def fixedLit : Huff := huffOf ((List.range 288).map (fun i => if i < 144 then 8 else if i < 256 then 9 else if i < 280 then 7 else 8))
/-- The fixed distance code has symbols 30 and 31, which R380 refuses. -/
def fixedDist : Huff := huffOf (List.replicate 32 5)

/-- The blocks of a raw Deflate stream from a bit position: the blocks, the bit position reached, whether BFINAL ended it. -/
def inflateBlocks (final : Bool) (n len base : Nat) : Nat → Nat → Bytes → Nat → List CBlock × Nat × Bool
  | 0, pos, _, _ => ([], pos, false)
  | k + 1, pos, hist, avail =>
    let i0 := base + pos / 8
    let short : List CBlock := if final then [{ i0 := i0, i1 := base + len / 8, code := eLen, ends := true }] else []
    match takeBits n len pos 3 with
    | none => (short, pos, false)
    | some h =>
      let last := h % 2 = 1
      let ty := h / 2
      let finish (o : Bytes) (p : Nat) : List CBlock × Nat × Bool :=
        let made := o.length - hist.length
        let blk : CBlock := { i0 := i0, i1 := base + (p + 7) / 8, out := (o.take made).reverse }
        if last then ([blk], p, true)
        else
          let (bs, p', d) := inflateBlocks final n len base k p o (avail + made)
          (blk :: bs, p', d)
      let halt (o : Bytes) (e : Stop) : List CBlock × Nat × Bool :=
        let made := o.length - hist.length
        match e with
        | .more => if final then ([{ i0 := i0, i1 := base + len / 8, out := (o.take made).reverse, spoil := true, code := eLen, ends := true }], pos, false) else ([], pos, false)
        | .err c => ([{ i0 := i0, i1 := base + len / 8, out := (o.take made).reverse, spoil := true, code := c, ends := true }], pos, false)
      if ty = 0 then
        let p := (pos + 3 + 7) / 8 * 8
        match takeBits n len p 32 with
        | none => halt hist .more
        | some x =>
          let l := x % 65536
          if l + x / 65536 ≠ 65535 then halt hist (.err eCode)
          else match takeBits n len (p + 32) (8 * l) with
            | none => halt hist .more
            | some d => finish ((leBytes d l).reverse ++ hist) (p + 32 + 8 * l)
      else if ty = 3 then halt hist (.err eFormat)
      else
        match (if ty = 1 then Except.ok (fixedLit, fixedDist, pos + 3) else inflateDyn n len (pos + 3)) with
        | .error e => halt hist e
        | .ok (lh, dh, p) =>
          match inflateSyms n len lh dh avail (len + 1) p hist 0 with
          | (o, none, p) => finish o p
          | (o, some e, _) => halt o e

/-- The bytes that some blocks made. -/
def blocksOut (bs : List CBlock) : Bytes := bs.flatMap (·.out)

/-- The end of a byte string up to and past its first zero byte: none when there is none. -/
def skipZ : Bytes → Option Bytes
  | [] => none
  | b :: r => if b = 0 then some r else skipZ r

/-- A gzip member header (R380): the bytes it takes, none for more input, or an error. -/
def gzipHeader (b : Bytes) : Except Stop Nat :=
  if b.length < 10 then
    (if (b.take 2 == [0x1F, 0x8B].take b.length) then .error .more else .error (.err eFormat))
  else if b.take 3 ≠ [0x1F, 0x8B, 8] then .error (.err eFormat)
  else
    let flg := (b.getD 3 0).toNat
    if 31 < flg then .error (.err eFormat)
    else
      let r := b.drop 10
      let r1 : Option Bytes := if flg.testBit 2 then (if r.length < 2 || r.length < 2 + numAt r 0 2 then none else some (r.drop (2 + numAt r 0 2))) else some r
      match r1 with
      | none => .error .more
      | some r =>
        match (if flg.testBit 3 then skipZ r else some r) with
        | none => .error .more
        | some r =>
          match (if flg.testBit 4 then skipZ r else some r) with
          | none => .error .more
          | some r =>
            if flg.testBit 1 then
              (if r.length < 2 then .error .more
               else if numAt r 0 2 = crc32 (b.take (b.length - r.length)) % 65536 then .ok (b.length - r.length + 2) else .error (.err eFormat))
            else .ok (b.length - r.length)

/-- What a decoder answers when a header stops it. -/
def headStop (final : Bool) (pos n : Nat) (e : Stop) : Decoded :=
  match e with
  | .more => { blocks := if final then [{ i0 := pos, i1 := pos + n, code := eLen, ends := true }] else [], used := pos, boundary := n == 0 }
  | .err c => { blocks := [{ i0 := pos, i1 := pos + n, code := c, ends := true }], used := pos, boundary := false }

/-- A Deflate-family member's body and trailer of `t` bytes checked by `chk`. -/
def member (final : Bool) (b : Bytes) (pos hdr t : Nat) (chk : Bytes → Bytes → Bool) : List CBlock × Nat × Bool :=
  let body := b.drop hdr
  let (bs, p, done) := inflateBlocks final (ofLe body) (8 * body.length) (pos + hdr) (8 * body.length + 1) 0 [] 0
  if !done then (bs, pos, false)
  else
    let e := hdr + (p + 7) / 8
    if b.length < e + t then (bs ++ (if final then [{ i0 := pos + e, i1 := pos + b.length, code := eLen, ends := true }] else []), pos, false)
    else if chk (slice b e t) (blocksOut bs) then (bs, pos + e + t, true)
    else (bs ++ [{ i0 := pos + e, i1 := pos + e + t, code := eCheck, tailTaint := true }], pos + e + t, true)

/-- gzip members, one after another (R380). -/
def gzipDecode (final : Bool) : Nat → Bytes → Nat → Decoded
  | 0, _, pos => { used := pos }
  | k + 1, b, pos =>
    if b.isEmpty then { used := pos, boundary := true }
    else match gzipHeader b with
      | .error e => headStop final pos b.length e
      | .ok h =>
        let (bs, p, done) := member final b pos h 8 (fun t o => numAt t 0 4 == crc32 o && numAt t 4 4 == o.length % 2 ^ 32)
        if !done || bs.any (·.ends) then { blocks := bs, used := p, boundary := false }
        else
          let r := gzipDecode final k (b.drop (p - pos)) p
          { r with blocks := bs ++ r.blocks }

/-- One raw Deflate or zlib stream; input past its end is E_CODEC_FORMAT (R387). -/
def deflateDecode (final zlib : Bool) (b : Bytes) : Decoded :=
  let run (hdr : Nat) : Decoded :=
    let (bs, p, done) := member final b 0 hdr (if zlib then 4 else 0) (fun t o => !zlib || ofBe t == adler32 o)
    if done && p < b.length then { blocks := bs ++ [{ i0 := p, i1 := b.length, code := eFormat, ends := true }], used := p, boundary := false }
    else { blocks := bs, used := p, boundary := done }
  if zlib then
    (if b.length < 2 then headStop final 0 b.length .more
     else
      let cmf := (b.getD 0 0).toNat
      let flg := (b.getD 1 0).toNat
      if cmf % 16 ≠ 8 || 7 < cmf / 16 || flg.testBit 5 || (cmf * 256 + flg) % 31 ≠ 0 then headStop final 0 b.length (.err eFormat) else run 2)
  else run 0

end Sys2Proof.Machine
end

