-- ==== Sys2Proof/Machine/Zstd.lean ====
section
/-! DEFINITION. The Zstandard decoder of the deep lanes (spec/12_codec_lanes.md R378; RFC 8878): frames, blocks, FSE and Huffman tables,
sequences. -/

namespace Sys2Proof.Machine

/-! ## Bit strings read from their end -/

/-- A bit string read backwards: its number and the bits not yet read. -/
structure RBits where
  n : Nat
  left : Nat
deriving DecidableEq, Repr

/-- A reversed bit string: the highest set bit of the last byte ends it. -/
def rbits (b : Bytes) : Option RBits :=
  let n := ofLe b
  if b.isEmpty || (b.getLast?.getD 0) = 0 then none else some { n := n % 2 ^ (bitLen' n - 1), left := bitLen' n - 1 }
where
  bitLen' (n : Nat) : Nat := if n = 0 then 0 else n.log2 + 1

/-- Reads `k` bits. -/
def RBits.read (r : RBits) (k : Nat) : Option (Nat × RBits) :=
  if r.left < k then none else some ((r.n >>> (r.left - k)) % 2 ^ k, { r with left := r.left - k })

/-- A read inside a payload; running out is E_CODEC_LEN. -/
def rget (r : RBits) (k : Nat) : Except Code (Nat × RBits) :=
  match r.read k with
  | some x => .ok x
  | none => .error eLen

/-! ## FSE -/

/-- A cell of an FSE decoding table. -/
structure FseCell where
  sym : Nat
  nb : Nat
  base : Nat
deriving DecidableEq, Repr

/-- A decoding table: its accuracy log and its cells. -/
structure FseTab where
  al : Nat
  cells : List FseCell
deriving DecidableEq, Repr

/-- The next position of the spread that lies at or below the threshold. -/
def fseNext (mask step high : Nat) : Nat → Nat → Nat
  | 0, p => p
  | k + 1, p => let q := (p + step) % (mask + 1); if high < q then fseNext mask step high k q else q

/-- Spreads a symbol over `n` cells. -/
def fsePut (mask step high sym : Nat) : Nat → List Nat × Nat → List Nat × Nat
  | 0, x => x
  | n + 1, (l, p) => fsePut mask step high sym n (l.set p sym, fseNext mask step high (mask + 1) p)

/-- Numbers the cells of each symbol in order. -/
def fseFill (al : Nat) : List Nat → List Nat → List FseCell
  | [], _ => []
  | s :: r, next =>
    let x := next.getD s 1
    let nb := al - x.log2
    { sym := s, nb := nb, base := (x <<< nb) - 2 ^ al } :: fseFill al r (next.set s (x + 1))

/-- The decoding table of normalized counts; −1 is a count below 1. -/
def fseBuild (al : Nat) (counts : List Int) : FseTab :=
  let size := 2 ^ al
  let idx := (List.range counts.length).zip counts
  let low := (idx.filter (fun p => p.2 == -1)).map (·.1)
  let high := size - 1 - low.length
  let l0 := ((List.range low.length).zip low).foldl (fun l p => l.set (size - 1 - p.1) p.2) (List.replicate size 0)
  let step := size / 2 + size / 8 + 3
  let (l, _) := idx.foldl (fun x p => if p.2 ≤ 0 then x else fsePut (size - 1) step high p.1 p.2.toNat x) (l0, 0)
  { al := al, cells := fseFill al l (counts.map (fun c => if c = -1 then 1 else c.toNat)) }

/-- The one-symbol table of RLE mode. -/
def fseRle (sym : Nat) : FseTab := { al := 0, cells := [{ sym := sym, nb := 0, base := 0 }] }

/-- The repeat flags after a zero probability: how many further zeros. -/
def fseZeros (n len : Nat) : Nat → Nat → Option (Nat × Nat)
  | 0, _ => none
  | k + 1, pos =>
    match takeBits n len pos 2 with
    | none => none
    | some 3 => (fseZeros n len k (pos + 2)).map (fun x => (x.1 + 3, x.2))
    | some x => some (x, pos + 2)

/-- The probabilities of a table description: counts and the bit position after them. -/
def fseProbs (n len maxSym : Nat) : Nat → Nat → Nat → List Int → Option (List Int × Nat)
  | 0, _, _, _ => none
  | k + 1, left, pos, acc =>
    if left = 0 then some (acc, pos)
    else if maxSym < acc.length then none
    else
      let mx := left + 1
      let bits := mx.log2 + 1
      let low := 2 ^ bits - 1 - mx
      match takeBits n len pos (bits - 1) with
      | none => none
      | some v =>
        let r : Option (Nat × Nat) :=
          if v < low then some (v, pos + bits - 1)
          else match takeBits n len (pos + bits - 1) 1 with
            | none => none
            | some b => let w := v + b * 2 ^ (bits - 1); some (if 2 ^ (bits - 1) ≤ w then w - low else w, pos + bits)
        match r with
        | none => none
        | some (v, pos) =>
          let p : Int := (v : Int) - 1
          if p = 0 then
            match fseZeros n len (maxSym + 1) pos with
            | none => none
            | some (z, pos) => fseProbs n len maxSym k left pos (acc ++ [0] ++ List.replicate z 0)
          else
            let cost := if p = -1 then 1 else p.toNat
            if left < cost then none else fseProbs n len maxSym k (left - cost) pos (acc ++ [p])

/-- An FSE table description: the table and the bytes it takes (R378: an invalid one is E_CODEC_CODE). -/
def fseRead (maxAl maxSym : Nat) (b : Bytes) : Except Code (FseTab × Nat) :=
  let n := ofLe b
  let len := 8 * b.length
  match takeBits n len 0 4 with
  | none => .error eLen
  | some a =>
    let al := a + 5
    if maxAl < al then .error eCode
    else match fseProbs n len maxSym (maxSym + 600) (2 ^ al) 4 [] with
      | none => .error eCode
      | some (c, pos) => if maxSym + 1 < c.length then .error eCode else .ok (fseBuild al c, (pos + 7) / 8)

def FseTab.cell (t : FseTab) (st : Nat) : FseCell := t.cells.getD st { sym := 0, nb := 0, base := 0 }

/-! ## Huffman -/

/-- The two interleaved states of compressed weights. -/
def hufWeights (t : FseTab) : Nat → RBits → Nat → Nat → List Nat → Option (List Nat)
  | 0, _, _, _, _ => none
  | k + 1, r, s1, s2, acc =>
    let c := t.cell s1
    let acc := acc ++ [c.sym]
    match r.read c.nb with
    | none => some (acc ++ [(t.cell s2).sym])
    | some (x, r) => hufWeights t k r s2 (c.base + x) acc

/-- A Huffman decoding table: bits, and for each index symbol and length. -/
structure HufTab where
  bits : Nat
  cells : List (Nat × Nat)
deriving DecidableEq, Repr

/-- The table of weights (the last one implied); none when they do not fill a power of two, or pass 11 bits. -/
def hufBuild (ws : List Nat) : Option HufTab :=
  let sum := ws.foldl (fun a w => a + if w = 0 then 0 else 2 ^ (w - 1)) 0
  if sum = 0 || ws.any (fun w => decide (11 < w)) || 255 < ws.length then none
  else
    let bits := sum.log2 + 1
    let rest := 2 ^ bits - sum
    if 11 < bits || 2 ^ rest.log2 ≠ rest then none
    else
      let ws := ws ++ [rest.log2 + 1]
      let idx := (List.range ws.length).zip ws
      some { bits := bits, cells := (List.range bits).flatMap (fun w => (idx.filter (fun p => p.2 == w + 1)).flatMap (fun p => List.replicate (2 ^ w) (p.1, bits - w))) }

/-- A Huffman tree description: the table and the bytes it takes. -/
def hufRead (b : Bytes) : Except Code (HufTab × Nat) :=
  match b with
  | [] => .error eLen
  | h :: r =>
    let hb := h.toNat
    if 128 ≤ hb then
      let n := hb - 127
      let k := (n + 1) / 2
      if r.length < k then .error eLen
      else
        let ws := (List.range n).map (fun i => (r.getD (i / 2) 0).toNat / (if i % 2 = 0 then 16 else 1) % 16)
        match hufBuild ws with
        | some t => .ok (t, 1 + k)
        | none => .error eCode
    else if r.length < hb then .error eLen
    else match fseRead 6 12 (r.take hb) with
      | .error c => .error c
      | .ok (t, used) =>
        match rbits ((r.take hb).drop used) with
        | none => .error eCode
        | some rb =>
          match rb.read t.al with
          | none => .error eCode
          | some (s1, rb) => match rb.read t.al with
            | none => .error eCode
            | some (s2, rb) => match (hufWeights t 260 rb s1 s2 []).bind hufBuild with
              | some h => .ok (h, 1 + hb)
              | none => .error eCode

/-- Decodes `n` literals of one stream; every bit must be used. -/
def hufStream (t : HufTab) : Nat → RBits → Except Code Bytes
  | 0, r => if r.left = 0 then .ok [] else .error eCode
  | n + 1, r =>
    let peek := if t.bits ≤ r.left then (r.n >>> (r.left - t.bits)) % 2 ^ t.bits else (r.n % 2 ^ r.left) <<< (t.bits - r.left)
    let (s, l) := t.cells.getD peek (0, 0)
    if r.left < l || l = 0 then .error eLen
    else match hufStream t n { r with left := r.left - l } with
      | .error c => .error c
      | .ok b => .ok (BitVec.ofNat 8 s :: b)

/-- One stream of literals from its bytes. -/
def hufDecode (t : HufTab) (n : Nat) (b : Bytes) : Except Code Bytes :=
  match rbits b with
  | none => .error eCode
  | some r => hufStream t n r

/-! ## Blocks -/

/-- What carries over from block to block of a frame. -/
structure ZState where
  huf : Option HufTab := none
  ll : Option FseTab := none
  off : Option FseTab := none
  ml : Option FseTab := none
  r1 : Nat := 1
  r2 : Nat := 4
  r3 : Nat := 8
deriving DecidableEq, Repr

/-- The literals section: the literals, the state, the bytes it takes. -/
def zLiterals (z : ZState) (b : Bytes) : Except Code (Bytes × ZState × Nat) :=
  match b with
  | [] => .error eLen
  | h :: _ =>
    let ty := h.toNat % 4
    let sf := h.toNat / 4 % 4
    if ty ≤ 1 then
      let (hl, n) := if sf % 2 = 0 then (1, h.toNat / 8) else if sf = 1 then (2, numAt b 0 2 / 16) else (3, numAt b 0 3 / 16)
      let body := b.drop hl
      if b.length < hl || 131072 < n then .error eLen
      else if ty = 0 then (if body.length < n then .error eLen else .ok (body.take n, z, hl + n))
      else match body with
        | [] => .error eLen
        | x :: _ => .ok (List.replicate n x, z, hl + 1)
    else
      let (hl, w) := if sf ≤ 1 then (3, 10) else if sf = 2 then (4, 14) else (5, 18)
      let x := numAt b 0 hl / 16
      let n := x % 2 ^ w
      let cs := x / 2 ^ w % 2 ^ w
      if b.length < hl + cs || 131072 < n then .error eLen
      else
        let body := (b.drop hl).take cs
        match (if ty = 2 then (hufRead body).map (fun p => (p.1, p.2)) else match z.huf with | some t => Except.ok (t, 0) | none => .error eCode) with
        | .error c => .error c
        | .ok (t, used) =>
          let st := body.drop used
          let z := { z with huf := some t }
          let out : Except Code Bytes :=
            if sf = 0 then hufDecode t n st
            else
              let s1 := numAt st 0 2
              let s2 := numAt st 2 2
              let s3 := numAt st 4 2
              let q := (n + 3) / 4
              if st.length < 6 + s1 + s2 + s3 || n < 3 * q then .error eLen
              else do
                let a ← hufDecode t q ((st.drop 6).take s1)
                let b ← hufDecode t q ((st.drop (6 + s1)).take s2)
                let c ← hufDecode t q ((st.drop (6 + s1 + s2)).take s3)
                let d ← hufDecode t (n - 3 * q) (st.drop (6 + s1 + s2 + s3))
                return a ++ b ++ c ++ d
          out.map (fun o => (o, z, hl + cs))

def llBase : List Nat := (List.range 16) ++ [16,18,20,22,24,28,32,40,48,64,128,256,512,1024,2048,4096,8192,16384,32768,65536]
def llBits : List Nat := List.replicate 16 0 ++ [1,1,1,1,2,2,3,3,4,6,7,8,9,10,11,12,13,14,15,16]
def mlBase : List Nat := (List.range 32).map (· + 3) ++ [35,37,39,41,43,47,51,59,67,83,99,131,259,515,1027,2051,4099,8195,16387,32771,65539]
def mlBits : List Nat := List.replicate 32 0 ++ [1,1,1,1,2,2,3,3,4,4,5,7,8,9,10,11,12,13,14,15,16]
def llPre : FseTab := fseBuild 6 [4,3,2,2,2,2,2,2,2,2,2,2,2,1,1,1,2,2,2,2,2,2,2,2,2,3,2,1,1,1,1,1,-1,-1,-1,-1]
def mlPre : FseTab := fseBuild 6 [1,4,3,2,2,2,2,2,2,1,1,1,1,1,1,1,1,1,1,1,1,1,1,1,1,1,1,1,1,1,1,1,1,1,1,1,1,1,1,1,1,1,1,1,1,1,-1,-1,-1,-1,-1,-1,-1]
def ofPre : FseTab := fseBuild 5 [1,1,1,1,1,1,2,2,2,1,1,1,1,1,1,1,1,1,1,1,1,1,1,1,-1,-1,-1,-1,-1]

/-- A sequence table by its mode: the table and the bytes its description takes. -/
def zTable (mode maxAl maxSym : Nat) (pre : FseTab) (old : Option FseTab) (b : Bytes) : Except Code (FseTab × Nat) :=
  match mode with
  | 0 => .ok (pre, 0)
  | 1 => match b with
    | [] => .error eLen
    | x :: _ => if maxSym < x.toNat then .error eCode else .ok (fseRle x.toNat, 1)
  | 2 => fseRead maxAl maxSym b
  | _ => match old with
    | some t => .ok (t, 0)
    | none => .error eCode

/-- The output of a block under way: newest-first output of the frame, its length, literals left, the block's bytes so far. -/
structure ZOut where
  o : Bytes
  total : Nat
  lits : Bytes
  made : Nat
deriving DecidableEq, Repr

/-- The three sequence tables. -/
structure ZTabs where
  ll : FseTab
  off : FseTab
  ml : FseTab
deriving DecidableEq, Repr

/-- The offset of a sequence and the repeat offsets after it. -/
def zOffset (z : ZState) (v ll : Nat) : Nat × ZState :=
  if 3 < v then (v - 3, { z with r1 := v - 3, r2 := z.r1, r3 := z.r2 })
  else
    let i := if ll = 0 then v + 1 else v
    match i with
    | 1 => (z.r1, z)
    | 2 => (z.r2, { z with r1 := z.r2, r2 := z.r1 })
    | 3 => (z.r3, { z with r1 := z.r3, r2 := z.r1, r3 := z.r2 })
    | _ => (z.r1 - 1, { z with r1 := z.r1 - 1, r2 := z.r1, r3 := z.r2 })

/-- The sequences of a block: `n` left, the three states. Answers the output, and the code met (0 for none). -/
def zSeqs (t : ZTabs) (win maxB : Nat) : Nat → RBits → Nat → Nat → Nat → ZState → ZOut → ZOut × ZState × Code
  | 0, r, _, _, _, z, x => (x, z, if r.left = 0 then 0 else eCode)
  | n + 1, r, sl, so, sm, z, x =>
    let cl := t.ll.cell sl
    let co := t.off.cell so
    let cm := t.ml.cell sm
    let step : Except Code (Nat × Nat × Nat × RBits) := do
      let (ov, r) ← rget r co.sym
      let (mv, r) ← rget r (mlBits.getD cm.sym 0)
      let (lv, r) ← rget r (llBits.getD cl.sym 0)
      return (2 ^ co.sym + ov, mlBase.getD cm.sym 0 + mv, llBase.getD cl.sym 0 + lv, r)
    match step with
    | .error c => (x, z, c)
    | .ok (ov, ml, ll, r) =>
      let (d, z) := zOffset z ov ll
      if x.lits.length < ll || maxB < x.made + ll + ml then (x, z, eLen)
      else
        let o := (x.lits.take ll).reverse ++ x.o
        let x := { x with o := o, total := x.total + ll, lits := x.lits.drop ll, made := x.made + ll }
        if d = 0 || min win x.total < d then (x, z, eDist)
        else
          let x := { x with o := copyBack d ml x.o, total := x.total + ml, made := x.made + ml }
          if n = 0 then zSeqs t win maxB 0 r 0 0 0 z x
          else
            let next : Except Code (Nat × Nat × Nat × RBits) := do
              let (a, r) ← rget r cl.nb
              let (b, r) ← rget r cm.nb
              let (c, r) ← rget r co.nb
              return (cl.base + a, co.base + c, cm.base + b, r)
            match next with
            | .error c => (x, z, c)
            | .ok (sl, so, sm, r) => zSeqs t win maxB n r sl so sm z x

/-- The number of sequences and the bytes it takes. -/
def zSeqCount (b : Bytes) : Option (Nat × Nat) :=
  match b with
  | [] => none
  | x :: r =>
    if x.toNat < 128 then some (x.toNat, 1)
    else if x.toNat < 255 then (match r with | y :: _ => some ((x.toNat - 128) * 256 + y.toNat, 2) | [] => none)
    else if r.length < 2 then none else some (numAt r 0 2 + 0x7F00, 3)

/-- A compressed block: the output, the state, the code met. -/
def zBlock (win maxB : Nat) (z : ZState) (o : Bytes) (total : Nat) (b : Bytes) : Bytes × Nat × ZState × Code :=
  match zLiterals z b with
  | .error c => (o, 0, z, c)
  | .ok (lits, z, used) =>
    let sec := b.drop used
    match zSeqCount sec with
    | none => (o, 0, z, eLen)
    | some (0, k) => if sec.length ≠ k then (o, 0, z, eCode) else if maxB < lits.length then (o, 0, z, eLen) else (lits.reverse ++ o, lits.length, z, 0)
    | some (n, k) =>
      let setup : Except Code (ZTabs × Bytes) :=
        match sec.drop k with
        | [] => .error eLen
        | m :: r => do
          let m := m.toNat
          if m % 4 ≠ 0 then throw eCode
          let (ll, u) ← zTable (m / 64) 9 35 llPre z.ll r
          let r := r.drop u
          let (off, u) ← zTable (m / 16 % 4) 8 31 ofPre z.off r
          let r := r.drop u
          let (ml, u) ← zTable (m / 4 % 4) 9 52 mlPre z.ml r
          return ({ ll := ll, off := off, ml := ml }, r.drop u)
      match setup with
      | .error c => (o, 0, z, c)
      | .ok (t, r) =>
        let z := { z with ll := some t.ll, off := some t.off, ml := some t.ml }
        match rbits r with
        | none => (o, 0, z, eCode)
        | some rb =>
          let init : Except Code (Nat × Nat × Nat × RBits) := do
            let (a, rb) ← rget rb t.ll.al
            let (b, rb) ← rget rb t.off.al
            let (c, rb) ← rget rb t.ml.al
            return (a, b, c, rb)
          match init with
          | .error c => (o, 0, z, c)
          | .ok (a, b, c, rb) =>
            let (x, z, code) := zSeqs t win maxB n rb a b c z { o := o, total := total, lits := lits, made := 0 }
            if code ≠ 0 then (x.o, x.made, z, code)
            else if maxB < x.made + x.lits.length then (x.o, x.made, z, eLen)
            else (x.lits.reverse ++ x.o, x.made + x.lits.length, z, 0)

/-! ## Frames -/

/-- The header of a frame. -/
structure ZHead where
  len : Nat
  win : Nat
  fcs : Option Nat
  sum : Bool
deriving DecidableEq, Repr

/-- The header after its magic; `wlog` bounds the window (R378). -/
def zHead (wlog : Nat) (b : Bytes) : Except Stop ZHead :=
  match b with
  | [] => .error .more
  | h :: _ =>
    let x := h.toNat
    let single := x.testBit 5
    let dl := [0, 1, 2, 4].getD (x % 4) 0
    let fl := match x / 64 with | 0 => (if single then 1 else 0) | 1 => 2 | 2 => 4 | _ => 8
    let len := 1 + (if single then 0 else 1) + dl + fl
    if x.testBit 3 then .error (.err eFormat)
    else if b.length < len then .error .more
    else
      let p := if single then 1 else 2
      let fcs := if fl = 0 then none else some (numAt b (p + dl) fl + (if fl = 2 then 256 else 0))
      let wd := (b.getD 1 0).toNat
      let win := if single then fcs.getD 0 else let base := 2 ^ (10 + wd / 8); base + base / 8 * (wd % 8)
      if numAt b p dl ≠ 0 then .error (.err eFormat)
      else if 2 ^ wlog < win || 2 ^ 23 < win then .error (.err eWindow)
      else .ok { len := len, win := win, fcs := fcs, sum := x.testBit 2 }

/-- The blocks of a frame: the blocks, the position after them, and its output when it ends (newest first). -/
def zBlocks (final : Bool) (h : ZHead) : Nat → Bytes → Nat → ZState → Bytes → Nat → List CBlock × Nat × Option (Bytes × Nat)
  | 0, _, pos, _, _, _ => ([], pos, none)
  | k + 1, b, pos, z, o, total =>
    let short : List CBlock × Nat × Option (Bytes × Nat) :=
      (if final then [{ i0 := pos, i1 := pos + b.length, code := eLen, ends := true }] else [], pos, none)
    let stop (c : Code) (out : Bytes) : List CBlock × Nat × Option (Bytes × Nat) :=
      ([{ i0 := pos, i1 := pos + b.length, out := out, spoil := true, code := c, ends := true }], pos, none)
    if b.length < 3 then short
    else
      let x := numAt b 0 3
      let size := x / 8
      let maxB := 131072
      let ty := x / 2 % 4
      let need := 3 + (if ty = 1 then 1 else size)
      if ty = 3 then stop eFormat []
      else if maxB < size then stop eLen []
      else if b.length < need then short
      else
        let body := (b.drop 3).take (need - 3)
        let (o', made, z, code) :=
          if ty = 0 then (body.reverse ++ o, size, z, (0 : Code))
          else if ty = 1 then (List.replicate size (body.headD 0) ++ o, size, z, 0)
          else zBlock h.win maxB z o total body
        let out := (o'.take made).reverse
        if code ≠ 0 then stop code out
        else
          let blk : CBlock := { i0 := pos, i1 := pos + need, out := out }
          if x % 2 = 1 then ([blk], pos + need, some (o', total + made))
          else
            let (bs, p, e) := zBlocks final h k (b.drop need) (pos + need) z o' (total + made)
            (blk :: bs, p, e)

/-- Frames one after another, skippable ones skipped (R378). -/
def zstdDecode (final : Bool) (wlog : Nat) : Nat → Bytes → Nat → Decoded
  | 0, _, pos => { used := pos }
  | k + 1, b, pos =>
    if b.isEmpty then { used := pos, boundary := true }
    else if b.length < 4 then headStop final pos b.length .more
    else
      let magic := numAt b 0 4
      if magic / 16 = 0x184D2A5 then
        (if b.length < 8 || b.length < 8 + numAt b 4 4 then headStop final pos b.length .more
         else zstdDecode final wlog k (b.drop (8 + numAt b 4 4)) (pos + 8 + numAt b 4 4))
      else if magic ≠ 0xFD2FB528 then headStop final pos b.length (.err eFormat)
      else match zHead wlog (b.drop 4) with
        | .error e => headStop final pos b.length e
        | .ok h =>
          let p0 := pos + 4 + h.len
          let (bs, p, e) := zBlocks final h (b.length + 1) (b.drop (4 + h.len)) p0 {} [] 0
          match e with
          | none => { blocks := bs, used := p, boundary := false }
          | some (o, total) =>
            let rest := b.drop (p - pos)
            let lenBad := match h.fcs with | some n => n != total | none => false
            if lenBad then { blocks := bs ++ [{ i0 := p, i1 := p, code := eLen, ends := true }], used := p, boundary := false }
            else if h.sum && rest.length < 4 then
              { blocks := bs ++ (if final then [{ i0 := p, i1 := p + rest.length, code := eLen, ends := true }] else []), used := p, boundary := false }
            else
              let q := if h.sum then p + 4 else p
              let ok := !h.sum || numAt rest 0 4 == xxh64 0 o.reverse % 2 ^ 32
              let chk : List CBlock := if ok then [] else [{ i0 := p, i1 := q, code := eCheck, tailTaint := true }]
              let r := zstdDecode final wlog k (b.drop (q - pos)) q
              { r with blocks := bs ++ chk ++ r.blocks }

end Sys2Proof.Machine
end

