-- ==== Sys2Proof/Machine/Codec.lean ====
section
/-! DEFINITION. The codec lanes (spec/12_codec_lanes.md): job records, lanes and how stages take them, compression into each format,
decompression and its errors, output chains, state records, saves and the loss of a lane. -/

namespace Sys2Proof.Machine

/-! ## The job record (R368, R369) -/

def cOp (d : Bytes) : Nat := fld (wordAt d 0) 63 56
def cFmt (d : Bytes) : Nat := fld (wordAt d 0) 55 52
def cLevel (d : Bytes) : Nat := fld (wordAt d 0) 51 48
def cFirst (d : Bytes) : Bool := bitOf (wordAt d 0) 47
def cFinal (d : Bytes) : Bool := bitOf (wordAt d 0) 46
def cXp (d : Bytes) : Bool := bitOf (wordAt d 0) 45
def cIndep (d : Bytes) : Bool := bitOf (wordAt d 0) 44
def cWlogF (d : Bytes) : Nat := fld (wordAt d 0) 43 39
def cState (d : Bytes) : Nat := fld (wordAt d 8) 47 0
def cChain (d : Bytes) : Nat := fld (wordAt d 16) 47 0
def cDepth (d : Bytes) : Nat := fld (wordAt d 40) 12 0
def cNice (d : Bytes) : Nat := fld (wordAt d 40) 25 13
def cLazy (d : Bytes) : Nat := fld (wordAt d 40) 27 26
def cMinm (d : Bytes) : Nat := fld (wordAt d 40) 30 28

/-- The window log in force (R369). -/
def cWlog (d : Bytes) : Nat :=
  if cWlogF d != 0 then cWlogF d
  else if cOp d = 2 then 23
  else if cLevel d ≤ 3 then 20 else if cLevel d ≤ 8 then 22 else 23

/-- The history of a format, W (R386). -/
def cWindow (d : Bytes) : Nat := match cFmt d with | 0 => 262144 | 1 => 2 ^ cWlog d | _ => 32768

/-- The search parameters of a level (R375): DEPTH, NICE, LAZY, MINM. -/
def levelParams (l : Nat) : List Nat :=
  match l with
  | 1 => [1, 32, 0, 5]
  | 2 => [2, 32, 0, 5]
  | 3 => [4, 32, 0, 5]
  | 4 => [8, 64, 1, 4]
  | 5 => [16, 64, 1, 4]
  | 6 => [32, 64, 1, 4]
  | 7 => [64, 128, 1, 4]
  | 8 => [128, 128, 1, 4]
  | 9 => [256, 258, 2, 3]
  | 10 => [512, 258, 2, 3]
  | 11 => [1024, 258, 2, 3]
  | 12 => [4096, 258, 2, 3]
  | _ => []

/-- The search parameters of a job (R376). -/
def cParams (d : Bytes) : List Nat := if cXp d then [cDepth d, cNice d, cLazy d, cMinm d] else levelParams (cLevel d)

/-- What a search found is a parse of the input: literals, and matches of at least MINM bytes that lie in the history. -/
def parseOk (minm : Nat) (all : Bytes) : Nat → List (Nat × Nat × Nat) → Bool
  | at_, [] => at_ == all.length
  | at_, (lit, len, dist) :: r =>
    let m := at_ + lit
    (if len = 0 then r.isEmpty && m == all.length
     else minm ≤ len && 1 ≤ dist && dist ≤ m && m + len ≤ all.length && (List.range len).all (fun i => all.getD (m + i) 0 == all.getD (m + i - dist) 0)) &&
    parseOk minm all (m + len) r

/-- The search of a deep lane, the same for Zstandard and the Deflate family (R375): a parse of the input, all literals where none is found. -/
def searchOf (d hist b : Bytes) : List (Nat × Nat × Nat) :=
  let l := Config.matchSearch (cParams d) hist b
  if parseOk ((cParams d).getD 3 0) (hist ++ b) hist.length l then l else [(b.length, 0, 0)]

/-- The job record is accepted on a lane of a kind (R368, R369). -/
def cdOk (deep expert last noDst : Bool) (d : Bytes) : Bool :=
  let w := fun i => wordAt d (8 * i)
  let op := cOp d
  let fmt := cFmt d
  d.length == 64 && (op == 1 || op == 2) && fmt ≤ 4 && fld (w 0) 38 0 == 0 && fld (w 1) 63 48 == 0 && fld (w 2) 63 48 == 0 && w 3 == 0 && w 4 == 0 &&
  onlyBits (w 5) (msk 30 0) && w 6 == 0 && w 7 == 0 &&
  (deep || (fmt == 0 && cLevel d == 0 && !cXp d)) && (!deep || op == 2 || (1 ≤ cLevel d && cLevel d ≤ 12 && fmt != 0)) && (op == 1 || (cLevel d == 0 && !cXp d)) &&
  (!cIndep d || (op == 1 && fmt == 0)) && (cWlogF d == 0 || (fmt == 1 && 10 ≤ cWlogF d && cWlogF d ≤ 23)) &&
  (if cXp d then expert && 1 ≤ cDepth d && cDepth d ≤ 4096 && 4 ≤ cNice d && cNice d ≤ (if fmt = 1 then 4096 else 258) && cLazy d ≤ 2 && 3 ≤ cMinm d && cMinm d ≤ 7
   else w 5 == 0) &&
  cState d % 64 == 0 && (cState d != 0 || (cFirst d && cFinal d)) && (cChain d == 0 || (last && noDst))

/-! ## State records (R386, R387) -/

/-- The fixed part of a state record but for RCRC; the lane-internal bytes are free. -/
def recFixed (free : Nat) (op fmt status : Nat) (st : CStream) (hval pval : Nat) : Bytes :=
  let head := [BitVec.ofNat 8 (16 * op + fmt), BitVec.ofNat 8 status, st.lastErr, 0, 0, 0, 0, 0] ++ leBytes (partsLen st.inp) 8 ++ leBytes st.outLen 8 ++
    leBytes hval 4 ++ leBytes pval 4 ++ leBytes st.chainEnt 4 ++ leBytes st.chainOff 4
  slice head 0 64 ++ (List.range 444).map (Config.laneInternal free)

/-- With its RCRC. -/
def recWhole (b : Bytes) : Bytes := b ++ leBytes (crc32c 0xFFFFFFFF b) 4

/-- What has been decoded of a stream. -/
def decodeStream (d : Bytes) (final : Bool) (inp : Bytes) : Decoded :=
  match cFmt d with
  | 0 => dbfDecode final inp
  | 1 => zstdDecode final (cWlog d) (inp.length + 1) inp 0
  | 2 => deflateDecode final false inp
  | 3 => deflateDecode final true inp
  | _ => gzipDecode final (inp.length + 1) inp 0

/-- The pending bytes and the history bytes that a stream leaves. -/
def streamRest (d : Bytes) (st : CStream) : Bytes × Bytes :=
  let inp := st.inp.flatMap (·.1)
  if cOp d = 1 then ([], inp.drop (inp.length - min inp.length (cWindow d)))
  else
    let r := decodeStream d false inp
    let out := blocksOut r.blocks
    ((inp.drop r.used).take 131072, out.drop (out.length - min out.length (cWindow d)))

/-- Writes a state record and notes the stream that it stands for. -/
def writeState (ag : Agent) (d : Bytes) (status : Nat) (st : CStream) : M Unit := do
  let s ← get
  let (f, s) := freshFree s
  set s
  let (pend, hist) := streamRest d st
  let b := recWhole (recFixed f (cOp d) (cFmt d) status st hist.length pend.length)
  writeVa ag (cState d) b false
  writeVa ag (cState d + 0x200) pend false
  let w := cWindow d
  let pos := (partsLen st.inp + (if cOp d = 1 then 0 else st.outLen)) % w
  let start := (pos + w - hist.length) % w
  let first := min hist.length (w - start)
  writeVa ag (cState d + 0x20200 + start) (hist.take first) false
  writeVa ag (cState d + 0x20200) (hist.drop first) false
  tell (fun s => uCtx s ag.ctx (fun c => { c with streams := c.streams.filter (fun e => e.1 != b) ++ [(b, st)] }))

/-- A leaf of a context in a range names a cluster window (R369: STATE may not). -/
def inWindow (s : State) (n va len : Nat) : Bool :=
  (cut 65536 va len).any (fun p => match walk s n p.1 with
    | .leaf level _ e => (windowOf (localOf (leafPa level e p.1))).isSome
    | .bad _ => false)

/-- The stream that a job goes on with: the empty one, or that of its record (R369, R386, R387). `saved` for a stage that a switch
stopped. -/
def loadState (ag : Agent) (d : Bytes) (saved : Bool) : M CStream := do
  let s ← get
  if cState d != 0 && inWindow s ag.ctx (cState d) (0x20200 + cWindow d) then throw (.code eRange)
  if cFirst d then return {}
  let (b, _) ← readVa ag (cState d) 512
  let status := (b.getD 1 0).toNat
  if status != (if saved then 2 else 1) || (b.getD 0 0).toNat != 16 * cOp d + cFmt d then throw (.code eRange)
  if leBytes (crc32c 0xFFFFFFFF (b.take 508)) 4 != b.drop 508 then throw (.code eFormat)
  let s ← get
  match (gCtx s ag.ctx).streams.find? (fun e => e.1 == b) with
  | some (_, st) => return st
  | none => throw (.code eFormat)

/-! ## Compression (R370 to R373, R377, R379) -/

/-- A stream of output with the taint of each run. -/
structure COut where
  out : List (Bytes × Bool) := []
  st : CStream := {}
  raw : Nat := 0

/-- Cuts input into blocks: at `size` bytes, and at the ends of the pieces given. -/
def cutBlocks (size : Nat) (pieces : List Parts) : List (Bytes × Bool) :=
  pieces.flatMap (fun p =>
    let n := partsLen p
    (List.range (ceilDiv n size)).map (fun i => partsRead p (size * i) (min size (n - size * i))))

/-- One DBF block (R371, R373): the compressed payload when it restores the block and is short enough, else raw. -/
def dbfBlock (hist : Bytes) (reset : Bool) (b : Bytes) : Bytes × Bool :=
  let n := b.length
  let h := if reset then [] else hist
  let c := Config.dbfPass h.reverse b
  let (o, made, e) := dbfSeqs n h.length (c.length + 1) c h 0
  let ok := !c.isEmpty && e == 0 && made == n && (o.take n).reverse == b && decide (c.length + ceilDiv n 64 ≤ n)
  let pay := if ok then c else b
  let w0 := place pay.length 63 32 ||| place (b2n reset) 18 18 ||| place (b2n (!ok)) 17 17 ||| place n 16 0
  (wordBytes w0 ++ wordBytes (place (crc32c 0xFFFFFFFF b) 31 0) ++ pay, !ok)

/-- DBF compression of a job's blocks. -/
def dbfCompress (d : Bytes) (st : CStream) (blocks : List (Bytes × Bool)) : COut :=
  let start := partsLen st.inp
  let head : List (Bytes × Bool) := if cFirst d then [(wordBytes (0x131464244 : Word) ++ wordBytes 0, false)] else []
  let (out, inp, raw) := blocks.foldl (fun (acc : List (Bytes × Bool) × List (Bytes × Bool) × Nat) b =>
    let (out, inp, raw) := acc
    let all := inp.flatMap (·.1)
    let reset := cIndep d || all.isEmpty
    let (x, r) := dbfBlock (all.drop (all.length - min all.length 262144)).reverse reset b.1
    (out ++ [(x, b.2)], inp ++ [b], raw + b2n r)) ([], st.inp, 0)
  let all := inp.flatMap (·.1)
  let tail : List (Bytes × Bool) :=
    if cFinal d then [(wordBytes (place all.length 63 20 ||| place 1 19 19) ++ wordBytes (place (crc32c 0xFFFFFFFF all) 31 0), false)] else []
  let out := head ++ out ++ tail
  { out := out, st := { st with inp := inp, outLen := st.outLen + partsLen out, blocks := st.blocks + start * 0 }, raw := raw }

/-- The header of a Zstandard frame (R377). -/
def zstdHead (d : Bytes) (stage0 : Bool) (n : Nat) : Bytes :=
  let sized := cFirst d && cFinal d && stage0
  let single := sized && decide (n ≤ 2 ^ cWlog d)
  let fc : Nat := if !sized then 0 else if n < 256 && single then 0 else if 256 ≤ n && n < 65792 then 1 else if n < 2 ^ 32 then 2 else 3
  let fcs : Bytes := if !sized then [] else match fc with | 0 => leBytes n 1 | 1 => leBytes (n - 256) 2 | 2 => leBytes n 4 | _ => leBytes n 8
  leBytes 0xFD2FB528 4 ++ [BitVec.ofNat 8 (64 * fc + 32 * b2n single + 4)] ++ (if single then [] else [BitVec.ofNat 8 (8 * (cWlog d - 10))]) ++ fcs

/-- One block of a frame: what the search found, when the frame up to it decodes to the input so far and the block is no longer than
its Raw form; else Raw. -/
def zstdBlock (d : Bytes) (made hist b : Bytes) (last : Bool) : Bytes :=
  let c := Config.blockCode 1 (searchOf d (hist.drop (hist.length - min hist.length (2 ^ cWlog d))) b) b made
  let ty := if (c.headD 0).toNat % 2 = 0 then 2 else 1
  let body := c.drop 1
  let blk := leBytes (b2n last + 2 * ty + 8 * (if ty = 1 then b.length else body.length)) 3 ++ body
  let open_ := leBytes (2 * ty + 8 * (if ty = 1 then b.length else body.length)) 3 ++ body
  let r := zstdDecode false 23 (made.length + 2) (made ++ open_) 0
  let ok := decide (body.length ≤ b.length) && (ty != 1 || body.length == 1) && !b.isEmpty && !r.blocks.any (fun x => x.code != 0) && r.used == made.length + open_.length &&
    blocksOut r.blocks == hist ++ b
  if ok then blk else leBytes (b2n last + 8 * b.length) 3 ++ b

/-- Zstandard compression of a job's blocks; `made` keeps the frame as it would go on, with no block marked last. -/
def zstdCompress (d : Bytes) (stage0 : Bool) (st : CStream) (blocks : List (Bytes × Bool)) : COut :=
  let n := blocks.foldl (fun a b => a + b.1.length) 0
  let head := if cFirst d then zstdHead d stage0 n else []
  let blocks := if cFinal d && blocks.isEmpty then [([], false)] else blocks
  let (out, inp, made, _) := blocks.foldl (fun (acc : List (Bytes × Bool) × List (Bytes × Bool) × Bytes × Nat) b =>
    let (out, inp, made, i) := acc
    let last := cFinal d && i + 1 == blocks.length
    let x := zstdBlock d made (inp.flatMap (·.1)) b.1 last
    let open_ := match x with | h :: r => (h &&& 0xFE) :: r | [] => []
    (out ++ [(x, b.2)], inp ++ [b], made ++ open_, i + 1)) ([], st.inp, st.made ++ head, 0)
  let tail : List (Bytes × Bool) := if cFinal d then [(leBytes (xxh64 0 (inp.flatMap (·.1)) % 2 ^ 32) 4, false)] else []
  let out := (if head.isEmpty then [] else [(head, false)]) ++ out ++ tail
  { out := out, st := { st with inp := inp, made := made, outLen := st.outLen + partsLen out } }

/-- A stored Deflate block at a bit position, as bits: number and count (R379). -/
def storedBits (pos : Nat) (last : Bool) (b : Bytes) : Nat × Nat :=
  let pad := (8 - (pos + 3) % 8) % 8
  let k := 3 + pad
  (b2n last + (b.length + 65536 * (65535 - b.length)) * 2 ^ k + ofLe b * 2 ^ (k + 32), k + 32 + 8 * b.length)

/-- One Deflate block, as bits after the stream's bits so far: what is coded from the search when it is one block that decodes to the
input and a stored block is not shorter, else stored. `n`, `len`: the stream's bits. -/
def deflateBlock (d : Bytes) (n len : Nat) (hist b : Bytes) (last : Bool) : Nat × Nat :=
  let (sn, sl) := storedBits len last b
  let c := Config.blockCode 2 (searchOf d (hist.drop (hist.length - min hist.length 32768)) b) b (leBytes n ((len + 7) / 8))
  let cl := 8 * (c.length - 1) - (c.headD 0).toNat % 8
  let cn := ofLe (c.drop 1) % 2 ^ cl / 2 * 2
  let all := n + cn * 2 ^ len
  let (bs, p, done) := inflateBlocks false all (len + cl) 0 (len + cl + 1) len hist.reverse hist.length
  let ok := decide (cl ≤ sl) && !done && p == len + cl && bs.length == 1 && !bs.any (fun x => x.code != 0) && blocksOut bs == b
  if ok then (cn + b2n last, cl) else (sn, sl)

/-- The header of a Deflate-family stream (R379). -/
def deflateHead (d : Bytes) : Bytes :=
  let l := cLevel d
  match cFmt d with
  | 3 => [0x78, if l ≤ 3 then 0x01 else if l ≤ 5 then 0x5E else if l ≤ 8 then 0x9C else 0xDA]
  | 4 => [0x1F, 0x8B, 8, 0, 0, 0, 0, 0, if l ≤ 3 then 4 else if 9 ≤ l then 2 else 0, 255]
  | _ => []

/-- Deflate compression of a job's blocks. `bits`, `nbits` hold the body's bits so far with no block final. -/
def deflateCompress (d : Bytes) (st : CStream) (blocks : List (Bytes × Bool)) : COut :=
  let head := if cFirst d then deflateHead d else []
  let blocks := if cFinal d && blocks.isEmpty then [([], false)] else blocks
  let (runs, inp, n, len, fin) := blocks.foldl (fun (acc : List (Bytes × Bool) × List (Bytes × Bool) × Nat × Nat × Nat) b =>
    let (runs, inp, n, len, i) := acc
    let last := cFinal d && i + 1 == blocks.length
    let (x, k) := deflateBlock d n len (inp.flatMap (·.1)) b.1 last
    let from_ := len / 8
    let all := n + x * 2 ^ len
    let stop := if last then (len + k + 7) / 8 else (len + k) / 8
    (runs ++ [(leBytes (all / 2 ^ (8 * from_)) (stop - from_), b.2)], inp ++ [b], n + x / 2 * 2 * 2 ^ len, len + k, i + 1)) ([], st.inp, st.bits, st.nbits, 0)
  let all := inp.flatMap (·.1)
  let tail : Bytes := if cFinal d then (match cFmt d with
    | 3 => beBytes (adler32 all) 4
    | 4 => leBytes (crc32 all) 4 ++ leBytes (all.length % 2 ^ 32) 4
    | _ => []) else []
  let out := [(head, false)] ++ runs ++ [(tail, false)]
  { out := out.filter (fun p => !p.1.isEmpty), st := { st with inp := inp, bits := n, nbits := len, outLen := st.outLen + partsLen out, blocks := fin * 0 } }

/-! ## Decompression (R374, R378, R380, R383, R384) -/

/-- What a decompress job hands on: each block's runs with their taints, the codes met, and the code that ends it. -/
structure DOut where
  out : List Parts := []
  codes : List Code := []
  endCode : Code := 0
  st : CStream := {}

/-- Bytes of a stream from an offset on are tainted. -/
def taintFrom (p : Parts) (k : Nat) : Parts := (partsSplit p k).1 ++ (partsSplit p k).2.map (fun x => (x.1, true))

/-- The last granule of the output is tainted: granules count from the output's first byte, or, where blocks start at berths (R373), from the
block's. -/
def taintLast (atBerths : Bool) (l : List Parts) : List Parts :=
  let total := l.foldl (fun a p => a + partsLen p) 0
  let before := total - partsLen (l.getLast?.getD [])
  let start := if atBerths then before + (partsLen (l.getLast?.getD []) - 1) / 64 * 64 else (total - 1) / 64 * 64
  (l.foldl (fun (acc : List Parts × Nat) p =>
    (acc.1 ++ [if acc.2 + partsLen p ≤ start then p else taintFrom p (start - acc.2)], acc.2 + partsLen p)) ([], 0)).1

/-- The decoder's blocks, one after another: a code after which decoding goes on is kept in `codes`, one that ends it in `endCode`;
`st.blocks` counts the blocks that need not be decoded again. -/
def foldBlocks (atBerths : Bool) (inp : Parts) : List CBlock → DOut → DOut
  | [], acc => acc
  | b :: r, acc =>
    let t := b.spoil || (partsRead inp b.i0 (b.i1 - b.i0)).2
    let out := if b.out.isEmpty then acc.out else acc.out ++ [[(b.out, t)]]
    let out := if b.tailTaint then taintLast atBerths out else out
    let codes := if b.code = 0 then acc.codes else acc.codes ++ [b.code]
    foldBlocks atBerths inp r (if b.ends then { acc with out := out, codes := codes, endCode := b.code }
      else { acc with out := out, codes := codes, st := { acc.st with blocks := acc.st.blocks + 1 } })

def decompress (d : Bytes) (atBerths : Bool) (st : CStream) (input : Parts) : DOut :=
  let inp := st.inp ++ input
  let r := decodeStream d (cFinal d) (inp.flatMap (·.1))
  let o := foldBlocks atBerths inp (r.blocks.drop st.blocks) { st := st }
  { o with st := { o.st with inp := inp, outLen := st.outLen + partsLen (o.out.flatMap id), lastErr := o.codes.getLast?.getD st.lastErr } }

/-! ## CD_ (R391) -/

/-- Adds to the four statistics counters: CIN, COUT, DOUT, RAW. -/
def countCd (s : State) (n cin cout dout raw : Nat) : State :=
  let c := (gCtx s n).cd
  let b0 := c.sat.getLsbD 0
  let b1 := c.sat.getLsbD 1
  let b2 := c.sat.getLsbD 2
  let b3 := c.sat.getLsbD 3
  let n0 := b0 || sat64 c.cin cin
  let n1 := b1 || sat64 c.cout cout
  let n2 := b2 || sat64 c.dout dout
  let n3 := b3 || sat64 c.raw raw
  let s := uCtx s n (fun x => { x with cd := { x.cd with
    cin := bump64 c.cin cin, cout := bump64 c.cout cout, dout := bump64 c.dout dout, raw := bump64 c.raw raw
    sat := BitVec.ofNat 4 (b2n n0 + 2 * b2n n1 + 4 * b2n n2 + 8 * b2n n3) } })
  let base := 0x12000 + n * 0x40
  let s := satNotice s n b0 n0 base 0
  let s := satNotice s n b1 n1 (base + 8) 0
  let s := satNotice s n b2 n2 (base + 0x10) 0
  satNotice s n b3 n3 (base + 0x18) 0

/-- Counts a codec error. -/
def countCode (s : State) (n : Nat) (c : Code) : State :=
  if c = 0 then s
  else uCtx s n (fun x => { x with cd :=
    let d := { x.cd with err := c }
    if c = eCode then { d with code := bump16 d.code 1 }
    else if c = eDist then { d with dist := bump16 d.dist 1 }
    else if c = eLen then { d with len := bump16 d.len 1 }
    else if c = eCheck then { d with check := bump16 d.check 1 }
    else if c = eWindow then { d with window := bump16 d.window 1 }
    else if c = eFormat then { d with format := bump16 d.format 1 }
    else if c = eChain then { d with chain := bump16 d.chain 1 }
    else d })

/-- Counts tainted output granules. -/
def countCdTaint (s : State) (n k : Nat) : State := uCtx s n (fun x => { x with cd := { x.cd with taint := bump16 x.cd.taint k } })

/-! ## Output chains (R385) -/

/-- The buffers of a chain: index of the entry, address, length. `ent` counts entries from entry 0 on, links included. -/
def chainWalk (ag : Agent) : Nat → Nat → Nat → Nat → M (List (Nat × Nat × Nat))
  | 0, _, _, _ => pure []
  | k + 1, va, ent, need => do
    if need = 0 then return []
    let (b, _) ← readVa ag va 16
    let w0 := wordAt b 0
    let w1 := wordAt b 8
    if fld w0 62 48 != 0 || fld w1 63 32 != 0 then throw (.code eRange)
    let a := fld w0 47 0
    if a = 0 then return []
    if bitOf w0 63 then chainWalk ag k a (ent + 1) need
    else
      let len := fld w1 31 0
      if len = 0 then throw (.code eRange)
      let rest ← chainWalk ag k (va + 16) (ent + 1) (need - min need len)
      return (ent, a, len) :: rest

/-- Writes output into a chain: the pieces written, the entry and offset at which it stopped, and whether it ran out. -/
def chainWrite (ag : Agent) (table : Nat) (out : Parts) : M (Parts × Nat × Nat × Bool) := do
  let total := partsLen out
  let bufs ← chainWalk ag (total + 4096) table 0 total
  let (ps, done, ent, off) ← bufs.foldlM (fun (acc : Parts × Nat × Nat × Nat) (e : Nat × Nat × Nat) => do
    let (ps, done, _, _) := acc
    let k := min e.2.2 (total - done)
    let w := (cut 64 e.2.1 k).map (fun p => partsRead out (done + (p.1 - e.2.1)) p.2)
    writeParts ag e.2.1 w
    return (ps ++ w, done + k, e.1, k)) (([], 0, 0, 0) : Parts × Nat × Nat × Nat)
  return (ps, ent, off, decide (done < total))

/-! ## Lanes (R364, R367, R388, R389) -/

def laneDeep (l : Nat) : Bool := decide (16 ≤ l)

/-- The lane as an agent (R191): AGENT 5, DETAIL its number. -/
def laneAgent (f : Flight) (k l : Nat) : Agent :=
  ownerAgent { id := f.id + (k + 1) * 2 ^ 64, ctx := f.ctx, kind := 5, cluster := f.cl, detail := BitVec.ofNat 64 l, cls := fClass f.hdr } f.owner

/-- A lane that a stage may take. -/
def laneFree (l : Lane) : Bool := l.ctx.isNone && !l.saving && !l.fenced && !l.fenceDue

/-- Lanes of a kind that a context holds. -/
def lanesHeld (s : State) (n : Nat) (deep : Bool) : Nat := (s.lanes.filter (fun e => laneDeep e.1 == deep && e.2.ctx == some n && !e.2.saving)).length

/-- The lowest free lane of a kind. -/
def lowLane (s : State) (deep : Bool) : Option Nat := (if deep then rangeFrom 16 8 else List.range 16).find? (fun l => laneFree (gLane s l))

/-- Releases a lane. -/
def releaseLane (s : State) (f : Flight) (k l fmt : Nat) : State :=
  let s := uLane s l (fun x => { x with ctx := none, flight := 0, stage := 0 })
  let s := uStage s f.id k (fun st => { st with lane := none })
  tjCodec s f.ctx l 5 fmt 0 0 0

/-- A stage ends its flight with a code and releases its lane. -/
def failStage (s : State) (f : Flight) (k l fmt : Nat) (code : Code) : State :=
  let s := countCode s f.ctx code
  let s := flightErr s f.id k code
  let s := uCtx s f.ctx (fun c => { c with cd := { c.cd with err := code } })
  let s := tjCodec s f.ctx l 2 fmt code 0 0
  refreshWait (releaseLane s f k l fmt)

/-- Reads and checks the job and its state record (R369). -/
def checkJob (ag : Agent) (f : Flight) (k l : Nat) (st : Stage) : M (Bytes × CStream) := do
  if stCmd st.rec_ % 64 != 0 then throw (.code eRange)
  let (d, _) ← readVa ag (stCmd st.rec_) 64
  let s ← get
  let last := k + 1 == f.stages.length
  if !cdOk (laneDeep l) (isExpert s f.ctx) last (bDst f.hdr == 0 && fDstMax f.hdr == 0) d then throw (.code eRange)
  let c ← loadState ag d st.saved
  return (d, c)

/-- A stage that holds a lane reads its job record, and its state record, when it has not (R369, R388). -/
def takeJob (s : State) (f : Flight) (k l : Nat) (st : Stage) : State :=
  runOp s (laneAgent f k l) (checkJob (laneAgent f k l) f k l st)
    (fun (d, c) s =>
      let s := uStage s f.id k (fun x => { x with cmd := some d, job := some c })
      let s := tjCodec s f.ctx l 0 (cFmt d) 0 0 0
      if st.saved then tjCodec s f.ctx l 4 (cFmt d) 0 0 0 else s)
    (fun c s => failStage s f k l 0 c)

/-- The input barges of the flights whose stage 0 is a codec stage run, so that its first berth arrives (R237, R238). -/
def pumpCodecs (s : State) : State :=
  s.flights.foldl (fun s f =>
    if f.active && holds s f.ctx && f.err.isNone && (match f.stages.head? with | some st => 5 ≤ stUnit st.rec_ | none => false) then pumpIn f.id (fSrcLen f.hdr + 2) s
    else s) s

/-- CODEC_LANE_TAKE (R367): the first waiting stage of the kind takes the lowest free lane, unless its context is at its cap. -/
def execCodecLaneTake (deep : Bool) (s : State) : Ans :=
  let s := refreshWait (pumpCodecs s)
  let want (w : Nat × Nat) : Bool :=
    match flightOf s w.1 with
    | some f => holds s f.ctx && (match f.stages[w.2]? with | some st => stUnit st.rec_ == (if deep then 6 else 5) | none => false) &&
        decide (lanesHeld s f.ctx deep < (if deep then (manOf s f.ctx).deepMax else (manOf s f.ctx).fastMax))
    | none => false
  match s.codecWait.find? want, lowLane s deep with
  | some (fid, k), some l =>
    match flightOf s fid with
    | none => .next s
    | some f =>
      match f.stages[k]? with
      | none => .next s
      | some st =>
        let (i, s) := freshFree s
        let s := countStall s f.ctx (Config.waitCycles i)
        let s := uLane s l (fun x => { x with ctx := some f.ctx, flight := fid, stage := k })
        let s := refreshWait (uStage s fid k (fun x => { x with lane := some l }))
        .next (takeJob s f k l st)
  | _, _ => .next s

/-- What a job produces: output in pieces, each of which starts a berth where blocks do, stream, codes, ending code, blocks stored raw. -/
structure JobOut where
  pieces : List Parts
  st : CStream
  codes : List Code
  endCode : Code
  raw : Nat

/-- Inside a flight each DBF block that is decompressed starts a berth (R373). -/
def blockBerths (d : Bytes) (inside : Bool) : Bool := cOp d == 2 && cFmt d == 0 && inside

/-- Compresses or decompresses a job's input. `inside`: the flight has other stages. -/
def runJob (d : Bytes) (stage0 inside : Bool) (st : CStream) (berths : List Chunk) : JobOut :=
  let inp := berthParts berths
  let pieces : List Parts := if cFmt d = 0 && inside then berths.map (·.lines) else [inp]
  if cOp d = 1 then
    let r := match cFmt d with
      | 0 => dbfCompress d st (cutBlocks 65536 pieces)
      | 1 => zstdCompress d stage0 st (cutBlocks 131072 pieces)
      | _ => deflateCompress d st (cutBlocks 65535 pieces)
    { pieces := [r.out], st := r.st, codes := [], endCode := 0, raw := r.raw }
  else
    let r := decompress d (blockBerths d inside) st inp
    { pieces := r.out, st := r.st, codes := r.codes, endCode := r.endCode, raw := 0 }

/-- The output of a job as one stream. -/
def JobOut.out (r : JobOut) : Parts := r.pieces.flatMap id

/-- The berths of a job's output (R373). -/
def jobBerths (d : Bytes) (inside : Bool) (size : Nat) (r : JobOut) : List Chunk :=
  if blockBerths d inside then r.pieces.flatMap (berthsOf size) else berthsOf size r.out

/-- A lane takes every berth that its stage was given, and the end marker. -/
def laneTake (l fid k : Nat) : Nat → State → State
  | 0, s => s
  | n + 1, s =>
    match flightOf s fid with
    | none => s
    | some f =>
      match f.stages[k]? with
      | none => s
      | some st =>
        if st.inEnd || f.err.isSome then s
        else
          let s' := takeBerth s f.cl 7 f k (laneAgent f k l)
          if (flightOf s' fid).bind (fun f => f.stages[k]?) = some st then s' else laneTake l fid k n s'

/-- A lane hands on every berth of its output that its ring has room for; behind the last one comes the end marker, and the lane is
released (R238). -/
def lanePut (l fid k : Nat) : Nat → State → State
  | 0, s => s
  | n + 1, s =>
    match flightOf s fid with
    | none => s
    | some f =>
      match f.stages[k]? with
      | none => s
      | some st =>
        if !st.done then s
        else if st.queue.isEmpty then
          refreshWait (releaseLane (uStage s fid k (fun x => { x with ring := { x.ring with ended := true } })) f k l (cFmt (st.cmd.getD [])))
        else
          let s' := putBerth s f.cl 7 f k st (laneAgent f k l)
          if (flightOf s' fid).bind (fun f => f.stages[k]?) = some st then s' else lanePut l fid k n s'

/-- The job is done: counters, trace, its output and its codes. -/
def jobDone (s : State) (f : Flight) (k l : Nat) (d : Bytes) (nin : Nat) (r : JobOut) (out : List Chunk) (code : Code) (more : List Code) : State :=
  let n := f.ctx
  let nout := partsLen r.out
  let s := if cOp d = 1 then countCd s n nin nout 0 r.raw else countCd s n 0 0 nout 0
  let s := (r.codes ++ more).foldl (fun s c => tjCodec (countCode s n c) n l 2 (cFmt d) c 0 0) s
  let s := countCdTaint s n (taintedOf (berthParts out))
  let s := tjCodec s n l 1 (cFmt d) 0 nin nout
  let chain := cChain d != 0
  let s := uStage s f.id k (fun y => { y with queue := if chain then [] else out, done := true, chain := chain, saved := false })
  let s := if chain then
      countBe (uFlight s f.id (fun y => { y with pos := partsLen (berthParts out), tainted := taintedOf (berthParts out) })) n (partsLen (berthParts out)) (taintedOf (berthParts out))
    else s
  if code = 0 then s else flightErr s f.id k code

/-- Runs a job on its whole input: what it writes outside its ring, and what it hands on. -/
def jobRun (ag : Agent) (f : Flight) (k : Nat) (st : Stage) (d : Bytes) (cs : CStream) : M (JobOut × List Chunk × Code × List Code) := do
  let inside := decide (1 < f.stages.length)
  let r := runJob d (k == 0) inside cs st.got
  if cChain d != 0 then
    let (ps, ent, off, ran) ← chainWrite ag (cChain d) r.out
    let cs' := { r.st with chainEnt := ent, chainOff := off, lastErr := if ran then eChain else r.st.lastErr }
    if cState d != 0 then writeState ag d 1 cs'
    return (r, [{ lines := ps }], if ran then lowCode r.endCode eChain else r.endCode, if ran then [eChain] else [])
  else
    if cState d != 0 then writeState ag d 1 r.st
    return (r, jobBerths d inside (berthSize (stShift st.rec_)) r, r.endCode, [])

/-- A job that holds a lane has its whole input: it runs (R366, R373 to R387). -/
def laneRun (s : State) (f : Flight) (k l : Nat) (st : Stage) : State :=
  match st.cmd, st.job with
  | some d, some cs =>
    if !st.inEnd || st.done || f.err.isSome then s
    else
      let ag := laneAgent f k l
      runOp s ag (jobRun ag f k st d cs)
        (fun (r, out, code, more) s => jobDone s f k l d (partsLen (berthParts st.got)) r out code more)
        (fun c s => failStage s f k l 0 c)
  | _, _ => s

/-- A lane that its stage's flight no longer needs is released. -/
def laneIdle (s : State) (f : Flight) (k l : Nat) : State :=
  if f.err.isSome && (gLane s l).ctx == some f.ctx && (gLane s l).flight == f.id && (gLane s l).stage == k then refreshWait (releaseLane s f k l 0) else s

/-- Works on the job that holds a lane, of one OP: the lane takes the berths it was given, computes once its input has ended, and hands its
output on as its ring has room. -/
def codecRun (s : State) (l op : Nat) : State :=
  let x := gLane s l
  match flightOf s x.flight with
  | none => s
  | some f =>
    match f.stages[x.stage]? with
    | none => s
    | some st =>
      let k := x.stage
      let job : Bytes := st.cmd.getD []
      if x.ctx != some f.ctx || x.saving || !f.active || !holds s f.ctx || f.err.isSome || st.ring.ended || st.lane != some l then s
      else if st.cmd.isSome && cOp job != op then s
      else
        let s := if st.job.isNone && !st.done then takeJob s f k l st else s
        let s := laneTake l f.id k turnFuel (if k = 0 then pumpIn f.id (fSrcLen f.hdr + 2) s else s)
        let stageNow (s : State) : Option (Flight × Stage) := (flightOf s f.id).bind (fun f => f.stages[k]?.map (fun st => (f, st)))
        let s := match stageNow s with
          | some (f, st) => if cOp (st.cmd.getD []) = op then laneRun s f k l st else s
          | none => s
        let s := lanePut l f.id k turnFuel s
        let s := match flightOf s f.id with | some f => laneIdle s f k l | none => s
        if k + 1 = f.stages.length then pumpOut f.id (2 * fDstMax f.hdr + 3) s else s

/-- CODEC_COMPRESS. -/
def execCodecCompress (lane : Fin 24) (s : State) : Ans := .next (codecRun s lane.val 1)
/-- CODEC_DECOMPRESS. -/
def execCodecDecompress (lane : Fin 24) (s : State) : Ans := .next (codecRun s lane.val 2)

/-- A lane stops and writes its state with STATUS 2 (R388); its stage waits again. A job that has computed its last byte has written STATUS 1
and only hands its berths on. -/
def saveLane (s : State) (l : Nat) : State :=
  let x := gLane s l
  match x.ctx, flightOf s x.flight with
  | some n, some f =>
    match f.stages[x.stage]? with
    | none => s
    | some st =>
      let k := x.stage
      let ag := { laneAgent f k l with id := 0 }
      let s' := match st.cmd, st.job with
        | some d, some cs => runOp s ag (if cState d != 0 && !st.done then writeState ag d 2 cs else pure ()) (fun _ s => tjCodec s n l 3 (cFmt d) 0 0 0) (fun _ _ => s)
        | _, _ => s
      let s' := { s' with faults := if s'.faults.length = s.faults.length then s'.faults else s.faults }
      uLane (uStage s' f.id k (fun y => { y with lane := none, job := none, saved := st.saved || (st.job.isSome && !st.done) })) l (fun y => { y with saving := true })
  | _, _ => s

/-- CODEC_SAVE_DONE (R388). -/
def execCodecSaveDone (lane : Fin 24) (s : State) : Ans :=
  if (gLane s lane.val).saving then
    .next (refreshWait (uLane s lane.val (fun x => { x with ctx := none, flight := 0, stage := 0, saving := false })))
  else .next s

/-- CODEC_LANE_FAIL (R389, R576): the lane saves, or its job ends with E_UNIT_LOST; it is fenced at the next tick. -/
def execCodecLaneFail (lane : Fin 24) (readable : Bool) (s : State) : Ans :=
  let l := lane.val
  if !isReady s || (gLane s l).fenced then .next s
  else
    let x := gLane s l
    let s := uLane s l (fun x => { x with fenceDue := true })
    match x.ctx, flightOf s x.flight with
    | some _, some f =>
      if x.saving then .next s
      else if readable then .next (saveLane s l)
      else .next (failStage s f x.stage l 0 eUnitLost)
    | _, _ => .next s

end Sys2Proof.Machine
end

