-- ==== Sys2Proof/Machine/Harbor.lean ====
section
/-! DEFINITION. Harbor cores (spec/05_harbor_cores.md): the harbor extension, loads and stores through the VS stage and the
context's page tables, exceptions into VS mode, and the loss of a core. -/

namespace Sys2Proof.Machine

/-- An integer register; x0 is zero. -/
def hReg (t : Hart) (r : BitVec 5) : Word := if r = 0 then 0 else Tab.get 0 t.x r.toNat
def hSet (t : Hart) (r : BitVec 5) (x : Word) : Hart := if r = 0 then t else { t with x := Tab.set 0 t.x r.toNat x }

/-- The identifier under which hart `h` of context `n` waits for a page or for an answer. -/
def hartId (n h : Nat) : Nat := 2 ^ 100 + 16 * n + h

/-- A hart as an agent (R191): AGENT 6, DETAIL its guest program counter. -/
def hartAgent (n h : Nat) (pc : Word) : Agent := { id := hartId n h, ctx := n, kind := 6, hart := h, detail := pc, cls := 1 }

/-- The harbor core that serves hart `h` of the running context: the unfenced cores in ascending order serve the harts that have not
ended, in order (R164, R167, R578). -/
def coreOf (s : State) (h : Nat) : Option Nat :=
  let live (i : Nat) : Bool := (gHart s i).named && !(gHart s i).ended
  if live h then ((List.range 16).filter (fun c => !s.fw.hartFenced.getLsbD c))[((List.range h).filter live).length]? else none

/-- A hart executes: it belongs to the context that holds the pound, is named, has not ended, does not stall in HWAITT, and waits
for no page, and an unfenced core serves it (R156, R159, R164, R167, R578). -/
def hartRuns (s : State) (h : Nat) : Option Nat :=
  match s.rot.holder with
  | none => none
  | some n =>
    let t := gHart s h
    if holds s n && t.named && !t.ended && !t.waiting && !isParked s (hartId n h) && (coreOf s h).isSome then some n else none

/-- The next instruction of a hart, and its trace (R552). -/
def hartNext (s : State) (n h : Nat) : State :=
  let s := uHart s h (fun t => { t with pc := t.pc + 4 })
  tjHartRun s n h (gHart s h).pc

/-- One instruction of a hart that only writes a register. -/
def hartSet (s : State) (h : Nat) (rd : BitVec 5) (v : Nat → State → Word × State) : State :=
  match hartRuns s h with
  | none => s
  | some n =>
    let (x, s) := v n s
    hartNext (uHart s h (fun t => hSet t rd x)) n h

/-- An exception taken in VS mode (R152, R157, R159): RISC-V trap entry, direct for an exception. -/
def hartTrap (s : State) (n h : Nat) (cause tval mtval2 : Word) : State :=
  let s := uHart s h (fun t =>
    let sie := t.sstatus.getLsbD 1
    { t with
      scause := cause, sepc := t.pc, stval := tval, mtval2 := mtval2
      sstatus := (t.sstatus &&& ~~~(place 1 8 8 ||| place 1 5 5 ||| place 1 1 1)) ||| place (b2n (!t.user)) 8 8 ||| place (b2n sie) 5 5
      user := false
      pc := t.stvec &&& ~~~(3 : Word) })
  tjHarbor s n h 1 (gHart s h).pc

/-- R158: the time CSR at the tick that opened the present pound, in units of 10 ns. -/
def timeAtTick (s : State) : Word := s.tick.pound * BitVec.ofNat 64 s.cfg.tickPeriod

/-! ## Submissions (R160, R161) -/

/-- An access names a cluster window of this chip, or an address beyond the 48 bits that a context may name (R154, R155). -/
def hartWindow (s : State) (n acc va len : Nat) : Bool :=
  decide (2 ^ 48 < va + len) || (cut 4096 va len).any (fun p => match xlate s n acc p.1 with
    | .ok x => chipOf x.pa == s.cfg.chipNum && (windowOf (localOf x.pa)).isSome
    | .error _ => false)

/-- A read that a hart's core makes through the context's page tables (R155). -/
def hartRead (ag : Agent) (va len : Nat) : M (Bytes × Bool) := do
  let s ← get
  if hartWindow s ag.ctx accRead va len then throw (.code eRange) else readVa ag va len

/-- A 64-byte aligned piece of a descriptor, read through the context's page tables. -/
def hartFetch (ag : Agent) (va len : Nat) : M (Bytes × Bool) :=
  if va % 64 = 0 then hartRead ag va len else throw (.code eRange)

/-- A submission of a hart: `fetch` reads the descriptor, `check` names the error, `put` submits it. A hart with 64 outstanding gets
E_BUSY, or the lower code that the submission has besides (R161, R567), and nothing else happens. -/
def hartSubmit {α : Type} (s : State) (h : Nat) (rd : BitVec 5) (early : Nat → State → Code) (fetch : Agent → M α)
    (check : Nat → α → State → Code) (put : Nat → α → State → State) : State :=
  match hartRuns s h with
  | none => s
  | some n =>
    let ag := hartAgent n h (gHart s h).pc
    let answer (c : Code) (s : State) : State := hartNext (uHart s h (fun t => hSet t rd (BitVec.ofNat 64 c.toNat))) n h
    if 64 ≤ (gHart s h).out then
      let c := match fetch ag { s with racc := 0 } with
        | .ok d s' => check n d s'
        | .error (.code c) _ => c
        | .error _ _ => 0
      answer (lowCode eBusy (lowCode (early n s) c)) s
    else
      runOp s ag (fetch ag)
        (fun d s' =>
          let c := lowCode (early n s) (check n d s')
          if c != 0 then answer c s'
          else answer 0 (put n d (uHart { s' with rot := { s'.rot with poundStarted := true } } h (fun t => { t with out := t.out + 1 }))))
        (fun c s => answer (lowCode (early n s) c) s)

/-- HTICK (R159). -/
def execHtick (h : Fin 16) (rd : BitVec 5) (s : State) : Ans := .next (hartSet s h.val rd (fun _ s => (s.tick.pound, s)))

/-- HTREM (R159): nanoseconds are a free value, at most the period. -/
def execHtrem (h : Fin 16) (rd : BitVec 5) (s : State) : Ans :=
  .next (hartSet s h.val rd (fun _ s => let (i, s) := freshFree s; (BitVec.ofNat 64 (Config.remainNs i % (10 * s.cfg.tickPeriod + 1)), s)))

/-- HPOLL (R159). -/
def execHpoll (h : Fin 16) (rd : BitVec 5) (s : State) : Ans :=
  .next (hartSet s h.val rd (fun _ s => (BitVec.ofNat 64 (gHart s h.val).out, s)))

/-- HWAITT (R159): the hart stalls until the next pound of its context begins. -/
def execHwaitt (h : Fin 16) (s : State) : Ans :=
  match hartRuns s h.val with
  | none => .next s
  | some n =>
    let pc := (gHart s h.val).pc
    let s := uHart s h.val (fun t => { t with waiting := true, pc := t.pc + 4 })
    .next (tjHarbor (tjHartRun s n h.val pc) n h.val 3 pc)

/-- HBSUB (R160): to a queue of the I/O tile's barge engine (R208). -/
def execHbsub (h : Fin 16) (rd rs1 rs2 : BitVec 5) (s : State) : Ans :=
  let a := (hReg (gHart s h.val) rs1).toNat
  let q := (hReg (gHart s h.val) rs2).toNat
  .next (hartSubmit s h.val rd (fun _ _ => 0) (fun ag => hartFetch ag a 64)
    (fun n d s => match bargeReject s n q 63 d.1 with
      | some c => c
      | none => if queueRoom s q then 0 else eBusy)
    (fun n d s => enqueueBarge s n q 63 (.hart h.val) d.1))

/-- HFSUB (R160, R239). -/
def execHfsub (h : Fin 16) (rd rs1 rs2 : BitVec 5) (s : State) : Ans :=
  let a := (hReg (gHart s h.val) rs1).toNat
  let c := (hReg (gHart s h.val) rs2).toNat
  .next (hartSubmit s h.val rd
    (fun n s => if 48 ≤ c then eRange else if (manOf s n).clusters ≤ c then eDenied else 0)
    (fun ag => do
      let (hd, _) ← hartFetch ag a 64
      let (rs, _) ← hartFetch ag (a + 64) (32 * (fNlast hd + 1))
      return (hd, (List.range (fNlast hd + 1)).map (fun i => slice rs (32 * i) 32)))
    (fun n d s =>
      if !flightOk s n c d.1 d.2 then eRange
      else if 4 ≤ flightsRun s c && 16 ≤ flightsHeld s c then eBusy else 0)
    (fun n d s => enqueueFlight s n c (.hart h.val) d.1 d.2))

/-- HTSUB (R160, R231). -/
def execHtsub (h : Fin 16) (rd rs1 : BitVec 5) (s : State) : Ans :=
  let a := (hReg (gHart s h.val) rs1).toNat
  .next (hartSubmit s h.val rd (fun _ _ => 0) (fun ag => hartFetch ag a 64)
    (fun _ d _ => if towOk d.1 then 0 else eRange)
    (fun n d s => submitTow s n 63 (.hart h.val) (.ok d)))

/-- The word is of the harbor extension and illegal (R159). -/
def harborIllegal (w : BitVec 32) : Bool :=
  w.toNat % 128 == 0x0B && (w.toNat / 2 ^ 25 != 0 || w.toNat / 2 ^ 12 % 8 == 7)

/-- HARBOR_ILLEGAL_INSTRUCTION (R159): cause 2 in VS mode. -/
def execHarborIllegalInstruction (h : Fin 16) (w : BitVec 32) (s : State) : Ans :=
  match hartRuns s h.val with
  | none => .next s
  | some n => if harborIllegal w then .next (hartTrap s n h.val 2 (BitVec.ofNat 64 w.toNat) 0) else .next s

/-! ## Loads and stores (R155 to R157) -/

/-- The first tainted granule of what a load reads. -/
def taintedAt : Nat → List (Bytes × Bool) → Option Nat
  | _, [] => none
  | a, (b, t) :: r => if t then some (a / 64 * 64) else taintedAt (a + b.length) r

/-- The outcome of the first stage of translation: an exception cause, or the guest physical pieces of an access (R154). -/
abbrev VsAns := Sum Word (List (Nat × Nat))

/-- The levels of a VS-stage table by vsatp's mode: 3 for Sv39, 4 for Sv48, none for bare mode (R154). -/
def vsLevels (satp : Word) : Option Nat :=
  match (satp.extractLsb' 60 4).toNat with
  | 8 => some 3
  | 9 => some 4
  | _ => none

/-- A leaf or pointer of a VS-stage table that no access may use: not valid, writable and not readable, or with a reserved bit or
memory type. -/
def vsBadPte (e : Word) : Bool :=
  !bitOf e 0 || (!bitOf e 1 && bitOf e 2) || fld e 60 54 != 0 || fld e 62 61 == 3

/-- A leaf that permits the access: read (or execute, with MXR) or write, the U bit against the hart's mode and SUM, the A bit and,
for a store, the D bit. PRESUMED: RISC-V's rules, under RVA23S64's Svade. -/
def vsPermits (t : Hart) (store : Bool) (e : Word) : Bool :=
  let mxr := t.sstatus.getLsbD 19
  let sum := t.sstatus.getLsbD 18
  (if store then bitOf e 2 else bitOf e 1 || (mxr && bitOf e 3)) &&
  (if t.user then bitOf e 4 else !bitOf e 4 || sum) && bitOf e 6 && (!store || bitOf e 7)

/-- The guest physical address that a leaf at a level gives: superpages aligned, a 64 KiB page at level 0 by the N bit. -/
def vsLeaf (level : Nat) (e : Word) (va : Nat) : Option Nat :=
  let ppn := fld e 53 10
  if bitOf e 63 then
    if level = 0 && ppn % 16 == 8 then some (ppn / 16 * 65536 + va % 65536) else none
  else
    let size := 4096 * 512 ^ level
    if ppn * 4096 % size = 0 then some (ppn * 4096 + va % size) else none

/-- The VS-stage walk from a level down. A page-table entry is read through the G-stage; a tainted one raises the access fault of the
access. -/
def vsWalk (ag : Agent) (t : Hart) (store : Bool) (va : Nat) : Nat → Nat → M (Sum Word Nat)
  | 0, _ => return .inl (if store then 15 else 13)
  | level + 1, table => do
    let (b, taint) ← hartRead ag (table + 8 * (va / (4096 * 512 ^ level) % 512)) 8
    let e := BitVec.ofNat 64 (ofLe b)
    let pageFault : Word := if store then 15 else 13
    if taint then return .inl (if store then 7 else 5)
    else if vsBadPte e then return .inl pageFault
    else if fld e 3 1 == 0 then
      if bitOf e 4 || bitOf e 6 || bitOf e 7 || fld e 63 61 != 0 then return .inl pageFault
      else vsWalk ag t store va level (fld e 53 10 * 4096)
    else if vsPermits t store e then
      match vsLeaf level e va with
      | some ga => return .inr ga
      | none => return .inl pageFault
    else return .inl pageFault

/-- The VS stage (R154): bare mode passes the address on; Sv39 and Sv48 walk for every 4 KiB page that the access touches. -/
def hartVs (ag : Agent) (t : Hart) (store : Bool) (va len : Nat) : M VsAns :=
  match vsLevels t.satp with
  | none => return .inr [(va, len)]
  | some n =>
    let top := va / 2 ^ (11 + 9 * n)
    if top != 0 && top != 2 ^ (53 - 9 * n) - 1 then return .inl (if store then 15 else 13)
    else do
      let root := t.satp.toNat % 2 ^ 44 * 4096
      let ps ← (cut 4096 va len).mapM (fun p => do
        let r ← vsWalk ag t store p.1 n root
        return (r, p.2))
      match ps.findSome? (fun (r, _) => match r with | .inl c => some c | .inr _ => none) with
      | some c => return .inl c
      | none => return .inr (ps.filterMap (fun (r, k) => match r with | .inr a => some (a, k) | .inl _ => none))

/-- What a load or store of a hart comes to. -/
inductive HartAns where
  | trap (cause mtval2 : Word)
  | stored
  | loaded (x : Nat)

/-- The bytes of the pieces of a load, each piece with its guest physical address. -/
def hartLoad (ag : Agent) (ps : List (Nat × Nat)) : M (List (Nat × List (Bytes × Bool))) :=
  ps.mapM (fun p => do
    let x ← readParts ag p.1 p.2
    return (p.1, x))

/-- Writes the bytes of a store to its pieces, in order. -/
def hartStore (ag : Agent) : List (Nat × Nat) → Bytes → M Unit
  | [], _ => return
  | p :: r, b => do
    writeVa ag p.1 (b.take p.2) false
    hartStore ag r (b.drop p.2)

/-- A load or store through both stages: the value of a load, or the exception it raises. -/
def hartOp (ag : Agent) (n : Nat) (t : Hart) (store : Bool) (va len : Nat) (data : Bytes) : M HartAns := do
  match ← hartVs ag t store va len with
  | .inl c => return .trap c 0
  | .inr ps => do
    let s ← get
    if ps.any (fun p => hartWindow s n (if store then accWrite else accRead) p.1 p.2) then throw (.code eRange)
    else if store then do
      hartStore ag ps data
      return .stored
    else do
      let rs ← hartLoad ag ps
      match rs.findSome? (fun (a, x) => taintedAt a x) with
      | some g => return .trap 5 (BitVec.ofNat 64 g)
      | none => return .loaded (ofLe (rs.flatMap (fun (_, x) => x.flatMap (·.1))))

/-- A load or store of `len` bytes at `va`: a load of a tainted granule raises a load access fault, a VS-stage fault its page fault; an
access that ends with a code has no effect but its fault record (R39, R155, R565). `load` takes what was read. -/
def hartMem (s : State) (n h : Nat) (store : Bool) (va len : Nat) (data : Bytes) (load : Nat → Hart → Hart) : State :=
  let t := gHart s h
  let ag := hartAgent n h t.pc
  runOp s ag (hartOp ag n t store va len data)
    (fun r s => match r with
      | .trap c m => hartTrap s n h c (BitVec.ofNat 64 va) m
      | .stored => hartNext (uHart s h (load 0)) n h
      | .loaded x => hartNext (uHart s h (load x)) n h)
    (fun c s => hartNext (errRecord s ag c) n h)

/-- The address of an access: x[base] plus a signed offset. -/
def hartAddr (t : Hart) (base : BitVec 5) (off : BitVec 12) : Nat := (hReg t base + BitVec.ofInt 64 (sgn 12 off.toNat)).toNat

/-- The illegal-instruction exception. -/
def hartIllegal (s : State) (n h : Nat) : State := hartTrap s n h 2 0 0

/-! ### Floating-point and vector registers, atomics (R152, R157; PRESUMED from RVA23) -/

/-- FS and VS of sstatus: off, or the state that a write leaves dirty. -/
def fsOn (t : Hart) : Bool := fld t.sstatus 14 13 != 0
def vsOn (t : Hart) : Bool := fld t.sstatus 10 9 != 0
def fsDirty (t : Hart) : Hart := { t with sstatus := t.sstatus ||| place 3 14 13 }
def vsDirty (t : Hart) : Hart := { t with sstatus := t.sstatus ||| place 3 10 9 }

/-- A narrower value in a floating-point register is boxed with ones. -/
def fBox (sz x : Nat) : Word := if sz = 3 then BitVec.ofNat 64 x else BitVec.ofNat 64 (2 ^ 64 - 2 ^ (8 * 2 ^ sz) + x % 2 ^ (8 * 2 ^ sz))

/-- The bytes of `k` vector registers from `r` on, and their write from byte `i` on. -/
def hvBytes (t : Hart) (r k : Nat) : Bytes := (rangeFrom r k).flatMap (fun i => leBytes (Tab.get 0 t.v i).toNat 32)
def hvPut (t : Hart) (r k i : Nat) (b : Bytes) : Hart :=
  let all := (hvBytes t r k).take i ++ b
  { t with v := (List.range k).foldl (fun v j => Tab.set 0 v (r + j) (BitVec.ofNat 256 (ofLe (slice all (32 * j) 32)))) t.v }

/-- Whole vector registers, from byte vstart on, which then is 0. -/
def hartVec (s : State) (n h : Nat) (store : Bool) (nf : Fin 4) (reg base : BitVec 5) : State :=
  let t := gHart s h
  let k := 2 ^ nf.val
  let i := t.vstart.toNat
  if !vsOn t || reg.toNat % k != 0 then hartIllegal s n h
  else if 32 * k ≤ i then hartNext (uHart s h (fun t => vsDirty { t with vstart := 0 })) n h
  else
    let va := ((hReg t base).toNat + i) % 2 ^ 64
    hartMem s n h store va (32 * k - i) ((hvBytes t reg.toNat k).drop i) (fun x t =>
      vsDirty { (if store then t else hvPut t reg.toNat k i (leBytes x (32 * k - i))) with vstart := 0 })

/-- An atomic operation through both stages: the old value, or the exception it raises. -/
def hartAmoOp (ag : Agent) (n : Nat) (t : Hart) (va sz fn x : Nat) : M HartAns := do
  match ← hartVs ag t true va (2 ^ sz) with
  | .inl c => return .trap c 0
  | .inr ps => do
    let s ← get
    let ga := (ps.headD (0, 0)).1
    if hartWindow s n accAtomic ga (2 ^ sz) then throw (.code eRange)
    else
      let r ← readParts ag ga (2 ^ sz)
      match taintedAt ga r with
      | some g => return .trap 7 (BitVec.ofNat 64 g)
      | none =>
        let (old, _) ← amoVa ag ga fn sz x 0 false
        return .loaded old

/-- An atomic memory operation; one that is not aligned, or a compare and swap, which RVA23 does not require, is turned away. -/
def hartAmo (s : State) (n h : Nat) (fn : Fin 10) (wide : Bool) (rd src base : BitVec 5) : State :=
  let t := gHart s h
  let sz := if wide then 3 else 2
  let va := (hReg t base).toNat
  let ag := hartAgent n h t.pc
  if fn.val = 6 then hartIllegal s n h
  else if va % 2 ^ sz != 0 then hartTrap s n h 6 (BitVec.ofNat 64 va) 0
  else runOp s ag (hartAmoOp ag n t va sz fn.val (hReg t src).toNat)
    (fun r s => match r with
      | .trap c m => hartTrap s n h c (BitVec.ofNat 64 va) m
      | .stored => hartNext s n h
      | .loaded x => hartNext (uHart s h (fun t => hSet t rd (BitVec.ofInt 64 (sgn (8 * 2 ^ sz) x)))) n h)
    (fun c s => hartNext (errRecord s ag c) n h)

/-! ### Control and status registers (R152, R158; PRESUMED from RVA23) -/

/-- R158: the time CSR, between the tick that opened the pound and the next. -/
def timeNow (s : State) (free : Nat) : Word := timeAtTick s + BitVec.ofNat 64 (Config.sinceTick free % max 1 s.cfg.tickPeriod)

/-- A register by its number: none where VS and VU mode have none. `free` names the free values. -/
def csrRead (s : State) (t : Hart) (free num : Nat) : Option Word :=
  match num with
  | 0x001 => some (BitVec.ofNat 64 (t.fcsr.toNat % 32))
  | 0x002 => some (BitVec.ofNat 64 (t.fcsr.toNat / 32))
  | 0x003 => some (t.fcsr.setWidth 64)
  | 0x008 => some t.vstart
  | 0x009 => some (BitVec.ofNat 64 (t.vcsr.toNat % 2))
  | 0x00A => some (BitVec.ofNat 64 (t.vcsr.toNat / 2))
  | 0x00F => some (t.vcsr.setWidth 64)
  | 0x100 => some (t.sstatus ||| place 2 33 32 ||| place (b2n (fld t.sstatus 14 13 == 3 || fld t.sstatus 10 9 == 3)) 63 63)
  | 0x104 => some t.sie
  | 0x105 => some t.stvec
  | 0x106 => some (t.scounteren.setWidth 64)
  | 0x10A => some t.senvcfg
  | 0x140 => some t.sscratch
  | 0x141 => some t.sepc
  | 0x142 => some t.scause
  | 0x143 => some t.stval
  | 0x144 => some (t.sip ||| place (b2n (t.stimecmp.toNat ≤ (timeNow s free).toNat)) 5 5)
  | 0x14D => some t.stimecmp
  | 0x180 => some t.satp
  | 0xC00 => some (Config.hartCount free)
  | 0xC01 => some (timeNow s free)
  | 0xC02 => some (Config.hartCount free)
  | 0xC20 => some t.vl
  | 0xC21 => some t.vtype
  | 0xC22 => some 32
  | _ => none

/-- A write of a register: the fields that a register has take their bits. -/
def csrWrite (t : Hart) (num : Nat) (v : Word) : Hart :=
  match num with
  | 0x001 => fsDirty { t with fcsr := BitVec.ofNat 8 (t.fcsr.toNat / 32 * 32 + v.toNat % 32) }
  | 0x002 => fsDirty { t with fcsr := BitVec.ofNat 8 (v.toNat % 8 * 32 + t.fcsr.toNat % 32) }
  | 0x003 => fsDirty { t with fcsr := BitVec.ofNat 8 v.toNat }
  | 0x008 => vsDirty { t with vstart := v &&& 0xFF }
  | 0x009 => vsDirty { t with vcsr := BitVec.ofNat 3 (t.vcsr.toNat / 2 * 2 + v.toNat % 2) }
  | 0x00A => vsDirty { t with vcsr := BitVec.ofNat 3 (v.toNat % 4 * 2 + t.vcsr.toNat % 2) }
  | 0x00F => vsDirty { t with vcsr := BitVec.ofNat 3 v.toNat }
  | 0x100 => { t with sstatus := v &&& 0xC6722 }
  | 0x104 => { t with sie := v &&& 0x222 }
  | 0x105 => { t with stvec := v &&& ~~~(2 : Word) }
  | 0x106 => { t with scounteren := v.setWidth 32 }
  | 0x10A => { t with senvcfg := v &&& 0x3000000F1 }
  | 0x140 => { t with sscratch := v }
  | 0x141 => { t with sepc := v &&& ~~~(1 : Word) }
  | 0x142 => { t with scause := v }
  | 0x143 => { t with stval := v }
  | 0x144 => { t with sip := v &&& 2 }
  | 0x14D => { t with stimecmp := v }
  | 0x180 => if fld v 63 60 = 0 || fld v 63 60 = 8 || fld v 63 60 = 9 then { t with satp := v } else t
  | _ => t

/-- The hart's mode may use a register: VU mode none of VS mode, and a counter only where scounteren lets it; floating-point and vector
registers only where FS and VS are not off. -/
def csrOpen (t : Hart) (num : Nat) : Bool :=
  !(t.user && num / 256 % 4 != 0) && !(t.user && 0xC00 ≤ num && num < 0xC03 && !t.scounteren.getLsbD (num - 0xC00)) &&
  !(1 ≤ num && num ≤ 3 && !fsOn t) && !((8 ≤ num && num ≤ 0xF || 0xC20 ≤ num && num ≤ 0xC22) && !vsOn t)

/-- A read and write of a register: `fn` writes, sets or clears; a set or clear of nothing is a read. -/
def hartCsr (s : State) (n h : Nat) (fn : Fin 3) (num : BitVec 12) (imm : Bool) (rd src : BitVec 5) : State :=
  let t := gHart s h
  let (i, s) := freshFree s
  let k := num.toNat
  let writes := fn.val = 0 || src != 0
  match csrRead s t i k with
  | none => hartIllegal s n h
  | some old =>
    if !csrOpen t k || (writes && 0xC00 ≤ k) then hartIllegal s n h
    else
      let x := if imm then src.setWidth 64 else hReg t src
      let v := if fn.val = 0 then x else if fn.val = 1 then old ||| x else old &&& ~~~x
      hartNext (uHart s h (fun t => hSet (if writes then csrWrite t k v else t) rd old)) n h

/-- SRET: the return from a trap to the mode and place that it saved. -/
def hartSret (s : State) (n h : Nat) : State :=
  let t := gHart s h
  if t.user then hartIllegal s n h
  else
    let pc := t.pc
    let s := uHart s h (fun t => { t with
      pc := t.sepc, user := !t.sstatus.getLsbD 8
      sstatus := (t.sstatus &&& ~~~(place 1 8 8 ||| place 1 1 1)) ||| place 1 5 5 ||| place (b2n (t.sstatus.getLsbD 5)) 1 1 })
    tjHarbor (tjHartRun s n h pc) n h 1 (gHart s h).pc

/-- HARBOR_ACCESS (R152, R155 to R158). -/
def execHarborAccess (h : Fin 16) (a : HOp) (s : State) : Ans :=
  match hartRuns s h.val with
  | none => .next s
  | some n =>
    let t := gHart s h.val
    .next (match a with
      | .mem a =>
        let len := 2 ^ a.sz.val
        hartMem s n h.val a.store (hartAddr t a.base a.off) len (leBytes (hReg t a.reg).toNat len) (fun x t =>
          if a.store then t else hSet t a.reg (if a.sext then BitVec.ofInt 64 (sgn (8 * len) x) else BitVec.ofNat 64 x))
      | .fp store sz reg base off =>
        let len := 2 ^ sz.val
        if !fsOn t || sz.val = 0 then hartIllegal s n h.val
        else hartMem s n h.val store (hartAddr t base off) len (leBytes (Tab.get 0 t.f reg.toNat).toNat len) (fun x t =>
          if store then t else fsDirty { t with f := Tab.set 0 t.f reg.toNat (fBox sz.val x) })
      | .vec store nf reg base => hartVec s n h.val store nf reg base
      | .amo fn wide rd src base => hartAmo s n h.val fn wide rd src base
      | .cboZero base =>
        if t.user && !t.senvcfg.getLsbD 7 then hartIllegal s n h.val
        else hartMem s n h.val true ((hReg t base).toNat / 64 * 64) 64 (List.replicate 64 0) (fun _ t => t)
      | .fence => hartNext s n h.val
      | .csr fn num imm rd src => hartCsr s n h.val fn num imm rd src
      | .sret => hartSret s n h.val)

/-- HARBOR_CORE_FAIL (R167): core `h` is fenced, and the program of the hart that it serves ends with a record of E_UNIT_LOST. -/
def execHarborCoreFail (h : Fin 16) (s : State) : Ans :=
  if !isReady s then .next s
  else
    let hit := (List.range 16).find? (fun i => coreOf s i == some h.val)
    let s := { s with fw := { s.fw with hartFenced := s.fw.hartFenced ||| ((1 : BitVec 16) <<< h.val) } }
    match s.rot.holder, hit with
    | some n, some i =>
      let s := errRecord s (hartAgent n i (gHart s i).pc) eUnitLost
      .next (uHart { s with faults := s.faults.filter (fun f => f.id != hartId n i) } i (fun t => { t with ended := true, waiting := false }))
    | _, _ => .next s

end Sys2Proof.Machine
end

