-- ==== Sys2Proof/Machine/TableUnit.lean ====
section
/-! DEFINITION. Embedding tables and the Table Unit (spec/08): descriptors and shard maps, gather and pooling, contributions and staging,
LAST markers, the apply pound and its optimizers, and row requests between chips. -/

namespace Sys2Proof.Machine

/-! ## Descriptors (R255 to R257) -/

def tdOpt (d : Bytes) : Nat := fld (wordAt d 0) 63 61
def tdMode (d : Bytes) : Nat := fld (wordAt d 0) 60 59
def tdEt (d : Bytes) : Nat := fld (wordAt d 0) 58 56
def tdLearn (d : Bytes) : Bool := bitOf (wordAt d 0) 55
def tdPitch (d : Bytes) : Nat := fld (wordAt d 0) 47 32
def tdRow (d : Bytes) : Nat := fld (wordAt d 0) 14 0
def tdShard (d : Bytes) : Nat := fld (wordAt d 8) 47 0
def tdRows (d : Bytes) : Nat := fld (wordAt d 16) 39 0
def tdDef (d : Bytes) : Nat := fld (wordAt d 24) 39 0
def tdLr (d : Bytes) : Nat := fld (wordAt d 32) 63 32
def tdMu (d : Bytes) : Nat := fld (wordAt d 32) 31 0
def tdBeta2 (d : Bytes) : Nat := fld (wordAt d 40) 63 32
def tdEps (d : Bytes) : Nat := fld (wordAt d 40) 31 0

/-- The format and the size of element types 4, 5 and 6. -/
def tblFmt (et : Nat) : FFmt := if et = 4 then fp16 else if et = 5 then bf16 else fp32
def tblBytes (et : Nat) : Nat := if et = 6 then 4 else 2

/-- The elements of a row. -/
def tdElems (d : Bytes) : Nat := tdRow d / tblBytes (tdEt d)

/-- Optimizer state bytes of a slot (R256). -/
def tdState (d : Bytes) : Nat :=
  match tdOpt d with
  | 1 => 4 * tdElems d
  | 2 => 4
  | 3 => 8 * tdElems d + 8
  | _ => 0

/-- R255 to R257. -/
def tdOk (d : Bytes) : Bool :=
  onlyBits (wordAt d 0) (msk 63 55 ||| msk 47 32 ||| msk 14 0) && fld (wordAt d 8) 63 48 == 0 && fld (wordAt d 16) 63 40 == 0 &&
  fld (wordAt d 24) 63 40 == 0 && wordAt d 48 == 0 && wordAt d 56 == 0 &&
  tdOpt d ≤ 3 && tdMode d != 3 && 4 ≤ tdEt d && tdEt d ≤ 6 && 4 ≤ tdRow d && tdRow d ≤ 16384 && tdRow d % 4 == 0 &&
  1 ≤ tdRows d && (tdMode d != 1 || tdDef d < tdRows d) &&
  tdRow d + tdState d ≤ tdPitch d && tdPitch d % (if tdOpt d = 0 then 4 else 64) == 0 && tdPitch d ≤ 65472

/-! ## Shard maps (R260, R261) -/

/-- An entry of a shard map. -/
structure Shard where
  chip : Nat
  first : Nat
  base : Nat
  stage : Nat
  cap : Nat
deriving DecidableEq, Repr

def shardCount (m : Bytes) : Nat := fld (wordAt m 0) 12 0

def shardAt (m : Bytes) (i : Nat) : Shard :=
  let o := 64 + 32 * i
  { chip := fld (wordAt m o) 47 40, first := fld (wordAt m o) 39 0, base := fld (wordAt m (o + 8)) 47 0, stage := fld (wordAt m (o + 16)) 47 0,
    cap := fld (wordAt m (o + 24)) 31 0 }

/-- The entries of a map. -/
def shardsOf (m : Bytes) : List Shard := (List.range (shardCount m)).map (shardAt m)

/-- FIRST_ROW rises strictly and stays below ROWS. -/
def firstsOk (rows : Nat) : Nat → List Shard → Bool
  | _, [] => true
  | lo, x :: r => decide (lo ≤ x.first) && decide (x.first < rows) && firstsOk rows (x.first + 1) r

/-- The header of a map is well formed. -/
def mapHeadOk (h : Bytes) : Bool := fld (wordAt h 0) 63 13 == 0 && 1 ≤ shardCount h && shardCount h ≤ 4096 && allZero (slice h 8 56)

/-- R260, R261. -/
def mapOk (s : State) (rows : Nat) (m : Bytes) : Bool :=
  let l := shardsOf m
  mapHeadOk m &&
  (List.range (shardCount m)).all (fun i =>
    let o := 64 + 32 * i
    fld (wordAt m o) 63 48 == 0 && fld (wordAt m (o + 8)) 63 48 == 0 && fld (wordAt m (o + 16)) 63 48 == 0 && fld (wordAt m (o + 24)) 63 32 == 0) &&
  (l.head?.map (·.first)) == some 0 && firstsOk rows 0 l &&
  l.all (fun x => chipPresent s x.chip && x.stage % 64 == 0 && x.cap % 64 == 0)

/-- The entry that a row belongs to (R261). -/
def homeOf (m : Bytes) (row : Nat) : Option Shard := ((shardsOf m).filter (fun x => decide (x.first ≤ row))).getLast?

/-- The slot of a row. -/
def slotVa (d : Bytes) (x : Shard) (row : Nat) : Nat := x.base + (row - x.first) * tdPitch d

/-- Reads and checks the descriptor and the shard map of a table: both, one after the other (R254, R259). -/
def readTable (ag : Agent) (table : Nat) : M Bytes := do
  let s ← get
  if (manOf s ag.ctx).ntables ≤ table then throw (.code eRange)
  let (d, _) ← readVa ag ((manOf s ag.ctx).tdirVa.toNat + 64 * table) 64
  if !tdOk d then throw (.code eRange)
  let (h, _) ← readVa ag (tdShard d) 64
  if !mapHeadOk h then throw (.code eRange)
  let (m, _) ← readVa ag (tdShard d) (64 + 32 * shardCount h)
  let s ← get
  if !mapOk s (tdRows d) m then throw (.code eRange)
  return d ++ m

/-! ## Commands (R263, R264) -/

def tOet (d : Bytes) : Nat := fld (wordAt d 0) 50 48
def tPool (d : Bytes) : Nat := fld (wordAt d 0) 53 51
def tIdxW (d : Bytes) : Nat := fld (wordAt d 0) 47 46
def tTable (d : Bytes) : Nat := fld (wordAt d 0) 43 32
def tCount (d : Bytes) : Nat := fld (wordAt d 0) 31 0
def tIdx (d : Bytes) : Nat := fld (wordAt d 8) 47 0
def tOut (d : Bytes) : Nat := fld (wordAt d 16) 47 0
def tOffs (d : Bytes) : Nat := fld (wordAt d 24) 47 0
def tWgt (d : Bytes) : Nat := fld (wordAt d 32) 47 0
def tValid (d : Bytes) : Nat := fld (wordAt d 40) 47 0
def tPosBase (d : Bytes) : Nat := fld (wordAt d 48) 63 32
def tNbag (d : Bytes) : Nat := fld (wordAt d 48) 31 0
def tStep (d : Bytes) : Nat := fld (wordAt d 56) 63 48
def tMap (d : Bytes) : Nat := fld (wordAt d 56) 47 0
def tCls (d : Bytes) : Nat := fld (wordAt d 0) 55 54
def idxBytes (d : Bytes) : Nat := 2 * 2 ^ tIdxW d

/-- A Table Unit command is accepted (R263, R264). -/
def tuOk (flight : Bool) (d : Bytes) : Bool :=
  let op := aOp d
  let w := fun i => wordAt d (8 * i)
  let rows := decide (op ≤ 3)
  let p := tPool d
  d.length == 64 && 1 ≤ op && op ≤ 5 && onlyBits (w 0) (msk 63 46 ||| msk 43 0) && (op ≤ 2 || tCls d != 0) &&
  (match op with
    | 1 => p == 0
    | 2 => 1 ≤ p && p ≤ 4
    | 3 => p == 0 || p == 1 || p == 2 || p == 4
    | _ => p == 0) &&
  (if rows then 4 ≤ tOet d && tOet d ≤ 6 && tIdxW d != 3 else tOet d == 0 && tIdxW d == 0 && tCount d == 0 && w 1 == 0 && w 2 == 0 && w 5 == 0) &&
  ((op != 1 && op != 3) || 1 ≤ tCount d) &&
  fld (w 1) 63 48 == 0 && fld (w 2) 63 48 == 0 && fld (w 3) 63 48 == 0 && fld (w 4) 63 48 == 0 && fld (w 5) 63 48 == 0 &&
  (if op = 5 then tPosBase d == 0 && 1 ≤ tNbag d && tNbag d ≤ 256
   else (op == 3 || tPosBase d == 0) && (if p = 0 then tNbag d == 0 else 1 ≤ tNbag d)) &&
  (p != 0 || w 3 == 0) && (p == 4 || w 4 == 0) && (3 ≤ op || tStep d == 0) && (op ≤ 2 || tMap d == 0) &&
  tIdx d % idxBytes d == 0 && (!rows || tOut d % tblBytes (tOet d) == 0) && tOffs d % 4 == 0 && tWgt d % 4 == 0 &&
  (!flight || (op ≤ 2 && tIdx d == 0 && tOut d == 0))

/-! ## Counters (R283) -/

def tuGet (c : TuCnt) : Nat → Word
  | 0 => c.neg
  | 1 => c.oob
  | 2 => c.miss
  | 3 => c.gath
  | 4 => c.appl
  | _ => c.drop

def tuSet (c : TuCnt) (x : Word) : Nat → TuCnt
  | 0 => { c with neg := x }
  | 1 => { c with oob := x }
  | 2 => { c with miss := x }
  | 3 => { c with gath := x }
  | 4 => { c with appl := x }
  | _ => { c with drop := x }

/-- Counts one event of a table: 0 NEG, 1 OOB, 2 MISS, 3 GATH, 4 APPL, 5 DROP. -/
def countTu (s : State) (n table i : Nat) : State :=
  let c := Tab.get {} (gCtx s n).tu table
  let was := c.sat.getLsbD i
  let now := was || sat64 (tuGet c i) 1
  let c' := tuSet c (bump64 (tuGet c i) 1) i
  let c' := if now then { c' with sat := c'.sat ||| ((1 : BitVec 6) <<< i) } else c'
  satNotice (uCtx s n (fun x => { x with tu := Tab.set {} x.tu table c' })) n was now (0xD000 + n * 0x40 + 8 + 8 * i) table

/-- Changes the error counters of a table. -/
def uTu (s : State) (n table : Nat) (f : TuCnt → TuCnt) : State := uCtx s n (fun c => { c with tu := Tab.modify {} c.tu table f })

/-! ## Rows (R261, R267, R268, R270) -/

/-- TOP values of a TU_REQ (R409). -/
def topRow : Nat := 1
def topRecord : Nat := 2
def topLast : Nat := 3

/-- The request of a Table Unit to another chip. -/
def tuReqM (ag : Agent) (dst top table step va len taint : Nat) (payload : Bytes) : M RTx := fun s =>
  let i := s.racc
  let pa := dst * 2 ^ 52 + va
  let s := { s with racc := i + 1 }
  let kind := if top = topRow then kRow else kStage
  match s.rtxs.find? (fun t => t.owner == ag.id && t.seqNo == i && t.kind == kind && t.addr == pa && t.len == len) with
  | some t => .ok t s
  | none =>
    let s := sendReq s ag kind tTuReq pa len i taint dst (place step 31 16 ||| place table 15 4 ||| place top 3 0) payload
    .ok { rid := s.rid, owner := ag.id, ctx := ag.ctx, kind := kind, addr := pa, len := len } s

/-- Reads a row's elements: bytes and taint; from another chip in pieces of 256 bytes. -/
def readRow (ag : Agent) (table : Nat) (d : Bytes) (x : Shard) (row : Nat) : M (Bytes × Bool) := do
  let s ← get
  let va := slotVa d x row
  if x.chip = s.cfg.chipNum then readVa ag va (tdRow d)
  else
    let ps := (List.range (ceilDiv (tdRow d) 256)).map (fun i => (256 * i, min 256 (tdRow d - 256 * i)))
    let ts ← ps.mapM (fun p => tuReqM ag x.chip topRow table 0 (va + p.1) p.2 0 [])
    let rs ← ts.mapM (fun t => remoteAns t accRead va)
    return (rs.flatMap (·.1), rs.any (fun r => r.2 != 0))

/-- What an index position resolves to (R267). -/
inductive Resolved where
  | row (r : Nat)
  | zero
deriving DecidableEq, Repr

/-- The default row. -/
def defRow (d : Bytes) : Resolved := if tdMode d = 0 then .row 0 else if tdMode d = 1 then .row (tdDef d) else .zero

/-- Resolves index position `j`: the row, whether it is the default one, and the taint of what was read. -/
def resolveIdx (e : UEnv) (d : Bytes) (j : Nat) : M (Resolved × Bool × Bool) := do
  let c := e.cmd
  let n := e.ag.ctx
  let (ib, it) ← uRead e (tIdx c) (idxBytes c * j) (idxBytes c)
  let (vb, vt) ← if tValid c = 0 then pure ([0xFF], false) else readVa e.ag (tValid c + j / 8) 1
  let t := it || vt
  let x := sgn (8 * idxBytes c) (ofLe ib)
  if !(vb.headD 0).getLsbD (j % 8) || x = -1 then
    tell (fun s => countTu s n (tTable c) 2)
    return (defRow d, true, t)
  else if x < 0 then
    tell (fun s => countTu s n (tTable c) 0)
    return (defRow d, true, t)
  else if (tdRows d : Int) ≤ x then
    tell (fun s => countTu s n (tTable c) 1)
    return (defRow d, true, t)
  else return (.row x.toNat, false, t)

/-- The elements of a row as FP32. -/
def rowF32 (et : Nat) (b : Bytes) : List Nat :=
  (List.range (b.length / tblBytes et)).map (fun i => (fCvt (tblFmt et) fp32 (numAt b (i * tblBytes et) (tblBytes et))).1)

/-- FP32 elements rounded to an element type. -/
def f32Row (et : Nat) (l : List Nat) : Bytes := l.flatMap (fun x => leBytes (fCvt fp32 (tblFmt et) x).1 (tblBytes et))

/-- FP32 elements as they stand. -/
def f32Bytes (l : List Nat) : Bytes := l.flatMap (fun x => leBytes x 4)
def bytesF32 (b : Bytes) : List Nat := (List.range (b.length / 4)).map (fun i => numAt b (4 * i) 4)

/-- The row at an index position as it is stored, with its taint. -/
def rowBytesAt (e : UEnv) (tb : Bytes) (j : Nat) : M (Bytes × Bool) := do
  let d := tb.take 64
  let (r, _, t) ← resolveIdx e d j
  match r with
  | .zero => return (List.replicate (tdRow d) 0, t)
  | .row r =>
    match homeOf (tb.drop 64) r with
    | none => throw (.code eRange)
    | some x =>
      tell (fun s => countTu s e.ag.ctx (tTable e.cmd) 3)
      let (b, rt) ← readRow e.ag (tTable e.cmd) d x r
      return (b, t || rt)

/-- The row at an index position as FP32, with its taint. -/
def rowAt (e : UEnv) (tb : Bytes) (j : Nat) : M (List Nat × Bool) := do
  let (b, t) ← rowBytesAt e tb j
  return (rowF32 (tdEt (tb.take 64)) b, t)

/-- A row in another element type; one in its own type is copied, with the payload of a NaN (R268, R608). -/
def rowInto (et oet : Nat) (b : Bytes) : Bytes := if oet = et then b else f32Row oet (rowF32 et b)

/-- A gradient row as FP32: one already in FP32 is copied, with the payload of a NaN (R271, R608). -/
def gradF32 (oet : Nat) (b : Bytes) : List Nat := if oet = 6 then bytesF32 b else rowF32 oet b

/-- Counts and marks a tainted output row (R282). -/
def taintRow (e : UEnv) (k : Nat) (t : Bool) : M Unit := do
  if t then
    setTaintMap e.ag (tMap e.cmd) k
    tell (fun s => uTu s e.ag.ctx (tTable e.cmd) (fun c => { c with taint := bump16 c.taint 1 }))

/-- The positions of a command. -/
def tuCount (e : UEnv) : Nat := min (tCount e.cmd) (uCount e (tCount e.cmd) (idxBytes e.cmd))

/-- GATHER, one position a step. The scratch holds the descriptor and the map as they were at the start (R259). -/
def gatherStep (e : UEnv) (pos : Nat) (scr : Bytes) : M UStep := do
  if scr.isEmpty then
    let tb ← readTable e.ag (tTable e.cmd)
    return { scratch := tb }
  if tuCount e ≤ pos then return uDone 0
  let (x, t) ← rowBytesAt e scr pos
  taintRow e pos t
  return { out := [(rowInto (tdEt (scr.take 64)) (tOet e.cmd) x, t)], pos := pos + 1, scratch := scr }

/-- Bytes of descriptor and map at the head of a scratch. -/
def tbLen (scr : Bytes) : Nat := 128 + 32 * shardCount (scr.drop 64)

/-- The offsets of bag `b`, their taint; E_RANGE when they break R269. -/
def bagOf (e : UEnv) (b : Nat) : M (Nat × Nat × Bool) := do
  let (x, t) ← readVa e.ag (tOffs e.cmd + 4 * b) 8
  let lo := sgn 32 (numAt x 0 4)
  let hi := sgn 32 (numAt x 4 4)
  if lo < 0 || hi < lo || (tCount e.cmd : Int) < hi then throw (.code eRange)
  if (tuCount e : Int) < hi then
    uAll e
    throw (.code eRange)
  return (lo.toNat, hi.toNat, t)

/-- The weight of a position. -/
def weightAt (e : UEnv) (j : Nat) : M (Nat × Bool) := do
  if tPool e.cmd = 4 then
    let (b, t) ← readVa e.ag (tWgt e.cmd + 4 * j) 4
    return (ofLe b, t)
  else return (0, false)

/-- POOL, one position a step; the tail of the scratch holds the bag, its taint and its running values. -/
def poolStep (e : UEnv) (pos : Nat) (scr : Bytes) : M UStep := do
  if scr.isEmpty then
    let tb ← readTable e.ag (tTable e.cmd)
    return { scratch := tb ++ List.replicate 9 0 }
  let tb := scr.take (tbLen scr)
  let tail := scr.drop (tbLen scr)
  let d := tb.take 64
  let b := numAt tail 0 8
  if tNbag e.cmd ≤ b then return uDone 0
  let (lo, hi, bt) ← bagOf e b
  let p := max pos lo
  let zero := List.replicate (tdElems d) 0
  let acc := if p = lo then zero else bytesF32 (tail.drop 9)
  let t0 := if p = lo then bt else (tail.getD 8 0 != 0) || bt
  if p < hi then
    let (x, t) ← rowAt e tb p
    let (w, wt) ← weightAt e p
    let acc := match tPool e.cmd with
      | 3 => if p = lo then x else acc.zipWith f32max x
      | 4 => acc.zipWith (fun a y => f32fma w y a) x
      | _ => acc.zipWith f32add x
    let t := t0 || t || wt
    return { pos := p + 1, scratch := tb ++ leBytes b 8 ++ [BitVec.ofNat 8 (b2n t)] ++ f32Bytes acc }
  else
    let n := hi - lo
    let row := if n = 0 then zero else if tPool e.cmd = 2 then acc.map (fun a => f32div a (f32ofInt n)) else acc
    taintRow e b t0
    return { out := [(f32Row (tOet e.cmd) row, t0)], pos := hi, scratch := tb ++ leBytes (b + 1) 8 ++ [0] }

/-! ## Staging (R273 to R276) -/

/-- The bytes of a staging record. -/
def recSize (d : Bytes) : Nat := ceilDiv (16 + 4 * tdElems d) 64 * 64

def hdState (h : Bytes) : Nat := fld (wordAt h 0) 17 16
def hdStep (h : Bytes) : Nat := fld (wordAt h 0) 15 0
def hdCount (h : Bytes) : Nat := fld (wordAt h 8) 31 0
def hdNext (h : Bytes) : Nat := fld (wordAt h 16) 31 0
def hdMarks (h : Bytes) : Nat := numAt h 32 32

/-- A half header (R274). -/
def halfHead (st step count next marks : Nat) : Bytes :=
  wordBytes (place st 17 16 ||| place step 15 0) ++ leBytes count 8 ++ leBytes next 8 ++ leBytes 0 8 ++ leBytes marks 32

def halfVa (x : Shard) (step : Nat) : Nat := x.stage + 64 * (step % 2)
def recVa (x : Shard) (d : Bytes) (step i : Nat) : Nat := x.stage + 128 + step % 2 * x.cap + i * recSize d

/-- The half of a step, opened when it is empty or applied (R275): state, count, next, marks, taint. -/
def openHalf (ag : Agent) (x : Shard) (step : Nat) : M (Nat × Nat × Nat × Nat × Bool) := do
  let (h, t) ← readVa ag (halfVa x step) 64
  if hdState h = 0 || hdState h = 3 then return (1, 0, 0, 0, t)
  else if hdStep h != step then throw (.code eTableFull)
  else return (hdState h, hdCount h, hdNext h, hdMarks h, t)

/-- Stages a record in the half of its step on this chip (R273, R275). -/
def stageRecord (ag : Agent) (table : Nat) (d : Bytes) (x : Shard) (step : Nat) (r : Bytes) (t : Bool) : M Unit := do
  let (st, count, next, marks, ht) ← openHalf ag x step
  if x.cap < (count + 1) * recSize d then throw (.code eTableFull)
  writeVa ag (recVa x d step count) (slice r 0 (recSize d)) t
  writeVa ag (halfVa x step) (halfHead st step (count + 1) next marks) ht
  tell (fun s => uTu s ag.ctx table (fun c => { c with hwm := if c.hwm.toNat < count + 1 then BitVec.ofNat 32 (count + 1) else c.hwm }))

/-- Sets the mark of a chip in every half of a step that this chip homes (R275, R276). -/
def stageLast (ag : Agent) (m : Bytes) (step src : Nat) : M Unit := do
  let s ← get
  ((shardsOf m).filter (fun x => x.chip == s.cfg.chipNum)).forM (fun x => do
    let (st, count, next, marks, ht) ← openHalf ag x step
    writeVa ag (halfVa x step) (halfHead st step count next (marks ||| 2 ^ src)) ht)

/-- E_TABLE_FULL is counted in TU_STG_ERR of this chip. -/
def countFull (n table : Nat) (m : M Unit) : M Unit := fun s =>
  match m s with
  | .error (.code c) s' =>
    .error (.code c) (if c = eTableFull then uTu s' n table (fun x => { x with stgErr := bump16 x.stgErr 1 }) else s')
  | r => r

/-- Sends a record to its home shard's chip, in pieces of 256 bytes; the piece's offset in the record is added to ADDR. -/
def sendRecord (ag : Agent) (table : Nat) (x : Shard) (step : Nat) (r : Bytes) (t : Bool) : M Unit := do
  let ps := (List.range (ceilDiv r.length 256)).map (fun i => (256 * i, min 256 (r.length - 256 * i)))
  let ts ← ps.mapM (fun p => tuReqM ag x.chip topRecord table step (x.stage + p.1) p.2 (writeTaint (x.stage + p.1) p.2 [] t) (slice r p.1 p.2))
  ts.forM (fun q => do
    if q.st = 2 then throw (.code eTmoLw)
    let _ ← remoteAns { q with len := 0 } accWrite x.stage
    return)

/-- The contribution of a position to a row (R271, R273). -/
def contribute (e : UEnv) (d : Bytes) (m : Bytes) (row pos : Nat) (g : List Nat) (t : Bool) : M Unit := do
  let s ← get
  match homeOf m row with
  | none => throw (.code eRange)
  | some x =>
    let r := wordBytes (place (b2n t) 48 48 ||| place s.cfg.chipNum 47 40 ||| place row 39 0) ++ leBytes (pos % 2 ^ 32) 8 ++ f32Bytes g
    let r := slice r 0 (recSize d)
    if x.chip = s.cfg.chipNum then countFull e.ag.ctx (tTable e.cmd) (stageRecord e.ag (tTable e.cmd) d x (tStep e.cmd) r t)
    else sendRecord e.ag (tTable e.cmd) x (tStep e.cmd) r t

/-- This chip has sent LAST for a step of a table (R276). -/
def lastWasSent (s : State) (n table step : Nat) : Bool := (gCtx s n).lastSent.contains (table, step)

/-- A LAST for a step has started. STEP wraps: what is kept is the half of its range that lies behind it (DESIGN CHOICE). -/
def noteLast (s : State) (n table step : Nat) : State :=
  uCtx s n (fun c => { c with lastSent := c.lastSent.filter (fun x => x.1 != table || (x.2 != step && decide ((step + 65536 - x.2) % 65536 < 32768))) ++ [(table, step)] })

/-- UPDATE, one position a step; the tail of the scratch holds the bag. -/
def updateStep (e : UEnv) (pos : Nat) (scr : Bytes) : M UStep := do
  let c := e.cmd
  let n := e.ag.ctx
  if scr.isEmpty then
    let s ← get
    if lastWasSent s n (tTable c) (tStep c) then throw (.code eRange)
    let tb ← readTable e.ag (tTable c)
    return { scratch := tb ++ List.replicate 8 0 }
  let tb := scr.take (tbLen scr)
  let b := numAt scr (tbLen scr) 8
  let d := tb.take 64
  let gb := tdElems d * tblBytes (tOet c)
  let put (p : Nat) (gi : Nat) (f : List Nat → Nat → List Nat) (bt : Bool) : M Unit := do
    let (r, dflt, t) ← resolveIdx e d p
    let drop := dflt && (tdMode d == 2 || !tdLearn d)
    match r with
    | .row r =>
      if drop then tell (fun s => countTu s n (tTable c) 5)
      else
        let (g, gt) ← readVa e.ag (tOut c + gi * gb) gb
        let (w, wt) ← weightAt e p
        contribute e d (tb.drop 64) r (tPosBase c + p) (f (gradF32 (tOet c) g) w) (t || gt || wt || bt)
    | .zero => tell (fun s => countTu s n (tTable c) 5)
  if tPool c = 0 then
    if tCount c ≤ pos then return uDone 0
    put pos pos (fun g _ => g) false
    return { pos := pos + 1, scratch := scr }
  else if tNbag c ≤ b then return uDone 0
  else
    let (lo, hi, bt) ← bagOf e b
    let p := max pos lo
    if p < hi then
      put p b (fun g w => match tPool c with
        | 2 => g.map (fun x => f32div x (f32ofInt ((hi - lo : Nat) : Int)))
        | 4 => g.map (fun x => f32mul x w)
        | _ => g) bt
      return { pos := p + 1, scratch := scr }
    else return { pos := hi, scratch := tb ++ leBytes (b + 1) 8 }

/-- An earlier UPDATE of this chip for a table and STEP is not done (R276). -/
def updatePending (s : State) (n id table step : Nat) : Bool :=
  s.units.any (fun e => e.1 % 5 == 0 && e.2.held.any (fun c =>
    c.ctx == n && decide (c.id < id) && c.cmd.length == 64 && aOp c.cmd == 3 && tTable c.cmd == table && tStep c.cmd == step))

/-- LAST: a marker to each distinct chip of the map. It starts when every earlier UPDATE of its step is done; the scratch holds the table
that it read then (R259, R276). -/
def lastStep (e : UEnv) (id : Nat) (scr : Bytes) : M UStep := do
  let c := e.cmd
  let n := e.ag.ctx
  let s ← get
  if scr.isEmpty then
    if updatePending s n id (tTable c) (tStep c) then throw .wait
    let tb ← readTable e.ag (tTable c)
    tell (fun s => noteLast s n (tTable c) (tStep c))
    return { scratch := tb }
  let m := scr.drop 64
  let far := ((shardsOf m).filter (fun x => x.chip != s.cfg.chipNum)).foldl (fun (l : List Shard) x => if l.any (fun y => y.chip == x.chip) then l else l ++ [x]) []
  let ts ← far.mapM (fun x => tuReqM e.ag x.chip topLast (tTable c) (tStep c) x.stage 0 0 [])
  ts.forM (fun q => do
    if q.st = 2 then throw (.code eTmoLw)
    let _ ← remoteAns q accWrite 0
    return)
  countFull n (tTable c) (stageLast e.ag m (tStep c) s.cfg.chipNum)
  return uDone 0

/-! ## The apply pound (R277 to R280) -/

/-- The sort key of a record (R277). -/
def recKey (r : Bytes) : Nat := fld (wordAt r 0) 39 0 * 2 ^ 40 + fld (wordAt r 0) 47 40 * 2 ^ 32 + fld (wordAt r 8) 31 0

/-- Two neighbours with equal keys. -/
def dupKeys : List (Bytes × Bool) → Bool
  | a :: b :: r => recKey a.1 == recKey b.1 || dupKeys (b :: r)
  | _ => false

/-- The optimizer on one row: weights and state before, and the summed gradient; weights and state after (R280). -/
def optimize (d : Bytes) (w st g : List Nat) : List Nat × List Nat :=
  let e := w.length
  let lr := tdLr d
  let mu := tdMu d
  let one := 0x3F800000
  match tdOpt d with
  | 0 => (w.zipWith f32sub g, st)
  | 1 =>
    let m := st.zipWith (fun m g => f32fma mu m g) g
    (w.zipWith (fun w m => f32fma (f32neg lr) m w) m, m)
  | 2 =>
    let q := g.foldl (fun q x => f32fma x x q) 0
    let acc := f32add (st.headD 0) (f32div q (f32ofInt e))
    let sc := f32div lr (f32add (f32sqrt acc) (tdEps d))
    (w.zipWith (fun w g => f32fma (f32neg sc) g w) g, [acc])
  | _ =>
    let b2 := tdBeta2 d
    let u1 := f32sub one mu
    let u2 := f32sub one b2
    let c1 := f32fma mu (st.getD (2 * e) 0) u1
    let c2 := f32fma b2 (st.getD (2 * e + 1) 0) u2
    let m := (st.take e).zipWith (fun m g => f32fma mu m (f32mul u1 g)) g
    let v := ((st.drop e).take e).zipWith (fun v g => f32fma (f32mul u2 g) g (f32mul b2 v)) g
    let w' := (w.zip (m.zip v)).map (fun (w, m, v) =>
      f32fma (f32neg lr) (f32div (f32div m c1) (f32add (f32sqrt (f32div v c2)) (tdEps d))) w)
    (w', m ++ v ++ [c1, c2])

/-- The shards that this chip homes, with the header of a step's half. -/
def ownHalves (ag : Agent) (m : Bytes) (step : Nat) : M (List (Shard × Bytes)) := do
  let s ← get
  ((shardsOf m).filter (fun x => x.chip == s.cfg.chipNum)).mapM (fun x => do
    let (h, _) ← readVa ag (halfVa x step) 64
    return (x, h))

/-- A half of a step is applied. -/
def halfApplied (step : Nat) (h : Bytes) : Bool := hdState h == 3 && hdStep h == step

/-- A half of a step may be applied: it is applying, or open with enough marks. -/
def halfReady (step nchip : Nat) (h : Bytes) : Bool :=
  hdStep h == step && (hdState h == 2 || (hdState h == 1 && decide (nchip ≤ popN (hdMarks h) 256)))

/-- The records [i, count) of a half that belong to the row of record i. -/
def rowRun (ag : Agent) (x : Shard) (d : Bytes) (step row : Nat) : Nat → Nat → M (List (Bytes × Bool))
  | 0, _ => pure []
  | k + 1, i => do
    let (r, t) ← readVa ag (recVa x d step i) (recSize d)
    if fld (wordAt r 0) 39 0 != row then return []
    let rest ← rowRun ag x d step row k (i + 1)
    return (r, t) :: rest

/-- The records of a half in key order: E_RANGE when two keys are equal (R277). -/
def sortedHalf (ag : Agent) (x : Shard) (d : Bytes) (step : Nat) (h : Bytes) : M (List (List (Bytes × Bool))) := do
  let rs ← (List.range (hdCount h)).mapM (fun i => do
    let ps ← readParts ag (recVa x d step i) (recSize d)
    return (ps.flatMap (·.1), ps))
  let l := stableSort (fun a b => decide (recKey a.1 ≤ recKey b.1)) rs
  if dupKeys (l.map (fun r => (r.1, false))) then throw (.code eRange)
  return l.map (·.2)

/-- The Order Unit of a cluster runs a command that has begun, of its queue or of a flight (R333). -/
def ouRuns_ (s : State) (cl : Nat) : Bool :=
  (gUnit s (unitKey (unitCtx s) cl 3)).held.any (fun c => !c.scratch.isEmpty) ||
  s.flights.any (fun f => f.cl == cl && holds s f.ctx && f.active && f.err.isNone && f.stages.any (fun st => stUnit st.rec_ == 3 && !st.scratch.isEmpty && !st.done))

/-- Sorts every open half of a step and sets it to applying, once every half was found without equal keys (R277). It takes the Order Unit
when the running command has ended. A half of more records than one run is merged through the sort scratch, which is left with the
records in order (DESIGN CHOICE: what the passes leave there, no rule says). -/
def sortHalves (ag : Agent) (cl : Nat) (d : Bytes) (step : Nat) (hs : List (Shard × Bytes)) : M Unit := do
  if ouRuns_ (← get) cl then throw .wait
  let ls ← hs.mapM (fun p => sortedHalf ag p.1 d step p.2)
  (hs.zip ls).forM (fun (p, l) => do
    ((List.range l.length).zip l).forM (fun (i, r) => do
      if 65536 < l.length then writeParts ag (p.1.stage + 128 + 2 * p.1.cap + i * recSize d) r
      writeParts ag (recVa p.1 d step i) r)
    writeVa ag (halfVa p.1 step) (halfHead 2 step (hdCount p.2) 0 (hdMarks p.2)) false)

/-- Applies the next row of a half that is applying. -/
def applyRow (ag : Agent) (table : Nat) (x : Shard) (d : Bytes) (step : Nat) (h : Bytes) : M Unit := do
  let i := hdNext h
  let (r0, _) ← readVa ag (recVa x d step i) (recSize d)
  let row := fld (wordAt r0 0) 39 0
  let rs ← rowRun ag x d step row (hdCount h - i) i
  let e := tdElems d
  let g := rs.foldl (fun acc r => acc.zipWith f32add (bytesF32 (slice r.1 16 (4 * e)))) (List.replicate e 0)
  let va := slotVa d x row
  let n := tdRow d + tdState d
  let (b, t) ← readVa ag va n
  let (w, st) := optimize d (rowF32 (tdEt d) (b.take (tdRow d))) (bytesF32 (b.drop (tdRow d))) g
  let taint := t || rs.any (fun r => r.2 || bitOf (wordAt r.1 0) 48)
  writeVa ag va (f32Row (tdEt d) w ++ f32Bytes st) taint
  writeVa ag (halfVa x step) (halfHead 2 step (hdCount h) (i + rs.length) (hdMarks h)) false
  tell (fun s => countTu s ag.ctx table 4)

/-- One step of an APPLY whose table has been read: sort, one row, or the end of a half (R277 to R279). -/
def applyStep (e : UEnv) (scr : Bytes) : M UStep := do
  let c := e.cmd
  let step := tStep c
  let d := scr.take 64
  let on := scr.take (tbLen scr) ++ leBytes (numAt scr (tbLen scr) 8 + 1) 8
  let hs ← ownHalves e.ag (scr.drop 64) step
  let left := hs.filter (fun p => !halfApplied step p.2)
  if !left.all (fun p => halfReady step (tNbag c) p.2) then throw .wait
  let toSort := left.filter (fun p => hdState p.2 == 1)
  match left with
  | [] => return uDone 0
  | (x, h) :: _ =>
    if !toSort.isEmpty then
      sortHalves e.ag e.cl d step toSort
      return { pos := 0, scratch := on }
    else if hdNext h < hdCount h then
      applyRow e.ag (tTable c) x d step h
      return { pos := hdNext h, scratch := on }
    else
      writeVa e.ag (halfVa x step) (halfHead 3 step (hdCount h) (hdNext h) (hdMarks h)) false
      return { pos := hdNext h, scratch := on }

/-- The start of an APPLY: its table, read once (R259); whether all its halves are applied (R279); whether it waits for LAST markers. -/
def applyWait (e : UEnv) : M (Bytes × Bool × Bool) := do
  let tb ← readTable e.ag (tTable e.cmd)
  let hs ← ownHalves e.ag (tb.drop 64) (tStep e.cmd)
  let left := hs.filter (fun p => !halfApplied (tStep e.cmd) p.2)
  return (tb ++ List.replicate 8 0, left.isEmpty, !left.all (fun p => halfReady (tStep e.cmd) (tNbag e.cmd) p.2))

/-- An APPLY that has read its table may go on: the marks are there, or what it meets is a fault. -/
def applyCan (s : State) (e : UEnv) (scr : Bytes) : Bool :=
  match (do
    let hs ← ownHalves e.ag (scr.drop 64) (tStep e.cmd)
    return (hs.filter (fun p => !halfApplied (tStep e.cmd) p.2)).all (fun p => halfReady (tStep e.cmd) (tNbag e.cmd) p.2) : M Bool) s with
  | .ok b _ => b
  | .error _ _ => true

/-! ## The rows -/

/-- The agent of a Table Unit command: AGENT 3 for GATHER, POOL and UPDATE (R265). -/
def tuAgent (cl : Nat) (c : UCmd) : Agent :=
  unitAgent cl c (if c.cmd.length == 64 && 1 ≤ aOp c.cmd && aOp c.cmd ≤ 3 then 3 else 7) (if c.cmd.length == 64 then tCls c.cmd else 1)

def tuEnv (cl : Nat) (c : UCmd) : UEnv := { ag := tuAgent cl c, cl := cl, cmd := c.cmd }

/-- Runs one Table Unit command of the queue, or a flight stage. -/
def tuRun (op : Nat) (step : UEnv → Nat → Nat → Bytes → M UStep) (cl : Nat) (t : UTarget) (s : State) : State :=
  match t with
  | .queue =>
    frontRow s cl 0 (tuAgent cl) op (fun c => !c.waiting) (fun c => tuOk false c.cmd)
      (fun c => runCmd cl 0 c.id (tuAgent cl) (if op = 3 then 0 else tOut c.cmd) (fun c => step (tuEnv cl c) c.id c.pos c.scratch) (2 ^ 34) s)
  | .stage f k =>
    stepStage s cl 0 f k.val op (fun e => tuOk true e.cmd) (fun e pos _ scr => step { e with ag := { e.ag with cls := tCls e.cmd } } 0 pos scr)

/-- GATHER. -/
def execGather (cl : Fin 48) (t : UTarget) (s : State) : Ans := .next (tuRun 1 (fun e _ p c => gatherStep e p c) cl.val t s)
/-- POOL. -/
def execPool (cl : Fin 48) (t : UTarget) (s : State) : Ans := .next (tuRun 2 (fun e _ p c => poolStep e p c) cl.val t s)
/-- UPDATE. -/
def execUpdate (cl : Fin 48) (t : UTarget) (s : State) : Ans := .next (tuRun 3 (fun e _ p c => updateStep e p c) cl.val t s)
/-- LAST. -/
def execLast (cl : Fin 48) (t : UTarget) (s : State) : Ans := .next (tuRun 4 (fun e i _ c => lastStep e i c) cl.val t s)

/-- APPLY: it steps aside until its marks are there, or completes at once when its step is applied (R265, R277, R279). -/
def execApply (cl : Fin 48) (t : UTarget) (s : State) : Ans :=
  match t with
  | .stage f k => .next (stepStage s cl.val 0 f k.val 5 (fun e => tuOk true e.cmd) (fun _ _ _ _ => pure (uDone eRange)))
  | .queue =>
    .next (frontRow s cl.val 0 (tuAgent cl.val) 5 (fun c => !c.waiting) (fun c => tuOk false c.cmd) (fun c =>
      if !c.scratch.isEmpty then s
      else runOp s (tuAgent cl.val c) (applyWait (tuEnv cl.val c))
        (fun (scr, done, waits) s =>
          if done then endCmd s cl.val 0 (tuAgent cl.val c) c 0 else uHeld s c.ctx cl.val 0 c.id (fun c => { c with scratch := scr, waiting := waits }))
        (fun code s => endCmd s cl.val 0 (tuAgent cl.val c) c code)))

/-- An APPLY that has read its table and can go on. -/
def applyNext (s : State) (cl : Nat) (c : UCmd) : Bool :=
  c.cmd.length == 64 && aOp c.cmd == 5 && !c.scratch.isEmpty && applyCan s (tuEnv cl c) c.scratch

/-- APPLY_START: the oldest APPLY that has started and whose marks are there sorts and applies (R265, R277, R278). -/
def execApplyStart (cl : Fin 48) (s : State) : Ans :=
  match frontCmd s cl.val 0 (applyNext s cl.val) with
  | none => .next s
  | some c =>
    if holds s c.ctx && clServes s cl.val then
      .next (runCmd cl.val 0 c.id (tuAgent cl.val) 0 (fun c => applyStep (tuEnv cl.val c) c.scratch) (2 ^ 34)
        (uHeld s c.ctx cl.val 0 c.id (fun c => { c with waiting := false })))
    else .next s

end Sys2Proof.Machine
end

