-- ==== Sys2Proof/Machine/Fabric.lean ====
section
/-! DEFINITION. Lockway requests and responses (spec/13 R416 to R419, R436, R437): what a target serves, how an answer reaches its
request, and the home side of the Table Unit (spec/08 R262, R270, R273 to R276). -/

namespace Sys2Proof.Machine

/-- A message of a type met at a port: what it does when it is for this chip. -/
def onMsg (s : State) (port : Fin 12) (ty : Nat) (m : Msg) (f : Msg → State → State) : Ans :=
  match recvMsg s port.val ty m with
  | .drop s => .next s
  | .take m s => .next (f m s)

/-- Answers a request: in its class, with its RID and WDRN (R407, R416, R423). -/
def reply (s : State) (m : Msg) (ty taint : Nat) (payload : Bytes) : State :=
  sendMsg s (mCtx m) (mSys m) ty (mClass m) (mSrc m) (mRid m) (mWdrn m) taint 0 0 payload

/-- Refuses a request (R408). -/
def refuseMsg (s : State) (m : Msg) (code : Code) : State := reply s m tRefuse 0 (code :: List.replicate 15 0)

/-! ## The target of a remote access (R189, R417, R418) -/

/-- Why a target refuses an access to `n` bytes: no HBM there, or a page that is not the context's. -/
def targetCode (s : State) (m : Msg) (n : Nat) : Option Code :=
  let loc := localOf (mAddr m)
  if chipOf (mAddr m) != s.cfg.chipNum || hbmEnd < loc + n || n = 0 || 256 < n then some eRange
  else if (cut 65536 loc n).all (fun p => Tab.get 0 s.mem.own (p.1 / 65536) == mCtx m + 1) then none
  else some eDenied

/-- Reads HBM granule by granule: bytes, granule taint bits. -/
def readTarget (s : State) (ctx loc n : Nat) : Bytes × Nat × State :=
  let (b, t, _, s) := (cut 64 loc n).foldl (fun (b, t, i, s) p =>
    let (c, u, s) := hbmPiece s ctx p.1 p.2
    (b ++ c, t + b2n u * 2 ^ i, i + 1, s)) (([], 0, 0, s) : Bytes × Nat × Nat × State)
  (b, t, s)

/-- Writes HBM granule by granule with their taints; a mask, when not empty, enables single bytes. A granule of which no byte is enabled
takes the taint alone (R142, R253). Whether a write was lost. -/
def writeTarget (s : State) (ctx loc : Nat) (b : Bytes) (mask : List Bool) (taint : Nat) : State × Bool :=
  let ps := cut 64 loc b.length
  (ps.zip (List.range ps.length)).foldl (fun (s, lost) (p, i) =>
    let d := slice b (p.1 - loc) p.2
    let on := if mask.isEmpty then List.replicate p.2 true else (mask.drop (p.1 - loc)).take p.2
    if on.all id then
      let (s, l) := hbmWrite s ctx p.1 d (taint.testBit i)
      (s, lost || l)
    else if !on.any id then
      (if taint.testBit i then uMem s (fun m => { m with taint := Tab.set false m.taint (p.1 / 64) true }) else s, lost)
    else
      (List.range p.2).foldl (fun (s, lost) j =>
        if on.getD j false then
          let (s, l) := hbmWrite s ctx (p.1 + j) [d.getD j 0] (taint.testBit i)
          (s, lost || l)
        else (s, lost)) (s, lost)) (s, false)

/-- RD_REQ (R417). -/
def execRdReq (port : Fin 12) (m : Msg) (s : State) : Ans :=
  onMsg s port tRdReq m (fun m s =>
    match targetCode s m (mLenB m) with
    | some c => refuseMsg s m c
    | none =>
      let (b, t, s) := readTarget s (mCtx m) (localOf (mAddr m)) (mLenB m)
      reply s m tRdRsp t b)

/-- WR_REQ (R417, R418). -/
def execWrReq (port : Fin 12) (m : Msg) (s : State) : Ans :=
  onMsg s port tWrReq m (fun m s =>
    match targetCode s m (mLenB m) with
    | some c => refuseMsg s m c
    | none =>
      let masked := bitOf m.w3 9
      let mask := if masked then (List.range 256).map (fun i => (ofLe (slice m.payload 0 32)).testBit i) else []
      let d := slice m.payload (if masked then 32 else 0) (mLenB m)
      let (s, lost) := writeTarget s (mCtx m) (localOf (mAddr m)) d mask (mTaint m)
      if lost then refuseMsg s m eTmoHbm else reply s m tWrRsp 0 [])

/-- AMO_REQ (R138, R417, R418). -/
def execAmoReq (port : Fin 12) (m : Msg) (s : State) : Ans :=
  onMsg s port tAmoReq m (fun m s =>
    let sz := fld m.w3 5 4
    let fn := fld m.w3 3 0
    let n := 2 ^ sz
    if sz < 2 || 9 < fn || mAddr m % n != 0 then refuseMsg s m eRange
    else match targetCode s m n with
      | some c => refuseMsg s m c
      | none =>
        let loc := localOf (mAddr m)
        let (b, t, s) := readTarget s (mCtx m) loc n
        let (s, lost) := match amoNew fn sz (ofLe b) (numAt m.payload 0 8) (numAt m.payload 8 8) with
          | some v => writeTarget s (mCtx m) loc (leBytes v n) [] (mTaint m)
          | none => (s, false)
        if lost then refuseMsg s m eTmoHbm else reply s m tAmoRsp t b)

/-! ## Answers (R416 to R419, R436) -/

/-- A request that waits for a message of this kind; a REFUSE under the reach key answers any context's (spec/13 Corners). -/
def rtxFits (t : RTx) (m : Msg) (kinds : List Nat) : Bool :=
  t.rid == mRid m && (t.ctx == mCtx m || (mSys m && mType m == tRefuse)) && t.dst == mSrc m && t.st == 0 && kinds.contains t.kind

/-- An answer reaches its request, and requests that a route change held may go (R419). -/
def answer (s : State) (m : Msg) (kinds : List Nat) (st : Nat) (code : Code) : State :=
  if s.rtxs.any (fun t => rtxFits t m kinds) then
    let s := { s with rtxs := s.rtxs.map (fun t => if rtxFits t m kinds then { t with st := st, data := m.payload, taint := mTaint m, code := code, wdrn := mWdrn m } else t) }
    let s := { s with rtxs := s.rtxs.filter (fun t => t.kind != kTaint || inFlight t) }
    allRecords (releaseHeld s s.rtxs)
  else s

/-- RD_RSP (R416, R437). -/
def execRdRsp (port : Fin 12) (m : Msg) (s : State) : Ans := onMsg s port tRdRsp m (fun m s => answer s m [kRead] 1 0)
/-- WR_RSP (R418). -/
def execWrRsp (port : Fin 12) (m : Msg) (s : State) : Ans := onMsg s port tWrRsp m (fun m s => answer s m [kWrite, kTaint] 1 0)
/-- AMO_RSP (R418). -/
def execAmoRsp (port : Fin 12) (m : Msg) (s : State) : Ans := onMsg s port tAmoRsp m (fun m s => answer s m [kAmo] 1 0)

/-- The context whose request a REFUSE answers. -/
def refusedCtx (s : State) (m : Msg) : Nat :=
  match s.rtxs.find? (fun t => rtxFits t m [kRead, kWrite, kAmo, kRow, kStage, kTaint]) with | some t => t.ctx | none => mCtx m

/-- REFUSE (R417, R440). -/
def execRefuse (port : Fin 12) (m : Msg) (s : State) : Ans :=
  onMsg s port tRefuse m (fun m s =>
    let s := uCtx s (refusedCtx s m) (fun c => { c with lw := { c.lw with refused := bump16 c.lw.refused 1 } })
    answer s m [kRead, kWrite, kAmo, kRow, kStage, kTaint] 3 (m.payload.headD 0))

/-- The agent that a request belongs to (R191). -/
def reqAgent (s : State) (t : RTx) : Agent :=
  match s.ops.find? (fun o => o.id == t.owner) with
  | some o => threadAgent o.ctx o.thread o.pc o.id
  | none =>
    match (List.range 16).find? (fun h => hartId t.ctx h == t.owner) with
    | some h => hartAgent t.ctx h (gHart s h).pc
    | none =>
      match s.units.find? (fun e => e.2.held.any (fun c => c.id == t.owner)) with
      | some (k, x) => (match x.held.find? (fun c => c.id == t.owner) with
        | some c => unitAgent (k / 5 % 48) c (if k % 5 = 0 then (tuAgent (k / 5 % 48) c).kind else 7) 1
        | none => { id := t.owner, ctx := t.ctx })
      | none =>
        match s.flights.find? (fun f => f.id == t.owner % 2 ^ 64) with
        | some f => flightAgent f.ctx f.cl t.owner (fClass f.hdr) (agentStage f t.owner) f.owner
        | none => { id := t.owner, ctx := t.ctx }

/-- The request of a barge or of a towpath transfer, which have their own timeouts (R436). -/
def ownTimeout (s : State) (t : RTx) : Bool :=
  s.tows.any (fun w => w.id == t.owner) || s.queues.any (fun e => e.2.descs.any (fun d => d.id == t.owner))

/-- LOCKWAY_TIMEOUT (R436). -/
def execLockwayTimeout (rid : BitVec 16) (s : State) : Ans :=
  match s.rtxs.find? (fun t => t.rid == rid && t.st == 0) with
  | none => .next s
  | some t =>
    if !holds s t.ctx || ownTimeout s t then .next s
    else
      let s := uCtx s t.ctx (fun c => { c with lw := { c.lw with tmo := bump16 c.lw.tmo 1 } })
      let s := { s with rtxs := (s.rtxs.map (fun u => if u.rid = rid then { u with st := 2, msg := none } else u)).filter (fun t => t.kind != kTaint || inFlight t) }
      let s := if t.kind = kWrite || t.kind = kAmo then faultAtTick (errRecord s (reqAgent s t) eTmoLw) t.ctx eTmoLw else s
      .next (allRecords (releaseHeld s s.rtxs))

/-! ## The home chip of a table (R262, R270, R273 to R276) -/

/-- The agent of a request at its home chip. -/
def homeAgent (n id : Nat) : Agent := { id := id, ctx := n, kind := 7, detail := Config.recordDetail (2 * id) }

def tuTable (m : Msg) : Nat := fld m.w3 15 4
def tuTop (m : Msg) : Nat := fld m.w3 3 0
def tuStepOf (m : Msg) : Nat := fld m.w3 31 16

/-- The own shard that an address of a slot lies in. -/
def shardOfSlot (s : State) (d map : Bytes) (va : Nat) : Option Shard :=
  (shardsOf map).find? (fun x => x.chip == s.cfg.chipNum && decide (x.base ≤ va) &&
    (let row := x.first + (va - x.base) / max 1 (tdPitch d)
     decide (row < tdRows d) && (homeOf map row).map (·.first) == some x.first))

/-- The key of what pieces of a flow assemble. -/
def partKey (m : Msg) : Nat := mSrc m * 4 + mClass m

/-- A piece of a row: at most 256 bytes from offset `off`, and its granule taints. -/
def rowPiece (va off n : Nat) (row : List (Bytes × Bool)) : Bytes × Nat :=
  let ps := (cut 64 (va + off) (min 256 (n - off))).map (fun p => partsRead row (p.1 - va) p.2)
  let t := ps.foldr (fun p acc => b2n p.2 + 2 * acc) 0
  (ps.flatMap (·.1), t % 16 ||| (if 16 ≤ t then 8 else 0))

/-- The row at `va` as a flow reads it: the first piece reads it whole, the others come from the same reading (R270). -/
def rowWhole (ag : Agent) (flow va n off : Nat) : M (List (Bytes × Bool)) := do
  let s ← get
  match (gCtx s ag.ctx).tuSnap.find? (fun x => x.flow == flow && x.va == va && x.left.contains off) with
  | some x =>
    let used (y : RowSnap) : RowSnap := { y with left := y.left.erase off }
    set (uCtx s ag.ctx (fun c => { c with tuSnap := (c.tuSnap.map (fun y => if y = x then used y else y)).filter (fun y => !y.left.isEmpty) }))
    return x.row
  | none =>
    let row ← readParts ag va n
    let left := ((List.range (ceilDiv n 256)).map (256 * ·)).erase off
    if !left.isEmpty && off % 256 == 0 then
      tell (fun s => uCtx s ag.ctx (fun c => { c with tuSnap := c.tuSnap ++ [{ flow := flow, va := va, row := row, left := left }] }))
    return row

/-- A ROW request: at most 256 bytes of the row from the address on, and its granule taints. -/
def homeRow (ag : Agent) (m : Msg) : M (Bytes × Nat) := do
  let tb ← readTable ag (tuTable m)
  let d := tb.take 64
  let va := fld m.w2 47 0
  let s ← get
  match shardOfSlot s d (tb.drop 64) va with
  | none => throw (.code eRange)
  | some x =>
    let off := (va - x.base) % tdPitch d
    if tdRow d ≤ off then throw (.code eRange)
    let row ← rowWhole ag (partKey m) (va - off) (tdRow d) off
    return rowPiece (va - off) off (tdRow d) row

/-- A piece of a RECORD: kept until the record is whole, then staged (R262, R273). The first byte of what is kept is its taint. -/
def homeRecord (ag : Agent) (m : Msg) : M Unit := do
  let tb ← readTable ag (tuTable m)
  let d := tb.take 64
  let map := tb.drop 64
  let s ← get
  let n := ag.ctx
  let old := match (gCtx s n).tuPart.find? (fun e => e.1 == partKey m) with | some e => e.2 | none => [0]
  let all := [BitVec.ofNat 8 (b2n (old.headD 0 != 0 || mTaint m != 0))] ++ old.drop 1 ++ m.payload
  let rest := (gCtx s n).tuPart.filter (fun e => e.1 != partKey m)
  if all.length < 1 + recSize d then
    set (uCtx s n (fun c => { c with tuPart := rest ++ [(partKey m, all)] }))
  else
    set (uCtx s n (fun c => { c with tuPart := rest }))
    let r := (all.drop 1).take (recSize d)
    match homeOf map (fld (wordAt r 0) 39 0) with
    | none => throw (.code eRange)
    | some x =>
      if x.chip != s.cfg.chipNum then throw (.code eRange)
      countFull n (tuTable m) (stageRecord ag (tuTable m) d x (tuStepOf m) r (all.headD 0 != 0))

/-- The record whose last piece this is names a row whose home, by this chip's map, is another chip (R262). -/
def wrongHome (s : State) (ag : Agent) (m : Msg) : Bool :=
  match (do
    let tb ← readTable ag (tuTable m)
    let s ← get
    let old := match (gCtx s ag.ctx).tuPart.find? (fun e => e.1 == partKey m) with | some e => e.2.drop 1 | none => []
    match homeOf (tb.drop 64) (fld (wordAt (old ++ m.payload) 0) 39 0) with
    | none => return false
    | some x => return x.chip != s.cfg.chipNum : M Bool) s with
  | .ok b _ => b
  | .error _ _ => false

/-- A LAST marker. -/
def homeLast (ag : Agent) (m : Msg) : M Unit := do
  let tb ← readTable ag (tuTable m)
  countFull ag.ctx (tuTable m) (stageLast ag (tb.drop 64) (tuStepOf m) (mSrc m))

/-- Serves one waiting request: it is answered, or stays. -/
def serveOne (s : State) (n id : Nat) (m : Msg) : State :=
  let ag := homeAgent n id
  let gone (s : State) : State := uCtx s n (fun c => { c with tuWait := c.tuWait.filter (fun e => e.1 != id) })
  let forget (s : State) : State := uCtx s n (fun c => { c with tuPart := c.tuPart.filter (fun e => e.1 != partKey m) })
  if tuTop m = topRow then
    runOp s ag (homeRow ag m) (fun (b, t) s => reply (gone s) m tTuRsp t b) (fun c s => refuseMsg (gone s) m c)
  else if tuTop m = topRecord then
    let wrong := wrongHome s ag m
    runOp s ag (homeRecord ag m) (fun _ s => reply (gone s) m tTuRsp 0 [])
      (fun c s => refuseMsg (forget (gone (if wrong && c == eRange then countTu s n (tuTable m) 5 else s))) m c)
  else if tuTop m = topLast then
    runOp s ag (homeLast ag m) (fun _ s => reply (gone s) m tTuRsp 0 []) (fun c s => refuseMsg (gone s) m c)
  else refuseMsg (gone s) m eRange

/-- Serves the waiting requests of a context that holds the pound: each flow in its order (R419; spec/08 At the tick). -/
def serveTu (s : State) (n : Nat) : State :=
  if !holds s n then s
  else
    ((gCtx s n).tuWait.foldl (fun (acc : State × List Nat) e =>
      let (s, blocked) := acc
      if blocked.contains (partKey e.2) then (s, blocked)
      else
        let s := serveOne s n e.1 e.2
        if (gCtx s n).tuWait.any (fun w => w.1 == e.1) then (s, partKey e.2 :: blocked) else (s, blocked)) (s, [])).1

/-- TU_REQ. -/
def execTuReq (port : Fin 12) (m : Msg) (s : State) : Ans :=
  onMsg s port tTuReq m (fun m s =>
    let (id, s) := freshId s
    serveTu (uCtx s (mCtx m) (fun c => { c with tuWait := c.tuWait ++ [(id, m)] })) (mCtx m))

/-- TU_RSP. -/
def execTuRsp (port : Fin 12) (m : Msg) (s : State) : Ans :=
  onMsg s port tTuRsp m (fun m s => serveTu (answer s m [kRow, kStage] 1 0) (mCtx m))

end Sys2Proof.Machine
end

