-- ==== Sys2Proof/Machine/Ports.lean ====
section
/-! DEFINITION. Lockway ports and routes (spec/13 R393 to R406, R428 to R433): bring-up, flits and their retry, lanes, failure,
topologies and the route generations. -/

namespace Sys2Proof.Machine

/-! ## Topologies (R428 to R433) -/

/-- The chips of the topology. -/
def topoSize (s : State) : Nat := if s.cfg.topo = 1 then s.cfg.topoX * s.cfg.topoY else if s.cfg.topo = 2 then s.cfg.group else 1

/-- The chips one step away from a chip (R429, R430), itself left out. -/
def neighbours (s : State) (c : Nat) : List Nat :=
  if s.cfg.topo = 2 then (List.range s.cfg.group).filter (· != c)
  else if s.cfg.topo = 1 then
    let x := chipX s c
    let y := chipY s c
    let w := s.cfg.topoX
    let h := s.cfg.topoY
    ([y * w + (x + 1) % w, y * w + (x + w - 1) % w, (y + 1) % h * w + x, (y + h - 1) % h * w + x].filter (· != c)).eraseDups
  else []

/-- A trunk is known to be down, at either end. -/
def linkDead (s : State) (a b : Nat) : Bool := Tab.get false s.reach.links (a * 256 + b) || Tab.get false s.reach.links (b * 256 + a)

/-- One step along a ring of `n` the shorter way, + when both are equally long (R432). -/
def ringStep (n a b : Nat) : Nat := if 2 * ((b + n - a) % n) ≤ n then (a + 1) % n else (a + n - 1) % n

/-- The next chip on the minimal route (R432): first in x, then in y. -/
def nextHop (s : State) (a b : Nat) : Nat :=
  if s.cfg.topo != 1 then b
  else if chipX s a != chipX s b then chipY s a * s.cfg.topoX + ringStep s.cfg.topoX (chipX s a) (chipX s b)
  else ringStep s.cfg.topoY (chipY s a) (chipY s b) * s.cfg.topoX + chipX s a

/-- The chips of the minimal route after the first. -/
def minPath (s : State) (b : Nat) : Nat → Nat → List Nat
  | 0, _ => []
  | k + 1, a => if a = b then [] else nextHop s a b :: minPath s b k (nextHop s a b)

/-- Every trunk of a path is up. -/
def pathLive (s : State) : Nat → List Nat → Bool
  | _, [] => true
  | a, b :: r => !linkDead s a b && pathLive s b r

/-- Breadth-first search over the links that are up: chip to parent + 1 (R433). -/
def bfsTree (s : State) : Nat → List Nat → Tab Nat → Tab Nat
  | 0, _, t => t
  | k + 1, front, t =>
    let (t, next) := front.foldl (fun (acc : Tab Nat × List Nat) a =>
      (neighbours s a).foldl (fun (t, l) b => if Tab.get 0 t b = 0 && !linkDead s a b then (Tab.set 0 t b (a + 1), l ++ [b]) else (t, l)) acc) (t, [])
    if next.isEmpty then t else bfsTree s k next t

/-- The chips from one up to the root of the tree. -/
def toRoot (t : Tab Nat) (root : Nat) : Nat → Nat → List Nat
  | 0, _ => []
  | k + 1, c => if c = root then [c] else match Tab.get 0 t c with | 0 => [] | p + 1 => c :: toRoot t root k p

/-- The path between two chips over the tree: up, then down; the chips after the first. -/
def treePath (a b : List Nat) : List Nat :=
  match a.find? (fun c => b.contains c) with
  | none => []
  | some m => ((a.takeWhile (· != m)) ++ m :: (b.takeWhile (· != m)).reverse).drop 1

/-- The ports that the image enables toward a chip. -/
def portsTo (s : State) (c : Nat) : Nat :=
  (List.range 12).foldl (fun acc i => let e := s.cfg.ports.getD i 0; if bitOf e 12 && fld e 7 0 = c then acc + 2 ^ i else acc) 0

/-- A route record (R441). -/
def routeRec (s : State) (rer : Bool) (path : List Nat) : BitVec 32 :=
  match path with
  | [] => 0
  | c :: _ => BitVec.ofNat 32 (2 ^ 31 + b2n rer * (2 ^ 30 + 2 ^ 29) + min path.length 31 * 2 ^ 24 + portsTo s c * 4096)

/-- The route records that the links known now give (R432, R433). -/
def computeRoutes (s : State) : Tab (BitVec 32) :=
  let n := topoSize s
  let me := s.cfg.chipNum
  let t := bfsTree s (n + 1) [s.cfg.tickMaster] [(s.cfg.tickMaster, s.cfg.tickMaster + 1)]
  let up := toRoot t s.cfg.tickMaster (n + 1) me
  (List.range n).foldl (fun (acc : Tab (BitVec 32)) c =>
    if c = me then Tab.set 0 acc c (BitVec.ofNat 32 (2 ^ 31))
    else
      let p := minPath s c (n + 1) me
      let r := if pathLive s me p then routeRec s false p
        else routeRec s true (let d := toRoot t s.cfg.tickMaster (n + 1) c; if up.isEmpty || d.isEmpty then [] else treePath up d)
      Tab.set 0 acc c r) []

/-- What is known of a link changes (R433): the new generation takes effect at the tick of `at_`, or now while no reach has formed.
`seenRoutes` are the routes over the links known now. -/
def setLink (s : State) (a b : Nat) (dead : Bool) (at_ : Word) : State :=
  let k := a * 256 + b
  if Tab.get false s.reach.links k = dead then s
  else
    let s := { s with reach := { s.reach with links := Tab.set false s.reach.links k dead } }
    let seen := computeRoutes s
    if s.reach.rstate = 1 then { s with reach := { s.reach with seenRoutes := seen, linkNext := s.reach.linkNext ++ [(at_, k, dead)] } }
    else { s with reach := { s.reach with seenRoutes := seen, routes := seen, linksNow := s.reach.links } }

/-- The route generation stamped for this pound (R433): the link changes that are due, and the routes over the links then in force. -/
def nextGeneration (s : State) : State :=
  let due := s.reach.linkNext.filter (fun e => decide (e.1.toNat ≤ s.tick.pound.toNat))
  let now := due.foldl (fun t e => Tab.set false t e.2.1 e.2.2) s.reach.linksNow
  let routes := computeRoutes { s with reach := { s.reach with links := now } }
  { s with reach := { s.reach with
    routes := routes, linksNow := now, routeGen := s.reach.routeGen + 1
    linkNext := s.reach.linkNext.filter (fun e => !decide (e.1.toNat ≤ s.tick.pound.toNat)) } }

/-- This chip's trunk to a neighbour: when its last port goes, or its first comes, every chip is told. -/
def trunkCheck (s : State) (c : Nat) : State :=
  let dead := (trunkPorts s (portsTo s c)).isEmpty
  let me := s.cfg.chipNum
  if Tab.get false s.reach.links (me * 256 + c) = dead then s
  else
    let at_ := s.tick.pound + 4
    let s := setLink s me c dead at_
    (otherChips s).foldl (fun s x => sendMgmt s x mopLink (leBytes me 1 ++ leBytes c 1 ++ leBytes (b2n dead) 6 ++ wordBytes at_)) s

/-! ## Port states (R393 to R396, R404 to R406, R439) -/

/-- A port changes its STATE; the log says so (R543). -/
def portState (s : State) (i : Nat) (st : BitVec 4) : State :=
  if (gPort s i).st = st then s else logRec (uPort s i (fun p => { p with st := st })) 0x0070 2 63 1 (BitVec.ofNat 64 i) (BitVec.ofNat 64 st.toNat)

/-- The port is in use by the image and the topology. -/
def portEnabled (s : State) (i : Nat) : Bool := s.cfg.topo != 0 && bitOf (s.cfg.ports.getD i 0) 12

/-- The link layer of a port starts afresh: full credit, nothing unacknowledged (R401). -/
def freshLink (p : Port) : Port :=
  { p with txSeq := 0, rxLast := 0xFFF, nakSent := false, unacked := [], used := [], rxUsed := [], owed := [], waitTx := [], backNext := none }

/-- The state in service: degraded with fewer than 8 lanes (R423). -/
def upState (p : Port) : BitVec 4 := if laneCount p < 8 then 3 else 2

/-- A port enters service. -/
def portUpNow (s : State) (i : Nat) : State :=
  let s := portState (uPort s i freshLink) i (upState (gPort s i))
  let s := trunkCheck s (gPort s i).peerChip.toNat
  if s.reach.rstate = 1 then s else { s with reach := { s.reach with routes := computeRoutes s } }

/-- Sends again what a failed port still held (R406). -/
def resend (s : State) (l : List (Nat × Msg)) : State :=
  l.foldl (fun s w =>
    if w.1 = 0 then routeMsg s none w.2
    else
      let inP := w.1 - 1
      let s' := routeMsg s (some inP) w.2
      let waits := (List.range 12).any (fun i => (gPort s' i).waitTx.any (fun v => v.1 == w.1 && v.2.tag == w.2.tag && v.2.w1 == w.2.w1))
      if waits then s' else freeRx s' inP (msgCvc w.2) (msgChunks w.2)) s

/-- A port fails (R405, R406). -/
def failPort (s : State) (i : Nat) (code : Code) : State :=
  let p := gPort s i
  if !portUp p then s
  else
    let held := p.unacked.filterMap (fun f => f.msg.map (fun m => (0, m))) ++ p.waitTx
    let s := portState (uPort s i (fun p => { freshLink p with lastFail := code })) i 6
    resend (trunkCheck s p.peerChip.toNat) held

/-- A code for LAST_FAIL where the spec names none. -/
def failPortFree (s : State) (i : Nat) : State :=
  let (k, s) := freshFree s
  failPort s i (Config.portFailCode k)

/-- The chip tells the tick master who it is (R434, R500): once a port to it is up, before a reach forms. -/
def sendHello (s : State) : State :=
  if s.reach.rstate != 0 || s.cfg.chipNum = s.cfg.tickMaster || !(routeOf s s.cfg.tickMaster).getLsbD 31 then s
  else
    let c := s.cfg
    let s := sendMgmt s c.tickMaster mopHello (
      leBytes c.chipNum 1 ++ leBytes c.tickMaster 1 ++ leBytes c.topo 1 ++ leBytes c.topoX 1 ++ leBytes c.topoY 1 ++ leBytes c.group 3 ++
      slice s.otp.deviceIdHash 0 8 ++ leBytes c.tickPeriod 8)
    sendMgmt s c.tickMaster mopShare (leBytes s.sec.mode.toNat 8 ++ Config.ownShare 0)

/-! ## Meanings -/

/-- PORT_DELAY_MEASURE (R396): in units of 0.1 ns; above 20 ns the port is held down. -/
def execPortDelayMeasure (port : Fin 12) (delay : BitVec 16) (s : State) : Ans :=
  let i := port.val
  let p := gPort s i
  if !(isReady s || s.boot.phase == .booting) || !portEnabled s i || !(p.st == 1 || portUp p || p.st == 5) || laneCount p < 4 then .next s
  else
    let s := uPort s i (fun p => { p with delay := delay })
    if 200 < delay.toNat then
      let s := portState (uPort s i freshLink) i 5
      .next (resend (trunkCheck s p.peerChip.toNat) (p.unacked.filterMap (fun f => f.msg.map (fun m => (0, m))) ++ p.waitTx))
    else if portUp p then .next s
    else .next (sendHello (portUpNow s i))

/-- A trained port leads where the topology and the image want it (R429 to R431). -/
def portWired (s : State) (i : Nat) (peerChip : BitVec 8) (peerPort : BitVec 4) : Bool :=
  let e := s.cfg.ports.getD i 0
  fld e 7 0 == peerChip.toNat && fld e 11 8 == peerPort.toNat && (neighbours s s.cfg.chipNum).contains peerChip.toNat

/-- PORT_RETRAIN (R405, R434): training ends with a set of lanes and finds the peer; at bring-up the delay is measured next, a failed
port returns at the next tick. -/
def execPortRetrain (port : Fin 12) (lanes : BitVec 8) (peerChip : BitVec 8) (peerPort : BitVec 4) (s : State) : Ans :=
  let i := port.val
  let p := gPort s i
  let on := lanes &&& BitVec.ofNat 8 (fld (s.cfg.ports.getD i 0) 23 16)
  if !(isReady s || s.boot.phase == .booting) || !portEnabled s i || !(p.st == 1 || p.st == 6) || popN on.toNat 8 < 4 then .next s
  else
    let s := uPort s i (fun p => { p with peerChip := peerChip, peerPort := peerPort })
    if !portWired s i peerChip peerPort then .next (portState s i 4)
    else if p.st = 1 then .next (uPort s i (fun p => { p with lanes := on }))
    else .next (uPort s i (fun p => { p with backNext := some on }))

/-- The bit of a lane. -/
def laneBit (l : Nat) : BitVec 8 := (1 : BitVec 8) <<< l

/-- LANE_DROP (R404, R405). -/
def execLaneDrop (port : Fin 12) (lane : Fin 8) (s : State) : Ans :=
  let i := port.val
  let p := gPort s i
  if !portUp p || !p.lanes.getLsbD lane.val then .next s
  else
    let s := uPort s i (fun p => { p with lanes := p.lanes &&& ~~~(laneBit lane.val), retrained := p.retrained &&& ~~~(laneBit lane.val), laneDrop := bump16 p.laneDrop 1 })
    if laneCount (gPort s i) < 4 then .next (failPortFree s i) else .next (portState s i 3)

/-- LANE_RETRAINED (R404): the lane is ready and rejoins in a tick hold. -/
def execLaneRetrained (port : Fin 12) (lane : Fin 8) (s : State) : Ans :=
  let p := gPort s port.val
  if portUp p && !p.lanes.getLsbD lane.val && bitOf (s.cfg.ports.getD port.val 0) (16 + lane.val) then
    .next (uPort s port.val (fun p => { p with retrained := p.retrained ||| laneBit lane.val }))
  else .next s

/-- CREDIT_TIMEOUT (R405): a message has waited 100 µs for credit. -/
def execCreditTimeout (port : Fin 12) (s : State) : Ans :=
  if (gPort s port.val).waitTx.isEmpty then .next s else .next (failPort s port.val eTmoCredit)

/-- PEER_STOPS_ANSWERING (R405). -/
def execPeerStopsAnswering (port : Fin 12) (s : State) : Ans :=
  if portUp (gPort s port.val) then .next (failPortFree s port.val) else .next s

/-- What the tick does for the ports (spec/13 At the tick): degraded ports return to up, one retrained lane rejoins, retrained ports return. -/
def portsTick (s : State) : State :=
  (List.range 12).foldl (fun s i =>
    let p := gPort s i
    if portUp p then
      let s := match (List.range 8).find? (fun l => p.retrained.getLsbD l) with
        | some l => uPort s i (fun p => { p with lanes := p.lanes ||| laneBit l, retrained := p.retrained &&& ~~~(laneBit l) })
        | none => s
      portState s i (upState (gPort s i))
    else match p.backNext with
      | some on => if p.st = 6 then portUpNow (uPort s i (fun p => { p with lanes := on, retrained := 0 })) i else s
      | none => s) s

/-! ## Flits (R397 to R403) -/

/-- The distance from one sequence number to another. -/
def seqDist (a b : BitVec 12) : Nat := (b - a).toNat

/-- Flits up to FACK are acknowledged. -/
def ackFlits (p : Port) (fack : BitVec 12) : Port :=
  match p.unacked with
  | [] => p
  | f :: _ => if seqDist f.seq fack < p.unacked.length then { p with unacked := p.unacked.drop (seqDist f.seq fack + 1) } else p

/-- A credit return (R403). -/
def takeCredit (p : Port) (csel ccnt : Nat) : Port :=
  if ccnt = 0 then p
  else if 12 ≤ csel || Tab.get 0 p.used csel < ccnt then { p with creditErr := bump16 p.creditErr 1 }
  else { p with used := Tab.modify 0 p.used csel (· - ccnt) }

/-- A NAK: every unacknowledged flit is sent again (R399, R400). -/
def replay (s : State) (i : Nat) : State :=
  let p := gPort s i
  if p.unacked.isEmpty then s
  else
    let s := uPort s i (fun p => { p with unacked := p.unacked.map (fun f => { f with replays := f.replays + 1 }), replay := bump16 p.replay 1 })
    let l := (gPort s i).unacked
    if l.any (fun f => decide (8 ≤ f.replays)) then failPortFree s i
    else
      let s := if l.any (fun f => decide (2 ≤ f.replays)) then portState s i 3 else s
      l.foldl (fun s f => emit s (.flit i f.data)) s

/-- A flit is discarded: one NAK names the last good flit. -/
def discard (s : State) (i : Nat) : State :=
  if (gPort s i).nakSent then s else sendIdle (uPort s i (fun p => { p with nakSent := true })) i true

/-- FLIT_RECEIVE (R398 to R403). The messages that data flits carry arrive as commands of their own. -/
def execFlitReceive (port : Fin 12) (flit : Bytes) (fec : Fec) (s : State) : Ans :=
  let i := port.val
  if !portUp (gPort s i) then .next s
  else
    let s := if fec = .corrected then uPort s i (fun p => bumpPort p 0 (·.fecc) (fun p x => { p with fecc := x })) else s
    let b := slice flit 0 256
    let w := wordAt b 0
    if fec = .uncorrectable || numAt b 248 8 != crc32c 0xFFFFFFFF (b.take 248) then
      .next (discard (uPort s i (fun p => { p with uncorr := if fec = .uncorrectable then bump16 p.uncorr 1 else p.uncorr })) i)
    else if fld w 63 62 = 3 then .next s
    else
      let s := uPort s i (fun p => takeCredit (ackFlits p (BitVec.ofNat 12 (fld w 49 38))) (fld w 36 33) (fld w 32 22))
      let s := if bitOf w 37 then replay s i else s
      let s := drainTx s i ((gPort s i).waitTx.length)
      if fld w 63 62 != 1 || !portUp (gPort s i) then .next s
      else
        let q := BitVec.ofNat 12 (fld w 61 50)
        let p := gPort s i
        if q = p.rxLast + 1 then
          let s := uPort s i (fun p => bumpPort { p with rxLast := q, nakSent := false } 2 (·.rxf) (fun p x => { p with rxf := x }))
          .next (sendIdle s i false)
        else if seqDist q p.rxLast < 1024 then .next (sendIdle s i false)
        else .next (discard s i)

end Sys2Proof.Machine
end

