-- ==== Sys2Proof/Machine/Collective.lean ====
section
/-! DEFINITION. Collectives (spec/16 R533 to R540) and the MGMT orders of the lock keepers (spec/13 R427, R433 to R435; spec/02 R57;
spec/06 R188; spec/15 R500). -/

namespace Sys2Proof.Machine

/-! ## Who takes part (R535 to R537) -/

def reachMembers (s : State) : List Nat :=
  if s.reach.rstate = 1 then (List.range 256).filter (fun c => s.reach.members.getLsbD c) else [s.cfg.chipNum]

/-- The phases of a collective (R537). -/
def collPhases (s : State) (c : Coll) : Nat := if c.op != 1 then 1 else if s.cfg.topo = 1 then 4 else 2

/-- A reduce-scatter phase. -/
def collReduces (s : State) (c : Coll) (p : Nat) : Bool := c.op == 1 && (p == 1 || (s.cfg.topo == 1 && p == 2))

/-- The members of this chip's row and column. -/
def rowMembers (s : State) : List Nat := (reachMembers s).filter (fun m => chipY s m == chipY s s.cfg.chipNum)
def colMembers (s : State) : List Nat := (reachMembers s).filter (fun m => chipX s m == chipX s s.cfg.chipNum)

/-- Who exchanges fragments in a phase. -/
def collGroup (s : State) (c : Coll) (p : Nat) : List Nat :=
  if c.op != 1 || s.cfg.topo != 1 then reachMembers s else if p = 1 || p = 4 then rowMembers s else colMembers s

/-- The place of a chip in a list. -/
def rankIn (l : List Nat) (m : Nat) : Nat := l.findIdx (· == m)

/-- The bytes of the chunk of the first reduce-scatter, and of the second one of a torus. -/
def collLa (s : State) (c : Coll) : Nat := c.len / max 1 (collGroup s c 1).length
def collLb (s : State) (c : Coll) : Nat := collLa s c / max 1 (colMembers s).length

/-- Element sizes (R534, R536): in memory, and between the reductions. -/
def collEs (et : Nat) : Nat := if et = 3 then 8 else if et = 6 then 4 else 2
def collWide (et : Nat) : Nat := if et = 3 then 8 else 4

/-- The row sums of a torus travel in y as they are added, in FP32 or I64; sums of one member are values of ET and travel as such. -/
def collWideY (s : State) : Bool := decide (1 < (rowMembers s).length)

/-- The bytes that one member sends another in a phase. -/
def collBytes (s : State) (c : Coll) (p : Nat) : Nat :=
  if c.op != 1 then c.len
  else if s.cfg.topo != 1 then collLa s c
  else match p with
    | 2 => if collWideY s then collLb s c / collEs c.et * collWide c.et else collLb s c
    | 3 => collLb s c
    | _ => collLa s c

/-- Where the data of member `m` goes in a gather or exchange phase (R535). -/
def collDst (s : State) (c : Coll) (p m : Nat) : Nat :=
  let me := s.cfg.chipNum
  if c.op != 1 then c.dst.toNat + m * c.len
  else if s.cfg.topo != 1 then c.dst.toNat + rankIn (reachMembers s) m * collLa s c
  else if p = 3 then c.dst.toNat + rankIn (rowMembers s) me * collLa s c + rankIn (colMembers s) m * collLb s c
  else c.dst.toNat + rankIn (rowMembers s) m * collLa s c

/-! ## Elements and their taints (R536, R539) -/

/-- Bytes, each with the taint of its granule. -/
abbrev TBytes := List (Byte × Bool)

def tbOf (l : List (Bytes × Bool)) : TBytes := l.flatMap (fun p => p.1.map (fun b => (b, p.2)))

/-- The elements of a run of bytes: FP32, or I64. `wide`: they stand as they are added. -/
def tbElems (et : Nat) (wide : Bool) (l : TBytes) : List (Nat × Bool) :=
  let n := if wide then collWide et else collEs et
  (chunksOf n (l.length / n + 1) l).map (fun c =>
    let x := ofLe (c.map (·.1))
    (if et = 3 || wide then x else (fCvt (tblFmt et) fp32 x).1, c.any (·.2)))

/-- Elements as bytes: as they are added, or rounded to ET. -/
def elemsTb (et : Nat) (wide : Bool) (l : List (Nat × Bool)) : TBytes :=
  l.flatMap (fun e =>
    let x := if et = 3 || wide then e.1 else (fCvt fp32 (tblFmt et) e.1).1
    (leBytes x (if wide then collWide et else collEs et)).map (fun b => (b, e.2)))

/-- One step of a reduction (R536): sums round once per addition, I64 wraps. -/
def redStep (et red a b : Nat) : Nat :=
  if et = 3 then
    (match red with
      | 1 => (a + b) % 2 ^ 64
      | 2 => if sgn 64 b < sgn 64 a then b else a
      | _ => if sgn 64 a < sgn 64 b then b else a)
  else match red with
    | 1 => f32add a b
    | 2 => f32min a b
    | _ => f32max a b

/-- Reduces members' elements in order; a sum starts from +0. -/
def reduceAll (et red : Nat) : List (List (Nat × Bool)) → List (Nat × Bool)
  | [] => []
  | x :: r =>
    let x := if red = 1 then x.map (fun e => (redStep et 1 0 e.1, e.2)) else x
    r.foldl (fun acc y => acc.zipWith (fun a b => (redStep et red a.1 b.1, a.2 || b.2)) y) x

/-- Where the fragments of a member of a reduce-scatter phase are staged: the collective staging of the save area (R517, R537), one member
after another in their order (DESIGN CHOICE). -/
def collStage (s : State) (n : Nat) (c : Coll) (p m : Nat) : Nat :=
  (manOf s n).saveVa.toNat + 0x1C000000 + rankIn (collGroup s c p) m * collBytes s c p

/-! ## The lock keeper at work -/

/-- The lock keeper as an agent of a context. -/
def lkcAgent (n : Nat) : Agent := { id := 2 ^ 110 + n, ctx := n, kind := 7, cls := 2, detail := Config.recordDetail (2 * (2 ^ 110 + n)) }

/-- Writes bytes at an address, granule by granule. -/
def writeTb (ag : Agent) (va : Nat) (l : TBytes) : M Unit := do
  let b := l.map (·.1)
  let t := l.map (·.2)
  writeParts ag va ((cut 64 va l.length).map (fun p => (slice b (p.1 - va) p.2, ((t.drop (p.1 - va)).take p.2).any id)))

def readTb (ag : Agent) (va n : Nat) : M TBytes := do
  let ps ← readParts ag va n
  return tbOf ps

/-- Reduces what the phase before `p` has staged (R538). -/
def collReduce (ag : Agent) (c : Coll) (p : Nat) : M (List (Nat × Bool)) := do
  let s ← get
  let q := p - 1
  if p < 2 || !collReduces s c q then return c.part
  let g := collGroup s c q
  let me := s.cfg.chipNum
  let r := rankIn g me
  let n := collBytes s c q
  let own ← if q = 1 then (do
      let l ← readTb ag (c.src.toNat + r * collLa s c) (collLa s c)
      return tbElems c.et false l)
    else pure ((c.part.drop (r * (collLb s c / collEs c.et))).take (collLb s c / collEs c.et))
  let all ← g.mapM (fun m => if m = me then pure own else do
    let l ← readTb ag (collStage s ag.ctx c q m) n
    return tbElems c.et (q == 2 && collWideY s) l)
  return reduceAll c.et c.red all

/-- What this chip sends to a member in a phase. -/
def collOut (ag : Agent) (c : Coll) (part : List (Nat × Bool)) (p m : Nat) : M TBytes := do
  let s ← get
  let r := rankIn (collGroup s c p) m
  if c.op = 2 then readTb ag c.src.toNat c.len
  else if c.op = 3 then readTb ag (c.src.toNat + m * c.len) c.len
  else if p = 1 then readTb ag (c.src.toNat + r * collLa s c) (collLa s c)
  else if s.cfg.topo = 1 && p = 2 then
    let k := collLb s c / collEs c.et
    return elemsTb c.et (collWideY s) ((part.drop (r * k)).take k)
  else if s.cfg.topo = 1 && p = 4 then readTb ag (c.dst.toNat + rankIn (rowMembers s) s.cfg.chipNum * collLa s c) (collLa s c)
  else return elemsTb c.et false part

/-- The work of the start of a phase: the reduction, this chip's own part of DST, and what goes to each other member. -/
def collPhaseM (ag : Agent) (c : Coll) (p : Nat) : M (List (Nat × Bool) × List (Nat × TBytes)) := do
  let s ← get
  let me := s.cfg.chipNum
  let part ← collReduce ag c p
  if c.op != 1 || (!collReduces s c p && !(s.cfg.topo == 1 && p == 4)) then
    let own ← collOut ag c part p me
    writeTb ag (collDst s c p me) own
  let outs ← ((collGroup s c p).filter (· != me)).mapM (fun m => do
    let l ← collOut ag c part p m
    return (m, l))
  return (part, outs)

def uColl (s : State) (n : Nat) (f : Coll → Coll) : State := uCtx s n (fun c => { c with coll := c.coll.map f })

/-- The ring and its descriptors (R533). -/
def collRing (s : State) (n : Nat) : Nat := (manOf s n).saveVa.toNat + 0x1A000000

/-- Tells every other member that this chip's phase is complete (R538). -/
def sendPhaseDone (s : State) (n : Nat) (c : Coll) : State :=
  ((reachMembers s).filter (· != s.cfg.chipNum)).foldl (fun s m =>
    sendMgmt s m mopPhaseDone (leBytes n 4 ++ leBytes c.collId.toNat 2 ++ leBytes c.phase 2)) s

/-- A phase is complete on this chip when its fragments have arrived. -/
def collCheck (s : State) (n : Nat) : State :=
  match (gCtx s n).coll with
  | none => s
  | some c =>
    let want := ((collGroup s c c.phase).length - 1) * ceilDiv (collBytes s c c.phase) 256
    if c.op != 0 && c.sent && !c.selfDone && want ≤ c.got then
      sendPhaseDone (uColl s n (fun c => { c with selfDone := true, doneFrom := Tab.set 0 c.doneFrom s.cfg.chipNum c.phase })) n c
    else s

/-- Ends a collective: DONE, CODE, PHASES and POUND are written and HEAD moves (R534, R538, R539). -/
def collEnd (s : State) (n : Nat) (code : Code) : State :=
  match (gCtx s n).coll with
  | none => s
  | some c =>
    let s := uCtx s n (fun x => { x with coll := none })
    if c.op = 0 then s
    else
      let d := collRing s n + 0x1000 + 64 * c.idx
      let ag := lkcAgent n
      runOp s ag (do
          writeVa ag (d + 24) (wordBytes (place 1 63 63 ||| place code.toNat 55 48 ||| place c.phase 15 0) ++ wordBytes s.tick.pound) false
          let (h, _) ← readVa ag (collRing s n + 8) 8
          writeVa ag (collRing s n + 8) (leBytes ((ofLe h % 512 + 1) % 512) 8) false)
        (fun _ s => s) (fun _ s => s)

/-- A fragment of the present phase (R537): staged, or written to DST. -/
def collFrag (s : State) (n src p f : Nat) (b : Bytes) (t : Nat) : State :=
  match (gCtx s n).coll with
  | none => s
  | some c =>
    let k := min b.length (collBytes s c p - 256 * f)
    let ag := lkcAgent n
    let va := (if collReduces s c p then collStage s n c p src else collDst s c p src) + 256 * f
    runOp s ag (writeTb ag va (((b.zip (List.range b.length)).map (fun (x, i) => (x, t.testBit (i / 64)))).take k))
      (fun _ s => uColl s n (fun c => { c with got := c.got + 1 })) (fun code s => collEnd s n code)

/-- The fragments of a run of bytes to a member (R537). -/
def sendFrags (s : State) (n : Nat) (c : Coll) (p m : Nat) (l : TBytes) : State :=
  let l := chunksOf 256 (l.length / 256 + 1) l
  (l.zip (List.range l.length)).foldl (fun s (x, f) =>
    let t := (List.range 4).foldl (fun acc g => acc + b2n (((x.drop (64 * g)).take 64).any (·.2)) * 2 ^ g) 0
    sendMsg s n false tColl 2 m 0 false t (BitVec.ofNat 64 (collDst s c p s.cfg.chipNum + 256 * f))
      (place f 47 24 ||| place p 23 16 ||| place c.collId.toNat 15 0) (slice (x.map (·.1)) 0 256)) s

/-- Starts a phase (R538): reduces, sends, and takes the fragments that came before. -/
def collPhase (s : State) (n p : Nat) : State :=
  match (gCtx s n).coll with
  | none => s
  | some c =>
    let ag := lkcAgent n
    runOp s ag (collPhaseM ag c p)
      (fun (part, outs) s =>
        let s := outs.foldl (fun s o => sendFrags s n c p o.1 o.2) s
        let s := uColl s n (fun c => { c with phase := p, sent := true, selfDone := false, part := part, got := 0, pounds := 0, early := c.early.filter (fun g => g.2.1 != p) })
        let s := (c.early.filter (fun g => g.2.1 == p)).foldl (fun s g => collFrag s n g.1 p g.2.2.1 g.2.2.2.1 g.2.2.2.2) s
        collCheck s n)
      (fun code s => collEnd s n code)

/-- A range lies in one pinned range of the manifest. -/
def inPins (s : State) (n va len : Nat) : Bool :=
  (manOf s n).pins.any (fun (a, l) => decide (a.toNat ≤ va) && decide (va + len ≤ a.toNat + l.toNat))

/-- A descriptor is accepted (R534, R539). -/
def collOk (s : State) (n : Nat) (d : Bytes) : Bool :=
  let w := fun i => wordAt d (8 * i)
  let op := fld (w 0) 63 56
  let red := fld (w 0) 55 53
  let et := fld (w 0) 52 50
  let len := fld (w 0) 31 0
  let k := (reachMembers s).length
  let top := (reachMembers s).foldl max 0 + 1
  fld (w 0) 49 48 == 0 && fld (w 1) 63 48 == 0 && fld (w 2) 63 48 == 0 && fld (w 3) 62 56 == 0 && fld (w 3) 47 16 == 0 &&
  allZero (slice d 40 24) && 1 ≤ op && op ≤ 3 && (if op = 1 then decide (1 ≤ red) && decide (red ≤ 3) else red == 0) && 3 ≤ et && et ≤ 6 &&
  len % 64 == 0 && (op != 1 || (decide (len ≤ 2 ^ 26) && len % (64 * k) == 0)) &&
  inPins s n (fld (w 1) 47 0) (if op = 3 then top * len else len) && inPins s n (fld (w 2) 47 0) (if op = 1 then len else top * len)

/-- The next descriptor of the ring begins (R533, R540). -/
def collStart (s : State) (n : Nat) : State :=
  let ag := lkcAgent n
  runOp s ag (do
      let (b, _) ← readVa ag (collRing s n) 16
      let tail := numAt b 0 8 % 512
      let head := numAt b 8 8 % 512
      if tail = head || 256 < (tail + 512 - head) % 512 then return none
      let (d, _) ← readVa ag (collRing s n + 0x1000 + 64 * (head % 256)) 64
      return some (head % 256, d))
    (fun r s => match r with
      | none => s
      | some (idx, d) =>
        let w := fun i => wordAt d (8 * i)
        let id := BitVec.ofNat 16 (fld (w 0) 47 32)
        let old := ((gCtx s n).coll).getD { idx := 0, op := 0, red := 0, et := 0, collId := id, len := 0, src := 0, dst := 0 }
        let s := uCtx s n (fun x => { x with coll := some { old with
          idx := idx, op := max 1 (fld (w 0) 63 56), red := fld (w 0) 55 53, et := fld (w 0) 52 50, collId := id, len := fld (w 0) 31 0
          src := place (fld (w 1) 47 0) 47 0, dst := place (fld (w 2) 47 0) 47 0, phase := 0 } })
        if !collOk s n d then collEnd s n eRange
        else if old.collId != id || old.code != 0 then
          let s := (old.early.map (·.1)).eraseDups.foldl (fun s m => sendMgmt s m mopCollEnd (leBytes n 4 ++ leBytes old.collId.toNat 2 ++ leBytes eRange.toNat 2)) s
          collEnd s n eRange
        else collPhase (((reachMembers s).filter (· != s.cfg.chipNum)).foldl (fun s m => sendMgmt s m mopCollAsk (leBytes n 4 ++ leBytes id.toNat 4)) s) n 1)
    (fun _ s => s)

/-- The lock keeper's work on a context's collectives in a pound of the context (R538, spec/16 At the tick). -/
def collTick (s : State) (n : Nat) : State :=
  if n = 0 then s
  else match (gCtx s n).coll with
    | some c =>
      if c.op = 0 then collStart s n
      else if c.phase = 0 then collPhase s n 1
      else if (reachMembers s).all (fun m => c.phase ≤ Tab.get 0 c.doneFrom m) then
        if collPhases s c ≤ c.phase then collStart (collEnd s n c.code) n else collPhase s n (c.phase + 1)
      else uColl s n (fun c => { c with pounds := c.pounds + 1 })
    | none => collStart s n

/-- A chip's fragment or order for another COLL_ID than the present one: E_RANGE on both chips (R539). -/
def collMismatch (s : State) (n src : Nat) (id : BitVec 16) : State :=
  sendMgmt (collEnd s n eRange) src mopCollEnd (leBytes n 4 ++ leBytes id.toNat 2 ++ leBytes eRange.toNat 2)

/-- The collective of a context, or the one that others have begun. -/
def collOr (s : State) (n : Nat) (id : BitVec 16) : Coll :=
  ((gCtx s n).coll).getD { idx := 0, op := 0, red := 0, et := 0, collId := id, len := 0, src := 0, dst := 0 }

/-- COLL (R537). -/
def execColl (port : Fin 12) (m : Msg) (s : State) : Ans :=
  onMsg s port tColl m (fun m s =>
    let n := mCtx m
    let id := BitVec.ofNat 16 (fld m.w3 15 0)
    let p := fld m.w3 23 16
    let f := fld m.w3 47 24
    let b := slice m.payload 0 256
    let c := collOr s n id
    if c.op = 0 then
      uCtx s n (fun x => { x with coll := some { c with early := c.early ++ [(mSrc m, p, f, b, mTaint m)], code := if c.collId = id then c.code else eRange } })
    else if c.collId != id then collMismatch s n (mSrc m) id
    else if p = c.phase && c.sent then collCheck (collFrag s n (mSrc m) p f b (mTaint m)) n
    else if c.phase < p then uColl s n (fun c => { c with early := c.early ++ [(mSrc m, p, f, b, mTaint m)] })
    else s)

/-- COLLECTIVE_TIMEOUT (R539): 64 pounds of the context without the next phase. -/
def execCollectiveTimeout (ctx : Fin 64) (s : State) : Ans :=
  match (gCtx s ctx.val).coll with
  | some c => if c.op != 0 && 64 ≤ c.pounds then .next (collEnd s ctx.val eTmoLw) else .next s
  | none => .next s

/-! ## MGMT orders (R427, R433 to R435, R500) -/

/-- Two orders on one object in one pound (R427): the lower stamp (pound, source) prevails, and the collision is recorded. -/
def mgmtWins (s : State) (key : Nat) (stamp : Word) (src : Nat) : Bool × State :=
  match Tab.get (0, 0) s.reach.mgmtStamps key with
  | (st, k) =>
    let put (s : State) : State := { s with reach := { s.reach with mgmtStamps := Tab.set (0, 0) s.reach.mgmtStamps key (stamp, src + 1) } }
    if k = 0 || k = src + 1 then (true, put s)
    else
      let s := collideRec s 5 5
      if stamp.toNat < st.toNat || (stamp = st && src + 1 < k) then (true, put s) else (false, s)

/-- The key that wraps the reach key for a chip (R500). -/
def wrapKey (share : Bytes) : Bytes := slice (Config.sharedSecret 0 share) 0 32

/-- The master admits a chip: its parameters match and its share is genuine (R434, R500). -/
def admitted (h : Hello) : Bool := h.ok && h.trusted

/-- The order by which a chip enters the reach: members, the pound, whether ticks run, the wrapped key. -/
def reachOrder (s : State) (h : Option Hello) : Bytes :=
  let wrapped := match h with
    | some h => let k := wrapKey h.share
      let iv := List.replicate 12 0
      let ct := gcmCrypt k iv s.reach.key
      ct ++ gcmTag k iv [] ct
    | none => []
  leBytes s.reach.members.toNat 32 ++ wordBytes s.tick.pound ++ leBytes (b2n s.tick.started) 8 ++ wrapped

/-- A chip enters the reach (R41, R435). -/
def enterReach (s : State) (members : BitVec 256) (key : Bytes) (started : Bool) (pound : Word) : State :=
  let s := { s with
    reach := { s.reach with rstate := 1, members := members, key := key }
    tick := { s.tick with started := started, pound := if started then pound else s.tick.pound, holdRun := 0, lostReach := false } }
  logRec s 0x0010 2 63 0 (BitVec.ofNat 64 (popN members.toNat 256)) 0

/-- HELLO and SHARE of a chip. -/
def putHello (s : State) (chip : Nat) (f : Hello → Hello) (new : Hello) : State :=
  let same (h : Hello) : Bool := h.chip == chip && h.ident == new.ident
  let l := s.reach.hellos
  let l := if l.any same then l.map (fun h => if same h then f h else h) else l ++ [new]
  { s with reach := { s.reach with hellos := l } }

def mgmtHello (s : State) (src : Nat) (b : Bytes) : State :=
  if s.cfg.tickMaster != s.cfg.chipNum then s
  else
    let c := s.cfg
    let ok := numAt b 1 1 == c.tickMaster && numAt b 2 1 == c.topo && numAt b 3 1 == c.topoX && numAt b 4 1 == c.topoY && numAt b 5 3 == c.group && numAt b 16 8 == c.tickPeriod
    let h : Hello := { chip := src, ident := wordAt b 8, ok := ok }
    putHello s src (fun x => { x with ok := ok }) h

/-- A key share: the master answers with its own and lets a chip into a reach that has formed; another chip keeps the master's. -/
def mgmtShare (s : State) (src : Nat) (b : Bytes) : State :=
  let share := slice b 8 96
  let good := Config.peerGenuine src b && numAt b 0 8 == 0
  let put (h : Hello) : Hello := { h with share := share, trusted := good }
  if s.cfg.tickMaster = s.cfg.chipNum then
    let s := { s with reach := { s.reach with hellos := s.reach.hellos.map (fun h => if h.chip = src then put h else h) } }
    let s := sendMgmt s src mopShare (leBytes s.sec.mode.toNat 8 ++ Config.ownShare 0)
    match s.reach.hellos.find? (fun h => h.chip == src && admitted h) with
    | some h =>
      if s.reach.rstate = 1 then
        let s := { s with reach := { s.reach with members := s.reach.members ||| ((1 : BitVec 256) <<< src) } }
        let s := sendMgmt s src mopReach (reachOrder s (some h))
        ((otherChips s).filter (· != src)).foldl (fun s x => sendMgmt s x mopReach (reachOrder s none)) s
      else s
    | none => s
  else if src = s.cfg.tickMaster then
    putHello s src put (put { chip := src, ident := 0, ok := true })
  else s

/-- The master's order to enter the reach, or its new members. -/
def mgmtReach (s : State) (src : Nat) (b : Bytes) : State :=
  if src != s.cfg.tickMaster then s
  else
    let members := BitVec.ofNat 256 (numAt b 0 32)
    if s.reach.rstate = 1 then { s with reach := { s.reach with members := members } }
    else match s.reach.hellos.find? (fun h => h.chip == src && h.trusted) with
      | none => s
      | some h =>
        let k := wrapKey h.share
        let iv := List.replicate 12 0
        let ct := slice b 48 32
        if gcmTag k iv [] ct != slice b 80 16 then s
        else enterReach s members (gcmCrypt k iv ct) (numAt b 40 8 != 0) (wordAt b 32)

/-- A rotation entry as its register word (R71). -/
def rotEntryOf (v : BitVec 32) : RotEntry := { valid := v.getLsbD 7, ctx := v.extractLsb' 0 6, slice := v.extractLsb' 8 16 }
def rotWord (e : RotEntry) : BitVec 32 := BitVec.ofNat 32 (e.slice.toNat * 256 + b2n e.valid * 128 + e.ctx.toNat)

/-- A piece of a committed rotation (R57): at the last one it waits for its pound. -/
def mgmtRotation (s : State) (src : Nat) (b : Bytes) : State :=
  if src != s.cfg.tickMaster then s
  else
    let len := numAt b 8 2
    let start := numAt b 10 2
    let k := numAt b 12 2
    let part := (List.range k).foldl (fun t i => Tab.set 0 t (start + i) (BitVec.ofNat 32 (numAt b (16 + 4 * i) 4))) s.rot.part
    if start + k < len then { s with rot := { s.rot with part := part } }
    else { s with rot := { s.rot with part := [], next := s.rot.next.filter (fun e => e.1 != wordAt b 0) ++ [(wordAt b 0, (List.range len).map (fun i => rotEntryOf (Tab.get 0 part i)))] } }

/-- Sends a committed rotation to every chip, 56 entries a message (R57). -/
def sendRotation (s : State) (p : Word) (l : List RotEntry) : State :=
  let n := max 1 (ceilDiv l.length 56)
  (otherChips s).foldl (fun s c => (List.range n).foldl (fun s i =>
    let part := (l.drop (56 * i)).take 56
    sendMgmt s c mopRotation (wordBytes p ++ leBytes l.length 2 ++ leBytes (56 * i) 2 ++ leBytes part.length 4 ++ part.flatMap (fun e => leBytes (rotWord e).toNat 4))) s) s

/-- PHASE_DONE (R538). -/
def mgmtPhaseDone (s : State) (src : Nat) (b : Bytes) : State :=
  let n := numAt b 0 4 % 64
  let id := BitVec.ofNat 16 (numAt b 4 2)
  let p := numAt b 6 2
  if n = 0 || (gCtx s n).st = .free then s
  else
    let c := collOr s n id
    if c.collId != id && c.op != 0 then collMismatch s n src id
    else uCtx s n (fun x => { x with coll := some { c with doneFrom := Tab.set 0 c.doneFrom src (max p (Tab.get 0 c.doneFrom src)), code := if c.collId = id then c.code else eRange } })

/-- The object that an order acts on, for R427. -/
def mgmtObject (mop : Nat) (b : Bytes) : Nat :=
  if mop = mopRotation then 1 else if mop = mopReach then 2 else if mop = mopLink then 1000 + numAt b 0 2 else 0

/-- MGMT (R427). -/
def execMgmt (port : Fin 12) (m : Msg) (s : State) : Ans :=
  onMsg s port tMgmt m (fun m s =>
    let mop := fld m.w3 15 0
    let src := mSrc m
    let b := m.payload.drop 8
    let key := mgmtObject mop b
    let (go, s) := if key = 0 then (true, s) else mgmtWins s key (wordAt m.payload 0) src
    if !go then s
    else if mop = mopHello then mgmtHello s src b
    else if mop = mopShare then mgmtShare s src b
    else if mop = mopReach then mgmtReach s src b
    else if mop = mopRotation then mgmtRotation s src b
    else if mop = mopLink then setLink s (numAt b 0 1) (numAt b 1 1) (numAt b 2 1 != 0) (wordAt b 8)
    else if mop = mopPhaseDone then mgmtPhaseDone s src b
    else if mop = mopCollEnd then
      let n := numAt b 0 4 % 64
      (match (gCtx s n).coll with
        | some c => if c.collId.toNat = numAt b 4 2 then collEnd s n (BitVec.ofNat 8 (numAt b 6 1)) else s
        | none => s)
    else if mop = mopCollAsk then
      let n := numAt b 0 4 % 64
      if (gCtx s n).st = .free then sendMgmt s src mopCollEnd (leBytes n 4 ++ leBytes (numAt b 4 2) 2 ++ leBytes eRange.toNat 2) else s
    else if mop = mopMap then
      let n := numAt b 0 4 % 64
      let (c, s) := mapFor s n (numAt b 8 8) (numAt b 4 4 != 0)
      sendMgmt s src mopMapAns (leBytes n 4 ++ leBytes c.toNat 4)
    else if mop = mopUnmap then
      let n := numAt b 0 4 % 64
      let (c, s) := unmapFor s n (numAt b 8 8) (numAt b 4 4 != 0)
      sendMgmt s src mopMapAns (leBytes n 4 ++ leBytes c.toNat 4)
    else if mop = mopMapAns then mapAnswer s (numAt b 0 4 % 64) (BitVec.ofNat 8 (numAt b 4 1))
    else s)

end Sys2Proof.Machine
end

