-- ==== Sys2Proof/Machine/Tick.lean ====
section
/-! DEFINITION. The tick (spec/02 At the tick and the section of that name in every chapter): the sample and the overrun policy,
the pound number, the rotation, fences, the context switch, segment issue; the rows of the tick, the rotation and slack water. -/

namespace Sys2Proof.Machine

/-! ## The sample (R43 to R48, R149) -/

/-- An operation was given by a thread of a cluster. -/
def ofThread (cl : Nat) : Owner → Bool
  | .thread key _ _ => key / 64 == cl
  | _ => false

/-- The first round of a barge that a segment issued has not ended (R229). -/
def firstRound (n cl : Nat) (d : BDesc) : Bool := d.ctx == n && ofThread cl d.owner && d.round == 0 && !d.complete

/-- Something that the segment of a context on a cluster issued is not complete (R43). -/
def segBusy (s : State) (n cl : Nat) : Bool :=
  s.ops.any (fun o => o.ctx == n && o.thread / 64 == cl && !o.dropped) ||
  s.tows.any (fun t => t.ctx == n && ofThread cl t.owner) ||
  s.flights.any (fun f => f.ctx == n && ofThread cl f.owner) ||
  s.units.any (fun e => e.2.held.any (fun h => h.ctx == n && ofThread cl h.owner)) ||
  s.queues.any (fun e => e.2.descs.any (firstRound n cl))

/-- The segment has reached its end (R43, R145). -/
def segReached (s : State) (n cl : Nat) (g : Seg) : Bool :=
  g.exc == 0 && s.threads.all (fun e => e.1 / 64 != cl || !e.2.member || e.2.st == .ended) && !segBusy s n cl

def segOf (s : State) (n cl : Nat) : Seg := Tab.get {} (gCtx s n).sch.segs cl
def uSeg (s : State) (n cl : Nat) (f : Seg → Seg) : State :=
  uCtx s n (fun c => { c with sch := { c.sch with segs := Tab.modify {} c.sch.segs cl f } })

/-- Every thread of a cluster goes to Idle with the registers of R113. -/
def clearThreads (s : State) (cl : Nat) : State :=
  { s with threads := s.threads.filter (fun e => e.1 / 64 != cl), barriers := s.barriers.filter (fun e => e.1 / 8 != cl) }

/-- The accesses in flight of a discarded attempt complete; their load data is dropped (spec/04 At the tick). -/
def dropOps (s : State) (n cl : Nat) : State :=
  { s with ops := s.ops.map (fun o => if o.ctx = n && o.thread / 64 = cl then { o with dropped := true } else o) }

/-- A segment stops and runs again from its start later. -/
def discardSeg (s : State) (n cl : Nat) : State :=
  uSeg (dropOps (clearThreads s cl) n cl) n cl (fun g => { g with started := false, split := false })

/-- Samples the segment of a cluster: committed, or overrun under R46. The code of a fault joins those of the tick (R567). -/
def sampleSeg (s : State) (n cl : Nat) : State :=
  let c := gCtx s n
  let g := segOf s n cl
  if !g.present || g.committed || (!g.started && g.exc == 0) then s
  else if g.started && segReached s n cl g then
    uSeg (clearThreads s cl) n cl (fun g => { g with committed := true, started := false, overruns := 0 })
  else
    let k := g.overruns + 1
    let s := uCtx s n (fun c => { c with ovrCnt := bump16 c.ovrCnt 1 })
    let s := uSeg s n cl (fun g => { g with overruns := k })
    if g.exc != 0 then faultAtTick s n g.exc
    else if c.expert && g.splittable then
      if c.splitMax.toNat ≤ k then faultAtTick s n eOverrun else uSeg s n cl (fun g => { g with split := true, started := false })
    else if g.replayable && k < 2 then discardSeg s n cl
    else faultAtTick s n eOverrun

/-- The step of a context has committed (R45, R460, R494, R572). -/
def commitStep (s : State) (n : Nat) : State :=
  let c := gCtx s n
  if c.sch.step.toNat + 1 = 2 ^ 64 then faultAtTick s n eRange
  else
    let len := (manOf s n).steps.length
    let s := uCtx s n (fun c => { c with sch := { c.sch with step := c.sch.step + 1, pos := (c.sch.pos + 1) % max 1 len, segs := [], issued := false } })
    match c.ring.entries.find? (fun e => e.op == 1 && e.st == 1) with
    | none => s
    | some e =>
      if e.left = 1 || c.ring.haltReq then endRun s n
      else uEntry s n e.id (fun e => { e with left := e.left - 1 })

/-- Each cluster control core samples its segment (R44), and the step commits when all have (R45). -/
def sampleAll (s : State) : State :=
  match s.rot.holder with
  | none => s
  | some n =>
    if !holds s n || !(gCtx s n).sch.issued then s
    else
      let s := (List.range 48).foldl (fun s cl => sampleSeg s n cl) s
      let c := gCtx s n
      if c.sch.faultNext = 0 && c.sch.segs.all (fun e => !e.2.present || e.2.committed) then commitStep s n else s

/-! ## Fences (R529 to R532) -/

/-- The logical cluster of a physical one. -/
def logicalOf (s : State) (phys : Nat) : Option Nat := (List.range 48).find? (fun c => Tab.get 0 s.fw.map c == phys + 1)

/-- The unfenced spares of a tile, lowest first: 26 physical clusters to a tile (R20). -/
def sparesOf (s : State) (tile : Nat) : List Nat :=
  (rangeFrom (26 * tile) 26).filter (fun p => !s.fw.fenced.getLsbD p && (logicalOf s p).isNone)

/-- The fence bit of a physical cluster. -/
def setFenced (s : State) (phys : Nat) : State := { s with fw := { s.fw with fenced := s.fw.fenced ||| ((1 : BitVec 52) <<< phys) } }

/-- The first spare whose scrub succeeds takes logical cluster `c`; one that fails is fenced in turn (spec/16 Corners). With no
spare left the number stays vacant (R530, R532). -/
def takeSpare (s : State) (c tile : Nat) : List Nat → State
  | [] =>
    let s := { s with fw := { s.fw with map := Tab.set 0 s.fw.map c 0 } }
    let s := logRec s 0x0031 2 63 2 (BitVec.ofNat 64 c) (BitVec.ofNat 64 tile)
    (rangeFrom 1 63).foldl (fun s n => if c < (manOf s n).clusters then faultAtTick s n eReshape else s) s
  | p :: r =>
    if s.fw.scrubBad.contains p then takeSpare (logRec (setFenced s p) 0x0030 2 63 2 63 (BitVec.ofNat 64 p)) c tile r
    else logRec { s with fw := { s.fw with map := Tab.set 0 s.fw.map c (p + 1) } } 0x0030 2 63 2 (BitVec.ofNat 64 c) (BitVec.ofNat 64 p)

/-- Fences a physical cluster: a spare takes its logical number, or the number stays vacant (R530, R532). -/
def fenceCluster (s : State) (phys : Nat) : State :=
  if s.fw.fenced.getLsbD phys then s
  else
    match logicalOf s phys with
    | none => logRec (setFenced s phys) 0x0030 2 63 2 63 (BitVec.ofNat 64 phys)
    | some c => let s := setFenced s phys; takeSpare s c (phys / 26) (sparesOf s (phys / 26))

/-- The fences that are due: clusters in logical order, codec lanes (R389, R392, R530). -/
def fencesTick (s : State) : State :=
  let due := s.fw.fenceDue
  let s := { s with fw := { s.fw with fenceDue := [] } }
  let first := (List.range 48).filterMap (fun c => due.findSome? (fun d => if logicalOf s d.1 = some c then some d.1 else none))
  let s := (first ++ due.map (·.1)).foldl fenceCluster s
  { s with lanes := Tab.mapV {} (fun l => if l.fenceDue then { l with fenced := true, fenceDue := false } else l) s.lanes }

/-! ## What is due for every context -/

/-- The work of a context whose unbind is due stops (R454): neither committed nor overrun. -/
def unbindTick (s : State) (n : Nat) : State :=
  if (gCtx s n).ending = 1 then
    let live := isLive s n
    let s := uCtx (discardAgents s n) n (fun c => { c with ending := 2, ring := { c.ring with entries := [], cqes := [], runActive := false, haltReq := false } })
    if live then { s with rot := { s.rot with holder := none, saving := false, savingCtx := none }, amu := [], mem := { s.mem with cmem := [], cline := [], cmemErr := [] } } else s
  else s

/-- A HALT that waits while no step is in progress ends the RUN (R460). -/
def haltTick (s : State) (n : Nat) : State :=
  let c := gCtx s n
  if c.ring.haltReq && c.ring.runActive && !c.sch.issued then endRun s n else s

/-- The settings that a context takes at a tick: SPLIT_MAX (R72) and the weir groups (R223, R250). -/
def settingsTick (c : Ctx) : Ctx :=
  { c with
    splitMax := c.splitNext.getD c.splitMax, splitNext := none
    weirs := Tab.mapV {} (fun w => { w with rate := w.nextRate.getD w.rate, burst := w.nextBurst.getD w.burst, nextRate := none, nextBurst := none }) c.weirs }

/-- A context that a fault waits for enters Faulted (R58, R149, R508). -/
def faultTick (s : State) (n : Nat) : State :=
  let f := (gCtx s n).sch.faultNext
  if f = 0 then s else enterFaulted (uCtx s n (fun c => { c with sch := { c.sch with faultNext := 0 } })) n f

def ctxsTick (s : State) : State :=
  (List.range 64).foldl (fun s n => haltTick (faultTick (uCtx (unbindTick s n) n settingsTick) n) n) s

/-! ## The pound (R41, R49 to R53, R424) -/

/-- This chip is the tick master of its ticks: the reach's, or its own when it runs alone (R51, R57, R79). -/
def isMaster (s : State) : Bool := s.cfg.chipNum == s.cfg.tickMaster || s.reach.rstate == 2

/-- The next hop of a chip's route toward the master (R424, R432, R433). -/
def masterHop (s : State) (c : Nat) : Option Nat :=
  let n := topoSize s
  let m := s.cfg.tickMaster
  let p := minPath s m (n + 1) c
  if pathLive s c p then p.head?
  else
    let t := bfsTree s (n + 1) [m] [(m, m + 1)]
    (treePath (toRoot t m (n + 1) c) (toRoot t m (n + 1) m)).head?

/-- Sends TICK to the children in the tick tree. -/
def sendTick (s : State) (announced : Word) (elapsed : Nat) : State :=
  let me := s.cfg.chipNum
  ((neighbours s me).filter (fun c => s.reach.members.getLsbD c && c != s.cfg.tickMaster && masterHop s c == some me)).foldl
    (fun s c => sendMsg s 0 true tTick 0 c 0 false 0 0 0 (wordBytes announced ++ leBytes elapsed 8)) s

/-- The tick period in units of 0.1 ns (R40). -/
def period01 (s : State) : Int := 100 * s.cfg.tickPeriod

/-- The pound number of the new pound, and the flags of LK_ (R41, R50, R51); TICK_OUT pulses (R53). -/
def poundTick (s : State) : State :=
  let t := s.tick
  let own : Word := if t.started then t.pound + 1 else 0
  let s :=
    if isMaster s || !t.started then { s with tick := { t with pound := own, holdRun := 0 } }
    else if t.msgSeen then
      let s := { s with tick := { t with pound := t.announced, holdRun := 0, resync := t.resync || t.announced != own } }
      if t.announced = own then s else logRec s 0x0012 2 63 1 own t.announced
    else
      logRec { s with tick := { t with pound := own, holdover := true, holdRun := t.holdRun + 1 } } 0x0013 2 63 1 (BitVec.ofNat 64 (t.holdRun + 1)) 0
  let s := { s with
    tick := { s.tick with started := true, msgSeen := false, nextAt := s.tick.nextAt + period01 s, adj := 0 }
    reach := { s.reach with mgmtStamps := [] }
    boot := { s.boot with lkcMiss := s.boot.lkcMiss - 1 } }
  let s := emit s (.pulse "TICK_OUT")
  if s.reach.rstate = 1 && isMaster s then sendTick s (s.tick.pound + 1) 0 else s

/-! ## The rotation (R54 to R58) -/

/-- The entries that take pounds: V set, within ROT_LEN. -/
def rotValid (l : List RotEntry) : List RotEntry := l.filter (·.valid)

/-- One pound of the rotation passes; `left` counts the pounds of the slice from the present one on. -/
def rotStep (r : Rot) : Rot :=
  let l := rotValid r.force
  if l.isEmpty then r
  else if 1 < r.left then { r with left := r.left - 1 }
  else
    let i := (r.idx + 1) % l.length
    { r with idx := i, left := (l.getD i {}).slice.toNat }

def rotSteps : Nat → Rot → Rot
  | 0, r => r
  | k + 1, r => rotSteps k (rotStep r)

/-- Named by the rotation in force: Bound becomes Admitted; not named: Admitted becomes Bound (R58). -/
def nameCtx (s : State) (n : Nat) : State :=
  let c := gCtx s n
  if c.st = .bound && c.ending = 0 && isNamed s n then setSt s n .admitted
  else if c.st = .admitted && !isNamed s n then setSt s n .bound
  else s

/-- Applies the rotation whose stamp is this pound, the latest of those due (R56). -/
def rotTick (s : State) (first : Bool) : State :=
  let s := if first then s else { s with rot := rotStep s.rot }
  let due := s.rot.next.filter (fun e => decide (e.1.toNat ≤ s.tick.pound.toNat))
  match due.getLast? with
  | none => s
  | some (p, l) =>
    let r := { s.rot with
      next := s.rot.next.filter (fun e => decide (s.tick.pound.toNat < e.1.toNat))
      force := l, idx := 0, left := ((rotValid l).headD {}).slice.toNat }
    let r := if isMaster s then r else { r with pLo := BitVec.ofNat 32 p.toNat, pHi := BitVec.ofNat 32 (p.toNat / 2 ^ 32) }
    let s := { s with rot := rotSteps (s.tick.pound.toNat - p.toNat) r }
    let s := logRec s 0x0020 2 63 0 p 0
    (List.range 64).foldl nameCtx s

/-- The context that the rotation gives this pound. -/
def rotCtx (s : State) : Option Nat := (rotValid s.rot.force)[s.rot.idx]?.map (·.ctx.toNat)

/-- Every page of every pinned range is mapped (R497). -/
def pinsMapped (s : State) (n : Nat) : Bool :=
  (manOf s n).pins.all (fun (va, len) => (List.range (ceilDiv len.toNat 65536)).all (fun i => isMapped s n (va.toNat + 65536 * i) false))

/-- The context that may hold this pound (R55, R65, R101, R497). -/
def eligible (s : State) : Option Nat :=
  if s.rot.saving || s.pm.st != 0 then none
  else match rotCtx s with
    | none => none
    | some n =>
      let c := gCtx s n
      if (c.st == .admitted || c.st == .running) && c.ending == 0 && pinsMapped s n then some n else none

/-! ## The switch (R59 to R63, R165, R176, R388, R501, R517) -/

/-- A page of the save area on this chip. -/
def areaPage (s : State) (n acc va : Nat) : Option Xl :=
  match xlate s n acc va with
  | .error _ => none
  | .ok x => if chipOf x.pa = s.cfg.chipNum && localOf x.pa < ctxPageEnd then some x else none

/-- Writes bytes of one line into the save area; a line that a timeout loses is tainted there (spec/18 Corners). -/
def areaWrite (s : State) (n va : Nat) (b : Bytes) (taint : Bool) : State :=
  match areaPage s n accWrite va with
  | none => s
  | some x =>
    let (s, lost) := hbmWrite (fillHole (touchLeaf s x true) x va) n (localOf x.pa) b taint
    if lost then uMem s (fun m => { m with taint := Tab.set false m.taint (localOf x.pa / 64) true }) else s

/-- Writes a run of bytes into the save area, one line after another. -/
def areaRun (s : State) (n va : Nat) (b : Bytes) : State :=
  (chunksOf 64 (b.length / 64 + 1) b).foldl (fun (s, a) c => (areaWrite s n a c false, a + 64)) (s, va) |>.1

/-- Reads bytes of one line of the save area. -/
def areaRead (s : State) (n va k : Nat) : Option (Bytes × Bool) × State :=
  match areaPage s n accRead va with
  | none => (none, s)
  | some x =>
    let s := touchLeaf s x false
    if isHole x va then (some (List.replicate k 0, false), s)
    else
      let (b, t, s) := hbmRead s n (localOf x.pa) k
      (some (b, t), s)

def saveBase (s : State) (n : Nat) : Nat := (manOf s n).saveVa.toNat

/-- The ranges of cluster memory that a context saves on a cluster: the live ranges, or every basin (R59, R65). -/
def savedRanges (r : ClRec) (full : Bool) : List (Nat × Nat) :=
  if full then r.basins.map (fun b => (b.base, b.size)) else r.basins.map (fun b => (b.base + b.liveOff, b.liveLen))

/-- Saves a range: each line at its cluster memory offset (R517). -/
def saveRange (s : State) (n cl off len : Nat) : State :=
  (cut 64 off len).foldl (fun s p =>
    let (b, t, s) := clRead s cl p.1 p.2
    areaWrite s n (saveBase s n + 0x800000 * cl + p.1) b t) s

/-- Restores a range: every restored line is written (R176). -/
def restoreRange (s : State) (n cl off len : Nat) : State :=
  (cut 64 off len).foldl (fun s p =>
    match areaRead s n (saveBase s n + 0x800000 * cl + p.1) p.2 with
    | (some (b, t), s) => clWrite s cl p.1 b t
    | (none, s) => s) s

/-- The image of an AMU entry: key, mask, priority, result, 40 bytes. -/
def amuImage (e : AmuEntry) : Bytes := leBytes e.key.toNat 16 ++ leBytes e.mask.toNat 16 ++ leBytes e.prio.toNat 2 ++ leBytes e.result.toNat 6

/-- 8,192 bits as bytes. -/
def bitBytes (f : Nat → Bool) : Bytes := (List.range 1024).map (fun i => BitVec.ofNat 8 ((List.range 8).foldl (fun a k => a + b2n (f (8 * i + k)) * 2 ^ k) 0))

def amuBase (s : State) (n cl : Nat) : Nat := saveBase s n + 0x18000000 + 0x80000 * cl

/-- Saves the AMU of a cluster: 8,192 images, the valid bits, the taint bits (R59, R517). -/
def saveAmu (s : State) (n cl : Nat) : State :=
  let b := (List.range 8192).flatMap (fun i => amuImage (gAmu s cl i)) ++ bitBytes (fun i => (gAmu s cl i).valid) ++ bitBytes (fun i => (gAmu s cl i).taint)
  areaRun s n (amuBase s n cl) b

/-- Restores the AMU of a cluster. -/
def restoreAmu (s : State) (n cl : Nat) : State :=
  let (b, s) := (List.range 5152).foldl (fun (acc : Bytes × State) i =>
    match areaRead acc.2 n (amuBase s n cl + 64 * i) 64 with
    | (some (x, _), s) => (acc.1 ++ x, s)
    | (none, s) => (acc.1 ++ List.replicate 64 0, s)) ([], s)
  let bit (base i : Nat) : Bool := (b.getD (base + i / 8) 0).getLsbD (i % 8)
  (chunksOf 40 8192 (b.take 327680)).zip (List.range 8192) |>.foldl (fun s (x, i) =>
    setAmu s cl i { valid := bit 327680 i, taint := bit 328704 i, key := BitVec.ofNat 128 (numAt x 0 16), mask := BitVec.ofNat 128 (numAt x 16 16)
                    prio := BitVec.ofNat 16 (numAt x 32 2), result := BitVec.ofNat 48 (numAt x 34 6) }) s

/-- The numbered cluster records of a context. -/
def clRecs (s : State) (n : Nat) : List (ClRec × Nat) := let l := (manOf s n).cls; l.zip (List.range l.length)

/-- The live bytes of a context over all clusters (R61). -/
def liveTotal (s : State) (n : Nat) : Nat := (manOf s n).cls.foldl (fun a r => a + liveBytes r) 0

/-- Reads in flight of a context's engines are discarded (spec/07 At the tick). -/
def dropReads (s : State) (n : Nat) : State :=
  let engine (id : Nat) : Bool :=
    s.queues.any (fun e => e.2.descs.any (fun d => d.id == id)) || s.tows.any (fun t => t.id == id) || s.flights.any (fun f => f.id == id % 2 ^ 64 && decide (id < 2 ^ 100))
  { s with rtxs := s.rtxs.filter (fun t => !(t.ctx == n && t.kind == kRead && engine t.owner)) }

/-- The thread context record of R114: scalar registers, vector registers, predicate registers, then 128 bytes whose inner layout the
spec leaves to the hardware. -/
def threadRecord (t : Thread) (free : Nat) : Bytes :=
  (List.range 64).flatMap (fun r => wordBytes (Tab.get 0 t.s r)) ++
  (List.range 32).flatMap (fun r => leBytes (Tab.get 0 t.v r).toNat 128) ++
  (List.range 8).flatMap (fun r => leBytes (Tab.get 0 t.p r).toNat 16) ++
  (List.range 128).map (Config.threadTail free)

/-- The hart record of R165: 2,048 bytes whose layout the spec leaves to the hardware. -/
def hartRecord (free : Nat) : Bytes := (List.range 2048).map (Config.hartRecord free)

/-- Hart records go to SAVE_VA + 0x1980_0000 + h · 2 KiB (R165, R517). -/
def saveHarts (s : State) (n : Nat) : State :=
  (s.harts.filter (fun e => e.2.named)).foldl (fun s e =>
    let (i, s) := freshFree s
    areaRun s n (saveBase s n + 0x19800000 + 2048 * e.1) (hartRecord i)) s

/-- The records of parked threads, one after another from SAVE_VA + 0x1981_0000 while they fit (R114, R517). -/
def saveThreads (s : State) (n : Nat) : State :=
  let l := (s.threads.filter (fun e => e.2.member && e.2.st != .ended)).take (8128 * 1024 / 4864)
  (l.zip (List.range l.length)).foldl (fun s (e, k) =>
    let (i, s) := freshFree s
    areaRun s n (saveBase s n + 0x19810000 + 4864 * k) (threadRecord e.2 i)) s

/-- What a context leaves on the clusters goes to its save area, and everything is scrubbed (R60 steps 1 and 2, R65, R501). -/
def switchOut (s : State) (n : Nat) (full : Bool) : State :=
  let s := (List.range 24).foldl (fun s l => if (gLane s l).ctx = some n && !(gLane s l).saving then saveLane s l else s) s
  let s := (clRecs s n).foldl (fun s (r, c) =>
    let s := (savedRanges r full).foldl (fun s p => saveRange s n c p.1 p.2) s
    if r.amuLive then saveAmu s n c else s) s
  let s := saveThreads (saveHarts s n) n
  let s := uCtx (dropReads s n) n (fun c => { c with sch := { c.sch with
    threads := s.threads, barriers := s.barriers, harts := s.harts, full := full } })
  { s with
    threads := [], barriers := [], harts := [], amu := []
    mem := { s.mem with cmem := [], cline := [], cmemErr := [] }
    rot := { s.rot with holder := none } }

/-- A context takes the clusters: its saved state comes back (R60 step 3, R113, R165, R176). -/
def switchIn (s : State) (n : Nat) : State :=
  let c := gCtx s n
  let s := (clRecs s n).foldl (fun s (r, k) =>
    let s := (savedRanges r c.sch.full).foldl (fun s p => restoreRange s n k p.1 p.2) s
    if r.amuLive then restoreAmu s n k else s) s
  let s := { s with
    threads := c.sch.threads, barriers := c.sch.barriers, harts := c.sch.harts, rot := { s.rot with holder := some n } }
  let s := uCtx s n (fun c => { c with swin := s.tick.pound, sch := { c.sch with threads := [], barriers := [], harts := [], full := false } })
  let s := setSt s n .running
  (List.range 16).foldl (fun s h => if (gHart s h).named && !(gHart s h).ended then tjHarbor s n h 0 (gHart s h).pc else s) s

/-- A bank that reports a failed scrub at a switch fences its cluster before the incoming context issues; the context runs on the
spare from the next pound (R502; spec/15 Corners). -/
def scrubTick (s : State) : State :=
  (List.range 48).foldl (fun s c =>
    match Tab.get 0 s.fw.map c with
    | 0 => s
    | p + 1 =>
      if s.fw.scrubBad.contains p then
        let s := fenceCluster s p
        { s with fw := { s.fw with clOff := s.fw.clOff ++ [c] } }
      else s) s

/-- The switch or the hold (spec/02 At the tick): A_sw in ns goes to the log (R61, R543). -/
def switchTick (s : State) : State :=
  let inc := eligible s
  let out := s.rot.holder
  if s.rot.saving then s
  else if inc = out then
    (match inc with | some n => setSt s n .running | none => s)
  else
    let lout := match out with | some n => liveTotal s n | none => 0
    let lin := match inc with | some n => liveTotal s n | none => 0
    let s := match out with | some n => switchOut s n false | none => s
    let s := match inc with | some n => switchIn s n | none => s
    scrubTick (logRec s 0x0021 2 63 0 (BitVec.ofNat 64 (1500 + ceilDiv (lout + lin) 6000)) 0)

/-- Contexts that no longer hold the pound leave Running (R58). -/
def leaveRunning (s : State) (n : Nat) : State :=
  if (gCtx s n).st = .running && (s.rot.holder != some n || s.rot.saving) then setSt s n (if isNamed s n then .admitted else .bound) else s

/-! ## Segments issue (R45, R113, R143, R144, R197) -/

/-- Cancels what the overrun attempt of a segment issued and has not completed (R197). -/
def cancelSeg (s : State) (n cl : Nat) : State :=
  let fl := s.flights.filter (fun f => f.ctx == n && ofThread cl f.owner)
  let ids := (s.queues.flatMap (fun e => (e.2.descs.filter (firstRound n cl)).map (·.id))) ++
    (s.tows.filter (fun t => t.ctx == n && ofThread cl t.owner)).map (·.id) ++ fl.map (·.id) ++
    (s.units.flatMap (fun e => (e.2.held.filter (fun h => h.ctx == n && ofThread cl h.owner)).map (·.id))) ++
    (s.ops.filter (fun o => o.ctx == n && o.thread / 64 == cl && isParked s o.id)).map (·.id)
  if ids.isEmpty then s
  else
    let waits := (s.units.filter (fun e => e.1 % 5 == 4)).foldl (fun a e => a + (e.2.held.filter (fun h => ids.contains h.id && h.waiting)).length) 0 +
      (fl.flatMap (fun f => f.stages.filter (·.waiting))).length
    let s := (List.range waits).foldl (fun s _ => gateCount s n) s
    let s := s.queues.foldl (fun s e => (e.2.descs.filter (fun d => ids.contains d.id)).foldl (fun s d => leaveBerths (countLate s e.1 d) e.1 d) s) s
    let s := { s with queues := Tab.mapV {} (fun q => { q with descs := q.descs.filter (fun d => !ids.contains d.id) }) s.queues }
    let mine (id : Nat) : Bool := ids.contains id || (decide (2 ^ 64 ≤ id) && decide (id < 2 ^ 100) && ids.contains (id % 2 ^ 64))
    let s := { s with
      ops := s.ops.filter (fun o => !ids.contains o.id)
      tows := s.tows.filter (fun t => !ids.contains t.id)
      flights := s.flights.filter (fun f => !ids.contains f.id)
      faults := s.faults.filter (fun f => !mine f.id)
      rtxs := s.rtxs.filter (fun t => !mine t.owner)
      units := Tab.mapV {} (fun u => { u with held := u.held.filter (fun h => !ids.contains h.id) }) s.units
      lanes := Tab.mapV {} (fun l => if l.ctx = some n && ids.contains l.flight && !l.saving then { l with ctx := none, flight := 0, stage := 0 } else l) s.lanes }
    fl.foldl (fun s f => startFlight s f.cl) (refreshWait s)

/-- The fields of a segment header that R143 keeps zero, and what R144 checks. -/
def headerOk (s : State) (n cl base : Nat) (h : Bytes) : Bool :=
  let len := numAt h 8 4
  base % 64 == 0 && inBasin s n cl base (320 + 64 * len) && 1 ≤ len && numAt h 4 2 < 4 && numAt h 6 2 == 0 && numAt h 12 4 == 0 &&
  allZero (slice h 24 40) &&
  (List.range 64).all (fun i => !bitOf (wordAt h 16) i || decide (numAt h (64 + 4 * i) 4 < len))

/-- Starts a segment from its header. -/
def startSeg (s : State) (n cl base : Nat) : State :=
  let s := countUninit s n (if inBasin s n cl base 320 then unwritten s cl base 320 else 0)
  let (h, _, s) := if inBasin s n cl base 320 then clRead s cl base 320 else ([], false, s)
  if !headerOk s n cl base h then faultAtTick (uSeg s n cl (fun g => { g with exc := eRange })) n eRange
  else
    let flags := numAt h 4 2
    let seg := numAt h 0 4
    let s := uSeg (clearThreads s cl) n cl (fun g => { g with
      started := true, segId := BitVec.ofNat 32 seg, replayable := flags % 2 == 1, splittable := flags / 2 == 1, codeLen := numAt h 8 4 })
    (List.range 64).foldl (fun s i =>
      if bitOf (wordAt h 16) i then
        let pc := numAt h (64 + 4 * i) 4
        tjYoren (uTh s (64 * cl + i) (fun _ => { st := .ready, pc := BitVec.ofNat 32 pc, member := true })) n (64 * cl + i) 0 seg pc
      else s) s

/-- Issues the segment of a cluster: a split one resumes (R113), another starts. -/
def issueSeg (s : State) (n cl : Nat) : State :=
  let g := segOf s n cl
  if !g.present || g.committed || g.started || g.exc != 0 || !clServes s cl then s
  else if g.split then
    let s := uSeg s n cl (fun g => { g with split := false, started := true })
    (s.threads.filter (fun e => e.1 / 64 == cl && e.2.member && e.2.st != .ended)).foldl (fun s e => tjYoren s n e.1 0 g.segId.toNat e.2.pc.toNat) s
  else startSeg (cancelSeg s n cl) n cl g.base

/-- A segment runs again from its start at this tick. -/
def replays (g : Seg) : Bool := g.present && !g.committed && !g.started && g.exc == 0 && !g.split

/-- At the tick that opens a retry, what the overrun attempts left parked is cancelled, before any agent resumes (R197). -/
def cancelDue (s : State) (n : Nat) : State :=
  let c := gCtx s n
  if !c.ring.runActive || !c.sch.issued then s
  else (c.sch.segs.filter (fun e => replays e.2)).foldl (fun s e => cancelSeg s n e.1) s

/-- The segments of a row of the step section (R494). -/
def stepSegs (s : State) (n pos : Nat) : Tab Seg :=
  let row := ((manOf s n).steps.getD pos []).take (min 48 (manOf s n).clusters)
  (row.zip (List.range row.length)).filterMap (fun (b, c) => if b = 0xFFFFFFFF then none else some (c, { present := true, base := b.toNat }))

/-- Segments of the context that holds the pound issue (R45): the step in progress, or the next one while a RUN is active. -/
def issueAll (s : State) (n : Nat) : State :=
  let c := gCtx s n
  if (manOf s n).steps.isEmpty || !c.ring.runActive then s
  else
    let s := if c.sch.issued then s else uCtx s n (fun c => { c with sch := { c.sch with segs := stepSegs s n c.sch.pos, issued := true } })
    let s := { s with rot := { s.rot with poundStarted := true } }
    (List.range 48).foldl (fun s cl => issueSeg s n cl) s

/-! ## The rest of the tick -/

/-- Re-arm records of the context's persistent barges are examined, and drain counts restart (R226, R229). -/
def rearmTick (s : State) (n : Nat) : State :=
  let l := s.queues.flatMap (fun e => (e.2.descs.filter (fun d => d.ctx == n && bPersist d.d)).map (fun d => (e.1, d)))
  let s := l.foldl (fun s (q, d) => rearmOne s q d) s
  { s with queues := Tab.mapV {} (fun q => if q.ctx = some n then { q with drained := q.returned, returned := 0 } else q) s.queues }

/-- The deadlines that pass with the pound that ends: barges that have not completed are counted (R227). -/
def missTick (s : State) : State :=
  let now (d : BDesc) : Bool := bDl d.d != 0 && !d.missed && !d.complete && d.pIssue.toNat + bDl d.d == s.tick.pound.toNat
  { s with queues := Tab.mapV {} (fun q =>
      let k := (q.descs.filter now).length
      if k = 0 then q else { q with dlMiss := bump16 q.dlMiss k, descs := q.descs.map (fun d => if now d then { d with missed := true } else d) }) s.queues }

/-- Agents whose page was mapped while their context did not hold the pound retry (R195). -/
def wokenTick (s : State) (n : Nat) : State :=
  let l := s.faults.filter (fun f => f.ctx == n && f.woken)
  let s := { s with faults := s.faults.filter (fun f => !(f.ctx == n && f.woken)) }
  l.foldl (fun s f => traceResume s n f.id) s

/-- Trace register writes of the context take effect (R562). -/
def traceTick (s : State) (n : Nat) : State :=
  let s := match (gCtx s n).tj.nxt with
    | none => s
    | some (ctrl, lo, hi, size, mask) =>
      uCtx s n (fun c => { c with tj := { c.tj with
        ctrl := ctrl, bufLo := lo, bufHi := hi, size := size, clmask := mask, nxt := none
        state := if ctrl.extractLsb' 0 4 = 0 then 0 else 1, wptr := 0, wph := false } })
  let s := if (gCtx s n).tj.state = 2 then tjEmit s n 473 1 0 s.tick.pound else s
  tjHeld s n

/-- The duties of a pound of a context, at the end of the hold or of the switch allowance. -/
def poundOf (s : State) (n : Nat) : State :=
  let s := traceTick s n
  let s := { s with harts := Tab.mapV {} (fun h => { h with waiting := false }) s.harts }
  let s := rearmTick (wokenTick (if n = 0 then s else cancelDue s n) n) n
  let s := if n = 0 then s else issueAll s n
  collTick (refreshWait (serveTu s n)) n

/-- A barge, towpath transfer, codec job or fault is outstanding (R100). -/
def outstanding (s : State) : Bool :=
  !(s.tows.isEmpty && s.flights.isEmpty && s.faults.isEmpty && s.lanes.all (fun e => e.2.ctx.isNone) &&
    s.queues.all (fun e => e.2.descs.all (fun d => d.complete)))

/-- In this pound nothing has run and nothing has been outstanding (R100). -/
def isQuiet (s : State) : Bool := !s.rot.poundStarted && !outstanding s

/-- The 2840 enters slack water (R100): the holder is saved as at a switch. -/
def slackNow (s : State) : State :=
  let s := match s.rot.holder with | some n => switchOut s n false | none => s
  { s with pm := { s.pm with st := 1, auto := s.pm.autoNext && !s.pm.enterNext, enterNext := false, autoNext := false, idleRun := 0 } }

/-- A wake that came in the pound of the entry follows it at once (spec/03 Corners). -/
def wakeAfter (s : State) : State :=
  if s.pm.wakeNext = 0 then s else wakeUp { s with pm := { s.pm with wakeNext := 0 } } s.pm.wakeNext

/-- A new generation of routes takes effect at its pound (R419, R433). -/
def routesTick (s : State) : State :=
  if s.reach.linkNext.any (fun e => decide (e.1.toNat ≤ s.tick.pound.toNat)) then
    let s := nextGeneration s
    releaseHeld s s.rtxs
  else s

/-- The clock of a domain whose clock changes (R30: cluster groups 0 to 7, harbor complexes 8 and 9), in MHz. -/
def clkOf (g : Gov) (k : Nat) : Nat := Tab.get 0 g.clk k

/-- The clock domain of a logical cluster's group, and of a harbor core's complex (R30, R31, R151). -/
def clkGroup (cl : Nat) : Nat := cl / 6
def clkComplex (h : Nat) : Nat := 8 + h / 8

/-- The clock in MHz of any of the 60 domains of R30: the trace clock is fixed (R548), the others from 10 on keep their boot setting
(R524). -/
def domainClk (g : Gov) (d : Nat) : Nat := if d < 10 then clkOf g d else if d = 49 then 1000 else Config.bootClk d

/-- The harbor clock of every power profile, and at the minimum safe point, in MHz (R151, R524, R596). -/
def harborClk : Nat := 2400
def harborSafe : Nat := 1200

/-- 800 MHz: the minimum safe operating point of a cluster group (R524). -/
def minSafeClk : Nat := 800

/-- Both harbor complexes run at a clock. -/
def setHarbor (g : Gov) (c : Nat) : Gov := { g with clk := Tab.set 0 (Tab.set 0 g.clk 8 c) 9 c }

/-- The governor holds the minimum safe operating point (R523, R524, R600). -/
def heldLow (g : Gov) : Bool := g.minSafe || g.brake

/-- The fused limit of the cluster clock (R519), in MHz. -/
def clkLimit : Nat := 1800

/-- A request of the PMC takes effect: a group that the governor holds below the old request does not rise (R520, R601). The fused
limit clamps it (R519). -/
def takeClk (g : Gov) (c : Nat) : Gov :=
  let top := min c clkLimit
  { g with
    clkReq := c
    clockClamp := decide (clkLimit < c)
    clk := (List.range 8).foldl (fun t k => Tab.set 0 t k (if !heldLow g && min g.clkReq clkLimit ≤ clkOf g k then top else min top (clkOf g k))) g.clk }

/-- PMC clock requests take effect (R599); one beyond the limit is counted and logged for each of the 8 groups (R520). -/
def clockTick (s : State) : State :=
  match s.gov.clkNext with
  | some c =>
    let s := { s with gov := { takeClk s.gov c with clkNext := none, clamp := if clkLimit < c then bump16 s.gov.clamp 8 else s.gov.clamp } }
    if clkLimit < c then (List.range 8).foldl (fun s k => logRec s 0x0040 1 63 1 (BitVec.ofNat 64 k) (BitVec.ofNat 64 clkLimit)) s else s
  | none => s

/-- The tick in slack water: the pound number and the rotation, and the unbinds of R454 (spec/03 At the tick). -/
def slackTick (s : State) : State :=
  let s := (List.range 64).foldl unbindTick s
  let s := routesTick (rotTick (poundTick s) false)
  { s with pm := { s.pm with slack := bump64 s.pm.slack 1 } }

/-- The tick. -/
def tickNow (s : State) : State :=
  if s.pm.st = 1 then slackTick s
  else
    let s := missTick (sampleAll { s with fw := { s.fw with clOff := [] } })
    let s := ctxsTick (if s.rot.saving then s else fencesTick s)
    let quiet := isQuiet s
    let s := { s with pm := { s.pm with idleRun := if quiet && s.tick.started then s.pm.idleRun + 1 else 0, autoNext := s.pm.autoNext && quiet } }
    let s := { s with rot := { s.rot with poundStarted := false } }
    let first := !s.tick.started
    let s := rotTick (poundTick s) first
    let s := if s.pm.enterNext || s.pm.autoNext then slackNow s else s
    let s := clockTick (portsTick (routesTick s))
    let s := (List.range 64).foldl leaveRunning (switchTick s)
    let s := match s.rot.holder with
      | some n => if holds s n then poundOf s n else s
      | none => s
    let s := { s with rot := { s.rot with poundStarted := s.rot.poundStarted || outstanding s }, pm := { s.pm with bellSeen := false } }
    wakeAfter (allRecords s)

/-- The ticks run: a reach has formed, or the chip runs alone (R41, R79). -/
def ticksRun (s : State) : Bool := isReady s && (s.tick.started || s.reach.rstate != 0)

/-! ## Rows -/

/-- A pound more since the last patrol pass (R173, R207). -/
def patrolTick (s : State) : State := uMem s (fun m => { m with patrolRun := m.patrolRun + 1 })

/-- TICK (R44). -/
def execTick (s : State) : Ans := .next (if ticksRun s then tickNow (patrolTick s) else s)

/-- A context spans the reach: it has exchanged Lockway messages, or maps memory of another chip (R51). -/
def spansReach (s : State) (n : Nat) : Bool :=
  !(gCtx s n).lw.seq.isEmpty || !(gCtx s n).lw.win.isEmpty ||
  s.mem.pte.any (fun e => pteOwner e.1 == n && e.1 / 2 ^ 36 % 16 != 1 && chipOf (fld e.2 59 24 * 65536) != s.cfg.chipNum && (e.1 / 2 ^ 36 % 16 == 3 || bitOf e.2 7))

/-- LEAVE_REACH (R51): after 16 holdover pounds. -/
def execLeaveReach (s : State) : Ans :=
  if isReady s && s.reach.rstate = 1 && !isMaster s && 16 ≤ s.tick.holdRun then
    let s := (rangeFrom 1 63).foldl (fun s n => if spansReach s n then enterFaulted s n eTickLost else s) s
    .next (leaveReachCore { s with tick := { s.tick with lostReach := true, holdRun := 0 } })
  else .next s

/-- TICK_MESSAGE (R50, R424, R425): accepted from the parent; `arrival` is in units of 0.1 ns. -/
def execTickMessage (port : Fin 12) (arrival : Nat) (m : Msg) (s : State) : Ans :=
  match recvMsg s port.val tTick m with
  | .drop s => .next s
  | .take m s =>
    if isMaster s || masterHop s s.cfg.chipNum != some (mSrc m) then .next s
    else
      let ann := wordAt m.payload 0
      let el := numAt m.payload 8 4
      let delay := (gPort s port.val).delay.toNat
      let at_ : Int := (arrival : Int) - delay - el + period01 s
      let err := (at_ - s.tick.nextAt).natAbs / 10
      let skew := if s.tick.nextAt = 0 then s.tick.skew else BitVec.ofNat 32 (min (max s.tick.skew.toNat err) (2 ^ 32 - 1))
      let (i, s) := freshFree s
      let s := { s with tick := { s.tick with nextAt := at_, skew := skew, elapsed := BitVec.ofNat 32 el } }
      let s := sendTick s ann (el + delay + Config.residence i)
      if s.tick.started && ann = s.tick.pound && 0 < s.tick.holdRun then .next s
      else .next { s with tick := { s.tick with msgSeen := true, announced := ann } }

/-- TICK_IN_EDGE (R52): `interval` since the previous edge, in units of 0.1 ns; `ofs` from the tick, in ns. -/
def execTickInEdge (interval : Nat) (ofs : Int) (s : State) : Ans :=
  if !isReady s || !isMaster s || !s.cfg.tickinEn then .next s
  else if period01 s < 10000 * ((interval : Int) - period01 s).natAbs then .next { s with tick := { s.tick with ignored := s.tick.ignored + 1 } }
  else
    let step := if s.tick.adj != 0 then 0 else max (-10) (min 10 ofs)
    .next { s with tick := { s.tick with
      tickinOfs := BitVec.ofInt 32 ofs, adj := s.tick.adj + step, nextAt := s.tick.nextAt + 10 * step, tickinLock := ofs == 0 } }

/-- TICKIN_LOST (R52). -/
def execTickinLost (s : State) : Ans :=
  if isReady s && isMaster s && s.cfg.tickinEn then .next { s with tick := { s.tick with tickinLost := true, tickinLock := false } } else .next s

/-- The commit of the shadow rotation (R56, R73): the code. -/
def commitRot (s : State) (p : Word) : Code × State :=
  let len := s.rot.shadowLen.toNat
  let l := (List.range len).map (fun i => Tab.get {} s.rot.shadow i)
  if 256 < len || p.toNat < s.tick.pound.toNat + 4 || l.any (fun e => e.valid && e.slice == 0) then (eRange, s)
  else
    let s := { s with rot := { s.rot with next := s.rot.next.filter (fun e => e.1 != p) ++ [(p, l)] } }
    (0, if s.reach.rstate == 1 then sendRotation s p l else s)

/-- A write to ROT_P_HI. -/
def rotHi (v : BitVec 32) (s : State) : State :=
  let s := { s with rot := { s.rot with pHi := v } }
  let (c, s) := commitRot s (BitVec.ofNat 64 (s.rot.pLo.toNat + v.toNat * 2 ^ 32))
  setAcc s 0 c

/-- ROTATION_COMMIT (R57, R73): by the PF of the tick master. -/
def execRotationCommit (fn : Fin 64) (v : BitVec 32) (s : State) : Ans := .next (barWrite s fn.val (fn.val == 0 && isMaster s) (rotHi v))

/-- A write to SPLIT_MAX (R72). -/
def splitMaxReg (fn n : Nat) (v : BitVec 32) (s : State) : State :=
  let x := v.toNat % 256
  if !isExpert s n || x = 0 then setAcc s fn eRange
  else setAcc (uCtx s n (fun c => { c with splitNext := some (BitVec.ofNat 8 x) })) fn 0

/-- SPLIT_MAX_WRITE (R72): by the bound function, under expert control. -/
def execSplitMaxWrite (fn : Fin 64) (ctx : Fin 64) (v : BitVec 32) (s : State) : Ans :=
  .next (barWrite s fn.val (ctxOf s fn.val == some ctx.val) (splitMaxReg fn.val ctx.val v))

/-- The step of the context that a unit failure stopped (R531): it replays, or its RUN ends with E_UNIT_LOST. -/
def unitLostTick (s : State) (n : Nat) : State :=
  let l := s.fw.unitLost.filter (fun e => e.1 / 64 == n)
  let s := { s with fw := { s.fw with unitLost := [] } }
  let c := gCtx s n
  if l.isEmpty || c.st = .faulted || c.st = .free then s
  else if l.all (·.2) && c.sch.segs.all (fun e => !e.2.present || e.2.committed || e.2.replayable) then s
  else
    let ag (e : Nat × Bool) : Agent :=
      { id := 0, ctx := n, kind := 7, cluster := e.1 % 64, detail := Config.recordDetail (2 * (64 * s.tick.pound.toNat + e.1 % 64) + 1) }
    let s := l.foldl (fun s e => errRecord s (ag e) eUnitLost) s
    let s := (List.range 48).foldl (fun s cl => cancelSeg s n cl) s
    let s := uCtx s n (fun c => { c with sch := { c.sch with segs := [], pos := 0, issued := false } })
    let s := (c.ring.entries.filter (fun e => e.op == 1 && e.st == 1)).foldl (fun s e => completeEntry s n e eUnitLost [] (entryW1 s n e)) s
    let s := uRing s n (fun r => { r with runActive := false, haltReq := false })
    (c.ring.entries.filter (fun e => e.op == 2 && e.st == 1)).foldl (fun s e => completeEntry s n e 0 [] (entryW1 s n e)) s

/-- The kept threads of a segment that runs again from its start are discarded. -/
def dropSaved (s : State) (n cl : Nat) : State :=
  uCtx s n (fun c => { c with sch := { c.sch with
    threads := c.sch.threads.filter (fun e => e.1 / 64 != cl), barriers := c.sch.barriers.filter (fun e => e.1 / 8 != cl) } })

/-- PREEMPT_SAVE_DONE (R65, R66): the full basins and the parked state are in the save area; halted segments count as neither
committed nor overrun and run again from their start. -/
def execPreemptSaveDone (s : State) : Ans :=
  if !s.rot.saving || !isReady s then .next s
  else match s.rot.savingCtx with
    | none => .next { s with rot := { s.rot with saving := false } }
    | some n =>
      let s := switchOut s n true
      let s := (List.range 48).foldl (fun s cl => if (segOf s n cl).started || (segOf s n cl).split then dropSaved (discardSeg s n cl) n cl else s) s
      .next (unitLostTick { s with rot := { s.rot with saving := false, savingCtx := none } } n)

/-- A write to PM_REQ by the PF (R106). -/
def pmReq (fn : Nat) (v : BitVec 2) (s : State) (f : State → State) : State :=
  barWrite s fn (fn == 0) (fun s => f { setAcc s fn 0 with pm := { s.pm with req := v } })

/-- ENTER_SLACK: at the next tick; a doorbell of the same pound wakes the 2840 right after (spec/03 Corners). -/
def slackReq (s : State) : State :=
  if s.pm.st = 0 then
    let s := { s with pm := { s.pm with enterNext := true } }
    if s.pm.bellSeen then wakeLater s 1 else s
  else s

/-- PREPARE_MOOR (R104, R595): the log is flushed, the reach is left, MAIN_EN goes low at MOOR_READY. -/
def moorReq (s : State) : State :=
  if (rangeFrom 1 63).any (fun n => (gCtx s n).st != .free && (gCtx s n).st != .faulted) then setAcc s 0 eBusy
  else
    let s := leaveReachCore s
    driveMain { s with pm := { s.pm with st := 2, enterNext := false, autoNext := false } } false

/-- ENTER_SLACK (R100). -/
def execEnterSlack (fn : Fin 64) (s : State) : Ans := .next (pmReq fn.val 1 s slackReq)

/-- SLACK_IDLE_EXPIRY (R100): the present pound is idle and completes a run of CFG_SLACK_IDLE; the next tick enters slack water. -/
def execSlackIdleExpiry (s : State) : Ans :=
  if isReady s && s.pm.st = 0 && s.cfg.slackIdle != 0 && s.cfg.slackIdle ≤ s.pm.idleRun + 1 && isQuiet s then
    .next { s with pm := { s.pm with autoNext := true } }
  else .next s

/-- RESUME (R102). -/
def execResume (fn : Fin 64) (s : State) : Ans := .next (pmReq fn.val 3 s (fun s => wakeUp s 2))

/-- PREPARE_MOOR (R104). -/
def execPrepareMoor (fn : Fin 64) (s : State) : Ans := .next (pmReq fn.val 2 s moorReq)

end Sys2Proof.Machine
end

