-- ==== Sys2Proof/Machine/Boot.lean ====
section
/-! DEFINITION. Power-up, the configuration image and the update path (spec/03 R74 to R95): the image checks, slot selection, the
boot rows, the reach at boot (R79, R434, R435), the FW_UPD_ commands; the measurements (spec/15 R483 to R488). -/

namespace Sys2Proof.Machine

/-! ## The configuration image (R83 to R87) -/

/-- One byte of a string as a number. -/
def byteAt (b : Bytes) (off : Nat) : Nat := numAt b off 1

/-- Every byte of [lo, hi) is zero. -/
def zeroIn (b : Bytes) (lo hi : Nat) : Bool := allZero (slice b lo (hi - lo))

def inR (lo hi x : Nat) : Bool := decide (lo ≤ x) && decide (x ≤ hi)

/-- A CFG_PORT entry lies within its range (R84). -/
def portEntryOk (w : Word) : Bool :=
  fld w 63 24 == 0 && decide (fld w 15 13 < 2) && decide (fld w 11 8 < 12) && (!bitOf w 12 || decide (4 ≤ popN (fld w 23 16) 8))

/-- The fields of the header with a range, and its reserved bytes and bits (R83). -/
def headerFieldsOk (b : Bytes) : Bool :=
  wordAt b 0 == 0x303438324C584D44 && numAt b 8 2 == 1 && zeroIn b 0x00A 0x00C &&
  inR 8192 (31 * 2 ^ 20) (numAt b 0x0C 4) && numAt b 0x0C 4 % 4096 == 0 &&
  decide (byteAt b 0x16 < 8) && zeroIn b 0x17 0x18 && inR 1000 200000 (numAt b 0x18 4) &&
  inR 65536 1048576 (numAt b 0x1C 4) && numAt b 0x1C 4 % 65536 == 0 &&
  inR 300 560 (numAt b 0x20 2) && inR 0 3 (byteAt b 0x22) && zeroIn b 0x23 0x24 && inR 0 1000000 (numAt b 0x24 4) &&
  inR 0 63 (byteAt b 0x32) && zeroIn b 0x33 0x34 && zeroIn b 0x37 0x38 &&
  inR 0 2 (byteAt b 0x38) && inR 1 16 (byteAt b 0x39) && inR 1 16 (byteAt b 0x3A) && inR 2 13 (byteAt b 0x3B) &&
  inR 100 60000 (numAt b 0x3C 4) && (List.range 12).all (fun i => portEntryOk (wordAt b (0x40 + 8 * i))) &&
  decide (byteAt b 0xA0 < 64) && zeroIn b 0xA1 0xA2 && decide (numAt b 0xA2 2 < 4096) &&
  byteAt b 0xA4 + byteAt b 0xA5 + byteAt b 0xA6 == 100 && zeroIn b 0xA7 0x100 && zeroIn b 0x900 0x1000

/-- A section as its directory entry gives it (R85): type, offset, length, its measured values. -/
structure DirEnt where
  ty : Nat
  off : Nat
  len : Nat
  sec : ImgSec
deriving DecidableEq, Repr

def dirEnt (b : Bytes) (i : Nat) : DirEnt :=
  let o := 0x100 + 128 * i
  { ty := byteAt b o, off := numAt b (o + 0x0C) 4, len := numAt b (o + 0x10) 4
    sec := { ver := BitVec.ofNat 32 (numAt b (o + 4) 4), build := BitVec.ofNat 32 (numAt b (o + 8) 4), digest := slice b (o + 0x20) 48 } }

def dirEnts (b : Bytes) : List DirEnt := ((List.range 16).map (dirEnt b)).filter (fun e => e.ty != 0)

/-- The directory (R85, R87): reserved bytes, types 1 to 4 once each, sections inside the image and apart. -/
def dirOk (b : Bytes) (len : Nat) : Bool :=
  let l := dirEnts b
  (List.range 16).all (fun i => let o := 0x100 + 128 * i
    zeroIn b (o + 1) (o + 4) && zeroIn b (o + 0x14) (o + 0x20) && zeroIn b (o + 0x50) (o + 0x80)) &&
  l.length == 4 && [1, 2, 3, 4].all (fun t => l.any (fun e => e.ty == t)) &&
  l.all (fun e => e.off % 4096 == 0 && decide (0x1000 ≤ e.off) && decide (e.off + e.len ≤ len - 4096) &&
    l.all (fun f => e.ty == f.ty || decide (e.off + e.len ≤ f.off) || decide (f.off + f.len ≤ e.off)))

/-- The tick period is at least 2 × A_max, A_max = 1.5 µs + 96 · CFG_LIVE_MAX ÷ 6.0 TB/s (R62). -/
def periodOk (period liveMax : Nat) : Bool := decide (2 * (1500 * 6000 + 96 * liveMax) ≤ 10 * period * 6000)

/-- R87 on an image: 0, or the code that VERIFY reports. -/
def imageCode (otp : Otp) (b : Bytes) : Code :=
  let len := numAt b 0x0C 4
  let sb := slice b (len - 4096) 4096
  let body := slice b 0 (len - 4096)
  let pub := slice sb 0 97
  if !headerFieldsOk b || !dirOk b len || !zeroIn sb 0x61 0x80 || !zeroIn sb 0xE0 0x1000 || numAt b 0x10 4 < otp.svnMin.toNat || !periodOk (numAt b 0x18 4) (numAt b 0x1C 4) then eRange
  else if (dirEnts b).any (fun e => sha384 (slice b e.off e.len) != e.sec.digest) || sha384 pub != otp.signerHash || !ecdsaVerify pub (slice sb 0x80 96) body then eIntegrity
  else 0

/-- The settings of an image (R83 to R85). -/
def cfgOf (b : Bytes) : Cfg :=
  let len := numAt b 0x0C 4
  let secOf (t : Nat) : ImgSec := match (dirEnts b).find? (fun e => e.ty == t) with
    | some e => e.sec
    | none => {}
  { svn := BitVec.ofNat 32 (numAt b 0x10 4), chipNum := byteAt b 0x14, tickMaster := byteAt b 0x15
    tickinEn := byteAt b 0x16 % 2 == 1, expertEn := byteAt b 0x16 / 2 % 2 == 1, svnCommit := byteAt b 0x16 / 4 % 2 == 1
    tickPeriod := numAt b 0x18 4, liveMax := numAt b 0x1C 4, pwrLimit := numAt b 0x20 2, pwrProfile := byteAt b 0x22
    slackIdle := numAt b 0x24 4, vid := BitVec.ofNat 16 (numAt b 0x28 2), did := BitVec.ofNat 16 (numAt b 0x2A 2)
    vfDid := BitVec.ofNat 16 (numAt b 0x2C 2), ssvid := BitVec.ofNat 16 (numAt b 0x2E 2), ssid := BitVec.ofNat 16 (numAt b 0x30 2)
    numVf := byteAt b 0x32, pciClass := BitVec.ofNat 24 (numAt b 0x34 3), topo := byteAt b 0x38, topoX := byteAt b 0x39
    topoY := byteAt b 0x3A, group := byteAt b 0x3B, reachWait := numAt b 0x3C 4
    ports := (List.range 12).map (fun i => wordAt b (0x40 + 8 * i)), arbHbm := BitVec.ofNat 6 (byteAt b 0xA0)
    arbLw := BitVec.ofNat 12 (numAt b 0xA2 2), splitRd := byteAt b 0xA4, splitWr := byteAt b 0xA5, splitRm := byteAt b 0xA6
    secs := [1, 2, 3, 4].map secOf, digest := sha384 (slice b 0 (len - 4096)) }

/-! ## Clocks of the power profile (R596, R597) -/

/-- The card limit in force (R596). -/
def limitW (c : Cfg) : Nat := if c.pwrProfile = 1 then 330 else if c.pwrProfile = 2 then 420 else if c.pwrProfile = 3 then 560 else c.pwrLimit

/-- The points of R597: clock in MHz, rated power in W. -/
def ratedPoints : List (Nat × Nat) := [(950, 300), (1100, 330), (1250, 375), (1400, 420), (1500, 470), (1600, 525), (1650, 560)]

/-- The rated power at a clock does not exceed a limit. -/
def ratedWithin (mhz limit : Nat) : Bool :=
  (ratedPoints.zip (ratedPoints.drop 1)).any (fun ((a, pa), (b, pb)) =>
    decide (a ≤ mhz) && decide (mhz ≤ b) && decide (pa * (b - a) + (mhz - a) * (pb - pa) ≤ limit * (b - a)))

/-- The clock of a limit: the highest 50 MHz step that the limit allows. -/
def profileClk (limit : Nat) : Nat := ((List.range 15).map (fun i => 950 + 50 * i)).foldl (fun best c => if ratedWithin c limit then c else best) 950

/-! ## Measurements (R483, R487, R488) -/

/-- The decimal digits of a number as ASCII. -/
def decimal (n : Nat) : Bytes := (Nat.toDigits 10 n).map (fun c => BitVec.ofNat 8 c.toNat)

/-- A version and build as major.minor.patch+build (R85, R487). -/
def verText (x : ImgSec) : Bytes :=
  decimal (x.ver.toNat % 256) ++ [0x2E] ++ decimal (x.ver.toNat / 256 % 256) ++ [0x2E] ++ decimal (x.ver.toNat / 65536) ++ [0x2B] ++ decimal x.build.toNat

/-- The context block of R488. -/
def ctxBlock (s : State) (n : Nat) : Bytes :=
  let c := gCtx s n
  if c.st = .free then List.replicate 64 0
  else
    let st : Nat := match c.st with
      | .free => 0
      | .bound => 1
      | .admitted => 2
      | .running => 3
      | .faulted => 4
    let m := manOf s n
    [BitVec.ofNat 8 st, BitVec.ofNat 8 (b2n c.expert), m.consent, m.permit, 0, 0, 0, 0] ++ wordBytes c.bind.pound ++ slice m.digest 0 48

/-- The unfenced clusters that hold a logical number of a tile. -/
def tileClusters (s : State) (tile : Nat) : Nat := ((List.range 24).filter (fun c => Tab.get 0 s.fw.map (24 * tile + c) != 0)).length

/-- The mask of the contexts that hold an expert grant. -/
def expertMask (s : State) : Nat := (List.range 64).foldl (fun a n => a + b2n ((gCtx s n).expert && (gCtx s n).st != .free) * 2 ^ n) 0

/-- Measurement `i` of R487; none for an index that is not listed. -/
def measure (s : State) (i : Nat) : Option Bytes :=
  if i = 1 then some (slice s.otp.romDigest 0 48)
  else if 2 ≤ i && i ≤ 5 then some (match s.cfg.secs[i - 2]? with
    | some x => slice x.digest 0 48 ++ verText x
    | none => [])
  else if i = 6 then some s.cfg.digest
  else if i = 7 then some (leBytes (b2n s.cfg.expertEn) 8 ++ leBytes (expertMask s) 8)
  else if i = 8 then some ([BitVec.ofNat 8 s.sec.mode.toNat, 0xA1, 0, 0] ++ leBytes s.cfg.svn.toNat 4 ++ leBytes s.otp.svnMin.toNat 4 ++
    [BitVec.ofNat 8 (tileClusters s 0), BitVec.ofNat 8 (tileClusters s 1), 0, 0])
  else if 0x41 ≤ i && i ≤ 0x7F then some (ctxBlock s (i - 0x40))
  else none

/-- Measurements, one after another. -/
def measures (s : State) (l : List Nat) : Bytes := l.flatMap (fun i => (measure s i).getD [])

/-- The identity of a boot (R483, R484): the CDI that the Alias key is derived from, the Alias certificate. -/
def makeIdentity (s : State) : State :=
  let cdi := hmac384 s.otp.uds (sha384 (measures s [1, 2, 6] ++ [BitVec.ofNat 8 s.sec.mode.toNat]))
  let pub := Config.aliasPublic cdi
  { s with sec := { s.sec with cdi := cdi, aliasPub := pub, cert := Config.aliasCert pub (measures s (rangeFrom 1 8)), udsLocked := true } }

/-! ## Slots (R90, R91) -/

def slotOf (b : Boot) (isB : Bool) : Slot := if isB then b.slotB else b.slotA
def setSlot (b : Boot) (isB : Bool) (f : Slot → Slot) : Boot := if isB then { b with slotB := f b.slotB } else { b with slotA := f b.slotA }

/-- The slot that step 2 chooses (R90). -/
def chooseSlot (b : Boot) : Option Bool :=
  if b.slotA.st == .pending then some false else if b.slotB.st == .pending then some true
  else if b.slotA.st == .active then some false else if b.slotB.st == .active then some true
  else if b.slotA.st == .standby then some false else if b.slotB.st == .standby then some true
  else none

/-- The counters of a port alone. -/
def portCounters (p : Port) : Port :=
  { fecc := p.fecc, uncorr := p.uncorr, replay := p.replay, laneDrop := p.laneDrop, creditErr := p.creditErr, c0Over := p.c0Over, badMsg := p.badMsg,
    txf := p.txf, rxf := p.rxf, sat := p.sat }

/-- What a reset leaves (R74, R571): flash, OTP and the wake block. A flash write in progress fails. -/
def coldState (s : State) : State :=
  let s := commitFail s
  { pending := s.pending, free := s.free, nextId := s.nextId, out := s.out, otp := s.otp, wake := s.wake
    boot := { phase := s.boot.phase, slotA := s.boot.slotA, slotB := s.boot.slotB } }

/-- What an internal reset leaves beside that (R91, R511): the device-wide counters and what else holds until PERST_N (R523, R569, R571),
the fenced harts and lanes (R576), the brake, which is a pin. -/
def internalReset (s : State) : State :=
  let t := coldState s
  let g := s.gov
  let clk := if heldLow g then (List.range 8).map (fun k => (k, minSafeClk)) else []
  { t with
    gov := { minSafe := g.minSafe, brake := g.brake, clamp := g.clamp, throttle := g.throttle, wdog := g.wdog, brakeCnt := g.brakeCnt, warnCnt := g.warnCnt, clk := clk }
    fw := { t.fw with logWrap := s.fw.logWrap, collide := s.fw.collide, collSat := s.fw.collSat, hartFenced := s.fw.hartFenced }
    sec := { t.sec with icf := s.sec.icf, auth := s.sec.auth }
    hi := { t.hi with tmoBar0 := s.hi.tmoBar0 }
    sysTrig := s.sysTrig
    lanes := Tab.mapV {} (fun l => { fenced := l.fenced || l.fenceDue }) s.lanes
    ports := Tab.mapV {} portCounters s.ports
    mem := { stks := s.mem.stks } }

/-- The clusters that pass self-test take the logical numbers of their tile (R529). -/
def bootMap (fenced : BitVec 52) : Tab Nat :=
  (List.range 2).flatMap (fun t =>
    (((rangeFrom (26 * t) 26).filter (fun p => !fenced.getLsbD p)).zip (rangeFrom (24 * t) 24)).map (fun (p, c) => (c, p + 1)))

/-- The flash (R81): `n` bytes from an address of slot A or slot B; the rest of the flash is not read as an image. -/
def flashBase (isB : Bool) : Nat := if isB then 0x02000000 else 0x00100000
def slotBytes : Nat := 31 * 2 ^ 20
def flashRead (b : Boot) (a n : Nat) : Bytes :=
  let from_ (isB : Bool) : Bytes := (((slotOf b isB).image.take slotBytes).drop (a - flashBase isB)).take n
  if 0x00100000 ≤ a && a < 0x02000000 then from_ false else if 0x02000000 ≤ a && a < 0x03F00000 then from_ true else []

/-- Step 3: the image of a slot is read into the harbor L3 (R76, R81). -/
def stageL3 (s : State) (isB : Bool) : State := uBoot s (fun b => { b with l3 := flashRead b (flashBase isB) slotBytes })

/-- The PMC, LKC and CCC images (directory types 2 to 4), which step 6 copies into the firmware reserve. -/
def fwImages (img : Bytes) : Tab Bytes :=
  [2, 3, 4].filterMap (fun t => ((dirEnts img).find? (fun e => e.ty == t)).map (fun e => (t, slice img e.off e.len)))

/-- Step 4 to step 8 with a staged image that R87 accepts: settings, firmware images, clocks (R597), ports that train (R434), clusters
(R529). -/
def loadImage (s : State) (isB : Bool) (fenced : BitVec 52) : State :=
  let c := cfgOf s.boot.l3
  let clk := profileClk (limitW c)
  let s := { s with
    cfg := c
    boot := { s.boot with booted := isB, recover := false }
    gov := setHarbor (takeClk s.gov clk) (if heldLow s.gov then harborSafe else harborClk)
    fw := { s.fw with fenced := fenced, map := bootMap fenced, images := fwImages s.boot.l3 } }
  (List.range 12).foldl (fun s i => if portEnabled s i then uPort s i (fun p => { p with st := 1 }) else s) s

/-- A boot (R90, R91): the chosen slot, or after a failure the other one, or recovery. -/
def tryBoot : Nat → State → Option Bool → BitVec 52 → State
  | 0, s, _, _ => uBoot s (fun b => { b with recover := true })
  | _ + 1, s, none, _ => uBoot s (fun b => { b with recover := true })
  | k + 1, s, some isB, fenced =>
    let s := stageL3 s isB
    if imageCode s.otp s.boot.l3 = 0 then loadImage s isB fenced
    else
      let s := uBoot s (fun b => setSlot b isB (fun x => { x with st := .failed }))
      let o := slotOf s.boot (!isB)
      if o.st == .active || o.st == .standby then tryBoot k (uBoot s (fun b => { b with fallback := true })) (some (!isB)) fenced
      else tryBoot k s none fenced

/-- The SEC ROM starts (R76). -/
def startBoot (s : State) (mode : BitVec 3) (fenced : BitVec 52) : State :=
  let s := { s with sec := { s.sec with mode := mode, udsLocked := true }, boot := { s.boot with phase := .booting } }
  tryBoot 3 s (chooseSlot s.boot) fenced

/-- PERST_N_RISE (R74, R603): rails and clocks outside R592 make the boot undefined; a trip latch that is set keeps the reset. -/
def execPerstNRise (railsOk : Bool) (selfTestFail : BitVec 52) (s : State) : Ans :=
  if s.wake.perstHigh then .next s
  else if !railsOk || !s.wake.auxUp then .fault .bootUndefined
  else
    let s := { s with wake := { s.wake with perstHigh := true, mainUp := true } }
    if s.wake.tripLatch || s.wake.thermTrip then .next { s with boot := { s.boot with phase := .reset } }
    else .next (startBoot (coldState s) 0 selfTestFail)

/-- The phase while PERST_N is low. -/
def lowPhase (w : Wake) : Phase := if !w.auxUp then .noAux else if w.mainUp then .reset else .off

/-- THERM_TRIP_N is released once the trip latch has cleared (R603). -/
def releaseTrip (s : State) : State :=
  if s.wake.thermTrip && !s.wake.tripLatch then emit { s with wake := { s.wake with thermTrip := false } } (.level "THERM_TRIP_N" true) else s

/-- PERST_N_FALL (R74). -/
def execPerstNFall (s : State) : Ans :=
  if !s.wake.perstHigh then .next s
  else
    let s := coldState (releaseTrip { s with wake := { s.wake with perstHigh := false, smbAlert := false } })
    .next (uBoot s (fun b => { b with phase := lowPhase s.wake }))

/-- One log record for each boot step that is complete (R543). -/
def logSteps (s : State) : State :=
  (rangeFrom 1 10).foldl (fun s k =>
    let (i, s) := freshFree s
    logRec s 0x0001 0 63 0 (BitVec.ofNat 64 k) (BitVec.ofNat 64 (Config.bootNs i))) s

/-- The fences of the self-test in the log. -/
def logFences (s : State) : State :=
  let s := ((List.range 52).filter (fun p => s.fw.fenced.getLsbD p)).foldl (fun s p => logRec s 0x0030 2 63 2 63 (BitVec.ofNat 64 p)) s
  ((List.range 48).filter (fun c => Tab.get 0 s.fw.map c == 0)).foldl (fun s c => logRec s 0x0031 2 63 2 (BitVec.ofNat 64 c) (BitVec.ofNat 64 (c / 24))) s

/-- The slot states after a boot that reached ready (R88, R91). -/
def settleSlots (s : State) : State :=
  let b := s.boot
  let x := b.booted
  let b := if (slotOf b x).st == .pending && (slotOf b (!x)).st == .active then setSlot b (!x) (fun y => { y with st := .standby }) else b
  let s := { s with boot := setSlot b x (fun y => { y with st := .active }) }
  if s.cfg.svnCommit then { s with otp := { s.otp with svnMin := BitVec.ofNat 32 (max s.otp.svnMin.toNat s.cfg.svn.toNat) } } else s

/-- The chip runs alone on its own tick: the first tick follows (R79). -/
def runAlone (s : State) : State :=
  tickNow { s with reach := { s.reach with rstate := 2, members := (1 : BitVec 256) <<< s.cfg.chipNum } }

/-- BOOT_READY (R76 to R79, R91, R92). -/
def execBootReady (s : State) : Ans :=
  if s.boot.phase != .booting then .next s
  else if s.boot.recover then .next (makeIdentity { s with sec := { s.sec with mode := 1 }, boot := { s.boot with phase := .recovery, l3 := [] } })
  else
    let s := logFences (logSteps (settleSlots s))
    let (mem, s) := randomBytes s 64
    let (exp, s) := randomBytes s 32
    let s := uCtx { s with boot := { s.boot with phase := .ready, l3 := [] }, sec := { s.sec with sysMemKey := mem, sysExpKey := exp } } 0 (fun c => { c with st := .bound })
    let s := makeIdentity { s with reach := { s.reach with routes := computeRoutes s } }
    .next (if s.cfg.topo = 0 then runAlone s else s)

/-- BOOT_TIMEOUT (R77, R91): the slot is Failed, the 2840 resets internally, the other slot boots. -/
def execBootTimeout (s : State) : Ans :=
  if s.boot.phase != .booting || s.boot.recover then .next s
  else
    let fenced := s.fw.fenced
    let x := s.boot.booted
    let s1 := internalReset s
    let s1 := { s1 with sec := { s1.sec with mode := s.sec.mode, debugBit := s.sec.debugBit, scope := s.sec.scope, udsLocked := true }
                        boot := { setSlot s1.boot x (fun y => { y with st := .failed }) with fallback := s.boot.fallback } }
    let o := slotOf s1.boot (!x)
    .next (if o.st == .active || o.st == .standby then tryBoot 2 (uBoot s1 (fun b => { b with fallback := true })) (some (!x)) fenced
      else tryBoot 2 s1 none fenced)

/-! ## The reach at boot (R79, R434, R435) -/

/-- Two distinct devices claim one chip number, or another device claims the master's. -/
def clash (s : State) : Bool :=
  s.reach.hellos.any (fun h => h.chip == s.cfg.chipNum || s.reach.hellos.any (fun g => g.chip == h.chip && g.ident != h.ident))

/-- The chips that the master has admitted. -/
def admittedChips (s : State) : List Hello := s.reach.hellos.filter admitted

/-- The master may form a reach. -/
def mayForm (s : State) : Bool :=
  isReady s && s.cfg.topo != 0 && s.reach.rstate == 0 && s.cfg.chipNum == s.cfg.tickMaster && s.sec.mode == 0 && !clash s

/-- The master draws the reach key, sends it to every chip that it admitted, and the first tick follows (R41, R434, R500). -/
def formReach (s : State) : State :=
  let l := admittedChips s
  let members := l.foldl (fun (m : BitVec 256) h => m ||| ((1 : BitVec 256) <<< h.chip)) ((1 : BitVec 256) <<< s.cfg.chipNum)
  let (key, s) := randomBytes s 32
  let s := { s with reach := { s.reach with key := key, members := members } }
  let s := enterReach (l.foldl (fun s h => sendMgmt s h.chip mopReach (reachOrder s (some h))) s) members key false 0
  tickNow (s.rot.next.foldl (fun s e => sendRotation s e.1 e.2) s)

/-- REACH_FORMED. -/
def execReachFormed (s : State) : Ans := .next (if mayForm s then formReach s else s)

/-- REACH_WAIT_EXPIRY (R79, R434, R435): a master that has admitted chips forms the reach; any other chip runs alone. -/
def execReachWaitExpiry (s : State) : Ans :=
  if !isReady s || s.reach.rstate != 0 then .next s
  else if mayForm s && !(admittedChips s).isEmpty then .next (formReach s)
  else .next (runAlone s)

/-! ## The update path (R93 to R95) -/

/-- A write to FW_UPD_ by the PF, in recovery too (R92, R95). -/
def updWrite (s : State) (fn : Nat) (f : State → State) : State :=
  if s.boot.phase = .recovery then (if barOpen s fn && fn = 0 then f (setAcc s fn 0) else s)
  else barWrite s fn (fn == 0) (fun s => f (setAcc s fn 0))

/-- A CMD that names a listed command. -/
def updCmd (fn : Nat) (c : BitVec 3) (f : Boot → Boot) (s : State) : State := updWrite s fn (fun s => uBoot s (fun b => f { b with cmd := c }))

/-- OPEN: while nothing is being verified or written. -/
def updOpen (b : Boot) : Boot := if b.upd = 2 || b.upd = 4 then { b with updResult := eBusy } else { b with upd := 1, updResult := 0 }

/-- The staged image. -/
def stagedImage (b : Boot) : Bytes := Tab.getMany 0 b.staging 0 (min b.updLen.toNat (31 * 2 ^ 20))

/-- VERIFY: R87 on the staged image, whose length is the one that LEN gives. -/
def updVerify (otp : Otp) (b : Boot) : Boot :=
  if b.upd = 2 || b.upd = 4 then { b with updResult := eBusy }
  else if b.upd != 1 && b.upd != 3 then { b with updResult := eRange }
  else
    let img := stagedImage b
    { b with upd := 2, verifyCode := if numAt img 0x0C 4 = b.updLen.toNat then imageCode otp img else eRange }

/-- COMMIT: only after a VERIFY that ended with RESULT 0 (R94). -/
def updCommit (b : Boot) : Boot :=
  if b.upd = 3 && b.verifyCode = 0 then { b with upd := 4, updResult := 0, progress := 0 }
  else { b with updResult := if b.upd = 4 then eBusy else eRange }

/-- ABORT (R94). -/
def updAbort (s : State) : State := uBoot (commitFail s) (fun b => { b with cmd := 4, upd := 0, updResult := 0 })

/-- FW_UPD_OPEN. -/
def execFwUpdOpen (fn : Fin 64) (s : State) : Ans := .next (updCmd fn.val 1 updOpen s)
/-- FW_UPD_VERIFY. -/
def execFwUpdVerify (fn : Fin 64) (s : State) : Ans := .next (updCmd fn.val 2 (updVerify s.otp) s)
/-- FW_UPD_COMMIT. -/
def execFwUpdCommit (fn : Fin 64) (s : State) : Ans := .next (updCmd fn.val 3 updCommit s)
/-- FW_UPD_ABORT. -/
def execFwUpdAbort (fn : Fin 64) (s : State) : Ans := .next (updWrite s fn.val updAbort)

/-- FW_UPD_VERIFY_DONE (R94). -/
def execFwUpdVerifyDone (s : State) : Ans :=
  .next (if s.boot.upd = 2 then uBoot s (fun b => { b with upd := 3, updResult := b.verifyCode }) else s)

/-- FW_UPD_COMMIT_DONE (R93): the target slot is Pending. -/
def execFwUpdCommitDone (s : State) : Ans :=
  if s.boot.upd != 4 then .next s
  else
    let img := stagedImage s.boot
    let x := targetIsB s.boot
    let b := setSlot s.boot x (fun _ => { st := .pending, image := img })
    let s := { s with boot := { b with upd := 5, progress := b.updLen } }
    .next (logRec s 0x0090 0 63 0 (BitVec.ofNat 64 (b2n x)) (BitVec.ofNat 64 (numAt img 0x10 4)))

end Sys2Proof.Machine
end

