-- ==== Sys2Proof/Machine/Parquet.lean ====
section
/-! DEFINITION. Parquet data pages (spec/09_feature_operations.md R296 to R298): the hybrid of runs, plain values, dictionary indices,
and what each row of a page receives. -/

namespace Sys2Proof.Machine

/-- A decoded value and the body bytes [lo, hi) it came from. -/
structure PqVal where
  x : Nat
  lo : Nat
  hi : Nat
deriving DecidableEq, Repr

/-- A varint: value and the position after it. -/
def pqVarint (b : Bytes) (stop : Nat) : Nat → Nat → Nat → Option (Nat × Nat)
  | 0, _, _ => none
  | k + 1, pos, sh =>
    if stop ≤ pos then none
    else
      let x := (b.getD pos 0).toNat
      if x < 128 then some (x * 2 ^ sh, pos + 1)
      else (pqVarint b stop k (pos + 1) (sh + 7)).map (fun (y, p) => (x % 128 * 2 ^ sh + y, p))

/-- The RLE/bit-packed hybrid of width `w` from `pos` to `stop`: up to `want` values; a run that overruns the body stops it with an
error. Answers the values, whether they ended in an error, and whether more values stand there: a longer run, of which the padding of a
bit-packed run to eight values is no part, or another run. -/
def pqHybrid (b : Bytes) (w stop : Nat) : Nat → Nat → Nat → List PqVal → List PqVal × Bool × Bool
  | 0, _, _, acc => (acc.reverse, true, false)
  | k + 1, want, pos, acc =>
    if want = 0 then (acc.reverse, false, decide (pos < stop))
    else match pqVarint b stop 6 pos 0 with
      | none => (acc.reverse, true, false)
      | some (h, p) =>
        if h % 2 = 0 then
          let nb := ceilDiv w 8
          if stop < p + nb then (acc.reverse, true, false)
          else
            let n := min want (h / 2)
            let x := numAt b p nb % 2 ^ w
            let (vs, bad, more) := pqHybrid b w stop k (want - n) (p + nb) (List.replicate n { x := x, lo := pos, hi := p + nb } ++ acc)
            (vs, bad, more || decide (want < h / 2))
        else
          let total := 8 * (h / 2)
          if stop < p + h / 2 * w then (acc.reverse, true, false)
          else
            let n := min want total
            let vals := (List.range n).map (fun i =>
              let lo := p + i * w / 8
              let hi := p + (i * w + w + 7) / 8
              ({ x := (numAt b lo (hi - lo) >>> (i * w % 8)) % 2 ^ w, lo := lo, hi := hi } : PqVal))
            let (vs, bad, more) := pqHybrid b w stop k (want - n) (p + h / 2 * w) (vals.reverse ++ acc)
            (vs, bad, more || decide (want + 8 ≤ total))

/-- A page's parameters (R296). -/
structure PqPage where
  count : Nat
  enc : Nat
  v2 : Bool
  optional : Bool
  ty : Nat
  flen : Nat
  uns : Bool
  lvlLen : Nat
  dictN : Nat
deriving DecidableEq, Repr

/-- The encoding and the type lie inside R296. -/
def pqListed (p : PqPage) : Bool :=
  p.enc ≤ 2 && p.ty ≤ 6 && (p.ty != 6 || (1 ≤ p.flen && p.flen ≤ 8)) && (p.enc != 2 || p.ty == 0)

/-- A value image as a field (R294, R297). -/
def pqField (p : PqPage) (b : Bytes) : Nat :=
  match p.ty with
  | 1 => if p.uns then ofLe b else unsgn 64 (sgn 32 (ofLe b))
  | 2 => ofLe b
  | 3 => ofLe b
  | 4 => (fCvt fp64 fp32 (ofLe b)).1
  | 5 => xxh64 0 b
  | _ => if p.uns then ofLe b else unsgn 64 (sgn (8 * b.length) (ofLe b))

/-- PLAIN values from a position: the values, whether they ended in an error, and the position after them. -/
def pqPlain (p : PqPage) (b : Bytes) (stop : Nat) : Nat → Nat → Nat → List PqVal → List PqVal × Bool × Nat
  | 0, _, pos, acc => (acc.reverse, false, pos)
  | k + 1, i, pos, acc =>
    if p.ty = 0 then
      if stop ≤ pos + i / 8 then (acc.reverse, true, stop)
      else pqPlain p b stop k (i + 1) pos ({ x := ((b.getD (pos + i / 8) 0).toNat >>> (i % 8)) % 2, lo := pos + i / 8, hi := pos + i / 8 + 1 } :: acc)
    else if p.ty = 5 then
      if stop < pos + 4 || stop < pos + 4 + numAt b pos 4 then (acc.reverse, true, stop)
      else
        let n := numAt b pos 4
        pqPlain p b stop k (i + 1) (pos + 4 + n) ({ x := pqField p (slice b (pos + 4) n), lo := pos, hi := pos + 4 + n } :: acc)
    else
      let n := if p.ty = 1 || p.ty = 3 then 4 else if p.ty = 6 then p.flen else 8
      if stop < pos + n then (acc.reverse, true, stop)
      else pqPlain p b stop k (i + 1) (pos + n) ({ x := pqField p (slice b pos n), lo := pos, hi := pos + n } :: acc)

/-- What one row receives: its field (none for a null), whether the field is a dictionary index, and the bytes it came from. -/
structure PqRow where
  v : Option Nat
  lvlLo : Nat
  lvlHi : Nat
  lo : Nat
  hi : Nat
deriving DecidableEq, Repr

/-- Puts the values under the levels: a row for each level while values last. -/
def pqJoin : List PqVal → List PqVal → List PqRow × List PqVal
  | [], vs => ([], vs)
  | l :: r, vs =>
    if l.x = 0 then
      let (a, w) := pqJoin r vs
      ({ v := none, lvlLo := l.lo, lvlHi := l.hi, lo := 0, hi := 0 } :: a, w)
    else match vs with
      | [] => ([], [])
      | v :: vr =>
        let (a, w) := pqJoin r vr
        ({ v := some v.x, lvlLo := l.lo, lvlHi := l.hi, lo := v.lo, hi := v.hi } :: a, w)

/-- The rows of a page, and whether the page ends in E_PARSE after them (R297, R298). A value of a dictionary page is its index. -/
def pqRows (p : PqPage) (b : Bytes) : List PqRow × Bool :=
  let len := b.length
  let lvl : Option (List PqVal × Bool × Nat) :=
    if !p.optional then some (List.replicate p.count { x := 1, lo := 0, hi := 0 }, false, 0)
    else
      let start := if p.v2 then 0 else 4
      let stop := if p.v2 then p.lvlLen else 4 + numAt b 0 4
      if len < start || len < stop then none
      else
        let (l, bad, _) := pqHybrid b 1 stop (stop + 1) p.count start []
        some (l, bad, stop)
  match lvl with
  | none => ([], true)
  | some (levels, lbad, pos) =>
    let want := levels.foldl (fun a l => a + l.x) 0
    let (vals, vbad, extra) :=
      if p.enc = 0 then
        let (v, bad, after) := pqPlain p b len want 0 pos []
        let after := if p.ty = 0 then pos + ceilDiv want 8 else after
        (v, bad, after != len)
      else
        let p0 := if p.enc = 1 then pos + 1 else pos + 4
        let w := if p.enc = 1 then (b.getD pos 0).toNat else 1
        let stop := if p.enc = 1 then len else pos + 4 + numAt b pos 4
        if len < p0 || len < stop || 32 < w then ([], true, false)
        else
          pqHybrid b w stop (len + 1) want p0 []
    let cut := if p.enc = 1 then vals.takeWhile (fun v => decide (v.x < p.dictN)) else vals
    let (rows, _) := pqJoin levels cut
    (rows, lbad || vbad || extra || cut.length != want)

end Sys2Proof.Machine
end

