-- ==== Sys2Proof/Machine/Feature.lean ====
section
/-! DEFINITION. The Feature Unit (spec/09_feature_operations.md): its command and feature rows, and what each operation computes, from
the unit's queue and as flight stages. -/

namespace Sys2Proof.Machine

/-! ## The command (R285 to R287) -/

def xFn (d : Bytes) : Nat := fld (wordAt d 0) 55 48
def xFlags (d : Bytes) : Nat := fld (wordAt d 0) 47 40
def xSf (d : Bytes) : Nat := fld (wordAt d 0) 39 35
def xSf2 (d : Bytes) : Nat := fld (wordAt d 0) 34 30
def xDf (d : Bytes) : Nat := fld (wordAt d 0) 29 25
def xNf (d : Bytes) : Nat := fld (wordAt d 0) 24 20 + 1
def xKind (d : Bytes) : Nat := fld (wordAt d 0) 19 18
def xCount2 (d : Bytes) : Nat := fld (wordAt d 24) 63 32
def xCount (d : Bytes) : Nat := fld (wordAt d 24) 31 0
def xTbl (d : Bytes) : Nat := fld (wordAt d 32) 47 0
def xP0 (d : Bytes) : Word := wordAt d 40
def xP1 (d : Bytes) : Word := wordAt d 48
def xMap (d : Bytes) : Nat := fld (wordAt d 56) 47 0
/-- Bytes of a feature row of the command (R290). -/
def xRb (d : Bytes) : Nat := 8 + 8 * xNf d

/-- A mask names no field beyond the row. -/
def maskOk (d : Bytes) (m : Nat) : Bool := decide (m < 2 ^ xNf d)

/-- The fields that an operation uses, in the order FN limit, flags, SF, SF2, DF, COUNT, COUNT2, TBL, P0, P1, TAINTMAP. -/
def xUses (d : Bytes) : Nat × Nat × List Bool :=
  let fn := xFn d
  let fl := xFlags d
  match aOp d with
  | 1 => (32, 0, [false, false, false, true, false, true, false, false, true])
  | 2 => (0, 1, [false, false, fl % 2 == 0, true, true, fld (xP0 d) 3 0 == 1, true, true, fl % 2 == 0])
  | 3 =>
    let col := fl.testBit 2 && decide (fn < 6)
    (9, 7, [true, col, false, true, false, fl.testBit 1, (decide (fn < 6) && !col) || fn == 6 || fn == 7, fn == 6, true])
  | 4 => (3, 0, [false, false, true, true, false, false, true, true, true])
  | 5 => (0, 0, [false, false, false, true, true, true, false, false, true])
  | 6 => (0, 0, [false, false, false, true, true, true, false, false, true])
  | 7 => (1, 0, [true, false, false, true, fn == 1, fn == 1, true, true, true])
  | 8 => (0, 0, [false, false, false, true, false, false, true, true, true])
  | 9 => (0, 1, [true, true, false, true, false, fl % 2 == 0, fl % 2 == 1, fl % 2 == 1, false])
  | 10 => (3, 1, [true, false, decide (fn < 2), true, false, fl % 2 == 0, fl % 2 == 1, false, true])
  | 11 => (1, 0, [true, true, true, true, true, true, true, false, true])
  | _ => (0, 1, [true, false, false, true, false, fl % 2 == 1, true, true, true])

/-- The element size of a HOT type, and the image of 1 (R307). -/
def hotOne (ty : Nat) : Nat × Nat := match ty with | 0 => (1, 1) | 4 => (2, 0x3C00) | 5 => (2, 0x3F80) | _ => (4, 0x3F800000)

/-- Aggregate k of a GROUP: function and field (R313). -/
def gFnOf (d : Bytes) (k : Nat) : Nat := fld (xP1 d) (8 * k + 7) (8 * k + 5)
def gField (d : Bytes) (k : Nat) : Nat := fld (xP1 d) (8 * k + 4) (8 * k)

/-- The parameters of an operation are in range, without reading memory. Bits of P0 and P1 that no rule lists for an operation are taken as
reserved, and NFM1 as unused by a PQDECODE with RAW (DESIGN CHOICE: R285 names P0 and P1 whole). -/
def xParams (d : Bytes) : Bool :=
  let p0 := xP0 d
  let p1 := xP1 d
  match aOp d with
  | 1 => 1 ≤ xFn d
  | 2 => onlyBits p0 (msk 19 16 ||| msk 12 8 ||| msk 5 0) && (xFlags d % 2 == 0 || xNf d == 1)
  | 4 => maskOk d (fld p1 31 0) && maskOk d (fld p1 63 32) && (xFn d != 2 || xDf d + 1 < xNf d) && (xFn d < 2 || fld p0 63 32 == 0)
  | 5 => xCount2 d ≤ 16
  | 6 => xCount2 d ≤ 16
  | 7 =>
    let ty := fld p0 3 0
    fld p0 63 4 == 0 && (ty == 0 || ty == 4 || ty == 5 || ty == 6) && fld p1 63 13 == 0 && 1 ≤ fld p1 12 0 && fld p1 12 0 ≤ 4096 && xKind d != 2
  | 8 =>
    let sel := fld p1 31 0
    let fp := fld p1 63 32
    let iw := fld p0 3 0
    let fw := fld p0 7 4
    fld p0 63 8 == 0 && maskOk d sel && maskOk d fp &&
    ((iw == 2 || iw == 3) || (iw == 0 && sel &&& (2 ^ 32 - 1 - fp) == 0)) && ((4 ≤ fw && fw ≤ 6) || (fw == 0 && sel &&& fp == 0))
  | 9 => xFlags d % 2 == 0 || fld p1 63 13 == 0
  | 12 =>
    fld p0 63 32 == 0 && fld p1 63 32 == 0 && (xFlags d % 2 == 0 || xTbl d % 64 == 0) &&
    (List.range 4).all (fun k => gFnOf d k ≤ 5 && (if gFnOf d k = 0 then gField d k == 0 else gField d k < xNf d && k + 1 < xNf d))
  | _ => true

/-- The operations of a flight (R286). -/
def xInFlight (d : Bytes) : Bool :=
  let op := aOp d
  op != 2 && op != 9 && op != 11 && (op != 3 || !(xFlags d).testBit 1)

/-- A Feature Unit command is accepted (R14, R285 to R287). -/
def fxOk (flight : Bool) (later : List Nat) (d : Bytes) : Bool :=
  let op := aOp d
  let w := fun i => wordAt d (8 * i)
  let (fnMax, flMask, use) := xUses d
  let u := fun i => use.getD i false
  let z := fun i (x : Nat) => u i || x == 0
  d.length == 64 && 1 ≤ op && op ≤ 12 && fld (w 0) 17 0 == 0 && fld (w 1) 63 48 == 0 && fld (w 2) 63 48 == 0 && fld (w 4) 63 48 == 0 && fld (w 7) 63 48 == 0 &&
  xFn d ≤ fnMax && (xFlags d &&& (255 - flMask)) == 0 && xKind d != 3 && (u 0 || xKind d == 0) &&
  z 0 (xSf d) && z 1 (xSf2 d) && z 2 (xDf d) && z 3 (xCount d) && z 4 (xCount2 d) && z 5 (xTbl d) && z 6 (xP0 d).toNat && z 7 (xP1 d).toNat && z 8 (xMap d) &&
  xSf d < xNf d && xSf2 d < xNf d && xDf d < xNf d && xParams d &&
  (op != 9 || aDst d == 0) &&
  (!flight || (xInFlight d && aSrc d == 0 && aDst d == 0 && xCount d == 0 && (op != 7 || !later.contains 1)))

/-! ## Feature rows (R290, R291) -/

/-- A feature row with its taint. -/
structure FRow where
  seq : Nat
  nulls : Nat
  f : List Nat
  t : Bool
deriving DecidableEq, Repr

def rowOf (nf : Nat) (b : Bytes) (t : Bool) : FRow :=
  { seq := numAt b 4 4, nulls := numAt b 0 4, f := (List.range nf).map (fun i => numAt b (8 + 8 * i) 8), t := t }
def rowBytes (r : FRow) : Bytes := leBytes r.nulls 4 ++ leBytes r.seq 4 ++ r.f.flatMap (fun x => leBytes x 8)
def rNull (r : FRow) (i : Nat) : Bool := r.nulls.testBit i
def rGet (r : FRow) (i : Nat) : Nat := r.f.getD i 0
/-- Sets a field to a value; a null field holds zero. -/
def rSet (r : FRow) (i : Nat) (v : Option Nat) : FRow :=
  let bit := 2 ^ i
  let clear := if r.nulls.testBit i then r.nulls - bit else r.nulls
  match v with
  | some x => { r with nulls := clear, f := r.f.set i (x % 2 ^ 64) }
  | none => { r with nulls := clear + bit, f := r.f.set i 0 }

/-- A field value of a kind as FP32 (R291). -/
def toF32 (kind x : Nat) : Nat := if kind = 2 then x % 2 ^ 32 else if kind = 0 then f32ofInt (sgn 64 x) else f32ofInt x

/-- Strictly less, in the order of a kind; FP32 by value. -/
def kLt (kind a b : Nat) : Bool := match kind with | 0 => decide (sgn 64 a < sgn 64 b) | 1 => decide (a < b) | _ => fLt fp32 (a % 2 ^ 32) (b % 2 ^ 32)
def kEq (kind a b : Nat) : Bool := if kind = 2 then fEq fp32 (a % 2 ^ 32) (b % 2 ^ 32) else a == b
/-- Strictly less in equal-zero mode (R312, R334). -/
def zLt (kind a b : Nat) : Bool := keyLt (if kind = 0 then 1 else if kind = 1 then 3 else 6) (if kind = 2 then a % 2 ^ 32 else a) (if kind = 2 then b % 2 ^ 32 else b)

/-! ## Counters (R315) -/

/-- Counts rows read, written and dropped. -/
def countFx (s : State) (n inp out drop : Nat) : State :=
  let a := (gCtx s n).fx
  let s0 := a.sat.getLsbD 0
  let s1 := a.sat.getLsbD 1
  let s2 := a.sat.getLsbD 2
  let n0 := s0 || sat64 a.inp inp
  let n1 := s1 || sat64 a.out out
  let n2 := s2 || sat64 a.drop drop
  let s := uCtx s n (fun c => { c with fx := { c.fx with
    inp := bump64 a.inp inp, out := bump64 a.out out, drop := bump64 a.drop drop, sat := BitVec.ofNat 3 (b2n n0 + 2 * b2n n1 + 4 * b2n n2) } })
  let s := satNotice s n s0 n0 (0xE000 + n * 0x40) 0
  let s := satNotice s n s1 n1 (0xE000 + n * 0x40 + 8) 0
  satNotice s n s2 n2 (0xE000 + n * 0x40 + 0x10) 0

def fxIn (e : UEnv) (k : Nat) : M Unit := tell (fun s => countFx s e.ag.ctx k 0 0)
def fxUpd (e : UEnv) (f : FxRegs → FxRegs) : M Unit := tell (fun s => uCtx s e.ag.ctx (fun c => { c with fx := f c.fx }))

/-- One output row: counted, its taint noted (R292). `k` is its number. -/
def fxEmit (e : UEnv) (k : Nat) (b : Bytes) (t : Bool) : M Parts := do
  tell (fun s => countFx s e.ag.ctx 0 1 0)
  if t then
    setTaintMap e.ag (xMap e.cmd) k
    fxUpd e (fun r => { r with taint := bump16 r.taint 1 })
  return [(b, t)]

/-- Several output rows from number `k` on. -/
def fxEmits (e : UEnv) : Nat → List FRow → M Parts
  | _, [] => pure []
  | k, r :: l => do
    let a ← fxEmit e k (rowBytes r) r.t
    let b ← fxEmits e (k + 1) l
    return a ++ b

/-- A row that a filter or a join drops. -/
def fxDrop (e : UEnv) (t : Bool) : M Parts := do
  tell (fun s => countFx s e.ag.ctx 0 0 1)
  if t then fxUpd e (fun r => { r with tdrop := bump16 r.tdrop 1 })
  return []

/-- Reads row `i` of the command's input. -/
def fxRow (e : UEnv) (i : Nat) : M FRow := do
  let (b, t) ← uRead e (aSrc e.cmd) (xRb e.cmd * i) (xRb e.cmd)
  fxIn e 1
  return rowOf (xNf e.cmd) b t

/-! ## FILTER and HASH (R299 to R302) -/

/-- The test of a FILTER: whether the row passes, and the taint of an AMU entry that decided it. -/
def filterTest (e : UEnv) (r : FRow) : M (Bool × Bool) := do
  let d := e.cmd
  let fn := xFn d
  let col := (xFlags d).testBit 2 && decide (fn < 6)
  let k := xKind d
  let x := rGet r (xSf d)
  let c := if col then rGet r (xSf2 d) else (xP0 d).toNat
  let nul := rNull r (xSf d) || (col && rNull r (xSf2 d))
  if fn = 8 then return (!rNull r (xSf d), false)
  else if fn = 9 then return (rNull r (xSf d), false)
  else if nul then return ((xFlags d).testBit 0, false)
  else match fn with
    | 0 => return (kEq k x c, false)
    | 1 => return (!kEq k x c, false)
    | 2 => return (kLt k x c, false)
    | 3 => return (kLt k x c || kEq k x c, false)
    | 4 => return (kLt k c x, false)
    | 5 => return (kLt k c x || kEq k x c, false)
    | 6 => return ((kLt k (xP0 d).toNat x || kEq k x (xP0 d).toNat) && (kLt k x (xP1 d).toNat || kEq k x (xP1 d).toNat), false)
    | _ =>
      let (h, s) := amuLookup (← get) e.ag.ctx e.cl (amuKey128 (xP0 d).toNat x)
      set s
      return (h.isSome, amuTaint h false)

/-- Sets or clears bit `j` of a bitmap in memory. -/
def setBitmap (ag : Agent) (map j : Nat) (v t : Bool) : M Unit := do
  let (b, u) ← readVa ag (map + j / 8) 1
  let m := BitVec.ofNat 8 (2 ^ (j % 8))
  writeVa ag (map + j / 8) [if v then b.headD 0 ||| m else b.headD 0 &&& ~~~m] (u || t)

def filterStep (e : UEnv) (pos aux : Nat) : M UStep := do
  let d := e.cmd
  if uCount e (xCount d) (xRb d) ≤ pos then return uDone 0
  let r ← fxRow e pos
  let (pass, ut) ← filterTest e r
  let r := { r with t := r.t || ut }
  if (xFlags d).testBit 1 then
    setBitmap e.ag (xTbl d) pos pass r.t
    let out ← fxEmit e pos (rowBytes r) r.t
    return { out := out, pos := pos + 1 }
  else if pass then
    let out ← fxEmit e (aux / xRb d) (rowBytes r) r.t
    return { out := out, pos := pos + 1 }
  else
    let out ← fxDrop e r.t
    return { out := out, pos := pos + 1 }

/-- The image of a field that enters a hash (R301). -/
def hashImage (d : Bytes) (r : FRow) (i : Nat) : Nat :=
  let x := rGet r i
  if rNull r i then 2 ^ 64 - 1
  else if (fld (xP1 d) 63 32).testBit i then
    (if fIsNan fp32 (x % 2 ^ 32) then 0x7FC00000 else if x % 2 ^ 32 = 0x80000000 then 0 else x)
  else x

/-- HASH of a row (R302). -/
def hashRow (d : Bytes) (r : FRow) : FRow :=
  let xs := ((List.range (xNf d)).filter (fun i => (fld (xP1 d) 31 0).testBit i)).map (hashImage d r)
  let b := xs.flatMap (fun x => leBytes x 8)
  match xFn d with
  | 0 => rSet r (xDf d) (some (xs.foldl (fun h x => mix64 x h) (xP0 d).toNat))
  | 1 => rSet r (xDf d) (some (xxh64 (xP0 d).toNat b))
  | 2 => let (h1, h2) := murmur128 (fld (xP0 d) 31 0) b; rSet (rSet r (xDf d) (some h1)) (xDf d + 1) (some h2)
  | _ => rSet r (xDf d) (some (crc32c (fld (xP0 d) 31 0) b))

def hashStep (e : UEnv) (pos : Nat) : M UStep := do
  if uCount e (xCount e.cmd) (xRb e.cmd) ≤ pos then return uDone 0
  let r ← fxRow e pos
  let out ← fxEmit e pos (rowBytes (hashRow e.cmd r)) r.t
  return { out := out, pos := pos + 1 }

/-! ## BUCKET and NORM (R304 to R306) -/

/-- A BUCKET or NORM record is in range. -/
def bnRecOk (bucket : Bool) (nf : Nat) (r : Bytes) : Bool :=
  let w := wordAt r 0
  let v := wordAt r 8
  let fn := fld w 63 56
  fld w 55 53 == 0 && fld w 47 47 == 0 && fld w 39 34 == 0 && fld w 52 48 < nf && fld w 44 40 < nf && fld w 46 45 != 3 &&
  (if bucket then
    fld w 33 17 == 0 && fn ≤ 2 && fld v 63 48 == 0 &&
    (if fn = 0 then 1 ≤ fld w 16 0 && fld w 16 0 ≤ 65536 else fld w 16 0 == 0 && fld v 47 0 != 0)
   else fn ≤ 3)

/-- A boundary table: in a basin of the cluster, strictly ascending, no NaN (R305). -/
def boundTable (e : UEnv) (va n kind : Nat) : M (List Nat × Bool) := do
  let sz := if kind = 2 then 4 else 8
  if !vaInBasin (← get) e.ag.ctx e.cl va (n * sz) then throw (.code eRange)
  let (b, t) ← readVa e.ag va (n * sz)
  let l := (chunksOf sz (n + 1) b).map ofLe
  if kind = 2 && l.any (fIsNan fp32) then throw (.code eRange)
  if !((l.zip (l.drop 1)).all (fun (a, b) => kLt kind a b)) then throw (.code eRange)
  return (l, t)

/-- The records of the command, checked, with the boundary tables of BOUND records; and the taint of all of them. -/
def bnSetup (e : UEnv) (bucket : Bool) : M (List (Bytes × List Nat) × Bool) := do
  let d := e.cmd
  let (b, t) ← readVa e.ag (xTbl d) (16 * xCount2 d)
  let recs := chunksOf 16 (xCount2 d + 1) b
  if !(recs.all (bnRecOk bucket (xNf d))) then throw (.code eRange)
  let l ← recs.mapM (fun r => do
    let w := wordAt r 0
    if bucket && fld w 63 56 = 0 then
      let (tb, u) ← boundTable e (fld (wordAt r 8) 47 0) (fld w 16 0) (fld w 46 45)
      return (r, tb, u)
    else return (r, [], false))
  return (l.map (fun (r, tb, _) => (r, tb)), t || l.any (fun (_, _, u) => u))

/-- One BUCKET record on a row (R305). -/
def bucketRec (r : FRow) (rc : Bytes × List Nat) : FRow :=
  let w := wordAt rc.1 0
  let sf := fld w 52 48
  let k := fld w 46 45
  let x := rGet r sf
  if rNull r sf then rSet r (fld w 44 40) none
  else
    let v := match fld w 63 56 with
      | 0 => if k = 2 && fIsNan fp32 (x % 2 ^ 32) then rc.2.length + 1 else (rc.2.filter (fun b => !kLt k x b)).length
      | 1 => x % fld (wordAt rc.1 8) 47 0
      | _ => mix64 x 0 % fld (wordAt rc.1 8) 47 0
    rSet r (fld w 44 40) (some v)

/-- One NORM record on a row: the row, and whether a NaN became +0 (R306). -/
def normRec (r : FRow) (rc : Bytes) : FRow × Bool :=
  let w := wordAt rc 0
  let v := wordAt rc 8
  let sf := fld w 52 48
  let df := fld w 44 40
  if rNull r sf && !bitOf w 33 then (rSet r df none, false)
  else
    let x := if rNull r sf then fld v 31 0 else toF32 (fld w 46 45) (rGet r sf)
    let a := fld w 31 0
    let b := fld v 63 32
    let y := match fld w 63 56 with
      | 0 => f32fma x a b
      | 1 => f32min (f32max (f32fma x a b) 0) 0x3F800000
      | 2 => f32log1p x
      | _ => f32min (f32max x a) b
    if fIsNan fp32 y && bitOf w 32 then (rSet r df (some 0), true) else (rSet r df (some y), false)

def bucketStep (e : UEnv) (pos : Nat) : M UStep := do
  let (recs, t) ← bnSetup e true
  if uCount e (xCount e.cmd) (xRb e.cmd) ≤ pos then return uDone 0
  let r ← fxRow e pos
  let r' := recs.foldl bucketRec r
  let out ← fxEmit e pos (rowBytes r') (r.t || t)
  return { out := out, pos := pos + 1 }

def normStep (e : UEnv) (pos : Nat) : M UStep := do
  let (recs, t) ← bnSetup e false
  if uCount e (xCount e.cmd) (xRb e.cmd) ≤ pos then return uDone 0
  let r ← fxRow e pos
  let (r', z) := recs.foldl (fun (r, z) rc => let (r, b) := normRec r rc.1; (r, z + b2n b)) (r, 0)
  if z != 0 then fxUpd e (fun x => { x with nanz := bump16 x.nanz z })
  let out ← fxEmit e pos (rowBytes r') (r.t || t)
  return { out := out, pos := pos + 1 }

/-! ## HOT and PACK (R307, R308) -/

/-- The element that a row selects; none counts HOT_OOB. -/
def hotIndex (d : Bytes) (r : FRow) : Option Nat :=
  if rNull r (xSf d) || fld (xP1 d) 12 0 ≤ rGet r (xSf d) then none else some (rGet r (xSf d))

def hotStep (e : UEnv) (pos : Nat) : M UStep := do
  let d := e.cmd
  let (sz, one) := hotOne (fld (xP0 d) 3 0)
  let w := fld (xP1 d) 12 0
  let rows := uCount e (xCount d) (xRb d)
  let emit (l : List FRow) (t : Bool) : M UStep := do
    let idx := l.map (hotIndex d)
    let bad := (idx.filter Option.isNone).length
    if bad != 0 then fxUpd e (fun x => { x with hotOob := bump16 x.hotOob bad })
    let out ← fxEmit e pos ((List.range w).flatMap (fun i => leBytes (if idx.contains (some i) then one else 0) sz)) (t || l.any (·.t))
    return { out := out, pos := pos + 1 }
  if xFn d = 0 then
    if rows ≤ pos then return uDone 0
    let r ← fxRow e pos
    emit [r] false
  else
    if xCount2 d ≤ pos then return uDone 0
    let (ob, ot) ← readVa e.ag (xTbl d + 4 * pos) 8
    let lo := numAt ob 0 4
    let hi := numAt ob 4 4
    if hi < lo then return uDone eRange
    if rows < hi then
      uAll e
      return uDone eRange
    let l ← (rangeFrom lo (hi - lo)).mapM (fxRow e)
    emit l ot

def packStep (e : UEnv) (pos : Nat) : M UStep := do
  let d := e.cmd
  if uCount e (xCount d) (xRb d) ≤ pos then return uDone 0
  let r ← fxRow e pos
  let sel := fld (xP1 d) 31 0
  let fp := fld (xP1 d) 63 32
  let isz := if fld (xP0 d) 3 0 = 2 then 4 else 8
  let ft := fld (xP0 d) 7 4
  let ints := (List.range (xNf d)).filter (fun i => sel.testBit i && !fp.testBit i)
  let flts := (List.range (xNf d)).filter (fun i => sel.testBit i && fp.testBit i)
  let b := ints.flatMap (fun i => if rNull r i then List.replicate isz (0xFF : Byte) else leBytes (rGet r i) isz) ++
    flts.flatMap (fun i =>
      let x := if rNull r i then 0 else rGet r i % 2 ^ 32
      if ft = 6 then leBytes x 4 else leBytes (fCvt fp32 (etFmt ft) x).1 2)
  let out ← fxEmit e pos (b ++ List.replicate ((8 - b.length % 8) % 8) 0) r.t
  return { out := out, pos := pos + 1 }
where etFmt (et : Nat) : FFmt := if et = 4 then fp16 else bf16

/-! ## BUILD and JOIN (R309 to R311) -/

/-- The header of an HBM hash table: LOG2, SEED, taint. -/
def hashHeader (e : UEnv) : M (Nat × Nat × Bool) := do
  let (b, t) ← readVa e.ag (xTbl e.cmd) 64
  let lg := fld (wordAt b 0) 5 0
  if fld (wordAt b 0) 63 6 != 0 || !allZero (b.drop 16) || lg < 6 || 32 < lg then throw (.code eRange)
  return (lg, (wordAt b 8).toNat, t)

/-- An address lies on another chip. -/
def isFar (ag : Agent) (va n : Nat) : M Bool := do
  match ← placeOf ag accWrite va n va with
  | .remote _ => return true
  | _ => return false

/-- Probes slots from `i` on for a key: the slot's address, its payload when the key is there, the taint read; none after 64 slots. -/
def probe (e : UEnv) (lg key : Nat) : Nat → Nat → Bool → M (Option (Nat × Option Nat) × Bool)
  | 0, _, t => pure (none, t)
  | k + 1, i, t => do
    let a := xTbl e.cmd + 64 + 16 * (i % 2 ^ lg)
    let (b, u) ← readVa e.ag a 16
    if !bitOf (wordAt b 8) 63 then return (some (a, none), t || u)
    else if numAt b 0 8 = key then return (some (a, some (fld (wordAt b 8) 47 0)), t || u)
    else probe e lg key k (i + 1) (t || u)

/-- Claims an empty slot of a table on another chip with atomic operations there (R310): its zero key becomes the key, then OCC and the
payload come in. Whether the slot is the key's; another BUILD may have taken it first. -/
def claimFar (e : UEnv) (a key pay : Nat) (t : Bool) : M Bool := do
  let (k, _) ← amoVa e.ag a 6 3 key 0 t
  if k != 0 && k != key then return false
  let (w, _) ← amoVa e.ag (a + 8) 6 3 (2 ^ 63 + pay) 0 t
  return w == 0

/-- Inserts a key into an HBM hash table: into the first slot of its 64 that is clear, or under the lower payload where it stands
(R310). Whether there was room. -/
def insertKey (e : UEnv) (lg key pay : Nat) (t : Bool) : Nat → Nat → M Bool
  | 0, _ => pure false
  | k + 1, i => do
    let a := xTbl e.cmd + 64 + 16 * (i % 2 ^ lg)
    let (b, _) ← readVa e.ag a 16
    if bitOf (wordAt b 8) 63 then
      if numAt b 0 8 != key then insertKey e lg key pay t k (i + 1)
      else
        fxUpd e (fun x => { x with dup := bump16 x.dup 1 })
        if pay < fld (wordAt b 8) 47 0 then
          if ← isFar e.ag a 16 then
            let _ ← amoVa e.ag (a + 8) 3 3 (2 ^ 63 + pay) 0 t
          else writeVa e.ag (a + 8) (wordBytes (place 1 63 63 ||| place pay 47 0)) t
        return true
    else if ← isFar e.ag a 16 then
      if ← claimFar e a key pay t then return true else insertKey e lg key pay t k (i + 1)
    else
      writeVa e.ag a (leBytes key 8 ++ wordBytes (place 1 63 63 ||| place pay 47 0)) t
      return true

/-- BUILD. With AMU it is an update command: it takes a stamp when it starts, and runs when every update command that arrived before it
is done (R309, R324, R327). -/
def buildStep (e : UEnv) (pos : Nat) (scr : Bytes) : M UStep := do
  let d := e.cmd
  if xFlags d % 2 == 1 then
    if scr.isEmpty then
      let s ← get
      let (id, s) := freshId s
      set s
      return { pos := pos, scratch := leBytes id 16 }
    if updateBefore (← get) e.cl (numAt scr 0 16) then throw .wait
  let (lg, seed, _) ← if xFlags d % 2 == 1 then pure (0, 0, false) else hashHeader e
  if xCount d ≤ pos then return uDone 0
  let r ← fxRow e pos
  let key := rGet r (xSf d)
  let pay := rGet r (xSf2 d)
  let on : UStep := { pos := pos + 1, scratch := scr }
  if rNull r (xSf d) then return on
  if 2 ^ 48 ≤ pay then return uDone eRange
  if xFlags d % 2 == 1 then
    let i := fld (xP1 d) 12 0 + pos
    if 8192 ≤ i then return uDone eTableFull
    tell (fun s => writeEntry s e.ag.ctx e.cl i { valid := true, key := amuKey128 (xP0 d).toNat key, mask := BitVec.ofNat 128 (2 ^ 128 - 1), prio := 0, result := BitVec.ofNat 48 pay, taint := r.t })
    return on
  if ← insertKey e lg key pay r.t 64 (mix64 key seed % 2 ^ lg) then return on else return uDone eTableFull

def joinStep (e : UEnv) (pos aux : Nat) : M UStep := do
  let d := e.cmd
  let amu := xFlags d % 2 == 1
  let (lg, seed, ht) ← if amu then pure (0, 0, false) else hashHeader e
  if uCount e (xCount d) (xRb d) ≤ pos then return uDone 0
  let r ← fxRow e pos
  let key := rGet r (xSf d)
  let (hit, t) ← if rNull r (xSf d) then pure (none, false)
    else if amu then do
      let (h, s) := amuLookup (← get) e.ag.ctx e.cl (amuKey128 (xP0 d).toNat key)
      set s
      pure (h.map (fun x => x.2.result.toNat), amuTaint h false)
    else do
      let (res, t) ← probe e lg key 64 (mix64 key seed % 2 ^ lg) ht
      pure (res.bind (·.2), t)
  let r := { r with t := r.t || t }
  let put (r : FRow) : M UStep := do
    let out ← fxEmit e (aux / xRb d) (rowBytes r) r.t
    return { out := out, pos := pos + 1 }
  let drop : M UStep := do
    let out ← fxDrop e r.t
    return { out := out, pos := pos + 1 }
  match xFn d, hit with
  | 0, some p => put (rSet r (xDf d) (some p))
  | 1, some p => put (rSet r (xDf d) (some p))
  | 1, none => put (rSet r (xDf d) none)
  | 2, some _ => put r
  | 3, none => put r
  | _, _ => drop

/-! ## MERGE and GROUP (R312 to R314, R611) -/

/-- The last key that is not null among rows `src` 0 to i - 1. -/
def lastKey (e : UEnv) (src : Nat) : Nat → M (Option Nat)
  | 0 => pure none
  | i + 1 => do
    let (b, t) ← readVa e.ag (src + xRb e.cmd * i) (xRb e.cmd)
    let r := rowOf (xNf e.cmd) b t
    if rNull r (xSf e.cmd) then lastKey e src i else return some (rGet r (xSf e.cmd))

/-- A key of the right rows decreases (R312). -/
def rightFalls (e : UEnv) : Nat → Nat → Option Nat → M Bool
  | 0, _, _ => pure false
  | k + 1, j, last => do
    let d := e.cmd
    let (b, t) ← readVa e.ag (xTbl d + xRb d * j) (xRb d)
    let r := rowOf (xNf d) b t
    if rNull r (xSf d) then rightFalls e k (j + 1) last
    else if (match last with | some y => zLt (xKind d) (rGet r (xSf d)) y | none => false) then return true
    else rightFalls e k (j + 1) (some (rGet r (xSf d)))

/-- Scans the right rows up to the first key above `key`: the matching rows, whether a key decreased. -/
def scanRight (e : UEnv) (key : Nat) : Nat → Nat → Option Nat → List FRow → M (List FRow × Bool)
  | 0, _, _, acc => pure (acc.reverse, false)
  | k + 1, j, last, acc => do
    let d := e.cmd
    let (b, t) ← readVa e.ag (xTbl d + xRb d * j) (xRb d)
    let r := rowOf (xNf d) b t
    if rNull r (xSf d) then scanRight e key k (j + 1) last acc
    else
      let x := rGet r (xSf d)
      if (match last with | some y => zLt (xKind d) x y | none => false) then return (acc.reverse, true)
      else if zLt (xKind d) key x then return (acc.reverse, false)
      else scanRight e key k (j + 1) (some x) (if zLt (xKind d) x key then acc else r :: acc)

def mergeStep (e : UEnv) (pos aux : Nat) : M UStep := do
  let d := e.cmd
  let limit := (xP0 d).toNat
  let done := aux / xRb d
  if limit ≤ done then return uDone eRange
  if xCount d ≤ pos then
    let bad ← rightFalls e (xCount2 d) 0 none
    return uDone (if bad then eRange else 0)
  let l ← fxRow e pos
  let key := rGet l (xSf d)
  let put (rows : List FRow) (bad : Bool) : M UStep := do
    let cut := rows.take (limit - done)
    let out ← fxEmits e done cut
    return { out := out, pos := pos + 1, done := bad || decide (limit ≤ done + cut.length), code := if bad || decide (limit ≤ done + cut.length) then eRange else 0 }
  let missed (bad : Bool) : M UStep := do
    if bad then return uDone eRange
    else if xFn d = 1 then put [rSet l (xDf d) none] false
    else
      let _ ← fxDrop e l.t
      return { pos := pos + 1 }
  if rNull l (xSf d) then missed false
  else
    let last ← lastKey e (aSrc d) pos
    if (match last with | some y => zLt (xKind d) key y | none => false) then return uDone eRange
    let (rs, bad) ← scanRight e key (xCount2 d) 0 none []
    if rs.isEmpty then missed bad
    else put (rs.map (fun r => { rSet l (xDf d) (if rNull r (xSf2 d) then none else some (rGet r (xSf2 d))) with t := l.t || r.t })) bad

/-- The open group of a GROUP, as the carry record holds it (R611), with its taint. -/
structure GOpen where
  seq : Nat
  key : Nat
  val : List Nat
  cnt : List Nat
  t : Bool
deriving DecidableEq, Repr

def groupBytes (g : GOpen) : Bytes :=
  wordBytes (place 1 63 63 ||| place g.seq 31 0) ++ leBytes g.key 8 ++ List.replicate 16 0 ++
  (List.range 4).flatMap (fun k => leBytes (g.val.getD k 0) 8) ++ (List.range 4).flatMap (fun k => leBytes (g.cnt.getD k 0) 8) ++ List.replicate 32 0
def groupOf (b : Bytes) (t : Bool) : GOpen :=
  { seq := numAt b 0 4, key := numAt b 8 8, val := (List.range 4).map (fun k => numAt b (32 + 8 * k) 8), cnt := (List.range 4).map (fun k => numAt b (64 + 8 * k) 8), t := t }

/-- A carry record is well formed: none when it holds no group. -/
def carryGroup (b : Bytes) (t : Bool) : M (Option GOpen) :=
  if fld (wordAt b 0) 62 32 != 0 || !allZero (slice b 16 16) || !allZero (slice b 96 32) then throw (.code eRange)
  else if bitOf (wordAt b 0) 63 then pure (some (groupOf b t))
  else if allZero (slice b 0 128) then pure none else throw (.code eRange)

/-- The FP32 fields of a GROUP. -/
def gFp (d : Bytes) (f : Nat) : Bool := (fld (xP0 d) 31 0).testBit f

/-- The first value of an extreme: an FP32 one is the result of a minimum or a maximum, so a NaN becomes the canonical one (R608). -/
def gFirst (fp : Bool) (x : Nat) : Nat := if fp then f32max (x % 2 ^ 32) (x % 2 ^ 32) else x

/-- Aggregate k takes one value. -/
def gAdd (d : Bytes) (k v cnt x : Nat) : Nat :=
  let fp := gFp d (gField d k)
  match gFnOf d k with
  | 2 => if fp then f32add v (x % 2 ^ 32) else (v + x) % 2 ^ 64
  | 5 => if fp then f32add v (x % 2 ^ 32) else (v + x) % 2 ^ 64
  | 3 => if cnt = 0 then gFirst fp x else if fp then f32min v (x % 2 ^ 32) else if sgn 64 x < sgn 64 v then x else v
  | 4 => if cnt = 0 then gFirst fp x else if fp then f32max v (x % 2 ^ 32) else if sgn 64 v < sgn 64 x then x else v
  | _ => 0

/-- A row joins a group. -/
def gJoin (d : Bytes) (g : GOpen) (r : FRow) : GOpen :=
  let upd := (List.range 4).map (fun k =>
    let v := g.val.getD k 0
    let c := g.cnt.getD k 0
    if gFnOf d k = 0 || rNull r (gField d k) then (v, c) else (gAdd d k v c (rGet r (gField d k)), c + 1))
  { g with val := upd.map (·.1), cnt := upd.map (·.2), t := g.t || r.t }

/-- A new group of a row. -/
def gNew (d : Bytes) (r : FRow) : GOpen := gJoin d { seq := r.seq, key := rGet r (xSf d), val := [0, 0, 0, 0], cnt := [0, 0, 0, 0], t := false } r

/-- The row that a group writes (R313): an extreme or a mean of no value is null. -/
def gRow (d : Bytes) (g : GOpen) : FRow :=
  let base : FRow := { seq := g.seq, nulls := 0, f := (List.replicate (xNf d) 0).set 0 g.key, t := g.t }
  (List.range 4).foldl (fun r k =>
    let v := g.val.getD k 0
    let c := g.cnt.getD k 0
    match gFnOf d k with
    | 0 => r
    | 1 => rSet r (k + 1) (some c)
    | 2 => rSet r (k + 1) (some v)
    | 5 => rSet r (k + 1) (if c = 0 then none else some (f32div (if gFp d (gField d k) then v else f32ofInt (sgn 64 v)) (f32ofInt c)))
    | _ => rSet r (k + 1) (if c = 0 then none else some v)) base

/-- GROUP: the open group stands in the scratch bytes, with its taint in a last one. -/
def groupStep (e : UEnv) (pos aux : Nat) (scr : Bytes) : M UStep := do
  let d := e.cmd
  let carry := xFlags d % 2 == 1
  let op ← if pos = 0 && carry then do
      let (b, t) ← readVa e.ag (xTbl d) 128
      carryGroup b t
    else pure (if scr.isEmpty then none else some (groupOf scr (((slice scr 128 1).headD 0).getLsbD 0)))
  let keep (g : GOpen) : Bytes := groupBytes g ++ [BitVec.ofNat 8 (b2n g.t)]
  if uCount e (xCount d) (xRb d) ≤ pos then
    match op with
    | none => return uDone 0
    | some g =>
      if carry then
        writeVa e.ag (xTbl d) (groupBytes g) g.t
        return uDone 0
      else
        let r := gRow d g
        let out ← fxEmit e (aux / xRb d) (rowBytes r) r.t
        return { out := out, pos := pos, done := true }
  let r ← fxRow e pos
  let old := match op with | some g => keep g | none => []
  if rNull r (xSf d) then
    fxUpd e (fun x => { x with nullkey := bump16 x.nullkey 1 })
    return { pos := pos + 1, scratch := old }
  match op with
  | none => return { pos := pos + 1, scratch := keep (gNew d r) }
  | some g =>
    let x := rGet r (xSf d)
    if zLt (xKind d) x g.key then return uDone eRange
    else if zLt (xKind d) g.key x then
      let o := gRow d g
      let out ← fxEmit e (aux / xRb d) (rowBytes o) o.t
      return { out := out, pos := pos + 1, scratch := keep (gNew d r) }
    else return { pos := pos + 1, scratch := keep (gJoin d g r) }

/-! ## PARSE (R293 to R295) -/

/-- A column record of PARSE. -/
structure PCol where
  val : Nat
  vld : Nat
  ofs : Nat
  df : Nat
  ty : Nat
deriving DecidableEq, Repr

def pColOf (b : Bytes) : PCol :=
  { val := fld (wordAt b 0) 63 32, vld := fld (wordAt b 0) 31 0, ofs := fld (wordAt b 8) 63 32, df := fld (wordAt b 8) 12 8, ty := fld (wordAt b 8) 3 0 }

/-- Bytes of a value of a fixed type (R294). -/
def pSize (ty : Nat) : Nat := match ty with | 0 => 1 | 1 => 2 | 2 => 4 | 3 => 8 | 4 => 2 | 6 => 4 | 12 => 8 | 8 => 1 | 9 => 2 | 10 => 4 | _ => 8

/-- The column records of a PARSE, all checked before any row. -/
def parseCols (e : UEnv) : M (List PCol × Bool) := do
  let d := e.cmd
  let (b, t) ← readVa e.ag (xTbl d) (16 * xFn d)
  let raw := chunksOf 16 (xFn d + 1) b
  let cols := raw.map pColOf
  if raw.any (fun r => !onlyBits (wordAt r 8) (msk 63 32 ||| msk 12 8 ||| msk 3 0)) || cols.any (fun c => decide (xNf d ≤ c.df)) ||
      !(cols.map (·.df)).Nodup || cols.any (fun c => c.ty != 14 && c.ofs != 0) then throw (.code eRange)
  if cols.any (fun c => c.ty == 5 || c.ty == 7 || c.ty == 15) then throw (.code eParse)
  return (cols, t)

/-- The buffers of a column lie in the block, at multiples of 8 (R293, R295). -/
def colOk (len rows : Nat) (c : PCol) : Bool :=
  c.val % 8 == 0 && (c.vld == 0xFFFFFFFF || (c.vld % 8 == 0 && c.vld + ceilDiv rows 8 ≤ len)) &&
  (if c.ty = 14 then c.ofs % 8 == 0 && c.ofs + 4 * (rows + 1) ≤ len && c.val ≤ len
   else if c.ty = 13 then c.val + ceilDiv rows 8 ≤ len else c.val + rows * pSize c.ty ≤ len)

/-- A value of a column (R294): none for a null; its taint. `rd` reads the block. The offsets of a BIN column are checked at every row, null or
not (R295). -/
def colValue (rd : Nat → Nat → M (Bytes × Bool)) (len r : Nat) (c : PCol) : M (Option Nat × Bool) := do
  let (valid, vt) ← if c.vld = 0xFFFFFFFF then pure (true, false) else do
      let (b, t) ← rd (c.vld + r / 8) 1
      pure ((b.headD 0).getLsbD (r % 8), t)
  let (lo, hi, ot) ← if c.ty != 14 then pure (0, 0, false) else do
      let (o, ot) ← rd (c.ofs + 4 * r) 8
      let lo := sgn 32 (numAt o 0 4)
      let hi := sgn 32 (numAt o 4 4)
      if lo < 0 || hi < lo || (len : Int) < c.val + hi then throw (.code eParse)
      pure (lo.toNat, hi.toNat, ot)
  if !valid then return (none, vt)
  match c.ty with
  | 13 =>
    let (b, t) ← rd (c.val + r / 8) 1
    return (some (b2n ((b.headD 0).getLsbD (r % 8))), t || vt)
  | 14 =>
    let (b, t) ← rd (c.val + lo) (hi - lo)
    return (some (xxh64 0 b), t || vt || ot)
  | ty =>
    let sz := pSize ty
    let (b, t) ← rd (c.val + r * sz) sz
    let x := ofLe b
    let y := if ty ≤ 3 then unsgn 64 (sgn (8 * sz) x) else if ty = 4 then (fCvt fp16 fp32 x).1 else if ty = 12 then (fCvt fp64 fp32 x).1 else x
    return (some y, t || vt)

/-- PARSE: `aux` gives the rows written so far; the scratch bytes hold the block's number and the row in it. -/
def parseStep (e : UEnv) (pos aux : Nat) (scr : Bytes) : M UStep := do
  let d := e.cmd
  let (cols, ct) ← parseCols e
  let blk := numAt scr 0 8
  let row := numAt scr 8 8
  let blocks := if e.flight then e.berths.length else 1
  if blocks ≤ blk then
    uAll e
    return uDone 0
  let here := berthParts ((e.berths.drop blk).take 1)
  let len := if e.flight then partsLen here else xCount d
  let rd (off n : Nat) : M (Bytes × Bool) := if e.flight then pure (partsRead here off n) else readVa e.ag (aSrc d + off) n
  if len < 8 then throw (.code eParse)
  let (p, pt) ← rd 0 8
  let rows := numAt p 0 4
  if rows = 0 || numAt p 4 4 != 0 || !(cols.all (colOk len rows)) then throw (.code eParse)
  let r0 : FRow := { seq := (aux / xRb d) % 2 ^ 32, nulls := 0, f := List.replicate (xNf d) 0, t := ct || pt }
  let r ← cols.foldlM (fun (r : FRow) c => do
    let (v, t) ← colValue rd len row c
    return { rSet r c.df v with t := r.t || t }) r0
  let out ← fxEmit e (aux / xRb d) (rowBytes r) r.t
  let next := if row + 1 = rows then leBytes (blk + 1) 8 ++ leBytes 0 8 else leBytes blk 8 ++ leBytes (row + 1) 8
  return { out := out, pos := pos + 1, scratch := next }

/-! ## PQDECODE (R296 to R298) -/

def pqPageOf (d : Bytes) : PqPage :=
  let p0 := xP0 d
  { count := xCount d, enc := fld p0 3 0, v2 := bitOf p0 4, optional := bitOf p0 5, ty := fld p0 11 8, flen := fld p0 19 16, uns := bitOf p0 12,
    lvlLen := fld (xP1 d) 31 0, dictN := fld (xP1 d) 63 32 }

/-- The taint of bytes [lo, hi) of the body. -/
def bodyTaint (e : UEnv) (lo hi : Nat) : M Bool := do
  if hi ≤ lo then return false
  let (_, t) ← readVa e.ag (aSrc e.cmd + lo) (hi - lo)
  return t

/-- The field image of a row's value: through the dictionary when the page is encoded so. -/
def pqValue (e : UEnv) (p : PqPage) (v : Option Nat) : M (Option Nat × Bool) := do
  match v with
  | none => return (none, false)
  | some i =>
    if p.enc = 1 then
      let (x, t) ← readVa e.ag (xTbl e.cmd + 8 * i) 8
      return (some (ofLe x), t)
    else return (some i, false)

def pqStep (e : UEnv) (pos : Nat) : M UStep := do
  let d := e.cmd
  let raw := xFlags d % 2 == 1
  let p := pqPageOf d
  if !pqListed p then throw (.code eParse)
  let (b, _) ← readVa e.ag (aSrc d) (xCount2 d)
  let (rows, bad) := pqRows p b
  match rows[pos]? with
  | none => return uDone (if bad then eParse else 0)
  | some r =>
    let t1 ← bodyTaint e r.lvlLo r.lvlHi
    let t2 ← bodyTaint e r.lo r.hi
    let (v, t3) ← pqValue e p r.v
    let t := t1 || t2 || t3
    if raw then return { out := [(leBytes (v.getD 0) 8, t)], pos := pos + 1 }
    let a := aDst d + xRb d * pos
    let (h, ht) ← readVa e.ag a 4
    let bit := 2 ^ xDf d
    let nul := ofLe h
    let nul' := if v.isNone then nul ||| bit else if nul.testBit (xDf d) then nul - bit else nul
    let t := t || ht
    writeVa e.ag a (leBytes nul' 4) t
    writeVa e.ag (a + 8 + 8 * xDf d) (leBytes (v.getD 0) 8) t
    tell (fun s => countFx s e.ag.ctx 0 1 0)
    if t then
      setTaintMap e.ag (xMap d) pos
      fxUpd e (fun r => { r with taint := bump16 r.taint 1 })
    return { pos := pos + 1 }

/-! ## The rows -/

/-- Runs one Feature Unit command, of the queue or of a flight stage. -/
def fxRun (op : Nat) (step : UEnv → Nat → Nat → Bytes → M UStep) (cl : Nat) (t : UTarget) (s : State) : State :=
  match t with
  | .queue =>
    frontRow s cl 1 (fun c => unitAgent cl c 7 1) op (fun _ => true) (fun c => fxOk false [] c.cmd)
      (fun c => runCmd cl 1 c.id (fun c => unitAgent cl c 7 1) (aDst c.cmd)
        (fun c => step { ag := unitAgent cl c 7 1, cl := cl, cmd := c.cmd } c.pos c.aux c.scratch) (2 ^ 33) s)
  | .stage f k =>
    stepStage s cl 1 f k.val op (fun e => fxOk true e.later e.cmd) step

/-- PARSE. -/
def execParse (cl : Fin 48) (t : UTarget) (s : State) : Ans := .next (fxRun 1 parseStep cl.val t s)
/-- PQDECODE. -/
def execPqdecode (cl : Fin 48) (t : UTarget) (s : State) : Ans := .next (fxRun 2 (fun e p _ _ => pqStep e p) cl.val t s)
/-- FILTER. -/
def execFilter (cl : Fin 48) (t : UTarget) (s : State) : Ans := .next (fxRun 3 (fun e p a _ => filterStep e p a) cl.val t s)
/-- HASH. -/
def execHash (cl : Fin 48) (t : UTarget) (s : State) : Ans := .next (fxRun 4 (fun e p _ _ => hashStep e p) cl.val t s)
/-- BUCKET. -/
def execBucket (cl : Fin 48) (t : UTarget) (s : State) : Ans := .next (fxRun 5 (fun e p _ _ => bucketStep e p) cl.val t s)
/-- NORM. -/
def execNorm (cl : Fin 48) (t : UTarget) (s : State) : Ans := .next (fxRun 6 (fun e p _ _ => normStep e p) cl.val t s)
/-- HOT. -/
def execHot (cl : Fin 48) (t : UTarget) (s : State) : Ans := .next (fxRun 7 (fun e p _ _ => hotStep e p) cl.val t s)
/-- PACK. -/
def execPack (cl : Fin 48) (t : UTarget) (s : State) : Ans := .next (fxRun 8 (fun e p _ _ => packStep e p) cl.val t s)
/-- BUILD. -/
def execBuild (cl : Fin 48) (t : UTarget) (s : State) : Ans := .next (fxRun 9 (fun e p _ c => buildStep e p c) cl.val t s)
/-- JOIN. -/
def execJoin (cl : Fin 48) (t : UTarget) (s : State) : Ans := .next (fxRun 10 (fun e p a _ => joinStep e p a) cl.val t s)
/-- MERGE. -/
def execMerge (cl : Fin 48) (t : UTarget) (s : State) : Ans := .next (fxRun 11 (fun e p a _ => mergeStep e p a) cl.val t s)
/-- GROUP. -/
def execGroup (cl : Fin 48) (t : UTarget) (s : State) : Ans := .next (fxRun 12 groupStep cl.val t s)

end Sys2Proof.Machine
end

