-- ==== Sys2Proof/Machine/Dense.lean ====
section
/-! DEFINITION. The Dense Array (spec/11_dense_array.md): formats, weight tiles, commands and layer records, the exact arithmetic of a
layer, gates and batches. -/

namespace Sys2Proof.Machine

/-! ## Formats (R342, R346) -/

/-- Bits of an element of a DFMT. -/
def daBits (f : Nat) : Nat := match f with | 0 => 4 | 4 => 4 | 1 => 8 | 2 => 8 | 3 => 8 | 5 => 8 | 6 => 16 | 7 => 16 | _ => 32
def daMx (f : Nat) : Bool := f == 4 || f == 5
/-- Elements of K in a tile. -/
def daKt (f : Nat) : Nat := match f with | 0 => 512 | 4 => 512 | 6 => 64 | 7 => 64 | _ => 128
/-- Bytes of a tile. -/
def tileBytes (f : Nat) : Nat := daKt f * daBits f / 8 * 128 + (if daMx f then daKt f / 32 * 128 else 0)
/-- Bytes of a row of elements without padding. -/
def rowLen (k f : Nat) : Nat := ceilDiv (k * daBits f) 8 + (if daMx f then ceilDiv k 32 else 0)
/-- The row pitch (R346). -/
def rowPitch (k f : Nat) : Nat := ceilDiv (rowLen k f) 64 * 64

/-- The value of an element pattern. -/
def daElem (f x : Nat) : FV :=
  let int (w : Nat) (e : Int) : FV := let i := sgn w x; .fin (decide (i < 0)) i.natAbs e
  match f with
  | 0 => int 4 0
  | 1 => int 8 0
  | 2 => fDecode e4m3 x
  | 3 => fDecode e5m2 x
  | 4 => fDecode e2m1 x
  | 5 => int 8 (-6)
  | 6 => fDecode bf16 x
  | 7 => fDecode fp16 x
  | _ => fDecode fp32 x

/-- A value times an E8M0 scale; 0xFF marks NaN. -/
def mxScale (s : Nat) (v : FV) : FV :=
  if s = 255 then .nan false
  else match v with
    | .fin n m e => .fin n m (e + s - 127)
    | v => v

/-- Element pattern `j` of packed elements. -/
def packedAt (f : Nat) (b : Bytes) (j : Nat) : Nat :=
  if daBits f = 4 then ((b.getD (j / 2) 0).toNat / (if j % 2 = 0 then 1 else 16)) % 16 else numAt b (j * (daBits f / 8)) (daBits f / 8)

/-- `k` elements packed in a string, with their scales. -/
def unpack (f k : Nat) (elems scales : Bytes) : List FV :=
  (List.range k).map (fun j => let v := daElem f (packedAt f elems j); if daMx f then mxScale (scales.getD (j / 32) 0).toNat v else v)

/-- A row as values (R346). -/
def rowValues (f k : Nat) (b : Bytes) : List FV := unpack f k b (b.drop (ceilDiv (k * daBits f) 8))

/-- Packs element patterns. -/
def packElems (f : Nat) (l : List Nat) : Bytes :=
  if daBits f = 4 then (chunksOf 2 l.length l).map (fun p => BitVec.ofNat 8 (p.getD 0 0 % 16 + 16 * (p.getD 1 0 % 16)))
  else l.flatMap (fun x => leBytes x (daBits f / 8))

/-! ## Conversion of results (R356) -/

/-- A conversion that saturates: pattern, and whether it saturated. -/
def encSat (f : FFmt) (top y : Nat) : Nat × Bool :=
  let sgnBit (n : Bool) : Nat := b2n n <<< (f.eb + f.mb)
  match fDecode fp32 y with
  | .nan _ => (fNan f, false)
  | .inf n => (sgnBit n + top, true)
  | .fin n m e =>
    let (x, fl) := fRound f n m e false
    if fl &&& flOF = 0 then (x, false) else (sgnBit n + top, true)

/-- The shared exponent of a block, from its largest magnitude. -/
def mxExp (f : Nat) (l : List FV) : Option Int :=
  let lg := l.filterMap (fun v => match v with | .fin _ m e => if m = 0 then none else some (e + bitLen m - 1) | _ => none)
  match lg with
  | [] => none
  | a :: r => some (max (-127) (min 127 (r.foldl max a - (if f = 4 then 2 else 0))))

/-- One element of a block under a shared exponent. -/
def mxElem (f : Nat) (se : Int) (v : FV) : Nat × Bool :=
  match v with
  | .fin n m e =>
    if f = 4 then
      let (x, fl) := fRound e2m1 n m (e - se) false
      if fl &&& flOF = 0 then (x, false) else ((if n then 8 else 0) + 7, true)
    else
      let (q, _) := rneAt m (e - se) (-6)
      let k := min q 127
      (if n then (256 - k) % 256 else k, decide (127 < q))
  | _ => (0, false)

/-- A block of up to 32 results in an MX format: elements, scale, saturated conversions. -/
def mxBlock (f : Nat) (ys : List Nat) : List Nat × Nat × Nat :=
  let vs := ys.map (fDecode fp32)
  let nan := vs.any (fun v => match v with | .nan _ => true | _ => false)
  let inf := vs.any (fun v => match v with | .inf _ => true | _ => false)
  if nan || inf then
    ((List.range ys.length).map (fun i => Config.mxOpen ys i % 2 ^ daBits f), if nan then 255 else Config.mxOpen ys 32 % 255, 0)
  else match mxExp f vs with
    | none => (vs.map (fun v => (mxElem f (-127) v).1), 0, 0)
    | some se =>
      let r := vs.map (mxElem f se)
      (r.map (·.1), (se + 127).toNat, (r.filter (·.2)).length)

/-- One result in a format that is not an MX one. -/
def encOne (f qs y : Nat) : Nat × Bool :=
  match f with
  | 0 => let (x, fl) := vToInt (fDecode fp32 (f32mul y qs)) (-8) 7; (unsgn 4 x, fl &&& flNV != 0 && !fIsNan fp32 (f32mul y qs))
  | 1 => let (x, fl) := vToInt (fDecode fp32 (f32mul y qs)) (-128) 127; (unsgn 8 x, fl &&& flNV != 0 && !fIsNan fp32 (f32mul y qs))
  | 2 => encSat e4m3 0x7E y
  | 3 => encSat e5m2 0x7B y
  | 6 => ((fCvt fp32 bf16 y).1, false)
  | 7 => ((fCvt fp32 fp16 y).1, false)
  | _ => (if fIsNan fp32 y then fNan fp32 else y, false)

/-- A row of FP32 results in a format: its bytes without padding, its saturated conversions. -/
def encRow (f qs : Nat) (ys : List Nat) : Bytes × Nat :=
  if daMx f then
    let bs := (chunksOf 32 (ys.length / 32 + 1) ys).map (mxBlock f)
    (packElems f (bs.flatMap (·.1)) ++ bs.map (fun b => BitVec.ofNat 8 b.2.1), bs.foldl (fun a b => a + b.2.2) 0)
  else
    let r := ys.map (encOne f qs)
    (packElems f (r.map (·.1)), (r.filter (·.2)).length)

/-! ## The command and its layers (R348 to R350) -/

def daNl (d : Bytes) : Nat := fld (wordAt d 0) 55 53 + 1
def daWb (d : Bytes) (l : Nat) : Nat := if l % 2 = 0 then fld (wordAt d 0) 52 48 else fld (wordAt d 0) 44 40
def daFin (d : Bytes) : Bool := bitOf (wordAt d 0) 39
def daNf (d : Bytes) : Nat := fld (wordAt d 0) 36 32 + 1
def daMb (d : Bytes) : Nat := fld (wordAt d 0) 9 0
def daCount (d : Bytes) : Nat := fld (wordAt d 24) 31 0
def daLayers (d : Bytes) : Nat := fld (wordAt d 32) 47 0
def daScr (d : Bytes) : Nat := fld (wordAt d 40) 47 0
def daMask (d : Bytes) : Nat := fld (wordAt d 48) 31 0
def daTmap (d : Bytes) : Nat := fld (wordAt d 56) 47 0

/-- The command's own words are in range (R348, R350). -/
def daOk (flight : Bool) (d : Bytes) : Bool :=
  let w := fun i => wordAt d (8 * i)
  d.length == 64 && aOp d == 1 && onlyBits (w 0) (msk 63 48 ||| msk 44 39 ||| msk 36 32 ||| msk 9 0) && fld (w 1) 63 48 == 0 && fld (w 2) 63 48 == 0 &&
  fld (w 3) 63 32 == 0 && fld (w 4) 63 48 == 0 && fld (w 5) 63 48 == 0 && fld (w 6) 63 32 == 0 && fld (w 7) 63 48 == 0 &&
  1 ≤ daMb d && daMb d ≤ 512 && (daNl d == 1 || daWb d 0 != daWb d 1) &&
  (if flight then w 1 == 0 && w 2 == 0 && w 3 == 0 else 1 ≤ daCount d)

/-- A layer. -/
structure DLayer where
  fmt : Nat
  ofmt : Nat
  act : Nat
  gate : Nat
  k : Nat
  n : Nat
  gq : Nat
  woff : Nat
  seq : Word
  vec : Nat
  qs : Nat
  p : Nat
deriving DecidableEq, Repr

def layerOf (r : Bytes) : DLayer :=
  let w := fun i => wordAt r (8 * i)
  { fmt := fld (w 0) 63 60, ofmt := fld (w 0) 59 56, act := fld (w 0) 55 53, gate := fld (w 0) 52 51, k := fld (w 0) 29 16 + 1, n := fld (w 0) 13 0 + 1,
    gq := fld (w 1) 40 24, woff := fld (w 1) 22 0, seq := w 2, vec := fld (w 3) 47 0, qs := fld (w 4) 63 32, p := fld (w 4) 31 0 }

/-- The bits of a layer record. -/
def layerBits (r : Bytes) : Bool :=
  let w := fun i => wordAt r (8 * i)
  onlyBits (w 0) (msk 63 51 ||| msk 29 16 ||| msk 13 0) && onlyBits (w 1) (msk 40 24 ||| msk 22 0) && fld (w 3) 63 48 == 0 && w 5 == 0 && w 6 == 0 && w 7 == 0

def layersOf (rs : Bytes) : List DLayer := (List.range (rs.length / 64)).map (fun i => layerOf (slice rs (64 * i) 64))

/-- The bytes of a layer's weight range (R344). -/
def weightLen (y : DLayer) : Nat := ceilDiv y.k (daKt y.fmt) * ceilDiv y.n 128 * tileBytes y.fmt

/-- SCR holds two halves of this size. -/
def scrHalf (d : Bytes) (ls : List DLayer) : Nat := daMb d * (ls.drop 1).foldl (fun a y => max a (rowPitch y.k y.fmt)) 0

/-- Two ranges of cluster memory do not meet. -/
def apart : List (Nat × Nat) → Bool
  | [] => true
  | (a, n) :: r => r.all (fun (b, m) => decide (a + n ≤ b) || decide (b + m ≤ a)) && apart r

/-- The code that rejects the layers of a command, 0 for none (R350). -/
def layersBad (s : State) (n cl : Nat) (d rs : Bytes) : Code :=
  let ls := layersOf rs
  let idx := (List.range ls.length).zip ls
  let wr := idx.filterMap (fun (i, y) => ((basinsOf s n cl)[daWb d i]?).map (fun b => (b.base + y.woff, weightLen y)))
  let ok :=
    (List.range (daNl d)).all (fun i => layerBits (slice rs (64 * i) 64)) &&
    idx.all (fun (i, y) =>
      (match (basinsOf s n cl)[daWb d i]? with | some b => decide (y.woff + weightLen y ≤ b.size) | none => false) &&
      y.fmt ≤ 7 && y.ofmt ≤ 8 && y.act ≤ 4 && y.gate ≤ 2 && (y.ofmt != 8 || i + 1 == ls.length) &&
      (match ls[i + 1]? with | some z => z.fmt == y.ofmt | none => true) &&
      (!daMx y.fmt || y.k % 32 == 0) && (daBits y.fmt != 4 || y.k % 2 == 0) &&
      y.woff % 64 == 0 && y.vec % 64 == 0 && vaInBasin s n cl y.vec (ceilDiv y.n 128 * 1024) &&
      (y.gate != 1 || queueCluster y.gq == some cl)) &&
    ((basinsOf s n cl)[fld (wordAt d 0) 44 40]?).isSome && apart wr && daScr d % 64 == 0 && (daNl d == 1 || vaInBasin s n cl (daScr d) (2 * scrHalf d ls)) &&
    (!daFin d || ((ls.head?.map (·.k)) == some (popN (daMask d) 32) && decide (daMask d < 2 ^ daNf d)))
  if !ok then eRange
  else if ls.any (fun y => y.gate == 1 && (gQueue s y.gq).ctx != some n) then eDenied
  else 0

/-- The gate of a layer is open (R358). -/
def gateOpen (s : State) (n cl : Nat) (y : DLayer) : Bool :=
  match y.gate with
  | 0 => true
  | 1 => decide (y.seq ≤ (gQueue s y.gq).count)
  | _ => decide (y.seq ≤ Tab.get 0 (gCtx s n).da.relay cl)

/-! ## A layer (R345, R347, R354, R355, R362) -/

/-- The weights of one column of a tile. -/
def tileColumn (f : Nat) (tile : Bytes) (c : Nat) : List FV :=
  let kt := daKt f
  let cb := kt * daBits f / 8
  unpack f kt (slice tile (c * cb) cb) (slice tile (128 * cb + c * (kt / 32)) (kt / 32))

/-- The exact dot product of a tile's column and its part of a row; an exact zero is +0. -/
def dotTile (x w : List FV) : FV :=
  match (x.zip w).foldl (fun a p => (vAdd a (vMul p.1 p.2).1).1) (.fin false 0 0) with
  | .fin n m e => if m = 0 then .fin false 0 0 else .fin n m e
  | v => v

/-- The accumulator after the tiles of a column, in FP32. -/
def accColumn (f k : Nat) (x : List FV) (cols : List (List FV)) : Nat :=
  ((List.range cols.length).zip cols).foldl (fun acc (i, c) =>
    let part := (x.drop (i * daKt f)).take (min (daKt f) (k - i * daKt f))
    (fEncode fp32 (vAdd (fDecode fp32 acc) (dotTile part c)).1).1) 0

/-- The activation. -/
def daAct (act p y : Nat) : Nat :=
  match act with
  | 0 => y
  | 1 => f32max y 0
  | 2 => if fLe fp32 0 y then y else f32mul p y
  | 3 => f32sigmoid y
  | _ => f32gelu y

/-- Reads the weights of a layer: for each output column its tiles' columns; and the taint of any line of them. -/
def readWeights (e : UEnv) (b : Basin) (y : DLayer) : M (List (List (List FV)) × Bool) := do
  let (w, t) ← readWin e.ag e.cl (b.base + y.woff) (weightLen y)
  let kts := ceilDiv y.k (daKt y.fmt)
  let tb := tileBytes y.fmt
  return ((List.range y.n).map (fun c =>
    (List.range kts).map (fun kt => tileColumn y.fmt (slice w ((c / 128 * kts + kt) * tb) tb) (c % 128))), t)

/-- Reads SCALE and BIAS of a layer. -/
def readVec (e : UEnv) (y : DLayer) : M (List Nat × List Nat × Bool) := do
  let m := ceilDiv y.n 128 * 128
  let (b, t) ← readVa e.ag y.vec (8 * m)
  return (bytesF32 (b.take (4 * m)), bytesF32 (b.drop (4 * m)), t)

/-- One layer over rows: each row's FP32 results and its taint. -/
def layerRows (e : UEnv) (d : Bytes) (l : Nat) (y : DLayer) (rows : List (List FV × Bool)) : M (List (List Nat × Bool)) := do
  let s ← get
  match (basinsOf s e.ag.ctx e.cl)[daWb d l]? with
  | none => throw (.code eRange)
  | some b =>
    let (cols, wt) ← readWeights e b y
    let (sc, bi, vt) ← readVec e y
    return rows.map (fun (x, t) =>
      ((List.range y.n).zip cols |>.map (fun (c, col) => daAct y.act y.p (f32fma (accColumn y.fmt y.k x col) (sc.getD c 0) (bi.getD c 0))), t || wt || vt))

/-- What has come of a batch: the layer whose gate stopped it, its output rows when none did, and its saturated conversions and NaN
results. -/
structure DRun where
  stop : Option Nat := none
  out : List (Bytes × Bool) := []
  satc : Nat := 0
  nan : Nat := 0
deriving DecidableEq, Repr

/-- Where layer `l` leaves its rows in SCR, and their pitch (R352). -/
def scrBase (d : Bytes) (half l : Nat) : Nat := daScr d + l % 2 * half

/-- Reads the rows of layer `z` that layer `l` left in SCR. -/
def scrRows (e : UEnv) (base m : Nat) (z : DLayer) : M (List (List FV × Bool)) :=
  (List.range m).mapM (fun i => do
    let (b, t) ← readVa e.ag (base + i * rowPitch z.k z.fmt) (rowPitch z.k z.fmt)
    return (rowValues z.fmt z.k b, t))

/-- The layers from `l` on: intermediate rows go through the halves of SCR (R352); in a first batch each layer starts only when its own gate
is open (R244, R358). -/
def layersRun (e : UEnv) (d : Bytes) (half : Nat) (first : Bool) : Nat → List DLayer → List (List FV × Bool) → DRun → M DRun
  | _, [], _, r => pure r
  | l, y :: rest, rows, r => do
    let s ← get
    if first && !gateOpen s e.ag.ctx e.cl y then return { r with stop := some l }
    let out ← layerRows e d l y rows
    let enc := out.map (fun (ys, t) => (encRow y.ofmt y.qs ys, t))
    let r := { r with satc := r.satc + enc.foldl (fun a x => a + x.1.2) 0, nan := r.nan + out.foldl (fun a x => a + (x.1.filter (fIsNan fp32)).length) 0 }
    match rest with
    | [] => return { r with out := enc.map (fun (x, t) => (x.1, t)) }
    | z :: _ =>
      let base := scrBase d half l
      enc.zipIdx.forM (fun (x, i) => writeVa e.ag (base + i * rowPitch z.k z.fmt) (x.1.1.take (rowPitch z.k z.fmt)) x.2)
      let next ← scrRows e base enc.length z
      layersRun e d half first (l + 1) rest next r

/-- An input row as values, and its saturated conversions: a tensor row, or the fields of FMASK of a feature row, of FP32 kind, converted to
layer 0's format. -/
def inputRow (d : Bytes) (y : DLayer) (b : Bytes) : List FV × Nat :=
  if daFin d then
    let r := rowOf (daNf d) b false
    let xs := ((List.range 32).filter (fun i => (daMask d).testBit i)).map (fun i => if rNull r i then 0 else toF32 2 (rGet r i))
    let (bytes, sat) := encRow y.fmt y.qs xs
    (rowValues y.fmt y.k bytes, sat)
  else (rowValues y.fmt y.k b, 0)

/-- Counts output rows (R363). -/
def countDaRows (s : State) (n k : Nat) : State :=
  let d := (gCtx s n).da
  let was := d.sat.getLsbD 0
  let now := was || sat64 d.rows k
  let s := uCtx s n (fun c => { c with da := { c.da with rows := bump64 d.rows k, sat := if now then c.da.sat ||| 1 else c.da.sat } })
  satNotice s n was now (0x11000 + n * 0x40) 0

/-- The pitch of an input row. -/
def inPitch (d : Bytes) (y : DLayer) : Nat := if daFin d then 8 + 8 * daNf d else rowPitch y.k y.fmt

/-- Counts conversions that saturated and results that are NaN (R356). -/
def countDa (n satc nan : Nat) : M Unit :=
  tell (fun s => uCtx s n (fun c => { c with da := { c.da with satc := bump16 c.da.satc satc, nan := bump16 c.da.nan nan } }))

/-- Where a command stands inside a batch, behind its layer records: the layer, the batch's rows, saturated conversions, NaN results. -/
def daMark (l m satc nan : Nat) : Bytes := leBytes l 8 ++ leBytes m 8 ++ leBytes satc 8 ++ leBytes nan 8

/-- The scratch of a command at the start of a batch. -/
def daFresh (d scr : Bytes) : Bytes := scr.take (64 * daNl d) ++ daMark 0 0 0 0

/-- The layer that a command waits at has its gate open. -/
def daOpen (s : State) (n cl : Nat) (d scr : Bytes) : Bool :=
  match (layersOf (scr.take (64 * daNl d)))[numAt scr (64 * daNl d) 8]? with | some y => gateOpen s n cl y | none => true

/-- The rows that a batch goes on with: at its first layer input rows, later what the layer before left in SCR; and their saturated
conversions. -/
def batchRows (e : UEnv) (ls : List DLayer) (l m pos : Nat) : M (List (List FV × Bool) × Nat) := do
  let d := e.cmd
  match ls, ls.drop l with
  | y :: _, z :: _ =>
    if l = 0 then
      let pitch := inPitch d y
      let rows ← (List.range m).mapM (fun i => do
        let (b, t) ← uRead e (aSrc d) (pitch * (pos + i)) pitch
        return (inputRow d y b, t))
      return (rows.map (fun r => (r.1.1, r.2)), rows.foldl (fun a r => a + r.1.2) 0)
    else
      let rows ← scrRows e (scrBase d (scrHalf d ls) (l - 1)) m z
      return (rows, 0)
  | _, _ => throw (.code eRange)

/-- One batch (R352, R354, R361), or as much of it as the gates allow (R358): the layer records are read and checked at the start. A batch that
waits keeps its layer in the scratch. -/
def daStep (e : UEnv) (pos : Nat) (scr : Bytes) : M UStep := do
  let d := e.cmd
  let n := e.ag.ctx
  if scr.isEmpty then
    let (rs, _) ← readVa e.ag (daLayers d) (64 * daNl d)
    let s ← get
    let c := layersBad s n e.cl d rs
    if c != 0 then throw (.code c)
    return { scratch := daFresh d rs }
  let rs := scr.take (64 * daNl d)
  let mark := scr.drop (64 * daNl d)
  let ls := layersOf rs
  let l := numAt mark 0 8
  match ls, ls.getLast? with
  | y :: _, some last =>
    let total := uCount e (daCount d) (inPitch d y)
    if l = 0 && total ≤ pos then return uDone 0
    if pos = 0 && !daOpen (← get) n e.cl d scr then return { pos := pos, scratch := scr, gated := true }
    let m := if l = 0 then min (daMb d) (total - pos) else numAt mark 8 8
    let (rows, sat) ← batchRows e ls l m pos
    let r ← layersRun e d (scrHalf d ls) (pos == 0) l (ls.drop l) rows { satc := numAt mark 16 8 + sat, nan := numAt mark 24 8 }
    match r.stop with
    | some k => return { pos := pos, scratch := rs ++ daMark k m r.satc r.nan, gated := true }
    | none =>
      countDa n r.satc r.nan
      r.out.zipIdx.forM (fun (x, i) => do
        if x.2 then
          setTaintMap e.ag (daTmap d) (pos + i)
          tell (fun s => uCtx s n (fun c => { c with da := { c.da with taint := bump16 c.da.taint 1 } })))
      tell (fun s => countDaRows s n m)
      let s ← get
      let (f, s) := freshFree s
      set s
      let opitch := rowPitch last.n last.ofmt
      return { out := r.out.map (fun (b, t) => (b ++ (List.range (opitch - b.length)).map (Config.rowPad f), t)), pos := pos + m, scratch := daFresh d rs }
  | _, _ => throw (.code eRange)

/-! ## The rows -/

def daAgent (cl : Nat) (c : UCmd) : Agent := unitAgent cl c 7 1

/-- The command runs, batch by batch, as far as it can: to a closed gate, or for one batch while flight stages wait for the array (R352,
R353). A fault takes it back to the start of its batch. -/
def daQueue (s : State) (cl : Nat) (c : UCmd) : State :=
  let fuel := if (readyKeys s cl 4).any (· != 0) then (if c.scratch.isEmpty then 2 else 1) else 2 ^ 33
  let s := runCmd cl 4 c.id (daAgent cl) (aDst c.cmd) (fun c => daStep { ag := daAgent cl c, cl := cl, cmd := c.cmd } c.pos c.scratch) fuel (served s cl 4 0)
  if isParked s c.id then uHeld s c.ctx cl 4 c.id (fun x => { x with scratch := if x.scratch.isEmpty then [] else daFresh x.cmd x.scratch }) else s

/-- A stage of the array that has parked stands at the start of its batch (R353). -/
def daBack (s : State) (f k : Nat) : State :=
  match (flightOf s f).bind (fun x => x.stages[k]?.map (fun st => (x, st))) with
  | some (x, st) =>
    if isParked s (stageAgent x k).id && !st.scratch.isEmpty then uStage s f k (fun st => { st with scratch := daFresh (st.cmd.getD []) st.scratch }) else s
  | none => s

/-- A flight stage of the array (R361): one batch of it. -/
def daStage (s : State) (cl f k : Nat) : State :=
  daBack (stepStage s cl 4 f k 1 (fun e => daOk true e.cmd) (fun e pos _ scr => daStep e pos scr)) f k

/-- DA_RUN. -/
def execDaRun (cl : Fin 48) (t : UTarget) (s : State) : Ans :=
  match t with
  | .queue => .next (frontRow s cl.val 4 (daAgent cl.val) 1 (fun _ => true) (fun c => daOk false c.cmd)
      (fun c => if c.waiting || !turnOf s cl.val 4 0 then s else daQueue s cl.val c))
  | .stage f k => .next (daStage s cl.val f k.val)

/-- The queue's command of the array that waits on a gate goes on once that is open (R358). -/
def gateQueue (s : State) (cl : Nat) : State :=
  match frontCmd s cl 4 (fun _ => true) with
  | none => s
  | some c =>
    if c.waiting && holds s c.ctx && daOpen s c.ctx cl c.cmd c.scratch then
      daQueue (uHeld (gateCount s c.ctx) c.ctx cl 4 c.id (fun x => { x with waiting := false })) cl { c with waiting := false }
    else s

/-- The flight stages of the array that wait on gates that are open. -/
def gateStages (s : State) (cl : Nat) : List (Flight × Nat) :=
  (s.flights.filter (fun f => f.cl == cl && holds s f.ctx && f.err.isNone)).flatMap (fun f =>
    (f.stages.zipIdx.filter (fun (st, _) => stUnit st.rec_ == 4 && st.waiting && daOpen s f.ctx cl (st.cmd.getD []) st.scratch)).map (fun (_, k) => (f, k)))

/-- DA_GATE_OPEN: what waits on gates that are open goes on (R358, R360). -/
def execDaGateOpen (cl : Fin 48) (s : State) : Ans :=
  if !clServes s cl.val then .next s
  else .next ((gateStages s cl.val).foldl (fun s (f, k) =>
    daStage (uStage (gateCount s f.ctx) f.id k (fun st => { st with waiting := false })) cl.val f.id k) (gateQueue s cl.val))

end Sys2Proof.Machine
end

