-- ==== Sys2Proof/Machine/Power.lean ====
section
/-! DEFINITION. Power, clocks and failures (spec/16 R519 to R532; spec/19 R583 to R604): rails and pins, the governor, the firmware
watchdogs, cluster failures. -/

namespace Sys2Proof.Machine

/-- The main rails are up and the 2840 is out of reset. -/
def powered (s : State) : Bool :=
  s.boot.phase == .booting || s.boot.phase == .ready || s.boot.phase == .recovery || s.boot.phase == .offline

/-- The PMC and the governor work. -/
def governed (s : State) : Bool := s.boot.phase == .ready || s.boot.phase == .offline

def uGov (s : State) (f : Gov → Gov) : State := { s with gov := f s.gov }

/-- SMB_ALERT_N is asserted. -/
def alertLow (s : State) : State :=
  if s.wake.smbAlert then s else emit (uWake s (fun w => { w with smbAlert := true })) (.level "SMB_ALERT_N" false)

/-! ## Rails, pins and the wake block (R104, R105, R594, R595, R603, R604) -/

/-- WAKE_N_ASSERT (R102, R105, R595). -/
def execWakeNAssert (s : State) : Ans :=
  if isReady s && s.pm.st != 2 then .next (wakeUp s 8)
  else if s.wake.auxUp && !s.wake.hold1s then .next (driveMain s true)
  else .next s

/-- AUX_POWER_UP (R595). -/
def execAuxPowerUp (s : State) : Ans :=
  if s.wake.auxUp then .next s
  else .next (driveMain (uBoot (uWake s (fun w => { w with auxUp := true })) (fun b => { b with phase := .off })) true)

/-- Every clock but the always-on domain stops: every context ends, HBM contents are lost, the reach is left (R522, R594). -/
def stopAll (s : State) : State := uBoot (coldState s) (fun b => { b with phase := .stopped })

/-- RAIL_FAULT (R594): while PERST_N is high. In the cycle of a trip both flags are set (spec/19 Corners). -/
def execRailFault (s : State) : Ans :=
  if powered s || s.boot.phase == .stopped then .next (stopAll (uWake s (fun w => { w with railFault := true }))) else .next s

/-- TRIP_LATCH_CLEAR (R603): every main rail has been off for 1 s. -/
def execTripLatchClear (s : State) : Ans :=
  if s.wake.mainUp then .next s else .next (uWake s (fun w => { w with tripLatch := false }))

/-- MAIN_EN_HOLD_EXPIRY (R595; spec/19 Corners). -/
def execMainEnHoldExpiry (wakeLow : Bool) (s : State) : Ans :=
  if !s.wake.hold1s then .next s
  else
    let s := uWake s (fun w => { w with hold1s := false })
    .next (if wakeLow then driveMain s true else s)

/-- MAIN_RAILS_OFF (R104, R595): only the wake block has power. Rails that go away while the 2840 works are a rail fault first. -/
def execMainRailsOff (s : State) : Ans :=
  if !s.wake.mainUp then .next s
  else
    let s := if powered s && s.pm.st != 2 then uWake s (fun w => { w with railFault := true }) else s
    .next (uBoot (coldState (uWake s (fun w => { w with mainUp := false, smbAlert := false }))) (fun b => { b with phase := .off }))

/-- V3P3_AUX_LOSS (R604): the wake block loses what it held. -/
def execV3p3AuxLoss (s : State) : Ans :=
  .next (uBoot { coldState s with wake := {} } (fun b => { b with phase := .noAux }))

/-! ## The governor (R519 to R524, R598 to R602) -/

/-- Every cluster group at the minimum safe point, or lower where it is lower; both harbor complexes at theirs (R524, R600). -/
def holdLow (g : Gov) : Gov :=
  setHarbor { g with clk := (List.range 8).foldl (fun t k => Tab.set 0 t k (min minSafeClk (clkOf g k))) g.clk } harborSafe

/-- A junction reading. -/
def noteTj (g : Gov) (c : Byte) : Gov := { g with tj := c, tjMax := if g.tjMax.toNat < c.toNat then c else g.tjMax }

/-- PWR_BRAKE_ASSERT (R468, R600). -/
def execPwrBrakeAssert (s : State) : Ans :=
  if !governed s || s.gov.brake then .next s
  else .next (raiseVec (logRec (uGov s (fun g => { holdLow g with brake := true, brakeCnt := bump16 g.brakeCnt 1 })) 0x0043 1 63 1 0 (BitVec.ofNat 64 minSafeClk)) 0 3)

/-- PWR_BRAKE_RELEASE (R601): the cluster groups' first step up follows 1 ms later (THROTTLE_RECOVER); the harbor complexes run at
their clock again unless the minimum safe point holds. -/
def execPwrBrakeRelease (s : State) : Ans :=
  if governed s && s.gov.brake then
    .next (uGov s (fun g => setHarbor { g with brake := false } (if g.minSafe then harborSafe else harborClk)))
  else .next s

/-- THERMAL_WARN (R602): a rise through 100 °C. -/
def execThermalWarn (celsius : Byte) (s : State) : Ans :=
  if !powered s || celsius.toNat < 100 then .next s
  else .next (raiseVec (alertLow (uGov s (fun g => { noteTj g celsius with warn := true, warnCnt := bump16 g.warnCnt 1 }))) 0 3)

/-- THROTTLE_STEP (R521): 105 °C or more; 100 MHz lower, counted and logged. -/
def execThrottleStep (g : Fin 8) (celsius : Byte) (s : State) : Ans :=
  if !governed s || celsius.toNat < 105 then .next s
  else
    let c := clkOf s.gov g.val - 100
    let s := uGov s (fun x => { noteTj x celsius with
      clk := Tab.set 0 x.clk g.val c, throttled := x.throttled ||| ((1 : BitVec 8) <<< g.val), throttle := bump16 x.throttle 1 })
    .next (logRec s 0x0041 1 63 1 (BitVec.ofNat 64 g.val) (BitVec.ofNat 64 c))

/-- The clock that a group may rise to (R521, R523, R601). -/
def ceilingClk (g : Gov) : Nat := min (if heldLow g then minSafeClk else clkLimit) g.clkReq

/-- THROTTLE_RECOVER (R521, R601): 102 °C or less; 100 MHz toward the request of the PMC. -/
def execThrottleRecover (g : Fin 8) (celsius : Byte) (s : State) : Ans :=
  if !governed s || 102 < celsius.toNat then .next s
  else
    let now := clkOf s.gov g.val
    let c := if now < ceilingClk s.gov then min (ceilingClk s.gov) (now + 100) else now
    .next (uGov s (fun x => { noteTj x celsius with
      clk := Tab.set 0 x.clk g.val c
      throttled := if ceilingClk x ≤ c then x.throttled &&& ~~~((1 : BitVec 8) <<< g.val) else x.throttled }))

/-- THERMAL_TRIP (R522, R595, R603): THERM_TRIP_N asserted, MAIN_EN low, the trip latch and TRIP_SEEN set, every clock stopped. -/
def execThermalTrip (s : State) : Ans :=
  if !(powered s || s.boot.phase == .stopped) || s.wake.thermTrip then .next s
  else
    let s := emit (uWake s (fun w => { w with thermTrip := true, tripLatch := true, tripSeen := true, hold1s := true })) (.level "THERM_TRIP_N" false)
    .next (stopAll (driveMain s false))

/-- POWER_WINDOW (R598): the average of 10 ms against the limit; 100 windows at least 5 % below it raise the clock. -/
def execPowerWindow (watts : BitVec 16) (s : State) : Ans :=
  if !governed s || s.gov.minSafe then .next s
  else
    let lim := limitW s.cfg
    let w := watts.toNat
    let req := s.gov.clkNext.getD s.gov.clkReq
    let top := profileClk lim
    let s := uGov s (fun g => { g with cardW := watts })
    if lim < w then .next (uGov s (fun g => { g with under := 0, clkNext := some (req - 50) }))
    else if 100 * w ≤ 95 * lim then
      if s.gov.under + 1 < 100 then .next (uGov s (fun g => { g with under := g.under + 1 }))
      else .next (uGov s (fun g => { g with under := 0, clkNext := some (if req < top then min top (req + 50) else req) }))
    else .next (uGov s (fun g => { g with under := 0 }))

/-! ## Watchdogs (R523) -/

/-- A miss: counted and logged. -/
def watchdogMiss (s : State) (kind inst : Nat) : State :=
  logRec (uGov s (fun g => { g with wdog := bump16 g.wdog 1 })) 0x0080 kind 63 2 (BitVec.ofNat 64 kind) (BitVec.ofNat 64 inst)

/-- PMC_WATCHDOG_MISS: the minimum safe point until PERST_N. -/
def execPmcWatchdogMiss (s : State) : Ans :=
  if governed s then .next (watchdogMiss (uGov s (fun g => { holdLow g with minSafe := true, clkNext := none })) 1 0) else .next s

/-- Every key is zeroised (R511, R523). -/
def zeroise (s : State) : State :=
  { s with
    ctxs := Tab.mapV {} (fun c => { c with bind := { c.bind with keys := {} } }) s.ctxs
    fns := Tab.mapV {} (fun f => { f with ide := false, ideKey := [] }) s.fns
    reach := { s.reach with key := [] }
    sec := { s.sec with sessions := [], pending := s.sec.pending.map (fun p => { p with jobKey := [] }), cdi := [], sysMemKey := [], sysExpKey := [] } }

/-- SEC_WATCHDOG_MISS: the 2840 stops, keys are zeroised, offline until PERST_N. -/
def execSecWatchdogMiss (s : State) : Ans :=
  if governed s then .next (uBoot (zeroise (goOffline (watchdogMiss s 0 0))) (fun b => { b with secFailed := true })) else .next s

/-- LKC_WATCHDOG_MISS: the second of two misses at consecutive ticks takes the 2840 offline; BAR0 then goes unanswered (R579). -/
def execLkcWatchdogMiss (s : State) : Ans :=
  if !isReady s then .next s
  else
    let s := watchdogMiss s 2 0
    if s.boot.lkcMiss = 0 then .next (uBoot s (fun b => { b with lkcMiss := 2 }))
    else .next (uBoot (goOffline s) (fun b => { b with lkcFailed := true }))

/-! ## Cluster failures (R528 to R532) -/

/-- A cluster fails: a fence is due, and a context that holds the pound is pre-empted when it was in service. `readable`: the save reads its
basins. -/
def failCluster (s : State) (phys : Nat) (cccFailed readable : Bool) : State :=
  if s.fw.fenced.getLsbD phys || s.fw.fenceDue.any (fun d => d.1 == phys) then s
  else
    let s := { s with fw := { s.fw with fenceDue := s.fw.fenceDue ++ [(phys, b2n cccFailed)] } }
    match logicalOf s phys, s.rot.holder with
    | some c, some n =>
      if holds s n || s.rot.savingCtx == some n then
        preempt { s with fw := { s.fw with unitLost := s.fw.unitLost ++ [(64 * n + c, readable)] } } n
      else s
    | _, _ => s

/-- CLUSTER_FAIL (R528, R530); of a bank that fails its scrub, the fence comes with the next scrub of it (R502). -/
def execClusterFail (phys : Fin 52) (cccFailed : Bool) (how : ClFail) (s : State) : Ans :=
  if !isReady s then .next s
  else match how with
    | .now readable => .next (failCluster s phys.val cccFailed readable)
    | .scrub => .next { s with fw := { s.fw with scrubBad := s.fw.scrubBad.filter (· != phys.val) ++ [phys.val] } }

/-- CCC_WATCHDOG_MISS (R523, R530): the LKC saves the basins through the unit port. -/
def execCccWatchdogMiss (phys : Fin 52) (s : State) : Ans :=
  if isReady s && !s.fw.fenced.getLsbD phys.val then .next (failCluster (watchdogMiss s 3 phys.val) phys.val true true) else .next s

end Sys2Proof.Machine
end

