-- ==== Sys2Proof/Machine/Regs.lean ====
section
/-! DEFINITION. The BAR0 register file (spec/14 R446 to R452): every register block as it reads and as it takes writes, and the
rows of register accesses. Registers are 32 bits wide; a pair _LO, _HI shows one 64-bit value. -/

namespace Sys2Proof.Machine

/-- What a register reads as: 32 bits, or the low or the high half of a 64-bit value (R449). -/
inductive Reg where
  | word (v : Nat)
  | lo (v : Nat)
  | hi (v : Nat)
deriving DecidableEq, Repr

/-- One register. -/
def rw (o v : Nat) : List (Nat × Reg) := [(o, .word v)]
/-- A _LO and _HI pair. -/
def rp (o : Nat) (v : Word) : List (Nat × Reg) := [(o, .lo v.toNat), (o + 4, .hi v.toNat)]

/-- The register at an offset; one that the table does not list is reserved and reads zero. -/
def regAt (l : List (Nat × Reg)) (o : Nat) : Reg := match l.find? (fun e => e.1 == o) with
  | some e => e.2
  | none => .word 0

/-- Two 16-bit fields. -/
def two16 (hi lo : BitVec 16) : Nat := hi.toNat * 65536 + lo.toNat

/-- A 64-bit statistics counter as a function may see it (R505). -/
def stat (s : State) (fn n : Nat) (v : Word) : Word :=
  if fn != 0 && (gFn s fn).tdi != 2 && !consentStats s n then 0 else v

/-! ## Reads -/

/-- HI_ (R478): the registers of a function. -/
def hiFn (f : Fn) : List (Nat × Reg) :=
  rp 0x00 f.sqBase ++ rp 0x08 f.cqBase ++
  rw 0x10 (b2n f.ringEn * 2 ^ 31 + f.cqLog2.toNat * 256 + f.sqLog2.toNat) ++
  rw 0x14 (f.ringErr.toNat * 256 + f.accCode.toNat) ++ rw 0x18 (two16 f.notT f.dbBad) ++ rw 0x1C (b2n f.ide * 256 + f.tdi.toNat)

/-- Bit n: context n has page requests. -/
def prqPend (s : State) : Word := BitVec.ofNat 64 ((List.range 64).foldl (fun a n => a + (if (gCtx s n).mmu.prq.isEmpty then 0 else 2 ^ n)) 0)

/-- The byte of HI_ that shows the binding of a VF. -/
def vfByte (s : State) (v : Nat) : Nat := if v = 0 then 0 else match (gFn s v).ctx with
  | some n => 128 + n
  | none => 0

/-- HI_: the system registers, from 0x800. -/
def hiSysRegs (s : State) : List (Nat × Reg) :=
  let h := s.hi
  rw 0x800 (h.op.toNat * 2 ^ 28 + h.ctx.toNat * 65536 + h.vf.toNat) ++ rw 0x804 h.handle.toNat ++
  rw 0x808 (b2n h.busy * 256 + h.res.toNat) ++ rp 0x810 (prqPend s) ++ rp 0x818 h.cxChg ++ rw 0x820 h.tmoBar0.toNat ++
  rw 0x824 (h.speed.toNat * 1024 + h.width.toNat * 32 + b2n h.flit) ++
  (List.range 16).flatMap (fun k => rw (0x840 + 4 * k) ((List.range 4).foldl (fun a i => a + vfByte s (4 * k + i) * 256 ^ i) 0))

/-- A_max in ns (R62, R70). -/
def aMaxNs (liveMax : Nat) : Nat := 1500 + 96 * liveMax / 6000

/-- LK_ (R70). -/
def lkRegs (s : State) : List (Nat × Reg) :=
  let t := s.tick
  rw 0x00 s.cfg.tickPeriod ++ rp 0x08 t.pound ++
  rw 0x10 (b2n t.resync * 16 + b2n t.tickinLost * 8 + b2n t.holdover * 4 + b2n t.tickinLock * 2 + b2n (isMaster s)) ++
  rw 0x14 t.skew.toNat ++ rw 0x18 (if isMaster s then s.cfg.chipNum else s.cfg.tickMaster) ++ rw 0x1C t.tickinOfs.toNat ++ rw 0x20 (aMaxNs s.cfg.liveMax)

/-- STATE of a context (R71). -/
def ctxStNum (c : CtxState) : Nat := match c with
  | .free => 0
  | .bound => 1
  | .admitted => 2
  | .running => 3
  | .faulted => 4

/-- CX_ of a context (R71). -/
def cxRegs (c : Ctx) : List (Nat × Reg) :=
  rw 0x00 (b2n c.expert * 128 + ctxStNum c.st) ++ rw 0x04 c.splitMax.toNat ++ rw 0x08 c.ovrCnt.toNat ++ rp 0x10 c.sch.step ++
  rw 0x18 c.live.toNat ++ rp 0x20 c.swin

/-- What the PF sees of a tenant's CX_ (R452): STATE and SWIN. -/
def cxPf (c : Ctx) : List (Nat × Reg) := rw 0x00 (ctxStNum c.st) ++ rp 0x20 c.swin

/-- FW_UPD_ (R95). -/
def updRegs (s : State) : List (Nat × Reg) :=
  let b := s.boot
  rw 0x00 b.cmd.toNat ++ rw 0x04 b.updLen.toNat ++
  rw 0x08 (b.updResult.toNat * 65536 + b.upd.toNat * 4096 + b2n b.fallback * 8 + b2n b.booted * 4 +
    b2n (b.slotA.st == .pending || b.slotB.st == .pending) * 2 + b2n (b.phase == .recovery)) ++
  rw 0x0C b.progress.toNat ++ rw 0x10 s.otp.svnMin.toNat ++ rw 0x14 s.cfg.svn.toNat

/-- The lowest cluster-group clock in force (R587, R604). -/
def clkNow (g : Gov) : Nat := (rangeFrom 1 7).foldl (fun a k => min a (clkOf g k)) (clkOf g 0)

/-- PM_ (R106, R604). -/
def pmRegs (s : State) : List (Nat × Reg) :=
  let p := s.pm
  let g := s.gov
  rw 0x00 p.req.toNat ++ rw 0x04 (b2n p.auto * 256 + p.st.toNat) ++ rw 0x08 p.wakeSrc.toNat ++ rp 0x10 p.slack ++
  rw 0x100 (hbmMax s * 65536 + g.tj.toNat * 256) ++ rw 0x104 (limitW s.cfg * 65536 + g.cardW.toNat) ++
  rw 0x108 (clkNow g * 65536 + g.clkReq % 2048) ++
  rw 0x10C (b2n s.wake.railFault * 8 + b2n s.wake.tripSeen * 4 + b2n g.brake * 2 + b2n g.warn) ++ rw 0x110 (two16 g.brakeCnt g.warnCnt)

/-- BW_ of a function (R479). -/
def bwRegs (f : Fn) : List (Nat × Reg) :=
  rp 0x00 (f.bwAddr.setWidth 64) ++ rw 0x08 (b2n f.bwInc * 2 + b2n f.bwSpace) ++ rw 0x0C (b2n f.bwTaint * 256 + f.bwCode.toNat)

/-- MMU_ (R206). -/
def mmuRegs (s : State) (fn n : Nat) : List (Nat × Reg) :=
  let m := (gCtx s n).mmu
  let p := match m.prq with
    | r :: _ => (r.page, 2 ^ 31 + b2n r.wr * 2 ^ 30)
    | [] => (0, 0)
  rw 0x00 (b2n m.w * 16 + m.op.toNat) ++ rw 0x04 m.va.toNat ++ rw 0x08 m.paLo.toNat ++ rw 0x0C m.paHi.toNat ++
  rp 0x10 (BitVec.ofNat 64 (m.hostHi.toNat * 2 ^ 32 + m.hostLo.toNat)) ++ rw 0x18 (b2n m.busy * 256 + m.code.toNat) ++ rw 0x1C m.qry.toNat ++
  rw 0x20 p.1 ++ rw 0x24 (p.2 + min m.prq.length 65535) ++ rp 0x28 (stat s fn n m.uninit) ++ rw 0x30 (b2n m.sat * 65536 + m.fltDrop.toNat)

/-- HBM_ of a stack (R207). TEMP is what the sensor reads; PATROL is whole hours of ticks. -/
def hbmRegs (s : State) (k : Nat) : List (Nat × Reg) :=
  let x := gStack s k
  rw 0x00 (two16 x.ue x.ce) ++ rw 0x04 x.icf.toNat ++ rw 0x08 (stackTemp s k).toNat ++ rw 0x0C (patrolHours s)

/-- BQ_ (R248): the status of the queue in SEL, zero for one that the context does not own. -/
def bqRegs (s : State) (n : Nat) : List (Nat × Reg) :=
  let sel := (gCtx s n).bqSel
  let q := gQueue s sel.toNat
  rw 0x00 sel.toNat ++
  (if q.ctx = some n then
    rw 0x04 (q.free % 65536 * 65536 + q.lastErr.toNat * 256 + 128 + b2n q.weir * 64) ++ rw 0x08 (queueOut s sel.toNat % 2048) ++
    rw 0x0C (two16 q.creditErr q.idxOob) ++ rw 0x10 (two16 q.dlMiss q.rearmLate)
  else [])

/-- BE_ (R249). -/
def beRegs (s : State) (fn n : Nat) : List (Nat × Reg) :=
  let b := (gCtx s n).be
  rp 0x00 (stat s fn n b.bytes) ++ rp 0x08 (stat s fn n b.taint) ++ rw 0x10 (b.tmo.toNat * 65536 + b.sat.toNat)

/-- WEIR_ (R250): the group in SEL. -/
def weirRegs (s : State) (fn n : Nat) : List (Nat × Reg) :=
  let c := gCtx s n
  let w := Tab.get {} c.weirs c.weirSel.toNat
  rw 0x00 c.weirSel.toNat ++ rw 0x04 w.rate ++ rw 0x08 w.burst ++ rp 0x0C (stat s fn n w.held) ++ rw 0x14 (b2n c.weirSat)

/-- TP_ (R251). -/
def tpRegs (s : State) (fn n : Nat) : List (Nat × Reg) :=
  let t := (gCtx s n).tp
  rp 0x00 (stat s fn n t.done) ++ rw 0x08 (two16 t.tmo t.wdrn) ++ rw 0x0C (b2n t.sat)

/-- FL_ (R252). -/
def flRegs (s : State) (fn n : Nat) : List (Nat × Reg) :=
  let f := (gCtx s n).fl
  let count (a : Bool) : Nat := (s.flights.filter (fun x => x.ctx == n && x.active == a)).length
  rw 0x00 (count false % 1024 * 256 + count true % 256) ++ rw 0x04 f.err.toNat ++ rp 0x08 (stat s fn n f.stall) ++ rw 0x10 (b2n f.sat)

/-- TU_ (R283): the table in SEL. -/
def tuRegs (s : State) (fn n : Nat) : List (Nat × Reg) :=
  let c := gCtx s n
  let t := if c.tuSel.toNat < (manOf s n).ntables then Tab.get {} c.tu c.tuSel.toNat else {}
  let v (x : Word) : Word := stat s fn n x
  rw 0x00 c.tuSel.toNat ++ rw 0x04 (t.sat.toNat * 256 + t.lastErr.toNat) ++ rp 0x08 (v t.neg) ++ rp 0x10 (v t.oob) ++ rp 0x18 (v t.miss) ++
  rp 0x20 (v t.gath) ++ rp 0x28 (v t.appl) ++ rp 0x30 (v t.drop) ++ rw 0x38 (two16 t.taint t.stgErr) ++ rw 0x3C t.hwm.toNat

/-- FX_ (R315). -/
def fxRegs (s : State) (fn n : Nat) : List (Nat × Reg) :=
  let f := (gCtx s n).fx
  rp 0x00 (stat s fn n f.inp) ++ rp 0x08 (stat s fn n f.out) ++ rp 0x10 (stat s fn n f.drop) ++ rw 0x18 (two16 f.dup f.hotOob) ++
  rw 0x1C (two16 f.parse f.nanz) ++ rw 0x20 (two16 f.tdrop f.nullkey) ++ rw 0x24 (f.taint.toNat * 65536 + f.err.toNat * 256 + f.sat.toNat)

/-- AMU_ (R341). -/
def amuRegs (s : State) (fn n : Nat) : List (Nat × Reg) :=
  let a := (gCtx s n).amu
  rp 0x00 (stat s fn n a.look) ++ rp 0x08 (stat s fn n a.hit) ++ rp 0x10 (stat s fn n a.upd) ++ rw 0x18 (two16 a.repl a.taint) ++
  rw 0x1C (a.fdrop.toNat * 65536 + a.err.toNat * 256 + a.sat.toNat) ++ rw 0x20 a.tdrop.toNat

/-- OU_ (R341). -/
def ouRegs (s : State) (fn n : Nat) : List (Nat × Reg) :=
  let a := (gCtx s n).ou
  rp 0x00 (stat s fn n a.elem) ++ rp 0x08 (stat s fn n a.nan) ++ rp 0x10 (stat s fn n a.cmd) ++ rw 0x18 (two16 a.order a.taint) ++
  rw 0x1C (a.err.toNat * 256 + a.sat.toNat)

/-- DA_ (R363). -/
def daRegs (s : State) (fn n : Nat) : List (Nat × Reg) :=
  let d := (gCtx s n).da
  rp 0x00 (stat s fn n d.rows) ++ rp 0x08 (stat s fn n d.wait) ++ rw 0x10 (two16 d.nan d.satc) ++
  rw 0x14 (d.taint.toNat * 65536 + d.err.toNat * 256 + d.sat.toNat) ++ rw 0x18 d.sel.toNat ++ rp 0x1C (Tab.get 0 d.relay d.sel.toNat)

/-- CD_ (R391). -/
def cdRegs (s : State) (fn n : Nat) : List (Nat × Reg) :=
  let d := (gCtx s n).cd
  rp 0x00 (stat s fn n d.cin) ++ rp 0x08 (stat s fn n d.cout) ++ rp 0x10 (stat s fn n d.dout) ++ rp 0x18 (stat s fn n d.raw) ++
  rw 0x20 (two16 d.code d.dist) ++ rw 0x24 (two16 d.len d.check) ++ rw 0x28 (two16 d.window d.format) ++
  rw 0x2C (d.chain.toNat * 65536 + d.err.toNat * 256 + d.sat.toNat) ++ rw 0x30 (lanesHeld s n false * 256 + lanesHeld s n true) ++ rw 0x34 (d.taint.toNat * 65536)

/-- LW_ of a port (R439). -/
def portRegs (p : Port) : List (Nat × Reg) :=
  rw 0x00 (p.lanes.toNat * 2 ^ 24 + p.st.toNat * 2 ^ 20 + p.peerChip.toNat * 2 ^ 12 + p.peerPort.toNat * 256 + p.lastFail.toNat) ++
  rw 0x04 p.delay.toNat ++ rp 0x08 p.fecc ++ rw 0x10 (two16 p.uncorr p.replay) ++ rw 0x14 (two16 p.laneDrop p.creditErr) ++
  rw 0x18 (two16 p.c0Over p.badMsg) ++ rp 0x1C p.txf ++ rp 0x24 p.rxf ++ rw 0x2C p.sat.toNat

/-- LW_ of a context (R440). -/
def lwRegs (s : State) (fn n : Nat) : List (Nat × Reg) :=
  let l := (gCtx s n).lw
  rp 0x00 (stat s fn n l.tx) ++ rp 0x08 (stat s fn n l.rx) ++ rw 0x10 (two16 l.auth l.tmo) ++ rw 0x14 (two16 l.refused l.replay) ++ rw 0x18 l.sat.toNat

/-- LW_: route records and reach state (R441). -/
def reachReg (s : State) (o : Nat) : Nat :=
  let r := s.reach
  if o < 0x700 then (Tab.get 0 r.routes ((o - 0x300) / 4)).toNat
  else if o = 0x700 then r.rstate.toNat * 512 + popN r.members.toNat 256
  else if o ≤ 0x720 then r.members.toNat / 2 ^ (8 * (o - 0x704)) % 2 ^ 32
  else if o = 0x724 then r.routeGen.toNat
  else 0

/-- SEC_ of a context (R513). -/
def secRegs (s : State) (n : Nat) : List (Nat × Reg) :=
  let c := gCtx s n
  let m := manOf s n
  rw 0x00 (c.secKind.toNat * 2 ^ 24 + m.secTol % 256 * 65536 + c.secEvt.toNat) ++ rw 0x04 (m.permit.toNat * 256 + m.consent.toNat) ++ rw 0x08 c.bind.handle.toNat

/-- SEC_: the system registers. -/
def secSys (s : State) : List (Nat × Reg) :=
  rw 0x800 s.sec.mode.toNat ++ rw 0x804 (two16 s.sec.icf s.sec.auth) ++ rw 0x808 (min s.sec.pending.length 63 * 256 + min s.sec.sessions.length 15)

/-- The 12 registers of a 48-byte digest (R544). -/
def digestRegs (o : Nat) (d : Bytes) : List (Nat × Reg) := (List.range 12).flatMap (fun i => rw (o + 4 * i) (numAt d (4 * i) 4))

/-- The MAP byte of a logical cluster (R545). -/
def mapByte (s : State) (c : Nat) : Nat := match Tab.get 0 s.fw.map c with
  | 0 => 0
  | p + 1 => 128 + p / 26 * 32 + p % 26

/-- The unfenced physical clusters of a tile that hold no logical number. -/
def sparesLeft (s : State) (tile : Nat) : Nat :=
  ((rangeFrom (26 * tile) 26).filter (fun p => !s.fw.fenced.getLsbD p && (logicalOf s p).isNone)).length

/-- The GOV bits (R545). -/
def govBits (g : Gov) : Nat := b2n g.minSafe * 16 + b2n g.brake * 8 + b2n (g.throttled != 0) * 4 + b2n g.clockClamp

/-- FW_ (R545). -/
def fwRegs (s : State) : List (Nat × Reg) :=
  let f := s.fw
  rw 0x00 (b2n f.logPh * 32768 + f.logHead.toNat) ++ rw 0x04 f.logWrap.toNat ++ rp 0x08 f.collide ++
  rw 0x10 (f.fenced.toNat % 2 ^ 26) ++ rw 0x14 (f.fenced.toNat / 2 ^ 26) ++
  rw 0x18 (((List.range 48).filter (fun c => Tab.get 0 f.map c == 0)).length * 256 + sparesLeft s 1 * 4 + sparesLeft s 0) ++
  rw 0x1C (govBits s.gov) ++ rw 0x20 (two16 s.gov.clamp s.gov.throttle) ++ rw 0x24 s.gov.wdog.toNat ++ rw 0x28 s.gov.tjMax.toNat ++
  rw 0x2C ((List.range 24).foldl (fun a l => a + b2n (gLane s l).fenced * 2 ^ l) 0) ++ rw 0x30 (b2n f.collSat) ++
  (List.range 4).flatMap (fun i => match s.cfg.secs[i]? with
    | some x => rw (0x100 + 0x40 * i) (x.ver.toNat / 65536 * 65536 + x.ver.toNat % 65536) ++ rw (0x104 + 0x40 * i) x.build.toNat ++ digestRegs (0x108 + 0x40 * i) x.digest
    | none => []) ++
  digestRegs 0x200 s.otp.romDigest ++ digestRegs 0x240 s.cfg.digest ++
  (List.range 12).flatMap (fun k => rw (0x300 + 4 * k) ((List.range 4).foldl (fun a i => a + mapByte s (4 * k + i) * 256 ^ i) 0))

/-- TJ_ of a context (R561, R564). -/
def tjRegs (s : State) (fn n : Nat) : List (Nat × Reg) :=
  let t := (gCtx s n).tj
  if !consentTrace s n then []
  else
    rw 0x00 t.ctrl.toNat ++ rp 0x04 (BitVec.ofNat 64 (t.bufHi.toNat * 2 ^ 32 + t.bufLo.toNat * 4096)) ++ rw 0x0C t.size.toNat ++
    rp 0x10 (t.clmask.setWidth 64) ++ rw 0x18 t.state.toNat ++ rw 0x1C (b2n t.wph * 2 ^ 30 + t.wptr.toNat) ++
    rp 0x20 (stat s fn n t.pkt) ++ rw 0x28 (t.loss.toNat * 65536 + b2n t.sat)

/-- The rotation page (R57, R72): the shadow on the tick master, elsewhere the rotation in force. -/
def rotRegs (s : State) (o : Nat) : Reg :=
  let entry (i : Nat) : RotEntry := if isMaster s then Tab.get {} s.rot.shadow i else s.rot.force.getD i {}
  let word (e : RotEntry) : Nat := (rotWord e).toNat
  if o < 0x400 then .word (word (entry (o / 4)))
  else if o = 0x800 then .word (if isMaster s then s.rot.shadowLen.toNat else s.rot.force.length)
  else if o = 0x808 then .lo (s.rot.pHi.toNat * 2 ^ 32 + s.rot.pLo.toNat)
  else if o = 0x80C then .hi (s.rot.pHi.toNat * 2 ^ 32 + s.rot.pLo.toNat)
  else .word 0

/-- The MSI-X table and PBA of a function (R468). -/
def msixReg (f : Fn) (o : Nat) : Nat :=
  if o < 0x200 then (msixWord f (o / 4)).toNat else if o = 0x800 then f.pba.toNat else 0

/-- A function reaches the registers of a context that is its own. -/
def owns (s : State) (fn n : Nat) : Bool := ctxOf s fn == some n

/-- The register that a function's read meets: E_RANGE where no block lies, E_DENIED where it may not reach (R447, R450, R452). -/
def regRead (s : State) (fn off : Nat) : Except Code Reg :=
  let o := off % 4096
  let own (stride : Nat) (l : Nat → List (Nat × Reg)) : Except Code Reg :=
    let n := o / stride
    if owns s fn n then .ok (regAt (l n) (o % stride)) else .error eDenied
  let pf (r : Reg) : Except Code Reg := if fn = 0 then .ok r else .error eDenied
  match off / 4096 with
  | 0x00 => if 0x800 ≤ o then pf (regAt (hiSysRegs s) o) else if o / 0x20 = fn then .ok (regAt (hiFn (gFn s fn)) (o % 0x20)) else .error eDenied
  | 0x01 => .ok (regAt (lkRegs s) o)
  | 0x02 =>
    let n := o / 0x40
    if owns s fn n then .ok (regAt (cxRegs (gCtx s n)) (o % 0x40))
    else if fn = 0 && (o % 0x40 = 0 || o % 0x40 = 0x20 || o % 0x40 = 0x24) then .ok (regAt (cxPf (gCtx s n)) (o % 0x40))
    else .error eDenied
  | 0x03 => pf (regAt (updRegs s) o)
  | 0x04 => pf (regAt (pmRegs s) o)
  | 0x05 => if o / 0x10 = fn then .ok (regAt (bwRegs (gFn s fn)) (o % 0x10)) else if o < 0x400 then .error eDenied else .ok (.word 0)
  | 0x06 => if mmuReach s fn (o / 0x40) then .ok (regAt (mmuRegs s fn (o / 0x40)) (o % 0x40)) else .error eDenied
  | 0x07 => pf (if o / 0x10 < 6 then regAt (hbmRegs s (o / 0x10)) (o % 0x10) else .word 0)
  | 0x08 => own 0x40 (bqRegs s)
  | 0x09 => own 0x40 (beRegs s fn)
  | 0x0A => own 0x40 (weirRegs s fn)
  | 0x0B => own 0x40 (tpRegs s fn)
  | 0x0C => own 0x40 (flRegs s fn)
  | 0x0D => own 0x40 (tuRegs s fn)
  | 0x0E => own 0x40 (fxRegs s fn)
  | 0x0F => own 0x40 (amuRegs s fn)
  | 0x10 => own 0x40 (ouRegs s fn)
  | 0x11 => own 0x40 (daRegs s fn)
  | 0x12 => own 0x40 (cdRegs s fn)
  | 0x13 =>
    if o < 0x300 then pf (regAt (portRegs (gPort s (o / 0x40))) (o % 0x40))
    else if o < 0x800 then .ok (.word (reachReg s o))
    else if owns s fn ((o - 0x800) / 0x20) then .ok (regAt (lwRegs s fn ((o - 0x800) / 0x20)) (o % 0x20)) else .error eDenied
  | 0x14 => if 0x800 ≤ o then pf (regAt (secSys s) o) else own 0x20 (secRegs s)
  | 0x15 => .ok (regAt (fwRegs s) o)
  | 0x16 =>
    if o < 0x40 then pf (if o = 0 then .word (two16 (Tab.get 0 s.sysTrig 1) (Tab.get 0 s.sysTrig 0)) else .word 0)
    else own 0x40 (tjRegs s fn)
  | 0x17 => pf (rotRegs s o)
  | 0xFF => .ok (.word (msixReg (gFn s fn) o))
  | _ => .error eRange

/-- A read answers. -/
def readAns (s : State) (fn off v : Nat) (code : Code) : State := emit (setAcc s fn code) (.readData fn off (BitVec.ofNat 64 v))

/-- A register is read (R449): a _LO read latches the high half for the function, a _HI read gives what is latched. -/
def readReg (s : State) (fn off : Nat) (r : Reg) : State :=
  match r with
  | .word v => readAns s fn off v 0
  | .lo v => readAns (uFn s fn (fun f => { f with latch := Tab.set 0 f.latch off (v / 2 ^ 32 % 2 ^ 32 + 1) })) fn off (v % 2 ^ 32) 0
  | .hi v =>
    let l := Tab.get 0 (gFn s fn).latch (off - 4)
    readAns s fn off (if l = 0 then v / 2 ^ 32 % 2 ^ 32 else l - 1) 0

/-- The flags of LK_ STATUS that a read by the PF clears (R70). -/
def clearLk (s : State) : State := { s with tick := { s.tick with resync := false, tickinLost := false, holdover := false } }

/-- The blocks that an offline 2840 still answers (R579). -/
def offlineBlock (off : Nat) : Bool := off / 4096 == 0x15 || off / 4096 == 0x07 || off / 4096 == 0x13 || off / 4096 == 0x04

/-- In recovery BAR0 holds the FW_UPD_ block and the PF's BW_ registers (R92). -/
def recoveryOff (off : Nat) : Bool := off / 4096 == 3 || (off / 4096 == 5 && off % 4096 < 0x10)

/-- A 4-byte read of BAR0. -/
def bar0Read (s : State) (fn off : Nat) (t : Bool) : State :=
  if !barOpen s fn || s.boot.lkcFailed then s
  else if !tOk s fn t then notT s fn true
  else if s.boot.phase == .recovery && !recoveryOff off then readAns s fn off 0 0
  else if (ctxOf s fn).isNone then emit s (.readData fn off 0)
  else if off % 4 != 0 then readAns s fn off 0 eRange
  else if s.boot.phase == .offline && !offlineBlock off then readAns s fn off 0 eUnitLost
  else match regRead s fn off with
    | .error c => readAns s fn off 0 c
    | .ok r =>
      let s' := readReg s fn off r
      if off = 0x1010 && fn = 0 then clearLk s' else s'

/-- LO_REGISTER_READ: a 4-byte read of a register; an 8-byte read is two of them, the lower address first (R447). -/
def execLoRegisterRead (fn : Fin 64) (t : Bool) (off : BitVec 20) (s : State) : Ans := .next (bar0Read s fn.val off.toNat t)

/-- LK_STATUS_READ (R70). -/
def execLkStatusRead (fn : Fin 64) (s : State) : Ans := .next (bar0Read s fn.val 0x1010 true)

/-! ## Writes -/

/-- A 16-bit or other field of a written word. -/
def vf (v : BitVec 32) (hi lo : Nat) : Nat := v.toNat / 2 ^ lo % 2 ^ (hi + 1 - lo)

/-- The half of a 64-bit register that a write replaces. -/
def putLo (x : Word) (v : Nat) : Word := BitVec.ofNat 64 (x.toNat / 2 ^ 32 * 2 ^ 32 + v)
def putHi (x : Word) (v : Nat) : Word := BitVec.ofNat 64 (v * 2 ^ 32 + x.toNat % 2 ^ 32)

/-- A ring control word (R478). -/
def ringCtl (v : BitVec 32) (f : Fn) : Fn :=
  let q := vf v 12 8
  let k := vf v 4 0
  if v.getLsbD 31 && !(inR 4 16 q && inR 4 16 k) then { f with accCode := eRange, ringErr := eRange }
  else if v.getLsbD 31 then { f with ringEn := true, cqLog2 := BitVec.ofNat 5 q, sqLog2 := BitVec.ofNat 5 k, sqBaseOn := f.sqBase, cqBaseOn := f.cqBase }
  else { f with ringEn := false, cqLog2 := BitVec.ofNat 5 q, sqLog2 := BitVec.ofNat 5 k }

/-- Writes to HI_ of a function. -/
def hiFnWrite (o : Nat) (v : BitVec 32) (f : Fn) : Fn :=
  if o = 0x00 then { f with sqBase := putLo f.sqBase (v.toNat / 64 * 64) }
  else if o = 0x04 then { f with sqBase := putHi f.sqBase v.toNat }
  else if o = 0x08 then { f with cqBase := putLo f.cqBase (v.toNat / 64 * 64) }
  else if o = 0x0C then { f with cqBase := putHi f.cqBase v.toNat }
  else if o = 0x10 then ringCtl v f
  else f

/-- Writes to the system registers of HI_ (R453, R478). -/
def hiSysWrite (o : Nat) (v : BitVec 32) (s : State) : State :=
  if o = 0x800 then
    (if vf v 31 28 = 1 then hiBind (vf v 5 0) (vf v 21 16) s
    else if vf v 31 28 = 2 then hiUnbind (vf v 21 16) { s with hi := { s.hi with vf := BitVec.ofNat 6 (vf v 5 0) } }
    else if s.hi.busy then setAcc s 0 eBusy
    else { s with hi := { s.hi with op := BitVec.ofNat 4 (vf v 31 28), ctx := BitVec.ofNat 6 (vf v 21 16), vf := BitVec.ofNat 6 (vf v 5 0), res := eRange } })
  else if o = 0x804 then { s with hi := { s.hi with handle := BitVec.ofNat 16 v.toNat } }
  else if o = 0x818 then { s with hi := { s.hi with cxChg := s.hi.cxChg &&& ~~~(v.setWidth 64) } }
  else if o = 0x81C then { s with hi := { s.hi with cxChg := s.hi.cxChg &&& ~~~(BitVec.ofNat 64 (v.toNat * 2 ^ 32)) } }
  else s

/-- Writes to FW_UPD_ (R95). -/
def updRegWrite (o : Nat) (v : BitVec 32) (s : State) : State :=
  let c := vf v 2 0
  if o = 0x04 then uBoot s (fun b => { b with updLen := v })
  else if o = 0x00 then
    (if c = 1 then updCmd 0 1 updOpen s else if c = 2 then updCmd 0 2 (updVerify s.otp) s else if c = 3 then updCmd 0 3 updCommit s
    else if c = 4 then updWrite s 0 updAbort else s)
  else s

/-- Writes to PM_ (R106, R604). -/
def pmWrite (o : Nat) (v : BitVec 32) (s : State) : State :=
  if o = 0x00 then
    (if vf v 1 0 = 1 then pmReq 0 1 s slackReq else if vf v 1 0 = 2 then pmReq 0 2 s moorReq else if vf v 1 0 = 3 then pmReq 0 3 s (fun s => wakeUp s 2)
    else { s with pm := { s.pm with req := 0 } })
  else if o = 0x10C then
    { s with
      wake := { s.wake with railFault := s.wake.railFault && !v.getLsbD 3, tripSeen := s.wake.tripSeen && !v.getLsbD 2 }
      gov := { s.gov with warn := s.gov.warn && !v.getLsbD 0 } }
  else s

/-- Writes to BW_ (R479). -/
def bwWrite (o : Nat) (v : BitVec 32) (f : Fn) : Fn :=
  if o = 0x00 then { f with bwAddr := BitVec.ofNat 48 (f.bwAddr.toNat / 2 ^ 32 * 2 ^ 32 + v.toNat) }
  else if o = 0x04 then { f with bwAddr := BitVec.ofNat 48 (vf v 15 0 * 2 ^ 32 + f.bwAddr.toNat % 2 ^ 32) }
  else if o = 0x08 then { f with bwInc := v.getLsbD 1, bwSpace := v.getLsbD 0 }
  else if o = 0x0C then { f with bwTaint := f.bwTaint && !v.getLsbD 8 }
  else f

/-- The host bytes that an IMPORT reads when a register write starts it (R202). -/
def hostBlob (k host : Nat) : HostRead := .data ((List.range 65728).map (fun i => Config.hostByte k (host + i)))

/-- A write of MMU_ OP and W (R206). -/
def mmuStart (s : State) (fn n : Nat) (v : BitVec 32) : State :=
  let w := v.getLsbD 4
  let op := vf v 3 0
  if op = 1 then mmuCmd s fn n 1 w (fun va pa _ s => mmuMap s n va pa false w)
  else if op = 2 then mmuCmd s fn n 2 w (fun va pa _ s => mmuMap s n va pa true w)
  else if op = 3 then mmuCmd s fn n 3 w (fun va _ _ s => mmuUnmap s n va)
  else if op = 4 then mmuCmd s fn n 4 w (fun va _ _ s => mmuProtect s n va w)
  else if op = 5 then mmuCmd s fn n 5 w (fun va _ host s => mmuExport s n va host)
  else if op = 6 then
    let (k, s) := freshFree s
    mmuCmd s fn n 6 w (fun va pa host s => mmuImport s n va pa host (hostBlob k host))
  else if op = 7 then mmuCmd s fn n 7 w (fun _ _ _ s => mmuDrop s n)
  else if op = 8 then mmuCmd s fn n 8 w (fun va _ _ s => mmuQuery s n va)
  else if (gCtx s n).mmu.busy then setAcc s fn eBusy
  else uMmu s n (fun m => { m with op := BitVec.ofNat 4 op, w := w, code := eRange })

/-- Writes to MMU_ (R206). -/
def mmuWrite (s : State) (fn n o : Nat) (v : BitVec 32) : State :=
  if o = 0x00 then mmuStart s fn n v
  else uMmu s n (fun m =>
    if o = 0x04 then { m with va := v }
    else if o = 0x08 then { m with paLo := v }
    else if o = 0x0C then { m with paHi := BitVec.ofNat 4 v.toNat }
    else if o = 0x10 then { m with hostLo := v }
    else if o = 0x14 then { m with hostHi := v }
    else if o = 0x30 then { m with sat := m.sat && !v.getLsbD 16 }
    else m)

/-- A write of RATE or BURST (R223, R250): under expert control, in range, from the context's next tick. -/
def weirReg (s : State) (fn n : Nat) (burst : Bool) (v : BitVec 32) : State :=
  let x := if burst then vf v 24 0 else vf v 19 0
  if !isExpert s n || !(if burst then inR 4096 (16 * 2 ^ 20) x else inR 1 1000000 x) then setAcc s fn eRange
  else uCtx s n (fun c => { c with weirs := Tab.modify {} c.weirs c.weirSel.toNat (fun w => if burst then { w with nextBurst := some x } else { w with nextRate := some x }) })

/-- What a TJ_ register write gives the waiting configuration. -/
def tjNext (t : Trace) (o : Nat) (v : BitVec 32) : BitVec 16 × BitVec 20 × BitVec 16 × BitVec 5 × BitVec 48 :=
  let (ctrl, lo, hi, size, mask) := t.nxt.getD (t.ctrl, t.bufLo, t.bufHi, t.size, t.clmask)
  if o = 0x00 then (BitVec.ofNat 16 v.toNat &&& 0xFCFF, lo, hi, size, mask)
  else if o = 0x04 then (ctrl, BitVec.ofNat 20 (v.toNat / 4096), hi, size, mask)
  else if o = 0x08 then (ctrl, lo, BitVec.ofNat 16 v.toNat, size, mask)
  else if o = 0x0C then (ctrl, lo, hi, BitVec.ofNat 5 v.toNat, mask)
  else if o = 0x10 then (ctrl, lo, hi, size, BitVec.ofNat 48 (mask.toNat / 2 ^ 32 * 2 ^ 32 + v.toNat))
  else (ctrl, lo, hi, size, BitVec.ofNat 48 (vf v 15 0 * 2 ^ 32 + mask.toNat % 2 ^ 32))

/-- Every page of [va, va + len) that is mapped lies on this chip. -/
def onThisChip (s : State) (n va len : Nat) : Bool :=
  (List.range (ceilDiv len 65536 + 1)).all (fun i => let a := min (va + 65536 * i) (va + len - 1)
    match walk s n a with
    | .leaf level _ e => chipOf (leafPa level e a) == s.cfg.chipNum
    | .bad _ => true)

/-- The buffer of a configuration keeps R559. -/
def tjBufOk (s : State) (n : Nat) (x : BitVec 16 × BitVec 20 × BitVec 16 × BitVec 5 × BitVec 48) : Bool :=
  let (_, lo, hi, size, _) := x
  let va := hi.toNat * 2 ^ 32 + lo.toNat * 4096
  let len := 4096 * 2 ^ size.toNat
  decide (size.toNat ≤ 18) && va % len == 0 && inPins s n va len && onThisChip s n va len

/-- Writes to TJ_ of a context (R561, R562). -/
def tjWrite (s : State) (fn n o : Nat) (v : BitVec 32) : State :=
  let t := (gCtx s n).tj
  if !consentTrace s n then s
  else if o = 0x28 then uCtx s n (fun c => { c with tj := { c.tj with sat := c.tj.sat && !v.getLsbD 0 } })
  else if o ≤ 0x14 then
    (if t.state = 2 then setAcc s fn eBusy
    else
      let x := tjNext t o v
      if vf (x.1.setWidth 32) 3 0 != 0 && !tjBufOk s n x then setAcc s fn eRange
      else uCtx s n (fun c => { c with tj := { c.tj with nxt := some x } }))
  else s

/-- Writes to the rotation page on the tick master (R72, R73). -/
def rotWrite (o : Nat) (v : BitVec 32) (s : State) : State :=
  if o < 0x400 then { s with rot := { s.rot with shadow := Tab.set {} s.rot.shadow (o / 4) (rotEntryOf v) } }
  else if o = 0x800 then { s with rot := { s.rot with shadowLen := BitVec.ofNat 9 v.toNat } }
  else if o = 0x808 then { s with rot := { s.rot with pLo := v } }
  else if o = 0x80C then rotHi v s
  else s

/-- Writes to the MSI-X table (R468): a vector that is pending and no longer masked is sent. -/
def msixWrite (s : State) (fn o : Nat) (v : BitVec 32) : State :=
  if o < 0x200 then
    let i := o / 4
    let x := if i % 4 = 3 then v &&& 1 else if i % 4 = 0 then v &&& 0xFFFFFFFC else v
    sendPending (uFn s fn (fun f => { f with msix := Tab.set (msixDefault i) f.msix i x })) fn
  else s

/-- A write to the registers of a context (R248 to R252, R283, R315, R341, R363, R391, R440): selectors and SAT bits. -/
def ctxRegWrite (s : State) (fn n page o : Nat) (v : BitVec 32) : State :=
  let sel := vf v 16 0
  match page with
  | 0x08 =>
    if o != 0 then s
    else if (gQueue s sel).ctx != some n then setAcc s fn eDenied
    else uCtx s n (fun c => { c with bqSel := BitVec.ofNat 17 sel })
  | 0x09 => if o = 0x10 then uCtx s n (fun c => { c with be := { c.be with sat := c.be.sat &&& ~~~(BitVec.ofNat 2 v.toNat) } }) else s
  | 0x0A =>
    if o = 0x00 then uCtx s n (fun c => { c with weirSel := BitVec.ofNat 4 v.toNat })
    else if o = 0x04 then weirReg s fn n false v
    else if o = 0x08 then weirReg s fn n true v
    else if o = 0x14 then uCtx s n (fun c => { c with weirSat := c.weirSat && !v.getLsbD 0 })
    else s
  | 0x0B => if o = 0x0C then uCtx s n (fun c => { c with tp := { c.tp with sat := c.tp.sat && !v.getLsbD 0 } }) else s
  | 0x0C => if o = 0x10 then uCtx s n (fun c => { c with fl := { c.fl with sat := c.fl.sat && !v.getLsbD 0 } }) else s
  | 0x0D =>
    if o = 0x00 then uCtx s n (fun c => { c with tuSel := BitVec.ofNat 12 v.toNat })
    else if o = 0x04 && (gCtx s n).tuSel.toNat < (manOf s n).ntables then
      uCtx s n (fun c => { c with tu := Tab.modify {} c.tu c.tuSel.toNat (fun t => { t with sat := t.sat &&& ~~~(BitVec.ofNat 6 (vf v 13 8)) }) })
    else s
  | 0x0E => if o = 0x24 then uCtx s n (fun c => { c with fx := { c.fx with sat := c.fx.sat &&& ~~~(BitVec.ofNat 3 v.toNat) } }) else s
  | 0x0F => if o = 0x1C then uCtx s n (fun c => { c with amu := { c.amu with sat := c.amu.sat &&& ~~~(BitVec.ofNat 3 v.toNat) } }) else s
  | 0x10 => if o = 0x1C then uCtx s n (fun c => { c with ou := { c.ou with sat := c.ou.sat &&& ~~~(BitVec.ofNat 3 v.toNat) } }) else s
  | 0x11 =>
    if o = 0x14 then uCtx s n (fun c => { c with da := { c.da with sat := c.da.sat &&& ~~~(BitVec.ofNat 2 v.toNat) } })
    else if o = 0x18 then uCtx s n (fun c => { c with da := { c.da with sel := BitVec.ofNat 6 v.toNat } })
    else s
  | 0x12 => if o = 0x2C then uCtx s n (fun c => { c with cd := { c.cd with sat := c.cd.sat &&& ~~~(BitVec.ofNat 4 v.toNat) } }) else s
  | 0x13 => if o = 0x18 then uCtx s n (fun c => { c with lw := { c.lw with sat := c.lw.sat &&& ~~~(BitVec.ofNat 2 v.toNat) } }) else s
  | _ => s

/-- Whether a function may write at an offset: 0, or the code of the refusal (R57, R447, R450, R452). -/
def writeCode (s : State) (fn off : Nat) : Code :=
  let o := off % 4096
  let only (b : Bool) : Code := if b then 0 else eDenied
  let page := off / 4096
  if page = 0x00 then only (if 0x800 ≤ o then fn == 0 else o / 0x20 == fn)
  else if page = 0x01 || page = 0x15 || page = 0xFF then 0
  else if page = 0x02 then only (owns s fn (o / 0x40))
  else if page = 0x03 || page = 0x04 || page = 0x07 then only (fn == 0)
  else if page = 0x05 then only (o / 0x10 == fn || 0x400 ≤ o)
  else if page = 0x06 then only (mmuReach s fn (o / 0x40))
  else if 0x08 ≤ page && page ≤ 0x12 then only (owns s fn (o / 0x40))
  else if page = 0x13 then (if o < 0x300 then only (fn == 0) else if o < 0x800 then 0 else only (owns s fn ((o - 0x800) / 0x20)))
  else if page = 0x14 then only (if 0x800 ≤ o then fn == 0 else owns s fn (o / 0x20))
  else if page = 0x16 then only (if o < 0x40 then fn == 0 else owns s fn (o / 0x40))
  else if page = 0x17 then only (fn == 0 && isMaster s)
  else eRange

/-- A write that may take effect. -/
def regWrite (s : State) (fn off : Nat) (v : BitVec 32) : State :=
  let o := off % 4096
  let page := off / 4096
  let n := o / 0x40
  if page = 0x00 then (if 0x800 ≤ o then hiSysWrite o v s else uFn s fn (hiFnWrite (o % 0x20) v))
  else if page = 0x02 then (if o % 0x40 = 4 then splitMaxReg fn n v s else s)
  else if page = 0x03 then updRegWrite o v s
  else if page = 0x04 then pmWrite o v s
  else if page = 0x05 then (if o < 0x400 then uFn s fn (bwWrite (o % 0x10) v) else s)
  else if page = 0x06 then mmuWrite s fn n (o % 0x40) v
  else if page = 0x13 then
    (if o < 0x300 then (if o % 0x40 = 0x2C then uPort s n (fun p => { p with sat := p.sat &&& ~~~(BitVec.ofNat 3 v.toNat) }) else s)
    else if o < 0x800 then s
    else ctxRegWrite s fn ((o - 0x800) / 0x20) 0x13 (o % 0x20) v)
  else if page = 0x16 then (if o < 0x40 then s else tjWrite s fn n (o % 0x40) v)
  else if page = 0x17 then rotWrite o v s
  else if page = 0xFF then msixWrite s fn o v
  else ctxRegWrite s fn n page (o % 0x40) v

/-- The _HI registers that software writes: ring bases, CX_CHG, the burst window's address, the blob's host address, the trace buffer and
mask, and the rotation's pound. -/
def hiWritable (off : Nat) : Bool :=
  let o := off % 4096
  match off / 4096 with
  | 0x00 => if o < 0x800 then o % 0x20 == 0x04 || o % 0x20 == 0x0C else o == 0x81C
  | 0x05 => o % 0x10 == 0x04
  | 0x06 => o % 0x40 == 0x14
  | 0x16 => o % 0x40 == 0x08 || o % 0x40 == 0x14
  | 0x17 => o == 0x80C
  | _ => false

/-- A 4-byte write of BAR0: checked, trapped to the lock keeper, applied or refused. A write to a _HI register that software
writes takes its place in the latch of the function. -/
def bar0Write (s : State) (fn off : Nat) (v : BitVec 32) : State :=
  if s.boot.phase == .offline then setAcc s fn eUnitLost
  else if s.boot.phase == .recovery && !recoveryOff off then setAcc s fn 0
  else
    let c := writeCode s fn off
    if c != 0 then setAcc s fn c
    else
      let s := uFn (setAcc s fn 0) fn (fun f => if hiWritable off then { f with latch := Tab.set 0 f.latch (off - 4) 0 } else f)
      regWrite s fn off v

/-- REGISTER_WRITE (R444, R447, R477). -/
def execRegisterWrite (fn : Fin 64) (t : Bool) (off : BitVec 20) (len : Nat) (v : Word) (s : State) : Ans :=
  let f := fn.val
  let o := off.toNat
  if !barOpen s f || s.boot.lkcFailed then .next s
  else if !tOk s f t then .next (notT s f false)
  else if (ctxOf s f).isNone then .next s
  else if o % 4 != 0 || !(len = 4 || len = 8) then .next (setAcc s f eRange)
  else
    let s := bar0Write s f o (BitVec.ofNat 32 v.toNat)
    .next (if len = 8 then bar0Write s f (o + 4) (BitVec.ofNat 32 (v.toNat / 2 ^ 32)) else s)

/-- BAR0_TIMEOUT (R451). -/
def execBar0Timeout (fn : Fin 64) (write : Bool) (s : State) : Ans :=
  if !barOpen s fn.val then .next s
  else
    let s := { setAcc s fn.val eTmoBar0 with hi := { s.hi with tmoBar0 := bump16 s.hi.tmoBar0 1 } }
    .next (if write then s else emit s (.readData fn.val 0 0xFFFFFFFF))

/-- WEIR_WRITE (R223, R250). -/
def execWeirWrite (fn : Fin 64) (ctx : Fin 64) (burst : Bool) (v : BitVec 32) (s : State) : Ans :=
  .next (barWrite s fn.val (owns s fn.val ctx.val) (fun s => weirReg (setAcc s fn.val 0) fn.val ctx.val burst v))

/-- TRACE_CONFIG_WRITE (R562). -/
def execTraceConfigWrite (fn : Fin 64) (ctx : Fin 64) (off : BitVec 6) (v : BitVec 32) (s : State) : Ans :=
  let n := ctx.val
  .next (barWrite s fn.val (n != 0 && owns s fn.val n) (fun s => tjWrite (setAcc s fn.val 0) fn.val n (off.toNat / 4 * 4) v))

end Sys2Proof.Machine
end

