-- ==== Sys2Proof/Machine/Spdm.lean ====
section
/-! DEFINITION. The security core as SPDM responder (spec/15 R485 to R490, R510 to R512): the requests of R485, the job manifest
and its checks (R491 to R496), debug unlock. Byte layouts of SPDM messages are DSP0274's. -/

namespace Sys2Proof.Machine

/-! ## Answers -/

/-- The security core answers SPDM requests: the host reaches DOE and the SEC has not failed (R473, R579). -/
def secAnswers (s : State) : Bool := answersHost s && !s.boot.secFailed

/-- An SPDM response: version 1.3, its code, two parameters, its body. -/
def spdmMsg (code p1 p2 : Byte) (body : Bytes) : Bytes := [0x13, code, p1, p2] ++ body

/-- An SPDM ERROR response. -/
def spdmError (s : State) (e : Byte) : State := emit s (.spdm (spdmMsg 0x7F e 0 []))

def errInvalid : Byte := 0x01
def errSession : Byte := 0x02
def errSpdmBusy : Byte := 0x03
def errUnexpected : Byte := 0x04
def errDecrypt : Byte := 0x06

/-- A request meets the security core; one that needs a stage of the negotiation is unexpected before it. -/
def spdmReq (s : State) (stage : Nat) (f : State → State) : State :=
  if !secAnswers s then s else if s.sec.negotiated < stage then spdmError s errUnexpected else f s

def uSec (s : State) (f : Sec → Sec) : State := { s with sec := f s.sec }

/-- The session with an identifier. -/
def sessOf (s : State) (i : Nat) : Option Session := s.sec.sessions.find? (fun x => x.id == i)

/-- An open session. -/
def sessReady (s : State) (i : Nat) : Bool := s.sec.sessions.any (fun x => x.id == i && x.ready)

/-- A request inside a session, when one is named. -/
def inSession (s : State) (sess : Option Nat) (f : State → State) : State :=
  match sess with
  | none => f s
  | some i => if sessReady s i then f s else spdmError s errSession

/-- A fresh open field of a response, `n` bytes. -/
def openBytes (s : State) (n : Nat) : Bytes × State :=
  let (k, s) := freshFree s
  (slice (Config.spdmOpen k n) 0 n, s)

/-- A signature by the Alias key over a message. -/
def aliasSig (s : State) (m : Bytes) : Bytes × State :=
  let (k, s) := freshFree s
  (slice (Config.aliasSign s.sec.cdi k m) 0 96, s)

/-- The certificate chain of slot 0 (R484). -/
def certChain (s : State) : Bytes := Config.rootChain ++ s.otp.deviceCert ++ s.sec.cert

/-! ## Connection (R485) -/

/-- DOE_DISCOVERY (R473): PCI-SIG Discovery, CMA/SPDM and Secured CMA/SPDM. -/
def execDoeDiscovery (index : Byte) (s : State) : Ans :=
  if !secAnswers s then .next s
  else
    let i := index.toNat
    .next (emit s (.doe (if i ≤ 2 then [0x01, 0x00, index, if i < 2 then index + 1 else 0] else [0xFF, 0xFF, 0, 0])))

/-- GET_VERSION: SPDM 1.3; a new connection begins. -/
def execGetVersion (req : Bytes) (s : State) : Ans :=
  .next (spdmReq s 0 (fun s =>
    let r : Bytes := [0x10, 0x04, 0, 0, 0, 1, 0x00, 0x13]
    emit (uSec s (fun x => { x with negotiated := 1, trans := req ++ r })) (.spdm r)))

/-- The capability flags of R485: certificates, challenge, signed and fresh measurements, encryption, key exchange, heartbeat, key
update; no pre-shared key, mutual authentication or chunking. -/
def spdmFlags : Nat := 0x62F6

/-- GET_CAPABILITIES. -/
def execGetCapabilities (req : Bytes) (s : State) : Ans :=
  .next (spdmReq s 1 (fun s =>
    let (a, s) := openBytes s 1
    let (b, s) := openBytes s 8
    let r := spdmMsg 0x61 0 0 ([0] ++ a ++ [0, 0] ++ leBytes spdmFlags 4 ++ b)
    emit (uSec s (fun x => { x with negotiated := max 2 x.negotiated, trans := x.trans ++ req ++ r })) (.spdm r)))

/-- NEGOTIATE_ALGORITHMS: ECDSA P-384, SHA-384, secp384r1, AES-256-GCM, SHA-384 measurements. -/
def execNegotiateAlgorithms (req : Bytes) (s : State) : Ans :=
  .next (spdmReq s 2 (fun s =>
    let r := spdmMsg 0x63 3 0 (leBytes 48 2 ++ [1, 2] ++ leBytes 4 4 ++ leBytes 0x80 4 ++ leBytes 2 4 ++ List.replicate 16 0 ++
      [2, 0x20, 0x10, 0, 3, 0x20, 2, 0, 5, 0x20, 1, 0])
    emit (uSec s (fun x => { x with negotiated := max 3 x.negotiated, trans := x.trans ++ req ++ r })) (.spdm r)))

/-- GET_DIGESTS: slot 0 only. -/
def execGetDigests (sess : Option Nat) (s : State) : Ans :=
  .next (spdmReq s 3 (fun s => inSession s sess (fun s => emit s (.spdm (spdmMsg 0x01 1 1 (sha384 (certChain s)))))))

/-- GET_CERTIFICATE (R484): a portion of the chain of slot 0. -/
def execGetCertificate (slot : Byte) (off len : BitVec 16) (s : State) : Ans :=
  .next (spdmReq s 3 (fun s =>
    let c := certChain s
    if slot != 0 || c.length < off.toNat then spdmError s errInvalid
    else
      let n := min len.toNat (c.length - off.toNat)
      emit s (.spdm (spdmMsg 0x02 slot 0 (leBytes n 2 ++ leBytes (c.length - off.toNat - n) 2 ++ slice c off.toNat n)))))

/-- CHALLENGE: signed with the Alias key. -/
def execChallenge (slot : Byte) (nonce : Bytes) (s : State) : Ans :=
  .next (spdmReq s 3 (fun s =>
    if slot != 0 then spdmError s errInvalid
    else
      let (rnd, s) := randomBytes s 32
      let (sum, s) := openBytes s 48
      let body := sha384 (certChain s) ++ rnd ++ sum ++ [0, 0] ++ List.replicate 8 0
      let (sig, s) := aliasSig s (s.sec.trans ++ slice nonce 0 32 ++ spdmMsg 0x03 0 1 body)
      emit s (.spdm (spdmMsg 0x03 0 1 (body ++ sig)))))

/-! ## Measurements (R487) -/

/-- The DMTF value type of a measurement: [7] raw, [6:0] its kind. -/
def measType (i : Nat) : Byte := if i = 1 then 0x00 else if i ≤ 5 then 0x01 else if i = 6 then 0x03 else 0x83

/-- The block of one measurement. -/
def measBlock (s : State) (i : Nat) : Bytes :=
  match measure s i with
  | none => []
  | some v => [BitVec.ofNat 8 i, 1] ++ leBytes (v.length + 3) 2 ++ [measType i] ++ leBytes v.length 2 ++ v

/-- The indices that R487 lists. -/
def measIndices : List Nat := rangeFrom 1 8 ++ rangeFrom 0x41 63

/-- GET_MEASUREMENTS: index 0 asks for their number, 0xFF for all of them. -/
def execGetMeasurements (sess : Option Nat) (index : Byte) (sign : Bool) (nonce : Bytes) (s : State) : Ans :=
  .next (spdmReq s 3 (fun s => inSession s sess (fun s =>
    let i := index.toNat
    let l := if i = 0 then [] else if i = 0xFF then measIndices else [i]
    if i != 0 && i != 0xFF && !measIndices.contains i then spdmError s errInvalid
    else
      let recs := l.flatMap (measBlock s)
      let (rnd, s) := randomBytes s 32
      let body := leBytes l.length 1 ++ leBytes recs.length 3 ++ recs ++ rnd ++ [0, 0] ++ List.replicate 8 0
      let p1 : Byte := if i = 0 then BitVec.ofNat 8 measIndices.length else 0
      let (sig, s) := if sign then aliasSig s (s.sec.trans ++ slice nonce 0 32 ++ spdmMsg 0x60 p1 0 body) else ([], s)
      emit s (.spdm (spdmMsg 0x60 p1 0 (body ++ sig))))))

/-! ## Sessions (R486) -/

/-- KEY_EXCHANGE: a ninth session is answered Busy. -/
def execKeyExchange (share : Bytes) (s : State) : Ans :=
  .next (spdmReq s 3 (fun s =>
    if 8 ≤ s.sec.sessions.length then spdmError s errSpdmBusy
    else
      let id := s.sec.nextSess
      let (k, s) := freshFree s
      let (rnd, s) := randomBytes s 32
      let body := leBytes id 2 ++ [0, 0] ++ rnd ++ Config.ownShare k ++ [0, 0]
      let (sig, s) := aliasSig s (s.sec.trans ++ share ++ spdmMsg 0x64 0 0 body)
      let trans := s.sec.trans ++ share ++ spdmMsg 0x64 0 0 (body ++ sig)
      let key := hkdfExpand (hkdfExtract [] (Config.sharedSecret k share)) trans 32
      let s := uSec s (fun x => { x with sessions := x.sessions ++ [{ id := id, ready := false, key := key, trans := trans }], nextSess := id + 1 })
      emit s (.spdm (spdmMsg 0x64 0 0 (body ++ sig ++ hmac384 key trans)))))

/-- What FINISH must carry. -/
def finishMac (x : Session) : Bytes := hmac384 x.key (sha384 x.trans)

/-- FINISH: the handshake ends; a MAC that fails ends the session. -/
def execFinish (sess : Nat) (verify : Bytes) (s : State) : Ans :=
  .next (spdmReq s 3 (fun s =>
    match sessOf s sess with
    | none => spdmError s errSession
    | some x =>
      if x.ready then spdmError s errUnexpected
      else if verify != finishMac x then spdmError (uSec s (fun y => { y with sessions := y.sessions.filter (fun z => z.id != sess) })) errDecrypt
      else emit (uSec s (fun y => { y with sessions := y.sessions.map (fun z => if z.id = sess then { z with ready := true } else z) })) (.spdm (spdmMsg 0x65 0 0 []))))

/-- HEARTBEAT. -/
def execHeartbeat (sess : Nat) (s : State) : Ans :=
  .next (spdmReq s 3 (fun s => inSession s (some sess) (fun s => emit s (.spdm (spdmMsg 0x68 0 0 [])))))

/-- The next key of a session: "spdm1.3 traffic upd". -/
def nextKey (k : Bytes) : Bytes :=
  hkdfExpand k ([0x73, 0x70, 0x64, 0x6D, 0x31, 0x2E, 0x33, 0x20, 0x74, 0x72, 0x61, 0x66, 0x66, 0x69, 0x63, 0x20, 0x75, 0x70, 0x64]) 32

/-- KEY_UPDATE. -/
def execKeyUpdate (sess : Nat) (s : State) : Ans :=
  .next (spdmReq s 3 (fun s => inSession s (some sess) (fun s =>
    emit (uSec s (fun y => { y with sessions := y.sessions.map (fun z => if z.id = sess then { z with key := nextKey z.key } else z) })) (.spdm (spdmMsg 0x69 1 0 [])))))

/-- END_SESSION. -/
def execEndSession (sess : Nat) (s : State) : Ans :=
  .next (spdmReq s 3 (fun s => inSession s (some sess) (fun s =>
    emit (uSec s (fun y => { y with sessions := y.sessions.filter (fun z => z.id != sess) })) (.spdm (spdmMsg 0x6C 0 0 [])))))

/-- A vendor-defined response (R489): StandardID PCI-SIG, the vendor ID, the payload. -/
def vendorAns (s : State) (p : Bytes) : State :=
  emit s (.spdm (spdmMsg 0x7E 0 0 ([3, 0, 2] ++ leBytes s.cfg.vid.toNat 2 ++ leBytes p.length 2 ++ p)))

/-! ## The manifest (R491 to R496) -/

/-- The fields of the header with a range, and its reserved bytes (R491). -/
def manHeadOk (b : Bytes) : Bool :=
  wordAt b 0 == 0x314E414D38325844 && numAt b 8 2 == 1 && zeroIn b 0x0A 0x0C &&
  numAt b 0x0C 4 == b.length && b.length % 64 == 0 && decide (b.length ≤ 2 ^ 20) &&
  inR 0 63 (byteAt b 0x20) && inR 1 48 (byteAt b 0x21) && inR 0 16 (byteAt b 0x22) && inR 0 16 (byteAt b 0x23) && inR 0 8 (byteAt b 0x24) &&
  decide (byteAt b 0x26 < 4) && decide (byteAt b 0x27 < 16) && inR 6 16 (byteAt b 0x28) && zeroIn b 0x29 0x2C &&
  inR 0 4096 (numAt b 0x2C 2) && inR 1 4096 (numAt b 0x2E 2) &&
  [0x30, 0x38, 0x40].all (fun o => decide (numAt b o 8 < 2 ^ 48)) && numAt b 0x30 8 % 64 == 0 && numAt b 0x40 8 % 2 ^ 29 == 0 &&
  inR 0 4096 (numAt b 0x48 4) && inR 1 16 (byteAt b 0x4C) && zeroIn b 0x4D 0x80 && zeroIn b 0x94 0xA0 && zeroIn b 0x101 0x200

/-- The sections: offset and bytes, in the order of R491. -/
def manSections (b : Bytes) : List (Nat × Nat) :=
  let cl := byteAt b 0x21
  [(numAt b 0x80 4, 576 * cl), (numAt b 0x84 4, 4 * numAt b 0x2E 2 * cl), (numAt b 0x88 4, 16 * numAt b 0x48 4),
   (numAt b 0x8C 4, 16 * byteAt b 0x4C), (numAt b 0x90 4, 16 * byteAt b 0x22)]

/-- Sections start at multiples of 64, are padded with zeros, lie in order and before the signature block (R492). -/
def sectionsOk (b : Bytes) : Nat → List (Nat × Nat) → Bool
  | at_, [] => decide (at_ ≤ b.length - 128) && zeroIn b (b.length - 32) b.length
  | at_, (o, n) :: r =>
    let e := o + ceilDiv n 64 * 64
    o % 64 == 0 && decide (at_ ≤ o) && decide (e ≤ b.length) && zeroIn b (o + n) e && sectionsOk b e r

/-- A basin record (R493). -/
def basinOf (w0 w1 : Word) : Basin :=
  { base := 4096 * fld w0 10 0, size := 4096 * fld w0 23 12, liveOff := 4096 * fld w0 34 24, liveLen := 4096 * fld w0 47 36, va := place (fld w1 47 0) 47 0 }

/-- The record of cluster `c`. -/
def clRecOf (b : Bytes) (c : Nat) : ClRec :=
  let o := numAt b 0x80 4 + 576 * c
  let w := wordAt b o
  { amuLive := bitOf w 8, basins := (List.range (fld w 5 0)).map (fun i => basinOf (wordAt b (o + 64 + 16 * i)) (wordAt b (o + 72 + 16 * i))) }

/-- A cluster record keeps R175 and R493, but for the pages that basins share. -/
def clRecOk (b : Bytes) (c : Nat) : Bool :=
  let o := numAt b 0x80 4 + 576 * c
  let w := wordAt b o
  let r := clRecOf b c
  onlyBits w 0x13F && decide (fld w 5 0 ≤ 32) && zeroIn b (o + 8) (o + 64) && zeroIn b (o + 64 + 16 * fld w 5 0) (o + 576) &&
  (List.range (fld w 5 0)).all (fun i => onlyBits (wordAt b (o + 64 + 16 * i)) (msk 10 0 ||| msk 23 12 ||| msk 34 24 ||| msk 47 36) && onlyBits (wordAt b (o + 72 + 16 * i)) (msk 47 0)) &&
  r.basins.all (fun x => inR 4096 0x800000 x.size && decide (x.base + x.size ≤ 0x800000) && (x.liveLen == 0 || decide (x.liveOff + x.liveLen ≤ x.size)) &&
    x.va.toNat % 65536 == x.base % 65536 && decide (x.va.toNat + x.size ≤ 2 ^ 48)) &&
  (r.basins.zip (List.range 32)).all (fun (x, i) => (r.basins.zip (List.range 32)).all (fun (y, j) => i == j || decide (x.base + x.size ≤ y.base) || decide (y.base + y.size ≤ x.base)))

/-- Two ranges touch one 64 KiB page. -/
def pagesMeet (a n b m : Nat) : Bool := decide (a / 65536 ≤ (b + m - 1) / 65536) && decide (b / 65536 ≤ (a + n - 1) / 65536)

/-- The page rules of R175 for basins and pins. -/
def basinPagesOk (m : Manifest) : Bool :=
  let all : List (Nat × Basin) := (m.cls.zip (List.range 48)).flatMap (fun (r, c) => r.basins.map (fun x => (c, x)))
  all.all (fun (c, x) =>
    m.pins.all (fun (a, n) => n == 0 || !pagesMeet x.va.toNat x.size a.toNat n.toNat) &&
    all.all (fun (d, y) => !pagesMeet x.va.toNat x.size y.va.toNat y.size || (c == d && x.va.toNat + y.base == y.va.toNat + x.base)))

/-- A queue configuration record (R211). -/
def queueRecOk (expert : Bool) (clusters : Nat) (w0 w1 : Word) : Bool :=
  let q := fld w0 16 0
  onlyBits w0 (msk 59 55 ||| msk 52 22 ||| msk 16 0) && onlyBits w1 (msk 63 56 ||| msk 47 0) && inR 1 1024 (fld w0 52 42) && decide (fld w0 41 38 ≤ 8) &&
  inR 1 65535 (fld w0 37 22) && (if expert then decide (1 ≤ fld w1 63 56) else fld w1 63 56 == 1) && (!bitOf w0 55 || fld w1 47 0 == 0) &&
  (decide (98304 ≤ q) || decide (q / 2048 < clusters))

/-- The manifest as the SEC keeps it. -/
def manOfBytes (b : Bytes) : Manifest :=
  let cl := byteAt b 0x21
  let recs (off n : Nat) : List (Word × Word) := (List.range n).map (fun i => (wordAt b (off + 16 * i), wordAt b (off + 16 * i + 8)))
  let stepOff := numAt b 0x84 4
  { jobId := slice b 0x10 16, ctx := byteAt b 0x20, clusters := cl, harts := byteAt b 0x22, fastMax := byteAt b 0x23, deepMax := byteAt b 0x24
    secTol := byteAt b 0x25, consent := (slice b 0x26 1).headD 0, permit := (slice b 0x27 1).headD 0, fltLog2 := byteAt b 0x28
    ntables := numAt b 0x2C 2, nstep := numAt b 0x2E 2, fltVa := wordAt b 0x30, tdirVa := wordAt b 0x38, saveVa := wordAt b 0x40
    cls := (List.range cl).map (clRecOf b)
    steps := (List.range (numAt b 0x2E 2)).map (fun t => (List.range cl).map (fun c => BitVec.ofNat 32 (numAt b (stepOff + 4 * (t * cl + c)) 4)))
    queues := recs (numAt b 0x88 4) (numAt b 0x48 4), pins := recs (numAt b 0x8C 4) (byteAt b 0x4C)
    hartPcs := (recs (numAt b 0x90 4) (byteAt b 0x22)).map (·.1), digest := sha384 b }

/-- A range lies inside one pinned range of a manifest. -/
def pinHolds (m : Manifest) (va n : Nat) : Bool := m.pins.any (fun (a, l) => decide (a.toNat ≤ va) && decide (va + n ≤ a.toNat + l.toNat))

/-- Every segment header lies inside one basin of its cluster (R494, R496). -/
def stepsOk (m : Manifest) : Bool :=
  m.steps.all (fun row => (row.zip m.cls).all (fun (e, r) => e == 0xFFFFFFFF || r.basins.any (fun x => decide (x.base ≤ e.toNat) && decide (e.toNat + 320 ≤ x.base + x.size))))

/-- The rules of R491 to R495 that R496 puts under E_RANGE. -/
def manRangeOk (s : State) (b : Bytes) : Bool :=
  manHeadOk b && sectionsOk b 0x200 (manSections b) && (List.range (byteAt b 0x21)).all (clRecOk b) &&
  (let m := manOfBytes b
    let hartOff := numAt b 0x90 4
    m.pins.all (fun (a, n) => a.toNat % 65536 == 0 && n.toNat % 65536 == 0 && n != 0 && decide (a.toNat + n.toNat ≤ 2 ^ 48)) &&
    (List.range m.harts).all (fun i => wordAt b (hartOff + 16 * i + 8) == 0) &&
    m.queues.all (fun (w0, w1) => queueRecOk (m.permit.getLsbD 0) m.clusters w0 w1) &&
    ((m.queues.map (fun q => fld q.1 16 0)).eraseDups.length == m.queues.length) &&
    basinPagesOk m && stepsOk m && m.cls.all (fun r => decide (liveBytes r ≤ s.cfg.liveMax)) &&
    pinHolds m m.saveVa.toNat (2 ^ 29) && pinHolds m m.fltVa.toNat (64 * 2 ^ m.fltLog2) &&
    (!m.permit.getLsbD 0 || s.cfg.expertEn)) &&
  s.boot.phase != .recovery && s.sec.mode == 0

/-- The job asks for more than is enabled and unfenced (R496, R532, R578). -/
def tooLarge (s : State) (m : Manifest) : Bool :=
  let lanes (lo n : Nat) : Nat := ((rangeFrom lo n).filter (fun l => !(gLane s l).fenced)).length
  (List.range m.clusters).any (fun c => Tab.get 0 s.fw.map c == 0) ||
  decide (((List.range 16).filter (fun h => !s.fw.hartFenced.getLsbD h)).length < m.harts) ||
  decide (lanes 0 16 < m.fastMax) || decide (lanes 16 8 < m.deepMax)

/-- The code of a SUBMIT of a manifest (R496, R579). -/
def submitCode (s : State) (b : Bytes) : Code :=
  if s.boot.phase == .offline then eUnitLost
  else if b.length < 640 || !ecdsaVerify (slice b 0xA0 97) (slice b (b.length - 128) 96) (b.take (b.length - 128)) then eIntegrity
  else if !manRangeOk s b then eRange
  else if tooLarge s (manOfBytes b) then eReshape
  else if 63 ≤ s.sec.pending.length then eBusy
  else 0

/-- The next handle from `h` on that no pending and no bound manifest has (R490). -/
def freeHandle (s : State) : Nat → BitVec 16 → BitVec 16
  | 0, h => h
  | k + 1, h =>
    if h = 0 || s.sec.pending.any (fun p => p.handle == h) || s.ctxs.any (fun e => e.2.bind.man.isSome && e.2.bind.handle == h) then freeHandle s k (h + 1) else h

/-- SUBMIT (R490, R496). -/
def execSubmit (sess : Nat) (payload : Bytes) (s : State) : Ans :=
  .next (spdmReq s 3 (fun s => inSession s (some sess) (fun s =>
    let b := payload.drop 32
    let c := submitCode s b
    if c != 0 then vendorAns s [c, 0, 0]
    else
      let h := freeHandle s 200 s.sec.nextHandle
      let p : PendingMan := { handle := h, sess := sess, man := manOfBytes b, jobKey := slice payload 0 32 }
      vendorAns (uSec s (fun x => { x with pending := x.pending ++ [p], nextHandle := h + 1 })) ([0] ++ leBytes h.toNat 2))))

/-- WITHDRAW (R490): by the session that submitted it. -/
def execWithdraw (sess : Nat) (handle : BitVec 16) (s : State) : Ans :=
  .next (spdmReq s 3 (fun s => inSession s (some sess) (fun s =>
    if s.sec.pending.any (fun p => p.handle == handle && p.sess == sess) then
      vendorAns (uSec s (fun x => { x with pending := x.pending.filter (fun p => p.handle != handle) })) [0]
    else vendorAns s [eDenied])))

/-- MANIFEST_EXPIRY (R490, R525): a BIND in progress that names it loses. -/
def execManifestExpiry (handle : BitVec 16) (s : State) : Ans :=
  if !s.sec.pending.any (fun p => p.handle == handle) || s.boot.secFailed then .next s
  else
    let s := uSec s (fun x => { x with pending := x.pending.filter (fun p => p.handle != handle) })
    .next (match s.hi.bindNext with
      | some (_, _, h) => if h = handle then collideRec s 2 6 else s
      | none => s)

/-! ## Debug unlock (R489, R510 to R512) -/

/-- UNLOCK_CHALLENGE. -/
def execUnlockChallenge (s : State) : Ans :=
  .next (spdmReq s 3 (fun s =>
    let (n, s) := randomBytes s 32
    vendorAns (uSec s (fun x => { x with nonce := some n })) n))

/-- A token passes every field of R510. -/
def tokenOk (s : State) (t : Bytes) : Bool :=
  t.length == 256 && wordAt t 0 == 0x314B4F5438325844 && decide (numAt t 8 4 < 4) && zeroIn t 0x0C 0x10 &&
  slice t 0x10 48 == s.otp.deviceIdHash && s.sec.nonce == some (slice t 0x40 32) && zeroIn t 0xC0 0x100 &&
  sha384 Config.debugKey == s.otp.debugHash && ecdsaVerify Config.debugKey (slice t 0x60 96) (t.take 0x60)

/-- The internal reset of a debug unlock (R511): contexts, keys and the reach go; the ROM boots with MODE 2. Logical numbers stay as they
are until PERST_N (R532). -/
def debugReset (s : State) (scope : BitVec 32) : State :=
  let fw := s.fw
  let s := internalReset s
  let s := startBoot { s with sec := { s.sec with debugBit := true, scope := scope } } 2 fw.fenced
  if fw.map.isEmpty then s else { s with fw := { s.fw with map := fw.map } }

/-- UNLOCK. -/
def execUnlock (token : Bytes) (s : State) : Ans :=
  .next (spdmReq s 3 (fun s =>
    if s.boot.phase = .offline then vendorAns s [eUnitLost]
    else
      let ok := tokenOk s token
      let s := uSec s (fun x => { x with nonce := none })
      if ok then debugReset (vendorAns s [0]) (BitVec.ofNat 32 (numAt token 8 4)) else vendorAns s [eDenied]))

end Sys2Proof.Machine
end

