-- ==== Sys2Proof/Machine/Mgmt.lean ====
section
/-! DEFINITION. Management and test (spec/19 R586 to R589): the SMBus status block, MCTP and PLDM, boundary scan; PCIe configuration
requests (spec/03 R75, spec/14 R442, R443). Byte layouts of MCTP and PLDM messages are DSP0236's, DSP0240's and DSP0248's. -/

namespace Sys2Proof.Machine

/-! ## SMBus (R586, R587) -/

/-- The management pins answer: ready or offline, recovery included, whose bit the status block has. -/
def pinsAnswer (s : State) : Bool := answersHost s

/-- The status block of R587. -/
def statusBlock (s : State) : Bytes :=
  let b0 := b2n (s.boot.phase == .ready) + 2 * b2n (s.pm.st == 1) + 4 * b2n (s.pm.st == 2) + 8 * b2n (s.gov.throttled != 0) +
    16 * b2n s.gov.brake + 32 * b2n s.gov.warn + 64 * b2n (s.boot.phase == .offline) + 128 * b2n (s.boot.phase == .recovery)
  [BitVec.ofNat 8 b0, s.gov.tj, BitVec.ofNat 8 (hbmMax s)] ++ leBytes s.gov.cardW.toNat 2 ++
  [BitVec.ofNat 8 (clkNow s.gov / 10), BitVec.ofNat 8 (tileClusters s 0 + tileClusters s 1), 0]

/-- One byte of the SMBus packet error code, polynomial x^8 + x^2 + x + 1. -/
def pecByte (c : Nat) (b : Byte) : Nat :=
  (List.range 8).foldl (fun c _ => if c < 128 then c * 2 else (c * 2 ^^^ 0x107) % 256) (c ^^^ b.toNat)

/-- A Block Read as the target answers it: byte count, data, PEC over the whole transaction at address 0x5C. -/
def blockReadBytes (cmd : Byte) (d : Bytes) : Bytes :=
  let n : Byte := BitVec.ofNat 8 d.length
  n :: d ++ [BitVec.ofNat 8 (([0xB8, cmd, 0xB9, n] ++ d).foldl pecByte 0)]

/-- SMBUS_BLOCK_READ: command code 0x00 alone; the read releases SMB_ALERT_N. -/
def execSmbusBlockRead (command : Byte) (s : State) : Ans :=
  if !pinsAnswer s || command != 0 then .next s
  else
    let s := emit s (.smbus (blockReadBytes command (statusBlock s)))
    .next (if s.wake.smbAlert then emit (uWake s (fun w => { w with smbAlert := false })) (.level "SMB_ALERT_N" true) else s)

/-! ## MCTP and PLDM (R588) -/

/-- An MCTP message that answers. -/
def mctpAns (s : State) (d : Bytes) : Ans := if pinsAnswer s then .next (emit s (.mctp d)) else .next s

/-- MCTP_CONTROL: Set and Get Endpoint ID, Get Version Support, Get Message Type Support. -/
def execMctpControl (req : Bytes) (s : State) : Ans :=
  let cmd := byteAt req 2
  let head : Bytes := [0, BitVec.ofNat 8 (byteAt req 1 % 32), BitVec.ofNat 8 cmd]
  if !pinsAnswer s then .next s
  else if cmd = 1 then
    let e := BitVec.ofNat 8 (byteAt req 4)
    .next (emit { s with mgmt := { s.mgmt with eid := e } } (.mctp (head ++ [0, 0, e, 0])))
  else if cmd = 2 then .next (emit s (.mctp (head ++ [0, s.mgmt.eid, 0, 0])))
  else if cmd = 4 then .next (emit s (.mctp (head ++ [0, 1] ++ slice (Config.pldmVersion 256) 0 4)))
  else if cmd = 5 then .next (emit s (.mctp (head ++ [0, 1, 1])))
  else .next (emit s (.mctp (head ++ [5])))

/-- GET_TID. -/
def execGetTid (s : State) : Ans := mctpAns s [0, s.mgmt.tid]

/-- SET_TID: 0x00 and 0xFF are no terminus identifiers. -/
def execSetTid (tid : Byte) (s : State) : Ans :=
  if tid = 0 || tid = 0xFF then mctpAns s [2]
  else if pinsAnswer s then mctpAns { s with mgmt := { s.mgmt with tid := tid } } [0]
  else .next s

/-- GET_PLDM_VERSION: of types 0 and 2. -/
def execGetPldmVersion (type : Byte) (s : State) : Ans :=
  if type = 0 || type = 2 then
    let v := slice (Config.pldmVersion type.toNat) 0 4
    mctpAns s ([0, 0, 0, 0, 0, 5] ++ v ++ leBytes (crc32 v) 4)
  else mctpAns s [0x83]

/-- GET_PLDM_TYPES: 0 and 2. -/
def execGetPldmTypes (s : State) : Ans := mctpAns s ([0, 5] ++ List.replicate 7 0)

/-- A bitmap of 256 commands. -/
def cmdBitmap (l : List Nat) : Bytes := leBytes (l.foldl (fun a i => a + 2 ^ i) 0) 32

/-- GET_PLDM_COMMANDS. -/
def execGetPldmCommands (type : Byte) (s : State) : Ans :=
  if type = 0 then mctpAns s (0 :: cmdBitmap [1, 2, 3, 4, 5])
  else if type = 2 then mctpAns s (0 :: cmdBitmap [0x11, 0x21, 0x50, 0x51])
  else mctpAns s [0x83]

/-- The numeric sensors 1 to 4 (bytes 1, 2, 3 and 4 together, 5 of R587), the state sensors 5 to 10. -/
def sensorCount : Nat := 10

/-- GET_PDR_REPOSITORY_INFO. -/
def execGetPdrRepositoryInfo (s : State) : Ans :=
  let sizes := (rangeFrom 1 sensorCount).map (fun i => (Config.pldmPdr i).length)
  mctpAns s ([0, 0] ++ List.replicate 26 0 ++ leBytes sensorCount 4 ++ leBytes (sizes.foldl (· + ·) 0) 4 ++ leBytes (sizes.foldl max 0) 4 ++ [0])

/-- GET_PDR: handle 0 is the first record. -/
def execGetPdr (handle : BitVec 32) (s : State) : Ans :=
  let h := max 1 handle.toNat
  if sensorCount < h then mctpAns s [0x82]
  else
    let d := Config.pldmPdr h
    mctpAns s (0 :: leBytes (if h = sensorCount then 0 else h + 1) 4 ++ [0, 0, 0, 0, 5] ++ leBytes d.length 2 ++ d)

/-- GET_SENSOR_READING. -/
def execGetSensorReading (sensor : BitVec 16) (s : State) : Ans :=
  let ans (size : Byte) (r : Bytes) : Ans := mctpAns s ([0, size, 0, 0, 0, 0, 0] ++ r)
  let b := statusBlock s
  if sensor = 1 then ans 0 (slice b 1 1)
  else if sensor = 2 then ans 0 (slice b 2 1)
  else if sensor = 3 then ans 2 (slice b 3 2)
  else if sensor = 4 then ans 0 (slice b 5 1)
  else mctpAns s [0x80]

/-- GET_STATE_SENSOR_READINGS: sensor 5 the power state, sensors 6 to 10 the GOV bits 0 to 4. -/
def execGetStateSensorReadings (sensor : BitVec 16) (s : State) : Ans :=
  let ans (v : Nat) : Ans := mctpAns s [0, 1, 0, BitVec.ofNat 8 v, 0, 0]
  let k := sensor.toNat
  if k = 5 then ans s.pm.st.toNat
  else if 6 ≤ k && k ≤ 10 then ans (govBits s.gov / 2 ^ (k - 6) % 2)
  else mctpAns s [0x80]

/-! ## JTAG (R589) -/

/-- The instruction of the test access port: 0 EXTEST, 1 SAMPLE/PRELOAD, 2 IDCODE, 3 CLAMP, 4 HIGHZ, 0xFF BYPASS. -/
def setIr (s : State) (i : Byte) : State := { s with mgmt := { s.mgmt with jtagIr := i } }

/-- The pins that the boundary-scan register covers: 20 sideband, 12 xSPI, 4 reference clock (R582, R589). -/
def scanPins : Nat := 36

/-- The captured pin values. -/
def scanCapture (s : State) : State :=
  let (k, s) := freshFree s
  emit s (.jtag ((List.range scanPins).map (Config.pinCapture k)))

/-- The test access port is powered with the main rails. -/
def jtagUp (s : State) (f : State → State) : Ans := if s.wake.mainUp then .next (f s) else .next s

/-- BYPASS: one bit through the bypass register, which captures 0. -/
def execJtagBypass (tdi : Bool) (s : State) : Ans :=
  jtagUp s (fun s =>
    let old := s.mgmt.bypass && s.mgmt.jtagIr == 0xFF
    emit { s with mgmt := { s.mgmt with jtagIr := 0xFF, bypass := tdi } } (.jtag [old]))

/-- IDCODE reads 0x12840A1D, least significant bit first. -/
def execJtagIdcode (s : State) : Ans :=
  jtagUp s (fun s => emit (setIr s 2) (.jtag ((List.range 32).map (fun i => (0x12840A1D : Nat).testBit i))))

/-- SAMPLE/PRELOAD. -/
def execJtagSamplePreload (preload : List Bool) (s : State) : Ans :=
  jtagUp s (fun s => scanCapture { s with mgmt := { s.mgmt with jtagIr := 1, preload := preload.take scanPins } })

/-- EXTEST: the preloaded values are driven on the pins. -/
def execJtagExtest (s : State) : Ans := jtagUp s (fun s => scanCapture (setIr s 0))
/-- CLAMP: the pins hold the preloaded values, the bypass register is selected. -/
def execJtagClamp (s : State) : Ans := jtagUp s (fun s => emit (setIr s 3) (.jtag [false]))
/-- HIGHZ: the pins float, the bypass register is selected. -/
def execJtagHighz (s : State) : Ans := jtagUp s (fun s => emit (setIr s 4) (.jtag [false]))

/-! ## PCIe configuration requests (R75, R442, R443) -/

/-- A function exists: the PF, and the first NumVFs VFs while VF Enable is set; in recovery the PF alone (R92). -/
def fnExists (s : State) (fn : Nat) : Bool :=
  fn == 0 || (s.boot.phase != .recovery && s.hi.vfEnable && decide (fn ≤ s.hi.numVfs))

/-- The identity of a function: vendor, device, subsystem vendor, subsystem, class (R443; R92 for recovery). -/
def pciIdentity (s : State) (fn : Nat) : Nat × Nat × Nat × Nat × Nat :=
  let c := s.cfg
  if s.boot.phase = .recovery then (fld s.otp.recoveryId 15 0, fld s.otp.recoveryId 31 16, 0, 0, fld s.otp.recoveryId 55 32)
  else (c.vid.toNat, if fn = 0 then c.did.toNat else c.vfDid.toNat, c.ssvid.toNat, c.ssid.toNat, c.pciClass.toNat)

/-- A word of configuration space; what the spec does not fix is open. -/
def cfgWord (s : State) (fn off : Nat) : BitVec 32 :=
  let f := gFn s fn
  let (v, d, sv, sd, cl) := pciIdentity s fn
  let rest := Config.pciConfig fn off
  if off = 0 then BitVec.ofNat 32 (d * 65536 + v)
  else if off = 4 then (rest &&& ~~~6) ||| BitVec.ofNat 32 (b2n f.memSpace * 2 + b2n f.bme * 4)
  else if off = 8 then (rest &&& 0xFF) ||| BitVec.ofNat 32 (cl * 256)
  else if 0x10 ≤ off && off < 0x28 then
    let a := (Tab.get 0 f.bars ((off - 0x10) / 8)).toNat
    BitVec.ofNat 32 (if off % 8 = 0 then a % 2 ^ 32 / 16 * 16 + 4 else a / 2 ^ 32)
  else if off = 0x2C then BitVec.ofNat 32 (sd * 65536 + sv)
  else rest

/-- A change of a function that a locked TDI does not allow (R475). -/
def cfgChange (s : State) (fn : Nat) (f : Fn → Fn) : State :=
  if f (gFn s fn) = gFn s fn then s
  else
    let s := uFn s fn f
    let s := if fn = 0 then s else tdChange s fn
    let s := sendPending s fn
    match ctxOf s fn with
    | some n => flushCq s n (gCtx s n).ring.cqes.length
    | none => s

/-- VF Enable and NumVFs of the PF (R443, R454). -/
def setVfEnable (s : State) (on : Bool) (n : Nat) : State :=
  if on then (if n ≤ s.cfg.numVf then { s with hi := { s.hi with vfEnable := true, numVfs := n } } else s)
  else
    let s := if s.hi.vfEnable then (rangeFrom 1 63).foldl (fun s v => endVf (uFn s v flrFn) v) s else s
    { s with hi := { s.hi with vfEnable := false, numVfs := 0 } }

/-- CONFIGURATION_REQUEST. -/
def execConfigurationRequest (fn : Fin 64) (r : CfgReq) (s : State) : Ans :=
  let f := fn.val
  if s.boot.phase = .booting then .next (emit s (.retryStatus f))
  else if !answersHost s then .next s
  else if !fnExists s f then .next (emit s (.unsupported f))
  else match r with
    | .read off => .next (emit s (.cfgData f (off.toNat / 4 * 4) (cfgWord s f (off.toNat / 4 * 4))))
    | .busMaster on => .next (cfgChange s f (fun x => { x with bme := on }))
    | .memSpace on => .next (cfgChange s f (fun x => { x with memSpace := on }))
    | .pmState d3hot => .next (uFn s f (fun x => { x with d3hot := d3hot }))
    | .vfEnable on n => .next (if f = 0 then setVfEnable s on n else s)
    | .msixControl enable mask => .next (cfgChange s f (fun x => { x with msixEn := enable, msixMask := mask }))
    | .bar index addr => .next (cfgChange s f (fun x => { x with bars := Tab.set 0 x.bars index.val addr }))

end Sys2Proof.Machine
end

