-- ==== Sys2Proof/Machine/Dispatch.lean ====
section
/-! DEFINITION. The dispatch: one arm per command, each one direct call of its meaning. -/

namespace Sys2Proof.Machine

/-- The effect of a command on everything but the queue. -/
def exec (i : Instr) (s : State) : Host.Outcome State Fault Refusal :=
  match i with
  | .tick => Sys2Proof.Machine.execTick s
  | .leaveReach => Sys2Proof.Machine.execLeaveReach s
  | .tickMessage port arrival m => Sys2Proof.Machine.execTickMessage port arrival m s
  | .tickInEdge interval ofs => Sys2Proof.Machine.execTickInEdge interval ofs s
  | .tickinLost => Sys2Proof.Machine.execTickinLost s
  | .rotationCommit fn v => Sys2Proof.Machine.execRotationCommit fn v s
  | .splitMaxWrite fn ctx v => Sys2Proof.Machine.execSplitMaxWrite fn ctx v s
  | .lkStatusRead fn => Sys2Proof.Machine.execLkStatusRead fn s
  | .loRegisterRead fn t off => Sys2Proof.Machine.execLoRegisterRead fn t off s
  | .registerWrite fn t off len v => Sys2Proof.Machine.execRegisterWrite fn t off len v s
  | .bar0Timeout fn write => Sys2Proof.Machine.execBar0Timeout fn write s
  | .preemptSaveDone => Sys2Proof.Machine.execPreemptSaveDone s
  | .perstNRise railsOk selfTestFail => Sys2Proof.Machine.execPerstNRise railsOk selfTestFail s
  | .perstNFall => Sys2Proof.Machine.execPerstNFall s
  | .bootReady => Sys2Proof.Machine.execBootReady s
  | .bootTimeout => Sys2Proof.Machine.execBootTimeout s
  | .reachFormed => Sys2Proof.Machine.execReachFormed s
  | .reachWaitExpiry => Sys2Proof.Machine.execReachWaitExpiry s
  | .fwUpdOpen fn => Sys2Proof.Machine.execFwUpdOpen fn s
  | .fwUpdVerify fn => Sys2Proof.Machine.execFwUpdVerify fn s
  | .fwUpdCommit fn => Sys2Proof.Machine.execFwUpdCommit fn s
  | .fwUpdAbort fn => Sys2Proof.Machine.execFwUpdAbort fn s
  | .fwUpdCommitDone => Sys2Proof.Machine.execFwUpdCommitDone s
  | .enterSlack fn => Sys2Proof.Machine.execEnterSlack fn s
  | .slackIdleExpiry => Sys2Proof.Machine.execSlackIdleExpiry s
  | .resume fn => Sys2Proof.Machine.execResume fn s
  | .prepareMoor fn => Sys2Proof.Machine.execPrepareMoor fn s
  | .wakeNAssert => Sys2Proof.Machine.execWakeNAssert s
  | .auxPowerUp => Sys2Proof.Machine.execAuxPowerUp s
  | .railFault => Sys2Proof.Machine.execRailFault s
  | .tripLatchClear => Sys2Proof.Machine.execTripLatchClear s
  | .nop issue x => Sys2Proof.Machine.execNop issue x s
  | .add issue w => Sys2Proof.Machine.execAdd issue w s
  | .sub issue w => Sys2Proof.Machine.execSub issue w s
  | .andOp issue w => Sys2Proof.Machine.execAndOp issue w s
  | .orOp issue w => Sys2Proof.Machine.execOrOp issue w s
  | .xorOp issue w => Sys2Proof.Machine.execXorOp issue w s
  | .shl issue w => Sys2Proof.Machine.execShl issue w s
  | .shr issue w => Sys2Proof.Machine.execShr issue w s
  | .sar issue w => Sys2Proof.Machine.execSar issue w s
  | .slt issue w => Sys2Proof.Machine.execSlt issue w s
  | .sltu issue w => Sys2Proof.Machine.execSltu issue w s
  | .seq issue w => Sys2Proof.Machine.execSeq issue w s
  | .pset issue w => Sys2Proof.Machine.execPset issue w s
  | .mul issue w => Sys2Proof.Machine.execMul issue w s
  | .mulh issue w => Sys2Proof.Machine.execMulh issue w s
  | .divOp issue w => Sys2Proof.Machine.execDivOp issue w s
  | .remOp issue w => Sys2Proof.Machine.execRemOp issue w s
  | .movi issue w => Sys2Proof.Machine.execMovi issue w s
  | .movhi issue w => Sys2Proof.Machine.execMovhi issue w s
  | .popc issue w => Sys2Proof.Machine.execPopc issue w s
  | .clz issue w => Sys2Proof.Machine.execClz issue w s
  | .vadd issue w => Sys2Proof.Machine.execVadd issue w s
  | .vsub issue w => Sys2Proof.Machine.execVsub issue w s
  | .vmul issue w => Sys2Proof.Machine.execVmul issue w s
  | .vfma issue w => Sys2Proof.Machine.execVfma issue w s
  | .vmin issue w => Sys2Proof.Machine.execVmin issue w s
  | .vmax issue w => Sys2Proof.Machine.execVmax issue w s
  | .vand issue w => Sys2Proof.Machine.execVand issue w s
  | .vor issue w => Sys2Proof.Machine.execVor issue w s
  | .vxor issue w => Sys2Proof.Machine.execVxor issue w s
  | .vshl issue w => Sys2Proof.Machine.execVshl issue w s
  | .vshr issue w => Sys2Proof.Machine.execVshr issue w s
  | .vsar issue w => Sys2Proof.Machine.execVsar issue w s
  | .vcmp issue w => Sys2Proof.Machine.execVcmp issue w s
  | .vcvt issue w => Sys2Proof.Machine.execVcvt issue w s
  | .vperm issue w => Sys2Proof.Machine.execVperm issue w s
  | .vbcast issue w => Sys2Proof.Machine.execVbcast issue w s
  | .vext issue w => Sys2Proof.Machine.execVext issue w s
  | .vhash issue w => Sys2Proof.Machine.execVhash issue w s
  | .vred issue w => Sys2Proof.Machine.execVred issue w s
  | .ldb issue w => Sys2Proof.Machine.execLdb issue w s
  | .stb issue w => Sys2Proof.Machine.execStb issue w s
  | .vldb issue w => Sys2Proof.Machine.execVldb issue w s
  | .vstb issue w => Sys2Proof.Machine.execVstb issue w s
  | .ldg issue w => Sys2Proof.Machine.execLdg issue w s
  | .stg issue w => Sys2Proof.Machine.execStg issue w s
  | .vldg issue w => Sys2Proof.Machine.execVldg issue w s
  | .vstg issue w => Sys2Proof.Machine.execVstg issue w s
  | .amo issue w => Sys2Proof.Machine.execAmo issue w s
  | .fence issue w => Sys2Proof.Machine.execFence issue w s
  | .ucmd issue w => Sys2Proof.Machine.execUcmd issue w s
  | .ustat issue w => Sys2Proof.Machine.execUstat issue w s
  | .alook issue w => Sys2Proof.Machine.execAlook issue w s
  | .bsub issue w => Sys2Proof.Machine.execBsub issue w s
  | .brel issue w => Sys2Proof.Machine.execBrel issue w s
  | .tsub issue w => Sys2Proof.Machine.execTsub issue w s
  | .fsub issue w => Sys2Proof.Machine.execFsub issue w s
  | .bstat issue w => Sys2Proof.Machine.execBstat issue w s
  | .br issue w => Sys2Proof.Machine.execBr issue w s
  | .bri issue w => Sys2Proof.Machine.execBri issue w s
  | .call issue w => Sys2Proof.Machine.execCall issue w s
  | .mwait issue w => Sys2Proof.Machine.execMwait issue w s
  | .mwaitm issue w => Sys2Proof.Machine.execMwaitm issue w s
  | .tspawn issue w => Sys2Proof.Machine.execTspawn issue w s
  | .eos issue w => Sys2Proof.Machine.execEos issue w s
  | .tickrd issue w => Sys2Proof.Machine.execTickrd issue w s
  | .trem issue w => Sys2Proof.Machine.execTrem issue w s
  | .trig issue w => Sys2Proof.Machine.execTrig issue w s
  | .sync issue w => Sys2Proof.Machine.execSync issue w s
  | .strd issue w => Sys2Proof.Machine.execStrd issue w s
  | .stclr issue w => Sys2Proof.Machine.execStclr issue w s
  | .flagCompletion id => Sys2Proof.Machine.execFlagCompletion id s
  | .threadUnpark t => Sys2Proof.Machine.execThreadUnpark t s
  | .bubbleEnd t => Sys2Proof.Machine.execBubbleEnd t s
  | .htick h rd => Sys2Proof.Machine.execHtick h rd s
  | .htrem h rd => Sys2Proof.Machine.execHtrem h rd s
  | .hbsub h rd rs1 rs2 => Sys2Proof.Machine.execHbsub h rd rs1 rs2 s
  | .hfsub h rd rs1 rs2 => Sys2Proof.Machine.execHfsub h rd rs1 rs2 s
  | .htsub h rd rs1 => Sys2Proof.Machine.execHtsub h rd rs1 s
  | .hpoll h rd => Sys2Proof.Machine.execHpoll h rd s
  | .hwaitt h => Sys2Proof.Machine.execHwaitt h s
  | .harborIllegalInstruction h w => Sys2Proof.Machine.execHarborIllegalInstruction h w s
  | .harborAccess h a => Sys2Proof.Machine.execHarborAccess h a s
  | .harborCoreFail h => Sys2Proof.Machine.execHarborCoreFail h s
  | .mapPage fn ctx w => Sys2Proof.Machine.execMapPage fn ctx w s
  | .mapBlock fn ctx w => Sys2Proof.Machine.execMapBlock fn ctx w s
  | .unmap fn ctx => Sys2Proof.Machine.execUnmap fn ctx s
  | .protect fn ctx w => Sys2Proof.Machine.execProtect fn ctx w s
  | .exportPage fn ctx => Sys2Proof.Machine.execExportPage fn ctx s
  | .importPage fn ctx blob => Sys2Proof.Machine.execImportPage fn ctx blob s
  | .drop fn ctx => Sys2Proof.Machine.execDrop fn ctx s
  | .query fn ctx => Sys2Proof.Machine.execQuery fn ctx s
  | .mmuOpInvalid fn ctx op => Sys2Proof.Machine.execMmuOpInvalid fn ctx op s
  | .mmuCommandDone ctx => Sys2Proof.Machine.execMmuCommandDone ctx s
  | .hbmPatrol ue ce => Sys2Proof.Machine.execHbmPatrol ue ce s
  | .hbmTimeout line id => Sys2Proof.Machine.execHbmTimeout line id s
  | .hbmStackFail k => Sys2Proof.Machine.execHbmStackFail k s
  | .ucieModuleFail => Sys2Proof.Machine.execUcieModuleFail s
  | .bargeComplete q => Sys2Proof.Machine.execBargeComplete q s
  | .bargeTimeout q => Sys2Proof.Machine.execBargeTimeout q s
  | .towpathComplete id => Sys2Proof.Machine.execTowpathComplete id s
  | .towpathTimeout id => Sys2Proof.Machine.execTowpathTimeout id s
  | .flightComplete id => Sys2Proof.Machine.execFlightComplete id s
  | .weirWrite fn ctx burst v => Sys2Proof.Machine.execWeirWrite fn ctx burst v s
  | .codecLaneTake deep => Sys2Proof.Machine.execCodecLaneTake deep s
  | .codecCompress lane => Sys2Proof.Machine.execCodecCompress lane s
  | .codecDecompress lane => Sys2Proof.Machine.execCodecDecompress lane s
  | .codecSaveDone lane => Sys2Proof.Machine.execCodecSaveDone lane s
  | .codecLaneFail lane readable => Sys2Proof.Machine.execCodecLaneFail lane readable s
  | .gather cl t => Sys2Proof.Machine.execGather cl t s
  | .pool cl t => Sys2Proof.Machine.execPool cl t s
  | .update cl t => Sys2Proof.Machine.execUpdate cl t s
  | .last cl t => Sys2Proof.Machine.execLast cl t s
  | .apply cl t => Sys2Proof.Machine.execApply cl t s
  | .applyStart cl => Sys2Proof.Machine.execApplyStart cl s
  | .parse cl t => Sys2Proof.Machine.execParse cl t s
  | .pqdecode cl t => Sys2Proof.Machine.execPqdecode cl t s
  | .filter cl t => Sys2Proof.Machine.execFilter cl t s
  | .hash cl t => Sys2Proof.Machine.execHash cl t s
  | .bucket cl t => Sys2Proof.Machine.execBucket cl t s
  | .norm cl t => Sys2Proof.Machine.execNorm cl t s
  | .hot cl t => Sys2Proof.Machine.execHot cl t s
  | .pack cl t => Sys2Proof.Machine.execPack cl t s
  | .build cl t => Sys2Proof.Machine.execBuild cl t s
  | .join cl t => Sys2Proof.Machine.execJoin cl t s
  | .merge cl t => Sys2Proof.Machine.execMerge cl t s
  | .group cl t => Sys2Proof.Machine.execGroup cl t s
  | .amuWrite cl t => Sys2Proof.Machine.execAmuWrite cl t s
  | .insert cl t => Sys2Proof.Machine.execInsert cl t s
  | .inval cl t => Sys2Proof.Machine.execInval cl t s
  | .lookup cl t => Sys2Proof.Machine.execLookup cl t s
  | .amuRead cl t => Sys2Proof.Machine.execAmuRead cl t s
  | .amuFilter cl t => Sys2Proof.Machine.execAmuFilter cl t s
  | .sort cl t => Sys2Proof.Machine.execSort cl t s
  | .ouMerge cl t => Sys2Proof.Machine.execOuMerge cl t s
  | .topk cl t => Sys2Proof.Machine.execTopk cl t s
  | .botk cl t => Sys2Proof.Machine.execBotk cl t s
  | .daRun cl t => Sys2Proof.Machine.execDaRun cl t s
  | .daGateOpen cl => Sys2Proof.Machine.execDaGateOpen cl s
  | .flitReceive port flit fec => Sys2Proof.Machine.execFlitReceive port flit fec s
  | .portDelayMeasure port delay => Sys2Proof.Machine.execPortDelayMeasure port delay s
  | .laneDrop port lane => Sys2Proof.Machine.execLaneDrop port lane s
  | .laneRetrained port lane => Sys2Proof.Machine.execLaneRetrained port lane s
  | .creditTimeout port => Sys2Proof.Machine.execCreditTimeout port s
  | .portRetrain port lanes peerChip peerPort => Sys2Proof.Machine.execPortRetrain port lanes peerChip peerPort s
  | .rdReq port m => Sys2Proof.Machine.execRdReq port m s
  | .rdRsp port m => Sys2Proof.Machine.execRdRsp port m s
  | .wrReq port m => Sys2Proof.Machine.execWrReq port m s
  | .wrRsp port m => Sys2Proof.Machine.execWrRsp port m s
  | .amoReq port m => Sys2Proof.Machine.execAmoReq port m s
  | .amoRsp port m => Sys2Proof.Machine.execAmoRsp port m s
  | .tuReq port m => Sys2Proof.Machine.execTuReq port m s
  | .tuRsp port m => Sys2Proof.Machine.execTuRsp port m s
  | .coll port m => Sys2Proof.Machine.execColl port m s
  | .trigMessage port m => Sys2Proof.Machine.execTrigMessage port m s
  | .mgmt port m => Sys2Proof.Machine.execMgmt port m s
  | .refuse port m => Sys2Proof.Machine.execRefuse port m s
  | .lockwayTimeout rid => Sys2Proof.Machine.execLockwayTimeout rid s
  | .collectiveTimeout ctx => Sys2Proof.Machine.execCollectiveTimeout ctx s
  | .sqTail fn t ctx v => Sys2Proof.Machine.execSqTail fn t ctx v s
  | .cqHead fn t ctx v => Sys2Proof.Machine.execCqHead fn t ctx v s
  | .sqFetch ctx entry => Sys2Proof.Machine.execSqFetch ctx entry s
  | .sqRun ctx => Sys2Proof.Machine.execSqRun ctx s
  | .sqHalt ctx => Sys2Proof.Machine.execSqHalt ctx s
  | .copyIn ctx data => Sys2Proof.Machine.execCopyIn ctx data s
  | .copyOut ctx => Sys2Proof.Machine.execCopyOut ctx s
  | .sqNop ctx => Sys2Proof.Machine.execSqNop ctx s
  | .copyComplete ctx => Sys2Proof.Machine.execCopyComplete ctx s
  | .hostReadTimeout ctx => Sys2Proof.Machine.execHostReadTimeout ctx s
  | .bind fn vf ctx => Sys2Proof.Machine.execBind fn vf ctx s
  | .unbind fn ctx => Sys2Proof.Machine.execUnbind fn ctx s
  | .vfFlr vf => Sys2Proof.Machine.execVfFlr vf s
  | .vfDisable vf => Sys2Proof.Machine.execVfDisable vf s
  | .pfFlr => Sys2Proof.Machine.execPfFlr s
  | .hotReset => Sys2Proof.Machine.execHotReset s
  | .burstAccess fn t write off len data => Sys2Proof.Machine.execBurstAccess fn t write off len data s
  | .lockInterfaceRequest vf => Sys2Proof.Machine.execLockInterfaceRequest vf s
  | .getDeviceInterfaceReport vf => Sys2Proof.Machine.execGetDeviceInterfaceReport vf s
  | .startInterfaceRequest vf => Sys2Proof.Machine.execStartInterfaceRequest vf s
  | .stopInterfaceRequest vf => Sys2Proof.Machine.execStopInterfaceRequest vf s
  | .tdiConfigChange vf => Sys2Proof.Machine.execTdiConfigChange vf s
  | .ideKm fn sess => Sys2Proof.Machine.execIdeKm fn sess s
  | .doeDiscovery index => Sys2Proof.Machine.execDoeDiscovery index s
  | .getVersion req => Sys2Proof.Machine.execGetVersion req s
  | .getCapabilities req => Sys2Proof.Machine.execGetCapabilities req s
  | .negotiateAlgorithms req => Sys2Proof.Machine.execNegotiateAlgorithms req s
  | .getDigests sess => Sys2Proof.Machine.execGetDigests sess s
  | .getCertificate slot off len => Sys2Proof.Machine.execGetCertificate slot off len s
  | .challenge slot nonce => Sys2Proof.Machine.execChallenge slot nonce s
  | .getMeasurements sess index sign nonce => Sys2Proof.Machine.execGetMeasurements sess index sign nonce s
  | .keyExchange share => Sys2Proof.Machine.execKeyExchange share s
  | .finish sess verify => Sys2Proof.Machine.execFinish sess verify s
  | .heartbeat sess => Sys2Proof.Machine.execHeartbeat sess s
  | .keyUpdate sess => Sys2Proof.Machine.execKeyUpdate sess s
  | .endSession sess => Sys2Proof.Machine.execEndSession sess s
  | .submit sess payload => Sys2Proof.Machine.execSubmit sess payload s
  | .withdraw sess handle => Sys2Proof.Machine.execWithdraw sess handle s
  | .unlockChallenge => Sys2Proof.Machine.execUnlockChallenge s
  | .unlock token => Sys2Proof.Machine.execUnlock token s
  | .manifestExpiry handle => Sys2Proof.Machine.execManifestExpiry handle s
  | .trigInEdge n => Sys2Proof.Machine.execTrigInEdge n s
  | .traceConfigWrite fn ctx off v => Sys2Proof.Machine.execTraceConfigWrite fn ctx off v s
  | .clusterFail phys cccFailed how => Sys2Proof.Machine.execClusterFail phys cccFailed how s
  | .pmcWatchdogMiss => Sys2Proof.Machine.execPmcWatchdogMiss s
  | .secWatchdogMiss => Sys2Proof.Machine.execSecWatchdogMiss s
  | .lkcWatchdogMiss => Sys2Proof.Machine.execLkcWatchdogMiss s
  | .cccWatchdogMiss phys => Sys2Proof.Machine.execCccWatchdogMiss phys s
  | .powerWindow watts => Sys2Proof.Machine.execPowerWindow watts s
  | .thermalWarn celsius => Sys2Proof.Machine.execThermalWarn celsius s
  | .throttleStep g celsius => Sys2Proof.Machine.execThrottleStep g celsius s
  | .throttleRecover g celsius => Sys2Proof.Machine.execThrottleRecover g celsius s
  | .thermalTrip => Sys2Proof.Machine.execThermalTrip s
  | .pwrBrakeAssert => Sys2Proof.Machine.execPwrBrakeAssert s
  | .pwrBrakeRelease => Sys2Proof.Machine.execPwrBrakeRelease s
  | .smbusBlockRead command => Sys2Proof.Machine.execSmbusBlockRead command s
  | .mctpControl req => Sys2Proof.Machine.execMctpControl req s
  | .getTid => Sys2Proof.Machine.execGetTid s
  | .setTid tid => Sys2Proof.Machine.execSetTid tid s
  | .getPldmVersion type => Sys2Proof.Machine.execGetPldmVersion type s
  | .getPldmTypes => Sys2Proof.Machine.execGetPldmTypes s
  | .getPldmCommands type => Sys2Proof.Machine.execGetPldmCommands type s
  | .getPdrRepositoryInfo => Sys2Proof.Machine.execGetPdrRepositoryInfo s
  | .getPdr handle => Sys2Proof.Machine.execGetPdr handle s
  | .getSensorReading sensor => Sys2Proof.Machine.execGetSensorReading sensor s
  | .getStateSensorReadings sensor => Sys2Proof.Machine.execGetStateSensorReadings sensor s
  | .jtagBypass tdi => Sys2Proof.Machine.execJtagBypass tdi s
  | .jtagIdcode => Sys2Proof.Machine.execJtagIdcode s
  | .jtagSamplePreload preload => Sys2Proof.Machine.execJtagSamplePreload preload s
  | .jtagExtest => Sys2Proof.Machine.execJtagExtest s
  | .jtagClamp => Sys2Proof.Machine.execJtagClamp s
  | .jtagHighz => Sys2Proof.Machine.execJtagHighz s
  | .configurationRequest fn r => Sys2Proof.Machine.execConfigurationRequest fn r s
  | .fwUpdVerifyDone => Sys2Proof.Machine.execFwUpdVerifyDone s
  | .bindComplete => Sys2Proof.Machine.execBindComplete s
  | .unbindComplete ctx => Sys2Proof.Machine.execUnbindComplete ctx s
  | .traceJunctionFail => Sys2Proof.Machine.execTraceJunctionFail s
  | .peerStopsAnswering port => Sys2Proof.Machine.execPeerStopsAnswering port s
  | .mainEnHoldExpiry wakeLow => Sys2Proof.Machine.execMainEnHoldExpiry wakeLow s
  | .mainRailsOff => Sys2Proof.Machine.execMainRailsOff s
  | .v3p3AuxLoss => Sys2Proof.Machine.execV3p3AuxLoss s

end Sys2Proof.Machine
end

