-- ==== Sys2Proof/Safety.lean ====
section
/-! DEFINITION. The terms that the statements use: what a safe step is, and the conditions and results of the rules named once. -/

namespace Sys2Proof.Machine

/-- A step stops the machine: the boot that R592 calls not defined is the one case. -/
def stepFaults (s : State) : Bool := match step s with
  | .next _ => false
  | .fault _ => true
  | .refused _ => true

/-! ## Issue of a bundle of one slot operation (R107, R115 to R119) -/

/-- A Ready thread of the running context `n` that holds the pound, with no slot staged and its pc inside the segment, gets a
bundle of one slot operation in its turn of the core's round-robin order, on a cluster that serves. -/
structure SoloIssue (s : State) (n : Nat) (i : Issue) : Prop where
  holder : s.rot.holder = some n
  running : holds s n = true
  ready : (gTh s (thKey i.t)).st = .ready
  unstaged : (gTh s (thKey i.t)).staged = []
  whole : i.more = false
  inside : (gTh s (thKey i.t)).pc.toNat < (Tab.get {} (gCtx s n).sch.segs (thKey i.t / 64)).codeLen
  turn : myTurn s (thKey i.t) = true
  serves : clServes s (thKey i.t / 64) = true

/-- A result of latency `lat` on its way (R119). -/
def pendResult (th : Thread) (slot lat : Nat) (w : RegW) : Thread :=
  { th with pend := addPend { at_ := th.bundle + lat, issued := th.bundle, slot := slot, w := w } th.pend }

/-- Sticky status bits set (R112). -/
def raiseTsw (th : Thread) (bits : Word) : Thread := { th with tsw := th.tsw ||| bits }

/-- The thread after its bundle: the next bundle number, the program counter `pc`, the state `st`. -/
def stepThread (th : Thread) (pc : BitVec 32) (st : TState) : Thread := { th with bundle := th.bundle + 1, pc := pc, st := st }

/-- The machine after a bundle of a thread that goes on in sequence: `s` with the thread's record `th` stepped, and the trace's count
of the bundle (R552). -/
def retireIn (s : State) (n key : Nat) (th : Thread) : State :=
  tjRun (uTh s key (fun _ => stepThread th (th.pc + 1) .ready)) n key (th.pc + 1).toNat

/-- The machine in which the slots of a thread's bundle act: free values are drawn, and the core's round-robin order goes on (R107). -/
def issueBase (s : State) (key : Nat) : State := takeTurn (useFree s) key

/-- A bundle that changes only its own thread. -/
def retireBundle (s : State) (n key : Nat) (th : Thread) : State := retireIn (issueBase s key) n key th

/-- An operation that names mooring flag `mf` raises its count (R132). -/
def withFlag (th : Thread) (mf : Nat) : Thread := { th with m := Tab.modify 0 th.m mf (· + 1) }

/-- The machine while the slots of a thread's bundle take effect: the thread reads as before and has its next bundle number. -/
def issuing (s : State) (key : Nat) : State :=
  uTh (issueBase s key) key (fun _ => { issueThread s key with bundle := (gTh s key).bundle + 1 })

/-- The slot word of a row that acts: its predicate enables it (R117). -/
def actsAs (s : State) (n : Nat) (i : Issue) (slot : Nat) (x : Word) : Prop := slotOn (issueView s n (thKey i.t)).e slot x = true

/-- What a bundle of one register-only slot leaves: when the slot acts, its result `w` of latency `lat` pends and the status bits
`bits` are set; the thread goes on. -/
def soloResult (s : State) (n key slot lat : Nat) (x : Word) (w : RegW) (bits : Word) : State :=
  retireBundle s n key
    (if slotActs (issueView s n key) slot x then raiseTsw (pendResult (issueThread s key) slot lat w) bits else issueThread s key)

/-! ## Host accesses and mapping commands -/

/-- The function's BAR0 writes reach the registers of a ready 2840 (R75, R442, R447, R452, R579). -/
structure HostWrites (s : State) (fn : Nat) : Prop where
  opened : barOpen s fn = true
  keeper : s.boot.lkcFailed = false
  ready : isReady s = true
  bound : (ctxOf s fn).isSome = true

/-- A mapping command of a function to a bound context is taken: no other one is in progress (R186, R206). -/
structure MmuTakes (s : State) (fn n : Nat) : Prop where
  host : HostWrites s fn
  reach : mmuReach s fn n = true
  idle : (gCtx s n).mmu.busy = false
  bound : isBound s n = true

/-- The addresses that the MMU_ registers of a context hold (R206). -/
def mmuVa (s : State) (n : Nat) : Nat := (gCtx s n).mmu.va.toNat * 65536
def mmuPa (s : State) (n : Nat) : Nat := (gCtx s n).mmu.paHi.toNat * 2 ^ 48 + (gCtx s n).mmu.paLo.toNat * 65536
def mmuHost (s : State) (n : Nat) : Nat := (gCtx s n).mmu.hostHi.toNat * 2 ^ 32 + (gCtx s n).mmu.hostLo.toNat

/-- A mapping command is in progress and will end with a code; the access itself got none (R186). -/
def mmuBusyWith (t : State) (fn n : Nat) (code : Code) : Prop :=
  (gCtx t n).mmu.busy = true ∧ (gCtx t n).mmu.result = code ∧ (gFn t fn).accCode = 0

/-! ## Unit commands and flight stages (R235 to R241, R265, R284, R324, R333, R352) -/

/-- A row of a cluster unit: its command, its unit, its OP, which held commands it looks at, which it accepts, the agent that a command
is, where its output goes, what it does at a position (given the command's number, its position, its output so far, its scratch), the
number of positions that suffices, what it waits for besides, and what it notes before it runs; `sok` and `sstep` are what a flight
stage's command must meet and does, `after` what a stage's turn leaves to do. -/
structure UnitRow where
  cmd : Fin 48 → UTarget → Instr
  unit : Nat
  op : Nat
  sel : UCmd → Bool
  ok : State → UCmd → Bool
  agent : Nat → UCmd → Agent
  dst : Bytes → Nat
  step : UEnv → Nat → Nat → Nat → Bytes → M UStep
  fuel : Bytes → Nat
  sok : State → UEnv → Bool
  sstep : UEnv → Nat → Nat → Bytes → M UStep := fun e p a c => step e 0 p a c
  starts : State → Nat → UCmd → Bool := fun _ _ _ => true
  begins : State → Nat → State := fun s _ => s
  after : State → Nat → Nat → State := fun s _ _ => s

/-- A row of the Table Unit (R265, R268); UPDATE writes no output. -/
def tableRow (cmd : Fin 48 → UTarget → Instr) (op : Nat) (step : UEnv → Nat → Nat → Nat → Bytes → M UStep) : UnitRow :=
  { cmd := cmd, unit := 0, op := op, sel := fun c => !c.waiting, ok := fun _ c => tuOk false c.cmd, agent := tuAgent,
    dst := fun d => if op = 3 then 0 else tOut d, step := step, fuel := fun _ => 2 ^ 34, sok := fun _ e => tuOk true e.cmd,
    sstep := fun e p a c => step { e with ag := { e.ag with cls := tCls e.cmd } } 0 p a c }

/-- The rows of the Table Unit's queue. -/
def tableRows : List UnitRow :=
  [tableRow .gather 1 (fun e _ p _ c => gatherStep e p c), tableRow .pool 2 (fun e _ p _ c => poolStep e p c),
   tableRow .update 3 (fun e _ p _ c => updateStep e p c), tableRow .last 4 (fun e i _ _ c => lastStep e i c)]

/-- A row of the Feature Unit (R284). -/
def featureRow (cmd : Fin 48 → UTarget → Instr) (op : Nat) (step : UEnv → Nat → Nat → Bytes → M UStep) : UnitRow :=
  { cmd := cmd, unit := 1, op := op, sel := fun _ => true, ok := fun _ c => fxOk false [] c.cmd, agent := fun cl c => unitAgent cl c 7 1, dst := aDst,
    step := fun e _ p a c => step e p a c, fuel := fun _ => 2 ^ 33, sok := fun _ e => fxOk true e.later e.cmd }

/-- The rows of the Feature Unit. -/
def featureRows : List UnitRow :=
  [featureRow .parse 1 parseStep, featureRow .pqdecode 2 (fun e p _ _ => pqStep e p), featureRow .filter 3 (fun e p a _ => filterStep e p a),
   featureRow .hash 4 (fun e p _ _ => hashStep e p), featureRow .bucket 5 (fun e p _ _ => bucketStep e p),
   featureRow .norm 6 (fun e p _ _ => normStep e p), featureRow .hot 7 (fun e p _ _ => hotStep e p), featureRow .pack 8 (fun e p _ _ => packStep e p),
   featureRow .build 9 (fun e p _ c => buildStep e p c), featureRow .join 10 (fun e p a _ => joinStep e p a),
   featureRow .merge 11 (fun e p a _ => mergeStep e p a), featureRow .group 12 groupStep]

/-- A row of the AMU: the updates and the lookups keep their own order, and an update waits for an older BUILD (R324). -/
def amuRowOf (cmd : Fin 48 → UTarget → Instr) (op : Nat) (step : UEnv → Nat → Nat → Bytes → M UStep) : UnitRow :=
  { cmd := cmd, unit := 2, op := op, sel := fun c => aUpdate c.cmd == (decide (1 ≤ op) && decide (op ≤ 3)),
    ok := fun s c => amuOk (isExpert s c.ctx) false c.cmd, agent := fun cl c => unitAgent cl c 7 1, dst := aDst, step := fun e _ p a c => step e p a c,
    fuel := fun d => 2 * aCount d + 3, sok := fun s e => amuOk (isExpert s e.ag.ctx) true e.cmd,
    starts := fun s cl c => !(aUpdate c.cmd && buildBefore s cl c.id) }

/-- A row of the Order Unit (R333). -/
def orderRow (cmd : Fin 48 → UTarget → Instr) (op : Nat) : UnitRow :=
  { cmd := cmd, unit := 3, op := op, sel := fun _ => true, ok := fun _ c => ouOk false c.cmd, agent := fun cl c => unitAgent cl c 7 1, dst := aDst,
    step := fun e _ p _ c => ouStep e p c, fuel := fun d => 2 * oCount d + oK d + 5, sok := fun _ e => ouOk true e.cmd }

/-- The row of the Dense Array: a command of its queue that waits on a gate is DA_GATE_OPEN's, and flight stages take turns with it (R352). -/
def denseRow : UnitRow :=
  { cmd := .daRun, unit := 4, op := 1, sel := fun _ => true, ok := fun _ c => daOk false c.cmd, agent := daAgent, dst := aDst,
    step := fun e _ p _ c => daStep e p c, fuel := fun _ => 2 ^ 33, sok := fun _ e => daOk true e.cmd,
    starts := fun s cl c => !c.waiting && turnOf s cl 4 0 && (readyKeys s cl 4).all (· == 0), begins := fun s cl => served s cl 4 0, after := daBack }

/-- The rows of the AMU, the Order Unit and the Dense Array. -/
def searchRows : List UnitRow :=
  [amuRowOf .amuWrite 1 (fun e p _ c => amuWriteStep e p c), amuRowOf .insert 2 (fun e p _ c => amuInsertStep e p c),
   amuRowOf .inval 3 (fun e p _ _ => amuInvalStep e p), amuRowOf .lookup 4 (fun e p _ _ => amuLookupStep e p),
   amuRowOf .amuRead 5 (fun e p _ _ => amuReadStep e p), amuRowOf .amuFilter 6 (fun e p a _ => amuFilterStep e p a),
   orderRow .sort 1, orderRow .ouMerge 2, orderRow .topk 3, orderRow .botk 4, denseRow]

/-- APPLY_START works on the oldest APPLY that has read its table and can go on (R277, R278). -/
def applyStartRow : UnitRow :=
  { cmd := fun cl _ => .applyStart cl, unit := 0, op := 5, sel := (·.waiting), ok := fun _ _ => true, agent := tuAgent, dst := fun _ => 0,
    step := fun e _ _ _ c => applyStep e c, fuel := fun _ => 2 ^ 34, sok := fun _ _ => false }

/-- What a command does at its position: its step, and its output written behind what it has written. -/
def cmdWork (row : UnitRow) (cl : Nat) (c : UCmd) (dst : Nat) : M UStep := do
  let r ← row.step { ag := row.agent cl c, cl := cl, cmd := c.cmd } c.id c.pos c.aux c.scratch
  writeParts (row.agent cl c) (dst + c.aux) r.out
  return r

/-- The state after a part of an operation that has ended well. -/
def opClean (id : Nat) (s : State) : State := { dropReqs s id with racc := 0 }

/-- A held command of a row works from `s` to its end without an error, in `k` positions before the last; `t` is what it leaves. -/
inductive CmdRuns (row : UnitRow) (cl id dst : Nat) : Nat → State → State → Prop
  | ends {s s' t : State} {c : UCmd} {r : UStep} :
      frontCmd s cl row.unit (fun x => x.id == id) = some c → isParked s (row.agent cl c).id = false →
      cmdWork row cl c dst { s with racc := 0 } = .ok r s' → r.done = true → r.code = 0 →
      t = endCmd (opClean (row.agent cl c).id s') cl row.unit (row.agent cl c) c 0 → isParked t id = false →
      frontCmd t cl row.unit (fun x => x.id == id) = none → CmdRuns row cl id dst 0 s t
  | goes {s s' m t : State} {c c' : UCmd} {r : UStep} {k : Nat} :
      frontCmd s cl row.unit (fun x => x.id == id) = some c → isParked s (row.agent cl c).id = false →
      cmdWork row cl c dst { s with racc := 0 } = .ok r s' → r.done = false →
      m = uHeld (opClean (row.agent cl c).id s') c.ctx cl row.unit id
        (fun x => { x with pos := r.pos, aux := x.aux + partsLen r.out, scratch := r.scratch, waiting := r.gated }) →
      frontCmd m cl row.unit (fun x => x.id == id) = some c' → c' ≠ c → CmdRuns row cl id dst k m t → CmdRuns row cl id dst (k + 1) s t

/-- The row's command stands at the front of its unit, its context holds the pound and its cluster serves. -/
structure RowMeets (row : UnitRow) (s : State) (cl : Nat) (c : UCmd) : Prop where
  front : frontCmd s cl row.unit row.sel = some c
  holder : holds s c.ctx = true
  serves : clServes s cl = true
  fetched : c.cmd.length = 64

/-- Stage `k` of a flight as it stands. -/
def stageNow (s : State) (fid k : Nat) : Option Stage := (flightOf s fid).bind (fun f => f.stages[k]?)

/-- Stage `k` of a running flight of a cluster is this unit's, has not ended, and it is its turn. -/
structure StageMeets (s : State) (cl u : Nat) (f : Flight) (k : Nat) (st : Stage) : Prop where
  flight : flightOf s f.id = some f
  stage : f.stages[k]? = some st
  cluster : f.cl = cl
  active : f.active = true
  holder : holds s f.ctx = true
  serves : clServes s cl = true
  sound : f.err = none
  unit : stUnit st.rec_ = u
  going : st.ring.ended = false
  turn : turnOf s cl u (stageKey f.id k) = true

/-- The state in which a stage's turn begins: the input barge has run for stage 0 (R237). -/
def stageFed (s : State) (f : Flight) (k : Nat) : State := if k = 0 then pumpIn f.id (fSrcLen f.hdr + 2) s else s

/-- What follows a stage's turn: the trace, the output barge behind the last stage, and the list of waiting codec stages. -/
def stageOver (row : UnitRow) (s0 s : State) (f : Flight) (k : Nat) : State :=
  let s := traceParked s0 s f (stageAgent f k)
  row.after (refreshWait (if k + 1 = f.stages.length then pumpOut f.id (2 * fDstMax f.hdr + 3) s else s)) f.id k

/-- A stage may work: it is not parked, its flight has not ended, and it waits on no gate. -/
def stageOpen (s : State) (f : Flight) (k : Nat) (st : Stage) : Bool :=
  !(isParked s (stageAgent f k).id || f.err.isSome || st.ring.ended || st.waiting)

/-- A turn of stage `k` of flight `fid`, in `j` moves, with `left` berths (for the Dense Array, batches) still to take: it hands on what it
has made; works on what it was given; and, when it cannot go on with that, takes its next berth (R238, R352). It rests when it may take no
more, when nothing is there, or when its ring is full; behind its last berth it sets the end marker (R240). -/
inductive StageTurn (row : UnitRow) (cl fid k : Nat) : Nat → Nat → State → State → Prop
  | halts {s : State} {f : Flight} {st : Stage} {left : Nat} : flightOf s fid = some f → f.stages[k]? = some st → stageOpen s f k st = false →
      StageTurn row cl fid k 0 left s s
  | ends {s : State} {f : Flight} {st : Stage} {left : Nat} : flightOf s fid = some f → f.stages[k]? = some st → stageOpen s f k st = true →
      st.queue = [] → st.done = true → StageTurn row cl fid k 0 left s (uStage s fid k (fun x => { x with ring := { x.ring with ended := true } }))
  | full {s : State} {f : Flight} {st : Stage} {left : Nat} : flightOf s fid = some f → f.stages[k]? = some st → stageOpen s f k st = true →
      st.queue ≠ [] → stageNow (putBerth s cl row.unit f k st (stageAgent f k)) fid k = some st →
      StageTurn row cl fid k 0 left s (putBerth s cl row.unit f k st (stageAgent f k))
  | rests {s m t : State} {f : Flight} {st : Stage} {left : Nat} : flightOf s fid = some f → f.stages[k]? = some st → stageOpen s f k st = true →
      st.queue = [] → st.done = false → (row.unit = 4 → left ≠ 0) → m = stepOnce s cl row.unit f k st (st.cmd.getD []) row.sstep → stageNow m fid k = some st →
      (if isParked m (stageAgent f k).id = true ∨ (row.unit ≠ 4 ∧ left = 0) then t = m
        else t = takeBerth m cl row.unit f k (stageAgent f k) ∧ stageNow t fid k = some st) →
      StageTurn row cl fid k 0 left s t
  | sated {s : State} {f : Flight} {st : Stage} : flightOf s fid = some f → f.stages[k]? = some st → stageOpen s f k st = true →
      st.queue = [] → st.done = false → row.unit = 4 → StageTurn row cl fid k 0 0 s s
  | puts {s m t : State} {f : Flight} {st : Stage} {j left : Nat} : flightOf s fid = some f → f.stages[k]? = some st → stageOpen s f k st = true →
      st.queue ≠ [] → m = putBerth s cl row.unit f k st (stageAgent f k) → stageNow m fid k ≠ some st → StageTurn row cl fid k j left m t →
      StageTurn row cl fid k (j + 1) left s t
  | works {s m t : State} {f : Flight} {st : Stage} {j left : Nat} : flightOf s fid = some f → f.stages[k]? = some st → stageOpen s f k st = true →
      st.queue = [] → st.done = false → (row.unit = 4 → left ≠ 0) → m = stepOnce s cl row.unit f k st (st.cmd.getD []) row.sstep → stageNow m fid k ≠ some st →
      StageTurn row cl fid k j (if row.unit = 4 ∧ (stageNow m fid k).map (·.pos) ≠ some st.pos then left - 1 else left) m t →
      StageTurn row cl fid k (j + 1) left s t
  | takes {s m m' t : State} {f : Flight} {st : Stage} {j left : Nat} : flightOf s fid = some f → f.stages[k]? = some st → stageOpen s f k st = true →
      st.queue = [] → st.done = false → left ≠ 0 → m = stepOnce s cl row.unit f k st (st.cmd.getD []) row.sstep → stageNow m fid k = some st →
      isParked m (stageAgent f k).id = false → m' = takeBerth m cl row.unit f k (stageAgent f k) → stageNow m' fid k ≠ some st →
      StageTurn row cl fid k j (if row.unit = 4 ∨ (feeder f k).full = [] then left else left - 1) m' t → StageTurn row cl fid k (j + 1) left s t

/-! ## Barges and flights at work (R214, R219, R227, R240) -/

/-- The front barge of a queue needs a berth for its next piece (R219). -/
def needsBerth (x : BQueue) (desc : BDesc) : Bool := !x.weir && bType desc.d != 5 && desc.pos % berthSize x.bshift == 0

/-- What a piece of a barge leaves when it is moved from queue `x`: the counts, a tainted granule counting once, the berth taken, the position
(R246). -/
def pieceMoved (s : State) (q : Nat) (x : BQueue) (desc : BDesc) (tainted : Nat) (oob : Bool) : State :=
  let s := if desc.pos = 0 then tjBarge s desc.ctx desc.cl 1 q 0 (bTag desc.d) 0 else s
  let g := bargeGran x desc
  uFront (uQueue (countBe s desc.ctx (bargeStep x desc) (if g = desc.tgran then 0 else tainted)) q (fun y => { y with
    free := if needsBerth x desc then y.free - 1 else y.free, idxOob := if oob then bump16 y.idxOob 1 else y.idxOob })) q (fun y =>
      { y with pos := y.pos + bargeStep x desc, tgran := if tainted = 0 then 0 else g })

/-- The front barge of a queue moves from `s` to its end without an error, in `k` pieces; `t` is what it leaves. -/
inductive BargeRuns (q : Nat) : Nat → State → State → Prop
  | ends {s : State} {desc : BDesc} {rest : List BDesc} :
      (gQueue s q).descs = desc :: rest → desc.complete = false → holds s desc.ctx = true → bSize desc.d * bCount desc.d ≤ desc.pos →
      BargeRuns q 0 s (bargeDone s q desc)
  | goes {s s' m t : State} {desc : BDesc} {rest : List BDesc} {ag : Agent} {tainted k : Nat} {oob : Bool} :
      (gQueue s q).descs = desc :: rest → desc.complete = false → holds s desc.ctx = true → desc.pos < bSize desc.d * bCount desc.d →
      (needsBerth (gQueue s q) desc = true → (gQueue s q).free ≠ 0) →
      ag = bargeAgent desc.ctx q desc.cl desc.id (bClass desc.d) desc.owner →
      isParked s ag.id = false → bargeMove ag (gQueue s q) desc { s with racc := 0 } = .ok (tainted, oob) s' →
      m = pieceMoved (opClean ag.id s') q (gQueue s q) desc tainted oob →
      (gQueue m q).descs.head?.map (·.pos) ≠ some desc.pos → (gQueue m q).descs.head?.map (·.id) = some desc.id →
      BargeRuns q k m t → BargeRuns q (k + 1) s t

/-- The output barge of a flight moves until it can go no further, in `j` moves (R240). -/
inductive OutRuns (fid : Nat) : Nat → State → State → Prop
  | rests {s : State} {f : Flight} : flightOf s fid = some f → flightOf (drainPiece s f) fid = some f → OutRuns fid 0 s (drainPiece s f)
  | goes {s m t : State} {f : Flight} {j : Nat} : flightOf s fid = some f → m = drainPiece s f → flightOf m fid ≠ some f → OutRuns fid j m t →
      OutRuns fid (j + 1) s t

end Sys2Proof.Machine
end

