-- ==== Sys2Proof/WellFormed.lean ====
section
/-! DEFINITION. Well-formed commands: the operand shapes that the interfaces of the 2840 give a command by themselves, before any
rule of the block looks at it. One check a shape. -/

namespace Sys2Proof

/-- A byte string of a fixed length (R86, R397, R510; SPDM's nonces, shares and MACs). -/
def wfLength (n : Nat) (b : Bytes) : Bool := b.length == n

/-- The host's answer to a read of `n` bytes (R200, R459). -/
def wfHostRead (n : Nat) (r : HostRead) : Bool := match r with
  | .data b => b.length == n
  | .failed => true

/-- The host's answer to the read of a copy: whole 64-byte granules (R459). -/
def wfGranules (r : HostRead) : Bool := match r with
  | .data b => b.length % 64 == 0 && b.length != 0
  | .failed => true

/-- A Lockway message of a type: TYPE in [63:59], LEN in [32:28] in chunks of 16 bytes, a tag of 16 bytes (R407). -/
def wfMsg (ty : Nat) (m : Msg) : Bool :=
  m.w0.toNat / 2 ^ 59 == ty && m.payload.length == m.w0.toNat / 2 ^ 28 % 32 * 16 && m.tag.length == 16

/-- An OP of MMU_ that is not listed (R206). -/
def wfBadOp (op : BitVec 4) : Bool := op == 0 || decide (8 < op.toNat)

/-- Lines of HBM, by number (R37). -/
def wfLines (l : List Nat) : Bool := l.all (fun x => decide (64 * x < 0x3600000000))

/-- A BAR2 access lies inside the 64 KiB window, and a write brings its bytes (R445). -/
def wfBurst (write : Bool) (off : BitVec 16) (len : Nat) (data : Bytes) : Bool :=
  decide (off.toNat + len ≤ 65536) && len != 0 && (!write || data.length == len)

/-- A virtual function: numbers 1 to 63 (R443). -/
def wfVf (vf : Fin 64) : Bool := vf != 0

/-- A nonce comes with a request for a signature. -/
def wfNonce (sign : Bool) (b : Bytes) : Bool := !sign || b.length == 32

/-- The payload of SUBMIT: a 32-byte job key, then a manifest (R489). -/
def wfPayload (b : Bytes) : Bool := decide (32 ≤ b.length)

/-- A value for each pin of the boundary-scan register (R582, R589). -/
def wfPreload (l : List Bool) : Bool := l.length == 36

/-- An MCTP control message has its three header bytes. -/
def wfMctp (b : Bytes) : Bool := decide (3 ≤ b.length)

/-- The registers TJ_CTRL, TJ_BUF_ and TJ_CLMASK_ (R562, R564). -/
def wfTraceOff (off : BitVec 6) : Bool := off.toNat % 4 == 0 && decide (off.toNat ≤ 0x14)

/-- A temperature at or above a threshold (R521, R602). -/
def wfAtLeast (n : Nat) (c : Byte) : Bool := decide (n ≤ c.toNat)

/-- A temperature at or below a threshold (R521). -/
def wfAtMost (n : Nat) (c : Byte) : Bool := decide (c.toNat ≤ n)

/-- A memory write of PCIe brings at least one byte (R447 rejects other lengths than 4 and 8 with a code). -/
def wfAccessLen (len : Nat) : Bool := len != 0

/-- A command has the shape of its row. -/
def wellFormed (i : Instr) : Bool :=
  match i with
  | .tickMessage _ _ m => wfMsg 12 m
  | .registerWrite _ _ _ len _ => wfAccessLen len
  | .importPage _ _ blob => wfHostRead 65728 blob
  | .mmuOpInvalid _ _ op => wfBadOp op
  | .hbmPatrol ue ce => wfLines (ue ++ ce)
  | .hbmTimeout line _ => wfLines [line]
  | .flitReceive _ flit _ => wfLength 256 flit
  | .rdReq _ m => wfMsg 1 m
  | .rdRsp _ m => wfMsg 2 m
  | .wrReq _ m => wfMsg 3 m
  | .wrRsp _ m => wfMsg 4 m
  | .amoReq _ m => wfMsg 5 m
  | .amoRsp _ m => wfMsg 6 m
  | .tuReq _ m => wfMsg 9 m
  | .tuRsp _ m => wfMsg 10 m
  | .coll _ m => wfMsg 11 m
  | .trigMessage _ m => wfMsg 13 m
  | .mgmt _ m => wfMsg 14 m
  | .refuse _ m => wfMsg 15 m
  | .sqFetch _ entry => wfHostRead 64 entry
  | .copyIn _ data => wfGranules data
  | .vfFlr vf => wfVf vf
  | .vfDisable vf => wfVf vf
  | .burstAccess _ _ write off len data => wfBurst write off len data
  | .lockInterfaceRequest vf => wfVf vf
  | .getDeviceInterfaceReport vf => wfVf vf
  | .startInterfaceRequest vf => wfVf vf
  | .stopInterfaceRequest vf => wfVf vf
  | .tdiConfigChange vf => wfVf vf
  | .challenge _ nonce => wfLength 32 nonce
  | .getMeasurements _ _ sign nonce => wfNonce sign nonce
  | .keyExchange share => wfLength 96 share
  | .finish _ verify => wfLength 48 verify
  | .submit _ payload => wfPayload payload
  | .unlock token => wfLength 256 token
  | .traceConfigWrite _ _ off _ => wfTraceOff off
  | .thermalWarn celsius => wfAtLeast 100 celsius
  | .throttleStep _ celsius => wfAtLeast 105 celsius
  | .throttleRecover _ celsius => wfAtMost 102 celsius
  | .mctpControl req => wfMctp req
  | .jtagSamplePreload preload => wfPreload preload
  | .tick | .leaveReach | .tickInEdge _ _ | .tickinLost | .rotationCommit _ _ | .splitMaxWrite _ _ _ | .lkStatusRead _
  | .loRegisterRead _ _ _ | .bar0Timeout _ _ | .preemptSaveDone | .perstNRise _ _ | .perstNFall | .bootReady | .bootTimeout
  | .reachFormed | .reachWaitExpiry | .fwUpdOpen _ | .fwUpdVerify _ | .fwUpdCommit _ | .fwUpdAbort _ | .fwUpdCommitDone | .enterSlack _
  | .slackIdleExpiry | .resume _ | .prepareMoor _ | .wakeNAssert | .auxPowerUp | .railFault | .tripLatchClear | .nop _ _ | .add _ _
  | .sub _ _ | .andOp _ _ | .orOp _ _ | .xorOp _ _ | .shl _ _ | .shr _ _ | .sar _ _ | .slt _ _ | .sltu _ _ | .seq _ _ | .pset _ _
  | .mul _ _ | .mulh _ _ | .divOp _ _ | .remOp _ _ | .movi _ _ | .movhi _ _ | .popc _ _ | .clz _ _ | .vadd _ _ | .vsub _ _ | .vmul _ _
  | .vfma _ _ | .vmin _ _ | .vmax _ _ | .vand _ _ | .vor _ _ | .vxor _ _ | .vshl _ _ | .vshr _ _ | .vsar _ _ | .vcmp _ _ | .vcvt _ _
  | .vperm _ _ | .vbcast _ _ | .vext _ _ | .vhash _ _ | .vred _ _ | .ldb _ _ | .stb _ _ | .vldb _ _ | .vstb _ _ | .ldg _ _ | .stg _ _
  | .vldg _ _ | .vstg _ _ | .amo _ _ | .fence _ _ | .ucmd _ _ | .ustat _ _ | .alook _ _ | .bsub _ _ | .brel _ _ | .tsub _ _ | .fsub _ _
  | .bstat _ _ | .br _ _ | .bri _ _ | .call _ _ | .mwait _ _ | .mwaitm _ _ | .tspawn _ _ | .eos _ _ | .tickrd _ _ | .trem _ _ | .trig _ _
  | .sync _ _ | .strd _ _ | .stclr _ _ | .flagCompletion _ | .threadUnpark _ | .bubbleEnd _ | .htick _ _ | .htrem _ _ | .hbsub _ _ _ _
  | .hfsub _ _ _ _ | .htsub _ _ _ | .hpoll _ _ | .hwaitt _ | .harborIllegalInstruction _ _ | .harborAccess _ _ | .harborCoreFail _
  | .mapPage _ _ _ | .mapBlock _ _ _ | .unmap _ _ | .protect _ _ _ | .exportPage _ _ | .drop _ _ | .query _ _ | .mmuCommandDone _
  | .hbmStackFail _ | .ucieModuleFail | .bargeComplete _ | .bargeTimeout _ | .towpathComplete _ | .towpathTimeout _ | .flightComplete _
  | .weirWrite _ _ _ _ | .codecLaneTake _ | .codecCompress _ | .codecDecompress _ | .codecSaveDone _ | .codecLaneFail _ _ | .gather _ _
  | .pool _ _ | .update _ _ | .last _ _ | .apply _ _ | .applyStart _ | .parse _ _ | .pqdecode _ _ | .filter _ _ | .hash _ _ | .bucket _ _
  | .norm _ _ | .hot _ _ | .pack _ _ | .build _ _ | .join _ _ | .merge _ _ | .group _ _ | .amuWrite _ _ | .insert _ _ | .inval _ _
  | .lookup _ _ | .amuRead _ _ | .amuFilter _ _ | .sort _ _ | .ouMerge _ _ | .topk _ _ | .botk _ _ | .daRun _ _ | .daGateOpen _
  | .portDelayMeasure _ _ | .laneDrop _ _ | .laneRetrained _ _ | .creditTimeout _ | .portRetrain _ _ _ _ | .lockwayTimeout _
  | .collectiveTimeout _ | .sqTail _ _ _ _ | .cqHead _ _ _ _ | .sqRun _ | .sqHalt _ | .copyOut _ | .sqNop _ | .copyComplete _
  | .hostReadTimeout _ | .bind _ _ _ | .unbind _ _ | .pfFlr | .hotReset | .ideKm _ _ | .doeDiscovery _ | .getVersion _
  | .getCapabilities _ | .negotiateAlgorithms _ | .getDigests _ | .getCertificate _ _ _ | .heartbeat _ | .keyUpdate _ | .endSession _
  | .withdraw _ _ | .unlockChallenge | .manifestExpiry _ | .trigInEdge _ | .clusterFail _ _ _ | .pmcWatchdogMiss | .secWatchdogMiss
  | .lkcWatchdogMiss | .cccWatchdogMiss _ | .powerWindow _ | .thermalTrip | .pwrBrakeAssert | .pwrBrakeRelease | .smbusBlockRead _
  | .getTid | .setTid _ | .getPldmVersion _ | .getPldmTypes | .getPldmCommands _ | .getPdrRepositoryInfo | .getPdr _
  | .getSensorReading _ | .getStateSensorReadings _ | .jtagBypass _ | .jtagIdcode | .jtagExtest | .jtagClamp | .jtagHighz
  | .configurationRequest _ _ | .fwUpdVerifyDone | .bindComplete | .unbindComplete _ | .traceJunctionFail | .peerStopsAnswering _
  | .mainEnHoldExpiry _ | .mainRailsOff | .v3p3AuxLoss => true

end Sys2Proof
end

