-- ==== Sys2Proof/Certificates/Slice0/Obligations.lean ====
section
/-! DEFINITION. The statements: what the rules of the spec say the block does, for the provers. -/

open Sys2Proof Sys2Proof.Machine

/-! ## The queue of commands -/

/-- A step runs the command at the front of the queue on the state with the queue's rest; on an empty queue the block idles (the
idling is the model's choice, notes/assumptions/1.md). -/
def Obligations.StepRunsTheFrontCommand : Prop :=
  (∀ (s : State) (c : Instr) (rest : List Instr), s.pending = c :: rest → step s = exec c { s with pending := rest }) ∧
  (∀ s : State, s.pending = [] → step s = .next s)

/-! ## Yoren: scalar and vector slots (spec/04_yoren_core.md) -/

/-- R120, the operations of two operands: opcode, latency, result. -/
def scalarRows : List ((Issue → BitVec 56 → Instr) × Nat × Nat × (Word → Word → Word)) :=
  [(.add, 0x01, 1, fun a b => a + b),
   (.sub, 0x02, 1, fun a b => a - b),
   (.andOp, 0x03, 1, fun a b => a &&& b),
   (.orOp, 0x04, 1, fun a b => a ||| b),
   (.xorOp, 0x05, 1, fun a b => a ^^^ b),
   (.shl, 0x06, 1, fun a b => a <<< (b.toNat % 64)),
   (.shr, 0x07, 1, fun a b => a >>> (b.toNat % 64)),
   (.sar, 0x08, 1, fun a b => a.sshiftRight (b.toNat % 64)),
   (.slt, 0x0A, 1, fun a b => if a.toInt < b.toInt then 1 else 0),
   (.sltu, 0x0B, 1, fun a b => if a.toNat < b.toNat then 1 else 0),
   (.seq, 0x0C, 1, fun a b => if a = b then 1 else 0),
   (.mul, 0x10, 3, fun a b => BitVec.ofNat 64 (a.toNat * b.toNat)),
   (.mulh, 0x11, 3, fun a b => BitVec.ofInt 64 ((a.toInt * b.toInt).fdiv (2 ^ 64))),
   (.divOp, 0x12, 18, fun a b => if b = 0 then BitVec.allOnes 64 else BitVec.ofInt 64 (a.toInt.tdiv b.toInt)),
   (.remOp, 0x13, 18, fun a b => if b = 0 then a else BitVec.ofInt 64 (a.toInt.tmod b.toInt))]

/-- R119, R120, R141: every scalar operation of two operands writes the result of R120's table to DST with the latency of the table,
b being the immediate when I is 1; the taint is the OR of the sources' taints. Only the issuing thread changes (and what the trace
notes of the bundle); a disabled operation writes nothing. -/
def Obligations.ScalarOperationsPendTheirResults : Prop :=
  ∀ row ∈ scalarRows, ∀ (i : Issue) (w : BitVec 56) (s : State) (n : Nat), SoloIssue s n i →
    bitOf (slotWord row.2.1 w) 32 = false → ((row.2.1 = 0x12 ∨ row.2.1 = 0x13) → i.alt = false) →
    exec (row.1 i w) s = .next (
      let x := slotWord row.2.1 w
      let e := (issueView s n (thKey i.t)).e
      let a := readS e (8 * sSlot i + 1) (fA x)
      let b := if fBit33 x then (BitVec.ofInt 64 (fImm x), false) else readS e (8 * sSlot i + 2) (fB x)
      soloResult s n (thKey i.t) (sSlot i) row.2.2.1 x (.s (fDst x) (row.2.2.2 a.1 b.1) (a.2 || b.2)) (taintBit (a.2 || b.2)))

/-- R116, R120: the scalar operations of one operand, the predicate result of PSET, and NOP. -/
def Obligations.OneOperandScalarOperationsPendTheirResults : Prop :=
  ∀ (i : Issue) (w : BitVec 56) (s : State) (n : Nat), SoloIssue s n i → bitOf (slotWord 0 w) 32 = false →
    let e := (issueView s n (thKey i.t)).e
    let a := fun op => readS e (8 * sSlot i + 1) (fA (slotWord op w))
    let out := fun op lat rw t => (Host.Outcome.next (soloResult s n (thKey i.t) (sSlot i) lat (slotWord op w) rw (taintBit t)) : Ans)
    let d := fDst (slotWord 0 w)
    exec (.popc i w) s = out 0x18 2 (.s d (BitVec.ofNat 64 ((List.range 64).countP (fun k => (a 0x18).1.getLsbD k))) (a 0x18).2) (a 0x18).2 ∧
    exec (.clz i w) s = out 0x19 2
      (.s d (BitVec.ofNat 64 (((List.range 64).takeWhile (fun k => !(a 0x19).1.getLsbD (63 - k))).length)) (a 0x19).2) (a 0x19).2 ∧
    exec (.pset i w) s = out 0x0D 1 (.p (d % 8) (if (a 0x0D).1 = 0 then 0 else BitVec.allOnes 128) (BitVec.allOnes 128)) (a 0x0D).2 ∧
    (fBit33 (slotWord 0x14 w) = true →
      exec (.movi i w) s = out 0x14 1 (.s d (BitVec.ofInt 64 (fImm (slotWord 0x14 w))) false) false ∧
      exec (.movhi i w) s = out 0x15 1
        (.s d (((a 0x15).1 &&& 0xFFFFFFFF) ||| (BitVec.ofInt 64 (fImm (slotWord 0x15 w)) <<< 32)) (a 0x15).2) (a 0x15).2) ∧
    (∀ slot : Fin 8, exec (.nop i ⟨slot, 0⟩) s = .next (retireBundle s n (thKey i.t) (issueThread s (thKey i.t))))

/-- R121, R122, the integer operations on the elements of v[VA] and operand b: opcode, latency, result on `n`-bit elements. The
bitwise ones take every element type. -/
def vectorIntRows : List ((Issue → BitVec 56 → Instr) × Nat × Nat × Bool × (Nat → Nat → Nat → Nat)) :=
  [(.vadd, 0x01, 2, false, fun n a b => (a + b) % 2 ^ n),
   (.vsub, 0x02, 2, false, fun n a b => (a + (2 ^ n - b)) % 2 ^ n),
   (.vmul, 0x03, 3, false, fun n a b => a * b % 2 ^ n),
   (.vmin, 0x05, 2, false, fun n a b => if sgn n b < sgn n a then b else a),
   (.vmax, 0x06, 2, false, fun n a b => if sgn n a < sgn n b then b else a),
   (.vand, 0x07, 1, true, fun _ a b => a &&& b),
   (.vor, 0x08, 1, true, fun _ a b => a ||| b),
   (.vxor, 0x09, 1, true, fun _ a b => a ^^^ b),
   (.vshl, 0x0A, 2, false, fun n a b => a * 2 ^ (b % n) % 2 ^ n),
   (.vshr, 0x0B, 2, false, fun n a b => a / 2 ^ (b % n)),
   (.vsar, 0x0C, 2, false, fun n a b => unsgn n (sgn n a / 2 ^ (b % n)))]

/-- R117, R121, R141: an integer or bitwise vector operation writes, in every enabled element, the result on the elements of its
sources; the mask of its write is the enabled bytes, so that disabled elements keep their value, and no float flag is set. -/
def Obligations.VectorIntegerOperationsActByElement : Prop :=
  ∀ row ∈ vectorIntRows, ∀ (i : Issue) (w : BitVec 56) (s : State) (n : Nat), SoloIssue s n i →
    vIllegal (vSlot i) (slotWord row.2.1 w) = false → (fEt (slotWord row.2.1 w) < 4 ∨ row.2.2.2.1 = true) →
    let x := slotWord row.2.1 w
    let es := etBytes (fEt x)
    let e := (issueView s n (thKey i.t)).e
    let p := slotPred e (vSlot i) x
    let a := readV e (8 * vSlot i + 1) (fVa x)
    let b := vOpB e (vSlot i) x es
    ∃ r : BitVec 1024,
      exec (row.1 i w) s = .next (soloResult s n (thKey i.t) (vSlot i) row.2.2.1 x
        (.v (fVd x) r (elemMask p es) (a.2 || b.2)) (taintBit (a.2 || b.2))) ∧
      ∀ k < 128 / es, elemOn p es k = true → vElem r es k = row.2.2.2.2 (8 * es) (vElem a.1 es k) (vElem b.1 es k)

/-- R121, R122, the operations of two operands in a float element type. -/
def vectorFloatRows : List ((Issue → BitVec 56 → Instr) × Nat × (FFmt → Nat → Nat → Nat × Nat)) :=
  [(.vadd, 0x01, fAdd), (.vsub, 0x02, fSub), (.vmul, 0x03, fMul), (.vmin, 0x05, fMin), (.vmax, 0x06, fMax)]

/-- R112, R117, R121, R122: a float vector operation rounds each enabled element by the operation of its type, latency 4, and sets the
OR of the enabled elements' flags in TSW; VFMA rounds once; VCMP writes the test's outcome to every bit of the element. -/
def Obligations.VectorFloatOperationsActByElement : Prop :=
  ∀ (i : Issue) (w : BitVec 56) (s : State) (n : Nat), SoloIssue s n i →
    let e := (issueView s n (thKey i.t)).e
    let flags := fun (p : BitVec 128) (es : Nat) (f : Nat → Nat) =>
      fpBits ((List.range (128 / es)).foldl (fun acc k => acc ||| (if elemOn p es k then f k else 0)) 0)
    (∀ row ∈ vectorFloatRows, vIllegal (vSlot i) (slotWord row.2.1 w) = false → 4 ≤ fEt (slotWord row.2.1 w) →
      let x := slotWord row.2.1 w
      let es := etBytes (fEt x)
      let p := slotPred e (vSlot i) x
      let a := readV e (8 * vSlot i + 1) (fVa x)
      let b := vOpB e (vSlot i) x es
      let f := fun k => row.2.2 (etFmt (fEt x)) (vElem a.1 es k) (vElem b.1 es k)
      ∃ r : BitVec 1024,
        exec (row.1 i w) s = .next (soloResult s n (thKey i.t) (vSlot i) 4 x (.v (fVd x) r (elemMask p es) (a.2 || b.2))
          (flags p es (fun k => (f k).2) ||| taintBit (a.2 || b.2))) ∧
        ∀ k < 128 / es, elemOn p es k = true → vElem r es k = (f k).1 % 2 ^ (8 * es)) ∧
    (vIllegal (vSlot i) (slotWord 0x04 w) = false →
      let x := slotWord 0x04 w
      let es := etBytes (fEt x)
      let p := slotPred e (vSlot i) x
      let a := readV e (8 * vSlot i + 1) (fVa x)
      let b := vOpB e (vSlot i) x es
      let c := readV e (8 * vSlot i + 3) (fVc x)
      let f := fun k => fFma (etFmt (fEt x)) (vElem a.1 es k) (vElem b.1 es k) (vElem c.1 es k)
      ∃ r : BitVec 1024,
        exec (.vfma i w) s = .next (soloResult s n (thKey i.t) (vSlot i) 4 x (.v (fVd x) r (elemMask p es) (a.2 || b.2 || c.2))
          (flags p es (fun k => (f k).2) ||| taintBit (a.2 || b.2 || c.2))) ∧
        ∀ k < 128 / es, elemOn p es k = true → vElem r es k = (f k).1 % 2 ^ (8 * es)) ∧
    (vIllegal (vSlot i) (slotWord 0x0D w) = false →
      let x := slotWord 0x0D w
      let es := etBytes (fEt x)
      let p := slotPred e (vSlot i) x
      let a := readV e (8 * vSlot i + 1) (fVa x)
      let b := vOpB e (vSlot i) x es
      let f := fun k => vTest (fVc x) (fEt x) (vElem a.1 es k) (vElem b.1 es k)
      ∃ r : BitVec 128,
        exec (.vcmp i w) s = .next (soloResult s n (thKey i.t) (vSlot i) 2 x (.p (fVd x) r (elemMask p es))
          (flags p es (fun k => (f k).2) ||| taintBit (a.2 || b.2))) ∧
        ∀ j < 128, elemOn p es (j / es) = true → r.getLsbD j = (f (j / es)).1)

/-- R121, R122: VCVT converts each element that has a source element; VPERM picks bytes; VBCAST repeats the low bits of s[SS]; VEXT
extends the element LANE into s[SS] when it is enabled; VHASH and VRED compute their functions of the enabled elements, and VRED's NaN is
the canonical one also where one element alone takes part (R608). -/
def Obligations.VectorDataOperationsActByElement : Prop :=
  ∀ (i : Issue) (w : BitVec 56) (s : State) (n : Nat), SoloIssue s n i →
    let key := thKey i.t
    let v := vSlot i
    let e := (issueView s n key).e
    (vIllegal v (slotWord 0x0E w) = false →
      let x := slotWord 0x0E w
      let p := slotPred e v x
      let a := readV e (8 * v + 1) (fVa x)
      let es := etBytes (fEt x)
      let ds := etBytes (fVc x)
      let fl := (List.range (128 / ds)).foldl
        (fun acc k => acc ||| (if elemOn p ds k && decide (k < 128 / es) then (vConv (fEt x) (fVc x) (vElem a.1 es k)).2 else 0)) 0
      ∃ r : BitVec 1024,
        exec (.vcvt i w) s = .next (soloResult s n key v 4 x (.v (fVd x) r (elemMask p ds) a.2) (fpBits fl ||| taintBit a.2)) ∧
        ∀ k < 128 / ds, k < 128 / es → elemOn p ds k = true →
          vElem r ds k = (vConv (fEt x) (fVc x) (vElem a.1 es k)).1 % 2 ^ (8 * ds)) ∧
    (vIllegal v (slotWord 0x0F w) = false →
      let x := slotWord 0x0F w
      let es := etBytes (fEt x)
      let a := readV e (8 * v + 1) (fVa x)
      let b := vOpB e v x es
      ∃ r : BitVec 1024,
        exec (.vperm i w) s = .next (soloResult s n key v 3 x (.v (fVd x) r (elemMask (slotPred e v x) es) (a.2 || b.2)) (taintBit (a.2 || b.2))) ∧
        ∀ j < 128, vElem r 1 j = vElem a.1 1 (vElem b.1 1 j % 128)) ∧
    (vIllegal v (slotWord 0x10 w) = false →
      let x := slotWord 0x10 w
      let es := etBytes (fEt x)
      let a := readS e (8 * v + 2) (fSs x)
      ∃ r : BitVec 1024,
        exec (.vbcast i w) s = .next (soloResult s n key v 1 x (.v (fVd x) r (elemMask (slotPred e v x) es) a.2) (taintBit a.2)) ∧
        ∀ k < 128 / es, vElem r es k = a.1.toNat % 2 ^ (8 * es)) ∧
    (vIllegal v (slotWord 0x11 w) = false →
      let x := slotWord 0x11 w
      let es := etBytes (fEt x)
      let a := readV e (8 * v + 1) (fVa x)
      let y := vElem a.1 es (fLane x)
      exec (.vext i w) s = .next (
        if elemOn (slotPred e v x) es (fLane x) then
          soloResult s n key v 3 x
            (.s (fSs x) (if 4 ≤ fEt x then BitVec.ofNat 64 y else BitVec.ofInt 64 (sgn (8 * es) y)) a.2) (taintBit a.2)
        else retireBundle s n key (raiseTsw (issueThread s key) (taintBit a.2)))) ∧
    (vIllegal v (slotWord 0x12 w) = false →
      let x := slotWord 0x12 w
      let p := slotPred e v x
      let a := readV e (8 * v + 1) (fVa x)
      let b := vOpB e v x 8
      let seed := readS e (8 * v + 3) (fSs x)
      let t := a.2 || (if fVc x = 0 then false else if fVc x = 1 then seed.2 else b.2)
      ∃ r : BitVec 1024,
        exec (.vhash i w) s = .next (soloResult s n key v 6 x (.v (fVd x) r (elemMask p 8) t) (taintBit t)) ∧
        ∀ k < 16, elemOn p 8 k = true → vElem r 8 k =
          (if fVc x = 0 then mix64 (vElem a.1 8 k) 0
           else if fVc x = 1 then xxh64 seed.1.toNat (leBytes (vElem a.1 8 k) 8)
           else crc32c (vElem b.1 8 k % 2 ^ 32) (leBytes (vElem a.1 8 k) 8)) % 2 ^ 64) ∧
    (vIllegal v (slotWord 0x13 w) = false →
      let x := slotWord 0x13 w
      let es := etBytes (fEt x)
      let p := slotPred e v x
      let a := readV e (8 * v + 1) (fVa x)
      let on := (List.range (128 / es)).map (fun k => if elemOn p es k then some (vElem a.1 es k) else none)
      let sum := redTree (fun y z => if 4 ≤ fEt x then fAdd (etFmt (fEt x)) y z else ((y + z) % 2 ^ (8 * es), 0)) 7 on
      let nan := decide (4 ≤ fEt x) && sum.1.any (fIsNan (etFmt (fEt x)))
      let invalid := if nan && sum.1.any (fIsSnan (etFmt (fEt x))) then flNV else 0
      let t := if on.any Option.isSome then a.2 else (readV e (8 * v + 3) (fVd x)).2
      ∃ r : BitVec 1024,
        exec (.vred i w) s = .next (soloResult s n key v 8 x (.v (fVd x) r (BitVec.allOnes 128) t) (fpBits (sum.2 ||| invalid) ||| taintBit a.2)) ∧
        vElem r es 0 = (if nan then fNan (etFmt (fEt x)) else sum.1.getD 0) % 2 ^ (8 * es) ∧ (∀ k < 128 / es, 0 < k → vElem r es k = 0))

/-! ## Yoren: memory, unit, stream and control slots -/

/-- R118, R119, R123, R139, R141, R148, R177: an enabled, legal and aligned access of a basin. A load's value pends with latency 6, or 8
for a vector, sign-extended when SX is 1, and counts the lines that nothing has written; a store changes the bytes of its range by
the one operation on cluster memory. The unit's expert control and the counter's top are the forms of the exceptions and notices. -/
def Obligations.BasinAccessesMoveBytes : Prop :=
  ∀ (i : Issue) (w : BitVec 56) (s : State) (n : Nat), SoloIssue s n i →
    let key := thKey i.t
    let cl := key / 64
    let b := issueView s n key
    let th := issueThread s key
    let can := fun (op len : Nat) => mIllegal (slotWord op w) = false ∧ actsAs s n i 4 (slotWord op w) ∧
      inBasin s n cl (memAddr b (slotWord op w)).1 len = true ∧ (memAddr b (slotWord op w)).1 % len = 0
    let readable := fun (a len : Nat) => (isExpert s n = true → unwritten s cl a len = 0) ∧
      sat64 (gCtx s n).mmu.uninit (unwritten s cl a len) = false
    let len := 2 ^ fSz (slotWord 1 w)
    (can 0x01 len → readable (memAddr b (slotWord 0x01 w)).1 len →
      let a := memAddr b (slotWord 0x01 w)
      let r := clRead (countUninit (issueBase s key) n (unwritten s cl a.1 len)) cl a.1 len
      let y := if fBit33 (slotWord 0x01 w) then BitVec.ofInt 64 (sgn (8 * len) (ofLe r.1)) else BitVec.ofNat 64 (ofLe r.1)
      exec (.ldb i w) s = .next (retireIn r.2.2 n key
        (raiseTsw (pendResult th 4 6 (.s (fDst (slotWord 0x01 w)) y r.2.1)) (taintBit (a.2 || r.2.1))))) ∧
    (can 0x02 len →
      let a := memAddr b (slotWord 0x02 w)
      let v := readS b.e 34 (fDst (slotWord 0x02 w))
      exec (.stb i w) s = .next (retireIn (clWrite (issueBase s key) cl a.1 (leBytes v.1.toNat len) v.2) n key
        (raiseTsw th (taintBit (a.2 || v.2))))) ∧
    (can 0x03 128 → readable (memAddr b (slotWord 0x03 w)).1 128 →
      let a := memAddr b (slotWord 0x03 w)
      let r := clRead (countUninit (issueBase s key) n (unwritten s cl a.1 128)) cl a.1 128
      exec (.vldb i w) s = .next (retireIn r.2.2 n key
        (raiseTsw (pendResult th 4 8 (.v (fVd (slotWord 0x03 w)) (BitVec.ofNat 1024 (ofLe r.1)) (BitVec.allOnes 128) r.2.1))
          (taintBit (a.2 || r.2.1))))) ∧
    (can 0x04 128 →
      let a := memAddr b (slotWord 0x04 w)
      let v := readV b.e 34 (fVd (slotWord 0x04 w))
      exec (.vstb i w) s = .next (retireIn (storeMasked (issueBase s key) cl a.1 (leBytes v.1.toNat 128)
          (slotPred b.e 4 (slotWord 0x04 w)) v.2) n key (raiseTsw th (taintBit (a.2 || v.2)))))

/-- R123, R130, R132, R148: an enabled and legal global access whose address lies below 2⁴⁸, aligned, with its flag count below 63,
leaves the core as an operation that names its flag; the flag's count goes up; FENCE parks while an access of the thread is not
complete. -/
def Obligations.GlobalAccessesLeaveWithTheirFlag : Prop :=
  ∀ (i : Issue) (w : BitVec 56) (s : State) (n : Nat), SoloIssue s n i →
    let key := thKey i.t
    let b := issueView s n key
    let th := issueThread s key
    let mf := fMf (slotWord 5 w)
    let can := fun (op len : Nat) => mIllegal (slotWord op w) = false ∧ actsAs s n i 4 (slotWord op w) ∧
      (memAddr b (slotWord op w)).1 < 2 ^ 48 ∧ (memAddr b (slotWord op w)).1 % len = 0 ∧ Tab.get 0 th.m mf < 63
    let leave := fun (op : Nat) (kind : MemKind) (taint : Bool) => (Host.Outcome.next (
      let a := memAddr b (slotWord op w)
      let o : MemOp := { id := s.nextId, thread := key, ctx := n, mf := mf, kind := kind, va := BitVec.ofNat 64 a.1, taint := taint, pc := (gTh s key).pc, dropped := false }
      retireIn { issueBase s key with nextId := s.nextId + 1, ops := s.ops ++ [o] } n key (raiseTsw (withFlag th mf) (taintBit (a.2 || taint)))) : Ans)
    let x := slotWord 9 w
    let len := 2 ^ fSz x
    let v := readS b.e 34 (fDst x)
    let vv := readV b.e 34 (fVd x)
    (can 0x05 len → exec (.ldg i w) s = leave 0x05 (.ldg (fDst x) (fSz x) (fBit33 x)) false) ∧
    (can 0x06 len → exec (.stg i w) s = leave 0x06 (.stg v.1 (fSz x)) v.2) ∧
    (can 0x07 128 → exec (.vldg i w) s = leave 0x07 (.vldg (fVd x)) false) ∧
    (can 0x08 128 → exec (.vstg i w) s = leave 0x08 (.vstg vv.1 (slotPred b.e 4 (slotWord 0x08 w))) vv.2) ∧
    (can 0x09 len →
      let c := if fFn x = 6 then readS b.e 35 (fDst x + 1) else (0, false)
      exec (.amo i w) s = leave 0x09 (.amo (if fBit33 x then fFn x + 16 else fFn x) (fSz x) (fDst x) v.1 c.1) (v.2 || c.2)) ∧
    (mIllegal (slotWord 0x0A w) = false → actsAs s n i 4 (slotWord 0x0A w) →
      exec (.fence i w) s = .next (tjRun (uTh (issueBase s key) key (fun _ =>
        stepThread th (th.pc + 1) (if hasOps s n key then .parked [.fence] else .ready))) n key (th.pc + 1).toNat))

/-- R124, R132, R265, R284, R324, R330, R333, R352: a unit command enters its unit behind those it holds, with its flag raised; USTAT and
ALOOK return the unit's status word and the lookup's result word with latencies 4 and 12. -/
def Obligations.UnitSlotsReachTheirUnits : Prop :=
  ∀ (i : Issue) (w : BitVec 56) (s : State) (n : Nat), SoloIssue s n i →
    let key := thKey i.t
    let cl := key / 64
    let b := issueView s n key
    let th := issueThread s key
    let can := fun (op : Nat) => uIllegal (slotWord op w) = false ∧ actsAs s n i 5 (slotWord op w)
    (can 0x01 → Tab.get 0 th.m (fMf (slotWord 0x01 w)) < 63 → (gUnit s (unitKey n cl (fUnit (slotWord 0x01 w)))).held.length < 16 →
      let x := slotWord 0x01 w
      let a := readS b.e 41 (fA x)
      let s1 := uTh (issuing s key) key (fun t => withFlag (raiseTsw t (taintBit a.2)) (fMf x))
      let d := fetchBasin s1 n cl a.1.toNat 64
      exec (.ucmd i w) s = .next (issueEnd (submitUnit d.2 n cl (fUnit x) (.thread key (fMf x) b.pc) d.1) n key b.pc {} false)) ∧
    (∀ (s' : State) (u : Nat) (o : Owner) (d : Bytes × Bool),
      gUnit (submitUnit s' n cl u o (.ok d)) (unitKey n cl u) =
        { gUnit s' (unitKey n cl u) with
          held := (gUnit s' (unitKey n cl u)).held ++ [{ id := s'.nextId, owner := o, ctx := n, cmd := d.1, taint := d.2 }] }) ∧
    (can 0x02 → exec (.ustat i w) s = .next (soloResult s n key 5 4 (slotWord 0x02 w)
      (.s (fDst (slotWord 0x02 w)) (unitStatus s n cl (fUnit (slotWord 0x02 w))) false) 0)) ∧
    (can 0x03 →
      let x := slotWord 0x03 w
      let k := readV b.e 41 (fVa x)
      let r := amuLookup (issuing s key) n cl (k.1.setWidth 128)
      let t := amuTaint r.1 k.2
      exec (.alook i w) s = .next (issueEnd
        (addResult (setTsw r.2 key (taintBit t)) b 5 12 (.s (fDst x) (amuWord r.1 k.2) t)) n key b.pc {} false))

/-- R125, R132, R210, R221, R231, R239, R248: a stream operation fetches its descriptor from the basin, raises its flag and submits to its
queue; BREL returns berths; BSTAT returns the queue's status word with latency 6. -/
def Obligations.StreamSlotsReachTheirQueues : Prop :=
  ∀ (i : Issue) (w : BitVec 56) (s : State) (n : Nat), SoloIssue s n i →
    let key := thKey i.t
    let cl := key / 64
    let b := issueView s n key
    let th := issueThread s key
    let mf := fMfT (slotWord 0 w)
    let a := readS b.e 49 (fA (slotWord 0 w))
    let q := readS b.e 50 (fB (slotWord 0 w))
    let own := Owner.thread key mf b.pc
    let flagged := fun (t : Bool) => uTh (issuing s key) key (fun u => withFlag (raiseTsw u (taintBit t)) mf)
    let can := fun (op : Nat) => tIllegal (slotWord op w) = false ∧ actsAs s n i 6 (slotWord op w)
    let flag := Tab.get 0 th.m mf < 63
    let ends := fun (t : State) => (Host.Outcome.next (issueEnd t n key b.pc {} false) : Ans)
    (can 0x01 → flag → (queueCluster q.1.toNat = some cl → ownQueue s n q.1.toNat = true → queueRoom s q.1.toNat = true) →
      let d := fetchBasin (flagged (a.2 || q.2)) n cl a.1.toNat 64
      exec (.bsub i w) s = ends (submitBarge d.2 n q.1.toNat cl own (d.1.map (·.1)))) ∧
    (can 0x02 → exec (.brel i w) s = ends (returnBerths
      (uTh (issuing s key) key (fun u => raiseTsw u (taintBit (a.2 || q.2)))) n q.1.toNat cl a.1)) ∧
    (can 0x03 → flag → towCount s cl < 64 →
      let d := fetchBasin (flagged a.2) n cl a.1.toNat 64
      exec (.tsub i w) s = ends (submitTow d.2 n cl own d.1)) ∧
    (can 0x04 → flag → (flightsRun s cl < 4 ∨ flightsHeld s cl < 16) →
      let d := fetchFlight (flagged a.2) n cl a.1.toNat
      exec (.fsub i w) s = ends (submitFlight d.2 n cl own d.1)) ∧
    (can 0x05 → exec (.bstat i w) s = .next (soloResult s n key 6 6 (slotWord 0x05 w)
      (.s (fDst (slotWord 0x05 w)) (queueStatus s n a.1.toNat) a.2) (taintBit a.2)))

/-- R108, R112, R126, R128, R140: what each control operation does to the thread's program counter, state, flags and status word. A
taken branch makes the thread a Bubble; a wait that must wait parks it; EOS ends it, or parks it until its flag counts are zero. -/
def Obligations.ControlSlotsSteerTheThread : Prop :=
  ∀ (i : Issue) (w : BitVec 56) (s : State) (n : Nat), SoloIssue s n i →
    let key := thKey i.t
    let b := issueView s n key
    let th := issueThread s key
    let x := slotWord 0 w
    let a := readS b.e 57 (fA x)
    let can := fun (op : Nat) => cIllegal (slotWord op w) = false ∧ actsAs s n i 7 (slotWord op w)
    let goes := fun (u : Thread) (pc : BitVec 32) (st : TState) => tjRun (uTh (issueBase s key) key (fun _ => stepThread u pc st)) n key pc.toNat
    let branch := fun (u : Thread) (pc : BitVec 32) => (Host.Outcome.next (tjYoren (goes u pc .bubble) n key 1 0 pc.toNat) : Ans)
    let stay := fun (u : Thread) (st : TState) => (Host.Outcome.next (goes u (th.pc + 1) st) : Ans)
    let imm := BitVec.ofInt 32 (((gTh s key).pc.toNat : Int) + fImm x)
    let mask := BitVec.ofNat 16 (fld x 15 0)
    (can 0x01 → exec (.br i w) s = branch th imm) ∧
    (can 0x02 → a.1.toNat < 2 ^ 32 → exec (.bri i w) s = branch (raiseTsw th (taintBit a.2)) (a.1.setWidth 32)) ∧
    (can 0x03 → exec (.call i w) s =
      branch (pendResult th 7 1 (.s (fDst x) (BitVec.ofNat 64 ((gTh s key).pc.toNat + 1)) false)) imm) ∧
    (can 0x04 → exec (.mwait i w) s = stay th (if Tab.get 0 th.m (fMf x) = 0 then .ready else .parked [.flag (Fin.ofNat 16 (fMf x))])) ∧
    (can 0x05 → exec (.mwaitm i w) s =
      stay th (if (List.range 16).all (fun k => !mask.getLsbD k || Tab.get 0 th.m k == 0) then .ready else .parked [.flags mask])) ∧
    (can 0x07 → exec (.eos i w) s = .next (tjYoren (uTh (issueBase s key) key (fun _ =>
      stepThread th (th.pc + 1) (if flagsZero th then .ended else .parked [.eos]))) n key 3 0 (gTh s key).pc.toNat)) ∧
    (can 0x0D → exec (.stclr i w) s =
      stay { th with tsw := (th.tsw &&& ~~~(a.1 &&& tswW1c)) ||| taintBit a.2 } .ready)

/-- R112, R126, R159: TICKRD, TREM and STRD return the pound number, a time in nanoseconds that is not above the tick period (a free value), and the
status word, with latency 2. -/
def Obligations.StatusReadsReturnPoundTimeAndStatus : Prop :=
  ∀ (i : Issue) (w : BitVec 56) (s : State) (n : Nat), SoloIssue s n i →
    let key := thKey i.t
    let d := fDst (slotWord 0 w)
    let can := fun (op : Nat) => cIllegal (slotWord op w) = false ∧ actsAs s n i 7 (slotWord op w)
    let tsw := (issueThread s key).tsw
    (can 0x08 → exec (.tickrd i w) s = .next (soloResult s n key 7 2 (slotWord 0x08 w) (.s d s.tick.pound false) 0)) ∧
    (can 0x09 → ∃ t ≤ 10 * s.cfg.tickPeriod,
      exec (.trem i w) s = .next (soloResult s n key 7 2 (slotWord 0x09 w) (.s d (BitVec.ofNat 64 t) false) 0)) ∧
    (can 0x0C → exec (.strd i w) s = .next (soloResult s n key 7 2 (slotWord 0x0C w)
      (.s d (place s.cfg.chipNum 37 30 ||| place i.t.cl.val 29 24 ||| place i.t.core.val 23 21 ||| place i.t.th.val 20 18 |||
        (tsw &&& 0x31F)) false) 0))

/-- R108, R113, R126, R555: TSPAWN starts an Idle or Ended thread of the core, or sets SPAWNFAIL; SYNC arrives at its barrier and
parks while fewer threads than s[SA] have arrived; TRIG raises the tenant's trigger. -/
def Obligations.SpawnBarrierAndTriggerAct : Prop :=
  ∀ (i : Issue) (w : BitVec 56) (s : State) (n : Nat), SoloIssue s n i →
    let key := thKey i.t
    let b := issueView s n key
    let x := slotWord 0 w
    let a := readS b.e 57 (fA x)
    let can := fun (op : Nat) => cIllegal (slotWord op w) = false ∧ actsAs s n i 7 (slotWord op w)
    let k := key / 8 * 8 + fld x 31 29
    let bar := 8 * (key / 64) + fld x 2 0
    let here := Tab.get [] s.barriers bar ++ [key]
    let ends := fun (t : State) (c : CtrlOut) => (Host.Outcome.next (issueEnd t n key b.pc c false) : Ans)
    (can 0x06 → k ≠ key → ((gTh s k).st = .idle ∨ (gTh s k).st = .ended) →
      exec (.tspawn i w) s = ends (
        let pc := BitVec.ofInt 32 (((gTh s key).pc.toNat : Int) + sgn 29 (fld x 28 0))
        tjYoren (uTh (issuing s key) k (fun t => { t with st := .ready, pc := pc, member := true, staged := [] }))
          n k 0 (Tab.get {} (gCtx s n).sch.segs (key / 64)).segId.toNat pc.toNat) {}) ∧
    (can 0x06 → ¬ ((gTh s k).st = .idle ∨ (gTh s k).st = .ended) →
      exec (.tspawn i w) s = ends (uTh (issuing s key) key (fun t => raiseTsw t 0x200)) {}) ∧
    (can 0x0A → exec (.trig i w) s = ends (tenantTrigger (issuing s key) n (if x.getLsbD 0 then 1 else 0)) {}) ∧
    (can 0x0B →
      let s1 := uTh (issuing s key) key (fun t => raiseTsw t (taintBit a.2))
      exec (.sync i w) s = if a.1.toNat ≤ here.length then ends { s1 with barriers := Tab.set [] s.barriers bar [] } {}
        else ends { s1 with barriers := Tab.set [] s.barriers bar here } { parks := [.barrier (Fin.ofNat 8 (fld x 2 0)) a.1] })

/-- R116, R118, R120, R121, R127, R148: reserved bits, unlisted opcodes, wrong slots and invalid fields are illegal encodings, whatever the
predicate. -/
def Obligations.ReservedAndUnlistedEncodingsAreIllegal : Prop :=
  ∀ (slot op : Nat) (w : BitVec 56), slot < 8 → op < 256 →
    let x := slotWord op w
    (op = 0 → slotIllegal slot x = decide (w ≠ 0)) ∧
    (op ≠ 0 → bitOf x 32 = true → slotIllegal slot x = true) ∧
    (slot < 2 → op ≠ 0 → op ∉ [1, 2, 3, 4, 5, 6, 7, 8, 10, 11, 12, 13, 16, 17, 18, 19, 20, 21, 24, 25] → slotIllegal slot x = true) ∧
    (slot = 1 → (op = 0x12 ∨ op = 0x13) → slotIllegal slot x = true) ∧
    (slot < 2 → (op = 0x14 ∨ op = 0x15) → fBit33 x = false → slotIllegal slot x = true) ∧
    ((slot = 2 ∨ slot = 3) → op ≠ 0 → (0x13 < op ∨ fEt x = 7 ∨ bitOf x 51 ∨ bitOf x 45 ∨ bitOf x 39 ∨ fld x 10 0 ≠ 0) → slotIllegal slot x = true) ∧
    (slot = 3 → op ∈ [3, 4, 14, 19] → slotIllegal slot x = true) ∧
    (slot = 2 → op ∈ [10, 11, 12, 13, 15, 17, 18] → slotIllegal slot x = true) ∧
    (slot = 4 → op ≠ 0 → (10 < op ∨ (op = 9 ∧ (fSz x < 2 ∨ (fFn x = 6 ∧ fDst x % 2 = 1)))) → slotIllegal slot x = true) ∧
    (slot = 5 → op ≠ 0 → (3 < op ∨ fld x 31 3 ≠ 0 ∨ 4 < fUnit x) → slotIllegal slot x = true) ∧
    (slot = 6 → op ≠ 0 → (5 < op ∨ fBit33 x ∨ fld x 31 4 ≠ 0) → slotIllegal slot x = true) ∧
    (slot = 7 → op ≠ 0 → (13 < op ∨ fBit33 x ∨ fld x 35 34 ≠ 0) → slotIllegal slot x = true)

/-- The rows of the opcode table that are slot operations: slot, opcode. -/
def yorenRows : List ((Issue → BitVec 56 → Instr) × (Issue → Nat) × Nat) :=
  [(.add, sSlot, 0x01), (.sub, sSlot, 0x02), (.andOp, sSlot, 0x03), (.orOp, sSlot, 0x04), (.xorOp, sSlot, 0x05),
   (.shl, sSlot, 0x06), (.shr, sSlot, 0x07), (.sar, sSlot, 0x08), (.slt, sSlot, 0x0A), (.sltu, sSlot, 0x0B), (.seq, sSlot, 0x0C),
   (.pset, sSlot, 0x0D), (.mul, sSlot, 0x10), (.mulh, sSlot, 0x11), (.divOp, sSlot, 0x12), (.remOp, sSlot, 0x13), (.movi, sSlot, 0x14),
   (.movhi, sSlot, 0x15), (.popc, sSlot, 0x18), (.clz, sSlot, 0x19), (.vadd, vSlot, 0x01), (.vsub, vSlot, 0x02), (.vmul, vSlot, 0x03),
   (.vfma, vSlot, 0x04), (.vmin, vSlot, 0x05), (.vmax, vSlot, 0x06), (.vand, vSlot, 0x07), (.vor, vSlot, 0x08), (.vxor, vSlot, 0x09),
   (.vshl, vSlot, 0x0A), (.vshr, vSlot, 0x0B), (.vsar, vSlot, 0x0C), (.vcmp, vSlot, 0x0D), (.vcvt, vSlot, 0x0E), (.vperm, vSlot, 0x0F),
   (.vbcast, vSlot, 0x10), (.vext, vSlot, 0x11), (.vhash, vSlot, 0x12), (.vred, vSlot, 0x13), (.ldb, fun _ => 4, 0x01),
   (.stb, fun _ => 4, 0x02), (.vldb, fun _ => 4, 0x03), (.vstb, fun _ => 4, 0x04), (.ldg, fun _ => 4, 0x05), (.stg, fun _ => 4, 0x06),
   (.vldg, fun _ => 4, 0x07), (.vstg, fun _ => 4, 0x08), (.amo, fun _ => 4, 0x09), (.fence, fun _ => 4, 0x0A), (.ucmd, fun _ => 5, 0x01),
   (.ustat, fun _ => 5, 0x02), (.alook, fun _ => 5, 0x03), (.bsub, fun _ => 6, 0x01), (.brel, fun _ => 6, 0x02), (.tsub, fun _ => 6, 0x03),
   (.fsub, fun _ => 6, 0x04), (.bstat, fun _ => 6, 0x05), (.br, fun _ => 7, 0x01), (.bri, fun _ => 7, 0x02), (.call, fun _ => 7, 0x03),
   (.mwait, fun _ => 7, 0x04), (.mwaitm, fun _ => 7, 0x05), (.tspawn, fun _ => 7, 0x06), (.eos, fun _ => 7, 0x07), (.tickrd, fun _ => 7, 0x08),
   (.trem, fun _ => 7, 0x09), (.trig, fun _ => 7, 0x0A), (.sync, fun _ => 7, 0x0B), (.strd, fun _ => 7, 0x0C), (.stclr, fun _ => 7, 0x0D)]

/-- R107, R116, R117, R127, R148, R149: a slot operation whose encoding is illegal (enabled or not; the row NOP carries the word of any slot), or whose enabled access is not allowed, has no effect:
the thread stops, its segment notes the code, the fault record is written, and the context is Faulted at the next tick. The slots of
a bundle wait staged until the command that completes it (the model's choice, notes/assumptions/8.md); only a Ready thread of the context
that holds the pound issues, in its turn of the core's round-robin order. -/
def Obligations.ProgramExceptionsStopTheThread : Prop :=
  ∀ (i : Issue) (slot : Nat) (x : Word) (op : Instr) (s : State),
    ((∃ row ∈ yorenRows, ∃ w : BitVec 56, op = row.1 i w ∧ slot = row.2.1 i ∧ x = slotWord row.2.2 w) ∨ (∃ k : Fin 8, op = .nop i ⟨k, x⟩ ∧ slot = k.val)) →
    let key := thKey i.t
    (∀ (n : Nat) (c : Code), SoloIssue s n i → slotExc s (issueView s n key) slot x = some c →
      exec op s = .next (
        let s1 := uTh (useFree s) key (fun t => { t with st := .parked [.stopped], staged := [] })
        let s2 := uCtx s1 n (fun k => { k with sch := { k.sch with segs := Tab.modify {} k.sch.segs (key / 64) (fun g => { g with exc := lowCode g.exc c }) } })
        let s3 := errRecord s2 (threadAgent n key (gTh s key).pc 0) c
        uCtx s3 n (fun k => { k with sch := { k.sch with faultNext := lowCode k.sch.faultNext c } }))) ∧
    (∀ n : Nat, s.rot.holder = some n → holds s n = true → (gTh s key).st = .ready → myTurn s key = true → clServes s (key / 64) = true →
      i.more = true → exec op s = .next (uTh s key (fun t => { t with staged := stageSlot slot x t.staged }))) ∧
    ((∀ n, s.rot.holder = some n → holds s n = false) ∨ (gTh s key).st ≠ .ready ∨ myTurn s key = false ∨ clServes s (key / 64) = false →
      exec op s = .next s)

/-- R108, R133, R141, R190: a global access that is performed lands its load in the register, its taint in the destination and in TSW,
leaves the list and lowers its flag by 1; one that meets a translation fault parks with a record. A parked thread becomes Ready, or
Ended after EOS, once every wait is over; a Bubble becomes Ready. -/
def Obligations.CompletionsLandAndLowerTheirFlag : Prop :=
  (∀ (s : State) (id : Nat) (o : MemOp), s.ops.find? (fun p => p.id == id) = some o → isRunning s = true →
    (s.rot.saving && s.rot.savingCtx == some o.ctx) = false → opBlocked o s.ops = false → isParked s id = false →
    let ag := threadAgent o.ctx o.thread o.pc id
    (∀ (w : Option RegW) (s' : State), opMove ag o { s with racc := 0 } = .ok w s' →
      ∃ t, exec (.flagCompletion id) s = .next t ∧ t.ops = s'.ops.filter (fun p => p.id != id) ∧
        (o.dropped = false → ctxTh t o.ctx o.thread =
          (let th := match w with | some w => landReg (ctxTh s' o.ctx o.thread) w | none => ctxTh s' o.ctx o.thread
           { th with m := Tab.set 0 th.m o.mf (Tab.get 0 th.m o.mf - 1) }))) ∧
    (∀ (k acc va : Nat) (s' : State), opMove ag o { s with racc := 0 } = .error (.fault k acc va) s' →
      exec (.flagCompletion id) s = .next (parkFault (keepNet s s') ag k acc va))) ∧
  (∀ (s : State) (r : ThreadRef) (n : Nat) (why : List Park), s.rot.holder = some n → holds s n = true →
    (gTh s (thKey r)).st = .parked why → (∀ p ∈ why, parkOver s n (thKey r) (gTh s (thKey r)) p = true) →
    exec (.threadUnpark r) s = .next (uTh s (thKey r) (fun t => { t with st := if .eos ∈ why then .ended else .ready }))) ∧
  (∀ (s : State) (r : ThreadRef) (n : Nat), s.rot.holder = some n → holds s n = true → (gTh s (thKey r)).st = .bubble →
    exec (.bubbleEnd r) s = .next (uTh s (thKey r) (fun t => { t with st := .ready })))

/-! ## Harbor cores (spec/05_harbor_cores.md) -/

/-- R151, R159, R160, R161, R208, R209, R215, R231, R239: a running hart's HTICK, HTREM and HPOLL write the pound number, a time in nanoseconds not
above the tick period (a free value) and its outstanding count to rd and go on; HWAITT makes it wait for the next pound. x0 ignores writes;
where the trace takes no hart, going on is pc + 4 and nothing else. A submission of a hart with fewer than 64 outstanding whose descriptor is
read and passes its checks is put into its queue, counts as outstanding and returns 0; the first failing check's code is returned and nothing
is submitted; with 64 outstanding a code is returned and nothing else happens. A hart that does not run executes nothing. -/
def Obligations.HarborCommandsReadWaitAndSubmit : Prop :=
  (∀ (s : State) (h : Fin 16) (rd : BitVec 5) (n : Nat), hartRuns s h.val = some n →
    let put := fun (s : State) (v : Word) => (Host.Outcome.next (hartNext (uHart s h.val (fun t => hSet t rd v)) n h.val) : Ans)
    exec (.htick h rd) s = put s s.tick.pound ∧
    (∃ v ≤ 10 * s.cfg.tickPeriod, exec (.htrem h rd) s = put (useFree s) (BitVec.ofNat 64 v)) ∧
    exec (.hpoll h rd) s = put s (BitVec.ofNat 64 (gHart s h.val).out) ∧
    exec (.hwaitt h) s = .next (
      let pc := (gHart s h.val).pc
      tjHarbor (tjHartRun (uHart s h.val (fun t => { t with waiting := true, pc := t.pc + 4 })) n h.val pc) n h.val 3 pc)) ∧
  (∀ (s : State) (h : Fin 16) (rd rs1 rs2 : BitVec 5), hartRuns s h.val = none →
    ∀ c ∈ [Instr.htick h rd, .htrem h rd, .hpoll h rd, .hwaitt h, .hbsub h rd rs1 rs2, .hfsub h rd rs1 rs2, .htsub h rd rs1], exec c s = .next s) ∧
  (∀ (s : State) (n h why : Nat) (pc : Word), tjWants s n 13 none = false →
    hartNext s n h = uHart s h (fun t => { t with pc := t.pc + 4 }) ∧ tjHartRun s n h pc = s ∧ tjHarbor s n h why pc = s) ∧
  (∀ (t : Hart) (v : Word), hSet t 0 v = t ∧ hReg t 0 = 0) ∧
  (∀ (s : State) (h : Fin 16) (rd rs1 rs2 : BitVec 5) (n : Nat), hartRuns s h.val = some n →
      let ag := hartAgent n h.val (gHart s h.val).pc
      let a := (hReg (gHart s h.val) rs1).toNat
      let c := (hReg (gHart s h.val) rs2).toNat
      let clean := fun (s' : State) => { dropReqs s' ag.id with racc := 0 }
      let answer := fun (code : Code) (s' : State) => hartNext (uHart s' h.val (fun t => hSet t rd (BitVec.ofNat 64 code.toNat))) n h.val
      let counted := fun (s' : State) => uHart { s' with rot := { s'.rot with poundStarted := true } } h.val (fun t => { t with out := t.out + 1 })
      (64 ≤ (gHart s h.val).out → ∀ k ∈ [Instr.hbsub h rd rs1 rs2, .hfsub h rd rs1 rs2, .htsub h rd rs1], ∃ code, code ≠ 0 ∧ exec k s = .next (answer code s)) ∧
      ((gHart s h.val).out < 64 → ∀ (d : Bytes × Bool) (s' : State), hartFetch ag a 64 { s with racc := 0 } = .ok d s' →
        (bargeReject (clean s') n c 63 d.1 = none → queueRoom (clean s') c = true →
          exec (.hbsub h rd rs1 rs2) s = .next (answer 0 (enqueueBarge (counted (clean s')) n c 63 (.hart h.val) d.1))) ∧
        (bargeReject (clean s') n c 63 d.1 = none → queueRoom (clean s') c = false → exec (.hbsub h rd rs1 rs2) s = .next (answer eBusy (clean s'))) ∧
        (∀ code, bargeReject (clean s') n c 63 d.1 = some code → code ≠ 0 →
          exec (.hbsub h rd rs1 rs2) s = .next (answer code (clean s'))) ∧
        (towOk d.1 = true → exec (.htsub h rd rs1) s = .next (answer 0 (submitTow (counted (clean s')) n 63 (.hart h.val) (.ok d)))) ∧
        (towOk d.1 = false → exec (.htsub h rd rs1) s = .next (answer eRange (clean s')))) ∧
      ((gHart s h.val).out < 64 → ∀ (hd : Bytes × Bool) (s1 : State) (rs : Bytes × Bool) (s2 : State), hartFetch ag a 64 { s with racc := 0 } = .ok hd s1 →
        hartFetch ag (a + 64) (32 * (fNlast hd.1 + 1)) s1 = .ok rs s2 →
        let recs := (List.range (fNlast hd.1 + 1)).map (fun i => slice rs.1 (32 * i) 32)
        let room := flightsRun (clean s2) c < 4 ∨ flightsHeld (clean s2) c < 16
        (c < 48 → c < (manOf s n).clusters → flightOk (clean s2) n c hd.1 recs = true →
          (room → exec (.hfsub h rd rs1 rs2) s = .next (answer 0 (enqueueFlight (counted (clean s2)) n c (.hart h.val) hd.1 recs))) ∧
          (¬ room → exec (.hfsub h rd rs1 rs2) s = .next (answer eBusy (clean s2)))) ∧
        (flightOk (clean s2) n c hd.1 recs = false → exec (.hfsub h rd rs1 rs2) s = .next (answer eRange (clean s2))) ∧
        (c < 48 → (manOf s n).clusters ≤ c → flightOk (clean s2) n c hd.1 recs = true → exec (.hfsub h rd rs1 rs2) s = .next (answer eDenied (clean s2))) ∧
        (48 ≤ c → exec (.hfsub h rd rs1 rs2) s = .next (answer eRange (clean s2)))))

/-- R152, R154 to R159, R167: an access of a hart to bytes of its memory goes through the VS stage, which in bare mode passes the address on; a
store writes the low bytes of its register at x[base] + off, a load extends what it read; a fault of the VS stage takes its exception, a load
of a tainted granule the load access fault, a cluster window E_RANGE with a record; a floating-point load is boxed, an atomic operation
returns what was there, cbo.zero stores 64 zeros, a fence only goes on, a register access returns the old value and writes the new one, and
the time register lies between the tick that opened the pound and the next. A nonzero funct7 or funct3 7 is the illegal-instruction
exception, in VS mode. A failing core is fenced and ends the program of the hart that it serves. The causes of the VS stage and the forms other
than a load or store of an integer register are PRESUMED from RISC-V (notes/assumptions). -/
def Obligations.HarborAccessesAndExceptions : Prop :=
  ∀ (s : State) (h : Fin 16) (n : Nat), hartRuns s h.val = some n →
    let t := gHart s h.val
    let ag := hartAgent n h.val t.pc
    let clean := fun (s' : State) => { dropReqs s' ag.id with racc := 0 }
    let begun := { s with racc := 0 }
    let does := fun (op : HOp) (t : State) => exec (.harborAccess h op) s = .next t
    (∀ (store : Bool) (va len : Nat) (data : Bytes) (load : Nat → Hart → Hart),
      let done := hartMem s n h.val store va len data load
      let window := fun (s1 : State) (ps : List (Nat × Nat)) => ps.any (fun p => hartWindow s1 n (if store then accWrite else accRead) p.1 p.2)
      (vsLevels t.satp = none → hartVs ag t store va len begun = .ok (.inr [(va, len)]) begun) ∧
      (∀ c s1, hartVs ag t store va len begun = .ok (.inl c) s1 → done = hartTrap (clean s1) n h.val c (BitVec.ofNat 64 va) 0) ∧
      (∀ ps s1, hartVs ag t store va len begun = .ok (.inr ps) s1 →
        (window s1 ps = true → ∃ m, done = hartNext (errRecord m ag eRange) n h.val ∧ m.mem = s.mem ∧ m.harts = s.harts) ∧
        (window s1 ps = false → store = true → ∀ s', hartStore ag ps data s1 = .ok () s' → done = hartNext (uHart (clean s') h.val (load 0)) n h.val) ∧
        (window s1 ps = false → store = false → ∀ rs s', hartLoad ag ps s1 = .ok rs s' →
          (rs.findSome? (fun (g, x) => taintedAt g x) = none →
            done = hartNext (uHart (clean s') h.val (load (ofLe (rs.flatMap (fun (_, x) => x.flatMap (·.1)))))) n h.val) ∧
          (∀ g, rs.findSome? (fun (g, x) => taintedAt g x) = some g →
            done = hartTrap (clean s') n h.val 5 (BitVec.ofNat 64 va) (BitVec.ofNat 64 g))))) ∧
    (∀ a : HAccess,
      let len := 2 ^ a.sz.val
      does (.mem a) (hartMem s n h.val a.store (hReg t a.base + BitVec.ofInt 64 (sgn 12 a.off.toNat)).toNat len (leBytes (hReg t a.reg).toNat len)
        (fun x u => if a.store then u else hSet u a.reg (if a.sext then BitVec.ofInt 64 (sgn (8 * len) x) else BitVec.ofNat 64 x)))) ∧
    (∀ (store : Bool) (sz : Fin 4) (reg base : BitVec 5) (off : BitVec 12), fld t.sstatus 14 13 ≠ 0 → sz ≠ 0 →
      let len := 2 ^ sz.val
      does (.fp store sz reg base off) (hartMem s n h.val store (hReg t base + BitVec.ofInt 64 (sgn 12 off.toNat)).toNat len
        (leBytes (Tab.get 0 t.f reg.toNat).toNat len) (fun x u => if store then u else fsDirty { u with f := Tab.set 0 u.f reg.toNat (fBox sz.val x) }))) ∧
    (∀ (store : Bool) (nf : Fin 4) (reg base : BitVec 5), fld t.sstatus 10 9 ≠ 0 → reg.toNat % 2 ^ nf.val = 0 → t.vstart = 0 →
      let k := 2 ^ nf.val
      does (.vec store nf reg base) (hartMem s n h.val store (hReg t base).toNat (32 * k) (hvBytes t reg.toNat k)
        (fun x u => vsDirty { (if store then u else hvPut u reg.toNat k 0 (leBytes x (32 * k))) with vstart := 0 }))) ∧
    (∀ (fn : Fin 10) (wide : Bool) (rd src base : BitVec 5),
      let sz := if wide then 3 else 2
      let va := (hReg t base).toNat
      fn ≠ 6 → va % 2 ^ sz = 0 → ∀ (x : Nat) (s' : State), hartAmoOp ag n t va sz fn.val (hReg t src).toNat begun = .ok (.loaded x) s' →
        does (.amo fn wide rd src base) (hartNext (uHart (clean s') h.val (fun u => hSet u rd (BitVec.ofInt 64 (sgn (8 * 2 ^ sz) x)))) n h.val)) ∧
    (∀ base : BitVec 5, t.user = false ∨ t.senvcfg.getLsbD 7 = true →
      does (.cboZero base) (hartMem s n h.val true ((hReg t base).toNat / 64 * 64) 64 (List.replicate 64 0) (fun _ u => u))) ∧
    does .fence (hartNext s n h.val) ∧
    (∀ (fn : Fin 3) (num : BitVec 12) (imm : Bool) (rd src : BitVec 5) (old : Word), csrRead s t s.free num.toNat = some old → csrOpen t num.toNat = true →
      let writes := fn = 0 ∨ src ≠ 0
      let x := if imm then src.setWidth 64 else hReg t src
      let v := if fn = 0 then x else if fn = 1 then old ||| x else old &&& ~~~x
      (writes → num.toNat < 0xC00 → does (.csr fn num imm rd src) (hartNext (uHart (useFree s) h.val (fun _ => hSet (csrWrite t num.toNat v) rd old)) n h.val)) ∧
      (¬ writes → does (.csr fn num imm rd src) (hartNext (uHart (useFree s) h.val (fun u => hSet u rd old)) n h.val))) ∧
    (∃ d, d < max 1 s.cfg.tickPeriod ∧ csrRead s t s.free 0xC01 = some (s.tick.pound * BitVec.ofNat 64 s.cfg.tickPeriod + BitVec.ofNat 64 d)) ∧
    (t.user = false → tjWants s n 13 none = false → ∃ m, does .sret m ∧ m.mem = s.mem ∧ (gHart m h.val).pc = t.sepc ∧ (gHart m h.val).x = t.x ∧
      (gHart m h.val).user = !t.sstatus.getLsbD 8 ∧ (gHart m h.val).sstatus.getLsbD 1 = t.sstatus.getLsbD 5) ∧
    (∀ w : BitVec 32, w.extractLsb' 0 7 = 0x0B → (w.extractLsb' 25 7 ≠ 0 ∨ w.extractLsb' 12 3 = 7) →
      exec (.harborIllegalInstruction h w) s = .next (hartTrap s n h.val 2 (w.setWidth 64) 0)) ∧
    (∀ (cause tval m2 : Word), tjWants s n 13 none = false →
      let u := gHart (hartTrap s n h.val cause tval m2) h.val
      u.scause = cause ∧ u.sepc = t.pc ∧ u.stval = tval ∧ u.mtval2 = m2 ∧ u.pc = t.stvec &&& ~~~(3 : Word) ∧ u.x = t.x ∧ u.user = false) ∧
    (∀ core : Fin 16, coreOf s h.val = some core.val → exec (.harborCoreFail core) s = .next (
      let s1 := { s with fw := { s.fw with hartFenced := s.fw.hartFenced ||| ((1 : BitVec 16) <<< core.val) } }
      let s2 := errRecord s1 ag eUnitLost
      uHart { s2 with faults := s2.faults.filter (fun f => f.id != ag.id) } h.val (fun t => { t with ended := true, waiting := false })))

/-! ## Mapping commands and HBM (spec/06_memory_and_translation.md) -/

/-- R180, R183, R184, R185, R188, R190: a MAP of a free local page that passes its checks writes a zero-fill leaf for the page, under pointers to
its tables, and makes the context its owner, a MAP_BLOCK one for 512 MiB; UNMAP clears the leaf, zeros the page with clear taints and releases
it, here or, for a page of another chip, there, where it waits for the answer; a page that the context owns already is refused there too;
PROTECT changes the leaf's W bit alone. With no agent waiting on a fault nothing else of memory changes. -/
def Obligations.MappingCommandsChangeTheTables : Prop :=
  ∀ (s : State) (fn ctx : Fin 64) (w : Bool), MmuTakes s fn.val ctx.val → s.faults = [] →
    let n := ctx.val
    let va := mmuVa s n
    let pa := mmuPa s n
    let page := localOf pa / 65536
    (chipOf pa = s.cfg.chipNum → localOf pa + 65536 ≤ ctxPageEnd → isMapped s n va false = false →
      ownedBy s page 1 (· != 0) = false → tablesUsed s + (missingTables s n 3 va).length ≤ 16384 →
      ∃ t, exec (.mapPage fn ctx w) s = .next t ∧ mmuBusyWith t fn.val n 0 ∧
        walk t n va = .leaf 3 (pteKey n 3 va) (leafWord pa false (isPinned s n va 65536) true w 0) ∧
        (∀ l ∈ [1, 2], pteOf t (pteKey n l va) = place (tablePa t (tableKey n (l + 1) va) / 65536) 59 24 ||| 1) ∧
        Tab.get 0 t.mem.own page = n + 1 ∧ t.mem.hbm = s.mem.hbm ∧ t.mem.taint = s.mem.taint ∧ t.threads = s.threads) ∧
    (chipOf pa = s.cfg.chipNum → pa % 2 ^ 29 = 0 → va % 2 ^ 29 = 0 → localOf pa + 2 ^ 29 ≤ ctxPageEnd → isMapped s n va true = false →
      ownedBy s page 8192 (· != 0) = false → tablesUsed s + (missingTables s n 2 va).length ≤ 16384 →
      ∃ t, exec (.mapBlock fn ctx w) s = .next t ∧ mmuBusyWith t fn.val n 0 ∧
        walk t n va = .leaf 2 (pteKey n 2 va) (leafWord pa true (isPinned s n va (2 ^ 29)) true w 0) ∧
        (∀ p, page ≤ p → p < page + 8192 → Tab.get 0 t.mem.own p = n + 1) ∧ t.mem.hbm = s.mem.hbm ∧ t.mem.taint = s.mem.taint) ∧
    (∀ level key e, namedLeaf s n va = some (level, key, e) → bitOf e 4 = false → chipOf (fld e 59 24 * 65536) = s.cfg.chipNum →
      let lo := localOf (fld e 59 24 * 65536)
      let hi := lo + (if level = 2 then 8192 else 1) * 65536
      ∃ t, exec (.unmap fn ctx) s = .next t ∧ mmuBusyWith t fn.val n 0 ∧ pteOf t key = 0 ∧
        (∀ a, Tab.get 0 t.mem.hbm a = if lo ≤ a ∧ a < hi then 0 else Tab.get 0 s.mem.hbm a) ∧
        (∀ l, lo / 64 ≤ l → l < hi / 64 → Tab.get false t.mem.taint l = false) ∧
        (∀ p, lo / 65536 ≤ p → p < hi / 65536 → Tab.get 0 t.mem.own p = 0)) ∧
    (∀ level key e, namedLeaf s n va = some (level, key, e) → bitOf e 4 = false → chipOf (fld e 59 24 * 65536) ≠ s.cfg.chipNum →
      ∃ t, exec (.unmap fn ctx) s = .next t ∧ mmuBusyWith t fn.val n 0 ∧ (gCtx t n).mmu.waitChip = true ∧ pteOf t key = 0 ∧
        t.mem.hbm = s.mem.hbm ∧ t.mem.own = s.mem.own) ∧
    (∀ (m a : Nat) (block : Bool),
      let p := localOf a / 65536
      let pages := if block then 8192 else 1
      (ownedBy s p pages (· == m + 1) = true → mapFor s m a block = (eRange, s)) ∧
      (ownedBy s p pages (· != m + 1) = true → unmapFor s m a block = (eRange, s)) ∧
      (chipOf a = s.cfg.chipNum → localOf a + pages * 65536 ≤ ctxPageEnd → ownedBy s p pages (· != m + 1) = false →
        (unmapFor s m a block).1 = 0 ∧ (∀ q, p ≤ q → q < p + pages → Tab.get 0 (unmapFor s m a block).2.mem.own q = 0) ∧
        ∀ b, Tab.get 0 (unmapFor s m a block).2.mem.hbm b = if 65536 * p ≤ b ∧ b < 65536 * (p + pages) then 0 else Tab.get 0 s.mem.hbm b)) ∧
    (∀ level key e, namedLeaf s n va = some (level, key, e) →
      ∃ t, exec (.protect fn ctx w) s = .next t ∧ mmuBusyWith t fn.val n 0 ∧
        pteOf t key = (e &&& ~~~(2 : Word)) ||| (if w then 2 else 0) ∧ (∀ k, k ≠ key → pteOf t k = pteOf s k) ∧ t.mem.hbm = s.mem.hbm)

/-- R199, R200, R201, R202, R610: EXPORT of an unpinned local page writes its blob, encrypted under the next version, to host memory and
releases the page; IMPORT places a blob whose tag and version verify at a free page with its bytes and taints, and refuses others
with E_HOST, E_INTEGRITY and E_REPLAY. -/
def Obligations.ExportAndImportMovePages : Prop :=
  ∀ (s : State) (fn ctx : Fin 64), MmuTakes s fn.val ctx.val → s.faults = [] →
    let n := ctx.val
    let va := mmuVa s n
    let pa := mmuPa s n
    let loc := localOf pa
    let k := (memKeys s n).exp
    (∀ key e, namedLeaf s n va = some (3, key, e) → bitOf e 4 = false → chipOf (fld e 59 24 * 65536) = s.cfg.chipNum →
      mmuHost s n % 64 = 0 → (gCtx s n).versions.length < 262144 → s.mem.lineErr = [] → s.mem.noResp = [] →
      let v := (gCtx s n).expNext
      let p := pageBytes s n e (localOf (fld e 59 24 * 65536))
      let head := blobHead n va v (bitOf e 1) (fld e 23 8)
      let ct := gcmCrypt k (blobIv va v) p.1
      let tag := gcmTag k (blobIv va v) (head ++ bitmapBytes p.2.1) ct
      ∃ t, exec (.exportPage fn ctx) s = .next t ∧ mmuBusyWith t fn.val n 0 ∧ pteOf t key = 0 ∧
        t.out = s.out ++ [.hostWrite 0 (BitVec.ofNat 64 (mmuHost s n)) (head ++ tag ++ List.replicate 16 0 ++ bitmapBytes p.2.1 ++ ct)] ∧
        (gCtx t n).expNext = v + 1 ∧ Tab.get 0 (gCtx t n).versions (va / 65536) = v) ∧
    (mmuHost s n % 64 = 0 → chipOf pa = s.cfg.chipNum → loc + 65536 ≤ ctxPageEnd → isMapped s n va false = false →
      ownedBy s (loc / 65536) 1 (· != 0) = false → tablesUsed s + (missingTables s n 3 va).length ≤ 16384 →
      (∃ t, exec (.importPage fn ctx .failed) s = .next t ∧ mmuBusyWith t fn.val n eHost ∧ t.mem = s.mem) ∧
      (∀ b : Bytes,
        let head := slice b 0 32
        let bva := fld (wordAt b 0) 47 16 * 65536
        let v := wordAt b 8
        let ct := slice b 0xC0 65536
        let good := gcmTag k (blobIv bva v) (head ++ slice b 0x40 128) ct = slice b 0x20 16
        let newest := (wordAt b 0).toNat = va ∧ v ≠ 0 ∧ Tab.get 0 (gCtx s n).versions (va / 65536) = v
        (¬ good → ∃ t, exec (.importPage fn ctx (.data b)) s = .next t ∧ mmuBusyWith t fn.val n eIntegrity ∧ t.mem = s.mem) ∧
        (good → ¬ newest → ∃ t, exec (.importPage fn ctx (.data b)) s = .next t ∧ mmuBusyWith t fn.val n eReplay ∧ t.mem = s.mem) ∧
        (good → newest → ∃ t, exec (.importPage fn ctx (.data b)) s = .next t ∧ mmuBusyWith t fn.val n 0 ∧
          Tab.getMany 0 t.mem.hbm loc 65536 = gcmCrypt k (blobIv bva v) ct ∧
          (∀ i < 1024, Tab.get false t.mem.taint (loc / 64 + i) = (ofLe (slice b 0x40 128)).testBit i) ∧
          Tab.get 0 t.mem.own (loc / 65536) = n + 1 ∧ Tab.get 0 (gCtx t n).versions (va / 65536) = 0 ∧
          pteOf t (pteKey n 3 va) ≠ 0)))

/-- R186, R195, R196, R206: a mapping command given while one is in progress is refused with E_BUSY; DROP takes the oldest page request off
the queue; QUERY reports PIN, D and A and clears A; an unlisted OP ends at once with E_RANGE; the end of a command clears BUSY and
shows its code. -/
def Obligations.MappingCommandsOneAtATime : Prop :=
  ∀ (s : State) (fn ctx : Fin 64),
    let n := ctx.val
    let va := mmuVa s n
    (HostWrites s fn.val → mmuReach s fn.val n = true → (gCtx s n).mmu.busy = true →
      ∀ c ∈ [Instr.mapPage fn ctx true, .mapBlock fn ctx true, .unmap fn ctx, .protect fn ctx true, .exportPage fn ctx,
        .importPage fn ctx .failed, .drop fn ctx, .query fn ctx, .mmuOpInvalid fn ctx 9],
        exec c s = .next (uFn s fn.val (fun f => { f with accCode := eBusy }))) ∧
    (MmuTakes s fn.val n → s.faults = [] → ∃ t, exec (.drop fn ctx) s = .next t ∧ mmuBusyWith t fn.val n 0 ∧
      (gCtx t n).mmu.prq = (gCtx s n).mmu.prq.tail ∧ t.mem = s.mem) ∧
    (∀ level key e, MmuTakes s fn.val n → walk s n va = .leaf level key e →
      ∃ t, exec (.query fn ctx) s = .next t ∧ mmuBusyWith t fn.val n 0 ∧ pteOf t key = e &&& ~~~(0x40 : Word) ∧
        (gCtx t n).mmu.qry = BitVec.ofNat 3 (4 * b2n (bitOf e 4) + 2 * b2n (bitOf e 5) + b2n (bitOf e 6)) ∧
        (∀ k, k ≠ key → pteOf t k = pteOf s k)) ∧
    (∀ op : BitVec 4, MmuTakes s fn.val n → (op = 0 ∨ 8 < op.toNat) →
      ∃ t, exec (.mmuOpInvalid fn ctx op) s = .next t ∧ (gCtx t n).mmu.code = eRange ∧ (gCtx t n).mmu.busy = false ∧ t.mem = s.mem) ∧
    ((gCtx s n).mmu.busy = true → (gCtx s n).mmu.waitChip = false →
      exec (.mmuCommandDone ctx) s = .next (uCtx s n (fun c => { c with mmu := { c.mmu with busy := false, code := c.mmu.result, result := 0 } })))

/-- R24, R104, R173, R207, R575, R576, R577, R579: the patrol taints the lines it cannot correct, counts both kinds in the stack's registers and starts its hours anew; a
transaction without a response marks its line until the read or write that meets it; a failed stack or tile link takes the 2840 offline,
which ends every context with E_UNIT_LOST. -/
def Obligations.HbmFailuresTaintOrStop : Prop :=
  ∀ s : State, isReady s = true →
    (∀ (l : Nat), 64 * l < hbmEnd → s.mem.lineErr = [] →
      ∃ t, exec (.hbmPatrol [l] []) s = .next t ∧ Tab.get false t.mem.taint l = true ∧ t.mem.patrolRun = 0 ∧
        (gStack t (stackOf (64 * l))).ue = bump16 (gStack s (stackOf (64 * l))).ue 1 ∧ t.mem.hbm = s.mem.hbm ∧
        ∃ t', exec (.hbmPatrol [] [l]) s = .next t' ∧ t'.mem.taint = s.mem.taint ∧
          (gStack t' (stackOf (64 * l))).ce = bump16 (gStack s (stackOf (64 * l))).ce 1 ∧ t'.mem.hbm = s.mem.hbm) ∧
    (∀ l, 64 * l < hbmEnd → exec (.hbmTimeout l none) s = .next { s with mem := { s.mem with noResp := Tab.set false s.mem.noResp l true } }) ∧
    (∀ c ∈ [Instr.ucieModuleFail, .hbmStackFail 0, .hbmStackFail 1, .hbmStackFail 2, .hbmStackFail 3, .hbmStackFail 4, .hbmStackFail 5],
      ∃ t, exec c s = .next t ∧ t.boot.phase = .offline ∧ t.rot.holder = none ∧ t.mem.hbm = s.mem.hbm ∧
        ∀ n < 64, (gCtx t n).st = .free ∨ (gCtx t n).st = .faulted)

/-! ## The units of a cluster (spec/08 to spec/11) -/

/-- R265, R284, R324, R333, R352: the front command of a unit that its checks accept works through its positions and, where none of them
ends in an error, leaves the unit with its flag lowered; a row of another OP leaves it, and so does an AMU update behind an older BUILD and a
Dense Array command that waits or whose turn it is not; one that the checks reject ends with E_RANGE. -/
def Obligations.UnitRowsRunTheirCommandToItsEnd : Prop :=
  ∀ row ∈ tableRows ++ featureRows ++ searchRows, ∀ (cl : Fin 48) (s : State) (c : UCmd), RowMeets row s cl.val c →
    (∀ (t : State) (k : Nat), row.ok s c = true → aOp c.cmd = row.op → row.starts s cl.val c = true → k < row.fuel c.cmd →
      CmdRuns row cl.val c.id (row.dst c.cmd) k (row.begins s cl.val) t → exec (row.cmd cl .queue) s = .next t) ∧
    (row.ok s c = true → aOp c.cmd ≠ row.op → exec (row.cmd cl .queue) s = .next s) ∧
    (row.ok s c = true → row.unit = 2 → row.starts s cl.val c = false → exec (row.cmd cl .queue) s = .next s) ∧
    (row.ok s c = true → row.unit = 4 → c.waiting = true ∨ turnOf s cl.val 4 0 = false → exec (row.cmd cl .queue) s = .next s) ∧
    (row.ok s c = false → exec (row.cmd cl .queue) s = .next (endCmd s cl.val row.unit (row.agent cl.val c) c eRange))

/-- R219, R220, R237, R238, R241, R259, R286, R352: a stage of a running flight reads its command once; with a command of the row's OP it takes its
turn, in which it hands its output on berth by berth while its ring has a free one, works on the berths that it was given, and takes the next
one from the ring that feeds it; a misaligned command, or one that the unit rejects (E_RANGE), ends the flight with the stage's number. -/
def Obligations.FlightStagesRunOnTheirUnits : Prop :=
  (∀ row ∈ tableRows ++ featureRows ++ searchRows, ∀ (cl : Fin 48) (s : State) (f : Flight) (k : Fin 8) (st : Stage),
    StageMeets s cl.val row.unit f k.val st →
    let ag := stageAgent f k.val
    let s0 := stageFed s f k.val
    let stopped := fun (m : State) => row.after (refreshWait (traceParked s m f ag)) f.id k.val
    (∀ (cmd : Bytes) (st1 : Stage) (j : Nat) (t : State), st.cmd = some cmd → stageNow s0 f.id k.val = some st1 → st1.cmd = some cmd → aOp cmd = row.op →
      j < turnFuel → StageTurn row cl.val f.id k.val j 1 (served s0 cl.val row.unit (stageKey f.id k.val)) t →
      exec (row.cmd cl (.stage f.id k)) s = .next (stageOver row s t f k.val)) ∧
    (st.cmd = none → isParked s0 ag.id = false →
      (∀ (cmd : Bytes) (u : Bool) (s1 : State), stCmd st.rec_ % 64 = 0 → readVa ag (stCmd st.rec_) 64 { s0 with racc := 0 } = .ok (cmd, u) s1 →
        (row.sok s (stageEnv f k.val cl.val st cmd) = true → aOp cmd = row.op →
          let s2 := uStage (opClean ag.id s1) f.id k.val (fun x => { x with cmd := some cmd })
          ∀ (st1 : Stage) (j : Nat) (t : State), stageNow s2 f.id k.val = some st1 → st1.cmd = some cmd → j < turnFuel →
            StageTurn row cl.val f.id k.val j 1 (served s2 cl.val row.unit (stageKey f.id k.val)) t →
            exec (row.cmd cl (.stage f.id k)) s = .next (stageOver row s t f k.val)) ∧
        (row.sok s (stageEnv f k.val cl.val st cmd) = false →
          let m := stageErr (opClean ag.id s1) cl.val row.unit f k.val cmd eRange
          stageNow m f.id k.val = some st → exec (row.cmd cl (.stage f.id k)) s = .next (stopped m))) ∧
      (stCmd st.rec_ % 64 ≠ 0 → stageNow s0 f.id k.val = some st →
        ∃ m, exec (row.cmd cl (.stage f.id k)) s = .next (stopped m) ∧ m.mem = s0.mem ∧
          (flightOf m f.id).map (·.err) = (flightOf (flightErr s0 f.id k.val eRange) f.id).map (·.err)))) ∧
  (∀ (s : State) (cl u : Nat) (f : Flight) (k : Nat) (st : Stage) (ag : Agent), isParked s ag.id = false →
    (st.queue ≠ [] → st.ring.free = 0 → putBerth s cl u f k st ag = s) ∧
    (∀ (c : Chunk) (rest : List Chunk) (s' : State), st.queue = c :: rest → st.ring.free ≠ 0 →
      let va := stRing st.rec_ + 64 + st.ring.next * berthSize (stShift st.rec_)
      (do writeParts ag va (laid c.lines va); bumpFilled ag (stRing st.rec_) 1 : M Unit) { s with racc := 0 } = .ok () s' →
      putBerth s cl u f k st ag = uStage (opClean ag.id s') f.id k (fun x => { x with
        queue := rest, ring := ringFill x.ring (stBerths st.rec_) (partsLen c.lines) true })) ∧
    (∀ (i n : Nat) (rest : List (Nat × Nat)) (ps : Parts) (s' : State), (feeder f k).full = (i, n) :: rest →
      readParts ag ((feederAt f k).1 + 64 + i * (feederAt f k).2) n { s with racc := 0 } = .ok ps s' →
      takeBerth s cl u f k ag = uStage (uFeeder (opClean ag.id s') f.id k ringTake) f.id k (fun x => { x with got := x.got ++ [{ lines := ps }] })) ∧
    ((feeder f k).full = [] → takeBerth s cl u f k ag = if (feeder f k).ended then uStage s f.id k (fun x => { x with inEnd := true }) else s))

/-- R259, R277, R278, R279, R353, R358, R360: an APPLY reads its table once and completes at once when its halves are all applied, else it waits for
its marks; APPLY_START takes the oldest that can go on through its rows to its end, whatever older ones wait for; a closed gate keeps a Dense
Array command, and DA_GATE_OPEN counts its wait and takes it on once its own layer's gate is open. -/
def Obligations.WaitingUnitCommandsGoOn : Prop :=
  (∀ (cl : Fin 48) (s s' : State) (c : UCmd) (scr : Bytes) (done waits : Bool), frontCmd s cl.val 0 (fun c => !c.waiting) = some c →
    holds s c.ctx = true → clServes s cl.val = true → c.cmd.length = 64 → tuOk false c.cmd = true → aOp c.cmd = 5 →
    isParked s (tuAgent cl.val c).id = false → c.scratch = [] →
    applyWait (tuEnv cl.val c) { s with racc := 0 } = .ok (scr, done, waits) s' →
    exec (.apply cl .queue) s = .next (
      if done then endCmd (opClean (tuAgent cl.val c).id s') cl.val 0 (tuAgent cl.val c) c 0
      else uHeld (opClean (tuAgent cl.val c).id s') c.ctx cl.val 0 c.id (fun c => { c with scratch := scr, waiting := waits }))) ∧
  (∀ (cl : Fin 48) (s t : State) (c : UCmd) (k : Nat), frontCmd s cl.val 0 (applyNext s cl.val) = some c → holds s c.ctx = true →
    clServes s cl.val = true → k < 2 ^ 34 →
    CmdRuns applyStartRow cl.val c.id 0 k (uHeld s c.ctx cl.val 0 c.id (fun c => { c with waiting := false })) t → exec (.applyStart cl) s = .next t) ∧
  (∀ (cl : Fin 48) (s t : State) (c : UCmd) (k : Nat), frontCmd s cl.val 4 (fun _ => true) = some c → holds s c.ctx = true → c.waiting = true →
    clServes s cl.val = true →
    (daOpen s c.ctx cl.val c.cmd c.scratch = false → gateStages s cl.val = [] → exec (.daGateOpen cl) s = .next s) ∧
    (daOpen s c.ctx cl.val c.cmd c.scratch = true →
      let m := uHeld (gateCount s c.ctx) c.ctx cl.val 4 c.id (fun x => { x with waiting := false })
      k < 2 ^ 33 → (readyKeys m cl.val 4).all (· == 0) = true → CmdRuns denseRow cl.val c.id (aDst c.cmd) k (served m cl.val 4 0) t →
      gateStages s cl.val = [] → exec (.daGateOpen cl) s = .next t)) ∧
  (∀ (cl : Fin 48) (s : State), clServes s cl.val = false → exec (.daGateOpen cl) s = .next s ∧ exec (.applyStart cl) s = .next s)

/-- R316, R317, R320: a lookup finds, among the valid entries of its cluster that match the key in the bits of their masks, the one with the
highest priority, and among equals the lowest index; it finds none exactly when no valid entry matches. -/
def Obligations.AmuLookupsFindTheBestEntry : Prop :=
  ∀ (s : State) (cl : Nat) (x : BitVec 128), Tab.wf {} s.amu = true →
    (∀ (i : Nat) (e : AmuEntry), amuFind s cl x = some (i, e) →
      i < 8192 ∧ gAmu s cl i = e ∧ e.valid = true ∧ (x ^^^ e.key) &&& e.mask = 0 ∧
      ∀ j < 8192, (gAmu s cl j).valid = true → (x ^^^ (gAmu s cl j).key) &&& (gAmu s cl j).mask = 0 →
        (gAmu s cl j).prio < e.prio ∨ ((gAmu s cl j).prio = e.prio ∧ i ≤ j)) ∧
    (amuFind s cl x = none ↔ ∀ j < 8192, ¬ ((gAmu s cl j).valid = true ∧ (x ^^^ (gAmu s cl j).key) &&& (gAmu s cl j).mask = 0))

/-- R334, R335, R338: what SORT, TOPK and BOTK write is in order: SORT every kept key once, TOPK and BOTK the first K of that order; equal keys
stand by their index. Stated for the integer key types; the permutation holds for every type. -/
def Obligations.OrderUnitWritesKeysInOrder : Prop :=
  ∀ (d : Bytes) (l : List OElem),
    let kt := oKt d
    let kept := if oDrop d then l.filter (fun x => !keyNan kt x.key) else l
    (aOp d = 1 → (planSelect d l).outs.Perm kept) ∧
    (aOp d ≠ 1 → (planSelect d l).outs.length = min (oK d) kept.length ∧ ∃ rest, ((planSelect d l).outs ++ rest).Perm kept) ∧
    (kt < 4 → ∀ desc : Bool, desc = (if aOp d = 1 then oDesc d else aOp d == 3) →
      (planSelect d l).outs.Pairwise (fun a b => elemLe kt desc a b = true)) ∧
    (planSelect d l).nan + kept.length = l.length

/-! ## Barges, the towpath and flights (spec/07_barges_towpath_and_flights.md) -/

/-- R214, R217, R219, R227, R228: BARGE_COMPLETE takes the front barge of a queue through its pieces to its end, and a persistent one notes
the pound in its re-arm record; a piece lies in one row, one 64-byte granule and one berth, and its bytes are those of its type. -/
def Obligations.BargesMoveTheirBytesToTheEnd : Prop :=
  (∀ (q : BitVec 17) (s t : State) (d : BDesc) (rest : List BDesc) (k : Nat), (gQueue s q.toNat).descs = d :: rest →
    BargeRuns q.toNat k s t → k < bSize d.d * bCount d.d + 2 → (gQueue t q.toNat).count ≠ (gQueue s q.toNat).count →
    exec (.bargeComplete q) s = .next (writeLast t q.toNat d)) ∧
  (∀ (x : BQueue) (d : Bytes) (pos : Nat), 1 ≤ bSize d → (x.weir = false → 1 ≤ x.berths) →
    let p := bargePiece x d pos
    1 ≤ p.len ∧ p.row = pos / bSize d ∧ p.off = pos % bSize d ∧ p.off + p.len ≤ bSize d ∧ p.dst / 64 = (p.dst + p.len - 1) / 64 ∧
    (x.weir = true → (p.dst : Int) = ((bDst d : Int) + p.row * bDstStride d + p.off) % 2 ^ 64) ∧
    (x.weir = false → ∃ berth < x.berths, x.ring.toNat + 64 + berth * berthSize x.bshift ≤ p.dst ∧
      p.dst + p.len ≤ x.ring.toNat + 64 + (berth + 1) * berthSize x.bshift)) ∧
  (∀ (ag : Agent) (d : Bytes) (p : BPiece) (s s1 s2 : State) (ib b : Bytes) (it t : Bool),
    let src := fun (row : Nat) => (((bSrc d : Int) + row * bSrcStride d + p.off) % 2 ^ 64).toNat
    (bType d ≠ 3 → bType d ≠ 4 → readVa ag (src p.row) p.len s = .ok (b, t) s1 → bargeBytes ag d p s = .ok (b, t, false) s1) ∧
    (bType d = 4 → ∃ y, bargeBytes ag d p s = .ok (y, false, false) s ∧ y.length = p.len ∧
      ∀ i < p.len, y.getD i 0 = (wordBytes (dWord d 6)).getD ((p.off + i) % 8) 0) ∧
    (bType d = 3 → readVa ag (bIdx d + p.row * (2 * 2 ^ bIdxW d)) (2 * 2 ^ bIdxW d) s = .ok (ib, it) s1 →
      (ofLe ib = 2 ^ (8 * (2 * 2 ^ bIdxW d)) - 1 → bargeBytes ag d p s = .ok (List.replicate p.len 0, it, false) s1) ∧
      (ofLe ib ≠ 2 ^ (8 * (2 * 2 ^ bIdxW d)) - 1 → bLimit d ≤ ofLe ib → bargeBytes ag d p s = .ok (List.replicate p.len 0, it, p.off == 0) s1) ∧
      (ofLe ib ≠ 2 ^ (8 * (2 * 2 ^ bIdxW d)) - 1 → ofLe ib < bLimit d → readVa ag (src (ofLe ib)) p.len s1 = .ok (b, t) s2 →
        bargeBytes ag d p s = .ok (b, t || it, false) s2)))

/-- R231, R233, R234, R240, R253: TOWPATH_COMPLETE performs a transfer and ends it; FLIGHT_COMPLETE writes the last stage's output and the
completion record, and ends the flight, with E_RANGE where the output is longer than DST_MAX. A barge without responses ends with
E_TMO_BARGE and a transfer with its timeout: both leave their queue, are counted, give up their requests and lower the flag; alone, nothing
is sent for what they taint, and an inline transfer leaves memory as it is. -/
def Obligations.TransfersAndFlightsEndOrTimeOut : Prop :=
  (∀ (q : BitVec 17) (s : State) (d : BDesc) (rest : List BDesc), (gQueue s q.toNat).descs = d :: rest → holds s d.ctx = true →
    isParked s d.id = false → (∃ r ∈ s.rtxs, r.owner = d.id ∧ r.st = 0) →
    ∃ t, exec (.bargeTimeout q) s = .next t ∧ (gQueue t q.toNat).descs = rest ∧ (gQueue t q.toNat).lastErr = eTmoBarge ∧
      (gCtx t d.ctx).be.tmo = bump16 (gCtx s d.ctx).be.tmo 1 ∧ (∀ r ∈ t.rtxs, r.owner ≠ d.id) ∧
      ((∀ chip, chip ≠ s.cfg.chipNum → chipPresent s chip = false) → t.ports = s.ports ∧ t.out = s.out) ∧
      (∀ key mf pc, d.owner = .thread key mf pc → d.round = 0 → t.threads = Tab.modify {} s.threads key (fun th =>
        { th with m := Tab.modify 0 th.m mf (· - 1) }))) ∧
  (∀ (id : Nat) (s : State) (w : TowOp), s.tows.find? (fun t => t.id == id) = some w → holds s w.ctx = true →
    ∃ t, exec (.towpathTimeout id) s = .next t ∧ t.tows = s.tows.filter (fun x => x.id != id) ∧
      (gCtx t w.ctx).tp.tmo = bump16 (gCtx s w.ctx).tp.tmo 1 ∧ (∀ r ∈ t.rtxs, r.owner ≠ id) ∧ (tOp w.d ≠ 1 → t.mem = s.mem) ∧
      (∀ key mf pc, w.owner = .thread key mf pc → t.threads = Tab.modify {} s.threads key (fun th => { th with m := Tab.modify 0 th.m mf (· - 1) }))) ∧
  (∀ (id : Nat) (s s' : State) (w : TowOp), s.tows.find? (fun t => t.id == id) = some w → holds s w.ctx = true → isParked s w.id = false →
    towMove (towAgent w.ctx w.cl w.id w.owner) w { s with racc := 0 } = .ok () s' →
    exec (.towpathComplete id) s = .next (towDone (opClean (towAgent w.ctx w.cl w.id w.owner).id s') w (towWdrn s w))) ∧
  (∀ (s : State) (w : TowOp) (wdrn : Bool), consentStats s w.ctx = false → w.owner = .none →
    (towDone s w wdrn).tows = s.tows.filter (fun x => x.id != w.id) ∧ (gCtx (towDone s w wdrn) w.ctx).tp.done = bump64 (gCtx s w.ctx).tp.done 1) ∧
  (∀ (id : Nat) (s s1 : State) (f f1 : Flight) (j : Nat), flightOf s id = some f → f.active = true → holds s f.ctx = true →
    OutRuns id j s s1 → j < 2 * fDstMax f.hdr + 3 → flightOf s1 id = some f1 →
    (flightOver f1 = false → exec (.flightComplete id) s = .next s1) ∧
    (∀ s', flightOver f1 = true → isParked s1 (outAgent f1).id = false →
      writeVa (outAgent f1) (fDone f1.hdr) (flightRecord f1.filled f1.pos f1.tainted (flightCode f1).1 (flightCode f1).2) false { s1 with racc := 0 } = .ok () s' →
      exec (.flightComplete id) s = .next (endFlight (opClean (outAgent f1).id s') f1 (flightCode f1).1))) ∧
  (∀ (s : State) (f : Flight), f.err = none → 64 ≤ partsLen f.obuf ∨ (drained f = true ∧ partsLen f.obuf ≠ 0) →
    (fDstMax f.hdr ≤ f.pos → drainPiece s f = flightErr s f.id (f.stages.length - 1) eRange) ∧
    (∀ s', f.pos < fDstMax f.hdr → isParked s (outAgent f).id = false →
      let n := min (min (partsLen f.obuf) (64 - (bDst f.hdr + f.pos) % 64)) (fDstMax f.hdr - f.pos)
      let p := partsRead f.obuf 0 n
      writeVa (outAgent f) (bDst f.hdr + f.pos) p.1 p.2 { s with racc := 0 } = .ok () s' →
      flightOf s' f.id = some f →
      (flightOf (drainPiece s f) f.id).map (fun x => (x.obuf, x.pos)) = some ((partsSplit f.obuf n).2, f.pos + n)))

/-! ## Codec lanes (spec/12_codec_lanes.md) -/

/-- R364, R367, R388, R389, R576: CODEC_LANE_TAKE lets the input barges of codec stages run, and gives the lowest free lane of a kind to the first
waiting stage that may take one; the job record and its state are checked then. The end of a save frees its lane; a lane that fails is due to
be fenced, its readable job saves with STATUS 2, and its lost job ends its flight with E_UNIT_LOST. -/
def Obligations.CodecLanesAreTakenSavedAndFenced : Prop :=
  (∀ (deep : Bool) (s s' : State) (fid k l : Nat) (early rest : List (Nat × Nat)) (f : Flight) (st : Stage) (r : Bytes × CStream),
      let p := refreshWait (pumpCodecs s)
      let may := fun (w : Nat × Nat) => ∃ g y, flightOf p w.1 = some g ∧ g.stages[w.2]? = some y ∧ holds p g.ctx = true ∧ stUnit y.rec_ = (if deep then 6 else 5) ∧
        lanesHeld p g.ctx deep < (if deep then (manOf p g.ctx).deepMax else (manOf p g.ctx).fastMax)
      p.codecWait = early ++ (fid, k) :: rest → (∀ w ∈ early, ¬ may w) → may (fid, k) → flightOf p fid = some f → f.stages[k]? = some st →
      (if deep then 16 ≤ l ∧ l < 24 else l < 16) → laneFree (gLane p l) = true → (∀ j < l, (deep = true → 16 ≤ j) → laneFree (gLane p j) = false) →
      let taken := fun (s : State) => refreshWait (uStage (uLane s l (fun x => { x with ctx := some f.ctx, flight := fid, stage := k })) fid k
        (fun x => { x with lane := some l }))
      let m := taken (countStall (useFree p) f.ctx (Config.waitCycles p.free))
      isParked m (laneAgent f k l).id = false → checkJob (laneAgent f k l) f k l st { m with racc := 0 } = .ok r s' →
      exec (.codecLaneTake deep) s = .next (
        let c := uStage (opClean (laneAgent f k l).id s') f.id k (fun x => { x with cmd := some r.1, job := some r.2 })
        let t := tjCodec c f.ctx l 0 (cFmt r.1) 0 0 0
        if st.saved then tjCodec t f.ctx l 4 (cFmt r.1) 0 0 0 else t)) ∧
  (∀ (l : Fin 24) (s : State), (gLane s l.val).saving = true →
    ∃ t, exec (.codecSaveDone l) s = .next t ∧ (gLane t l.val).ctx = none ∧ (gLane t l.val).saving = false ∧ (∀ j, j ≠ l.val → gLane t j = gLane s j) ∧
      t.flights = s.flights ∧ t.mem = s.mem) ∧
  (∀ (l : Fin 24) (readable : Bool) (s : State), isReady s = true → (gLane s l.val).fenced = false →
    let m := uLane s l.val (fun x => { x with fenceDue := true })
    ((gLane s l.val).ctx = none → exec (.codecLaneFail l readable) s = .next m) ∧
    (∀ n f, (gLane s l.val).ctx = some n → flightOf s (gLane s l.val).flight = some f → (gLane s l.val).saving = false →
      exec (.codecLaneFail l readable) s = .next (if readable then saveLane m l.val else failStage m f (gLane s l.val).stage l.val 0 eUnitLost)))

/-- R238, R366, R373, R382, R385, R387: the job on a lane takes the berths that its stage is given; once its input has ended it compresses or
decompresses, writes its state record, and hands its output on berth by berth as its ring has room; behind the last berth comes the end marker
and the lane is released; a row of the other OP leaves the lane. -/
def Obligations.CodecJobsRunToTheirEnd : Prop :=
  (∀ (l : Fin 24) (s : State) (f : Flight) (st : Stage) (d : Bytes) (cs : CStream), flightOf s (gLane s l.val).flight = some f →
    f.stages[(gLane s l.val).stage]? = some st → (gLane s l.val).ctx = some f.ctx → (gLane s l.val).saving = false → f.active = true → holds s f.ctx = true →
    f.err = none → st.ring.ended = false → st.lane = some l.val → st.cmd = some d → st.job = some cs →
    let k := (gLane s l.val).stage
    let fed := laneTake l.val f.id k turnFuel (stageFed s f k)
    (∀ (f2 : Flight) (st2 : Stage) (s3 : State) (f5 : Flight), flightOf fed f.id = some f2 → f2.stages[k]? = some st2 → f2.err = none →
      st2.cmd = some d → st2.job = some cs → st2.inEnd = true → st2.done = false → cChain d = 0 →
      let ag := laneAgent f2 k l.val
      let inside := decide (1 < f2.stages.length)
      let r := runJob d (k == 0) inside cs st2.got
      isParked fed ag.id = false → (if cState d = 0 then pure () else writeState ag d 1 r.st : M Unit) { fed with racc := 0 } = .ok () s3 →
      let done := jobDone (opClean ag.id s3) f2 k l.val d (partsLen (berthParts st2.got)) r (jobBerths d inside (berthSize (stShift st2.rec_)) r) r.endCode []
      let put := lanePut l.val f.id k turnFuel done
      flightOf put f.id = some f5 →
      let idle := laneIdle put f5 k l.val
      let t := if k + 1 = f.stages.length then pumpOut f.id (2 * fDstMax f.hdr + 3) idle else idle
      (cOp d = 1 → exec (.codecCompress l) s = .next t) ∧ (cOp d = 2 → exec (.codecDecompress l) s = .next t)) ∧
    (cOp d ≠ 1 → exec (.codecCompress l) s = .next s) ∧ (cOp d ≠ 2 → exec (.codecDecompress l) s = .next s)) ∧
  (∀ (s : State) (f : Flight) (k l nin : Nat) (d : Bytes) (r : JobOut) (out : List Chunk) (st : Stage), flightOf s f.id = some f → f.stages[k]? = some st →
    cChain d = 0 → stageNow (jobDone s f k l d nin r out 0 []) f.id k = some { st with queue := out, done := true, chain := false, saved := false }) ∧
  (∀ (s : State) (f : Flight) (k l n : Nat) (st : Stage), flightOf s f.id = some f → f.stages[k]? = some st → st.done = true → st.queue = [] →
    lanePut l f.id k (n + 1) s = refreshWait (releaseLane (uStage s f.id k (fun x => { x with ring := { x.ring with ended := true } })) f k l (cFmt (st.cmd.getD []))))

/-- R370, R371, R372, R373, R379: whatever the match search proposes, a DBF block that is not marked raw carries sequences that rebuild it
from its history, is no longer than the rule allows and holds the CRC of its bytes; a raw one carries the bytes themselves. A stored Deflate block
carries its length, its complement and its bytes, aligned to a byte; a coded one is one block, no longer than the stored one, that inflates to the
bytes. -/
def Obligations.CompressedBlocksRestoreTheirBytes : Prop :=
  (∀ (hist b : Bytes) (reset : Bool),
    let r := dbfBlock hist reset b
    let h := if reset then [] else hist
    let pay := r.1.drop 16
    r.1.length = 16 + pay.length ∧ fld (wordAt r.1 8) 31 0 = crc32c 0xFFFFFFFF b % 2 ^ 32 ∧ bitOf (wordAt r.1 0) 17 = r.2 ∧ bitOf (wordAt r.1 0) 18 = reset ∧
    (pay.length < 2 ^ 32 → fld (wordAt r.1 0) 63 32 = pay.length) ∧ (b.length < 2 ^ 17 → fld (wordAt r.1 0) 16 0 = b.length) ∧
    (r.2 = true → pay = b) ∧
    (r.2 = false → pay.length + ceilDiv b.length 64 ≤ b.length ∧
      ∃ out, dbfSeqs b.length h.length (pay.length + 1) pay h 0 = (out, b.length, 0) ∧ (out.take b.length).reverse = b)) ∧
  (∀ (pos : Nat) (last : Bool) (b : Bytes), b.length ≤ 65535 →
    let r := storedBits pos last b
    let start := 3 + (8 - (pos + 3) % 8) % 8
    r.2 = start + 32 + 8 * b.length ∧ (pos + start) % 8 = 0 ∧ r.1 % 2 = b2n last ∧ r.1 / 2 % 4 = 0 ∧ r.1 / 2 ^ start % 65536 = b.length ∧
    r.1 / 2 ^ (start + 16) % 65536 = 65535 - b.length ∧ leBytes (r.1 / 2 ^ (start + 32)) b.length = b) ∧
  (∀ (d hist b : Bytes) (n len : Nat) (last : Bool),
    let r := deflateBlock d n len hist b last
    r = storedBits len last b ∨ (r.2 ≤ (storedBits len last b).2 ∧ ∃ x bs, r.1 = x + b2n last ∧
      inflateBlocks false (n + x * 2 ^ len) (len + r.2) 0 (len + r.2 + 1) len hist.reverse hist.length = (bs, len + r.2, false) ∧
      bs.length = 1 ∧ blocksOut bs = b))

/-! ## Lockway (spec/13_lockway.md) -/

/-- The rows by which a message arrives, with its MTYPE (R408, R409). -/
def msgRows : List ((Fin 12 → Msg → Instr) × Nat) :=
  [(.rdReq, tRdReq), (.rdRsp, tRdRsp), (.wrReq, tWrReq), (.wrRsp, tWrRsp), (.amoReq, tAmoReq), (.amoRsp, tAmoRsp), (.tuReq, tTuReq), (.tuRsp, tTuRsp),
   (.coll, tColl), (.trigMessage, tTrig), (.mgmt, tMgmt), (.refuse, tRefuse)]

/-- R403, R410, R411, R413: a message is not taken at a port out of service; one without buffer space is dropped and counted in CREDIT_ERR, one
that breaks R410 in BAD_MSG with its credit returned; a tenant message for this chip whose tag fails is dropped, counted in AUTH_FAIL and
a security event against its context. -/
def Obligations.MessagesAreCheckedOnArrival : Prop :=
  ∀ row ∈ msgRows, ∀ (port : Fin 12) (m : Msg) (s : State),
    let p := gPort s port.val
    let room := Tab.get 0 p.rxUsed (msgCvc m) + msgChunks m ≤ bufSize (msgCvc m)
    let bad := badMsg s m || !auxOk m || m.payload.length != 16 * mLen m
    (isReady s = false ∨ portUp p = false → exec (row.1 port m) s = .next s) ∧
    (isReady s = true → portUp p = true → mType m = row.2 → ¬ room →
      exec (row.1 port m) s = .next (uPort s port.val (fun p => { p with creditErr := bump16 p.creditErr 1 }))) ∧
    (isReady s = true → portUp p = true → mType m = row.2 → room → bad = true →
      exec (row.1 port m) s = .next (uPort s port.val (fun p => { p with
        badMsg := bump16 p.badMsg 1, owed := Tab.modify 0 p.owed (msgCvc m) (· + msgChunks m) }))) ∧
    (isReady s = true → portUp p = true → mType m = row.2 → room → bad = false → mDst m = s.cfg.chipNum → mSys m = false → mCtx m ≠ 0 →
      row.2 ≠ tMgmt → (gCtx s (mCtx m)).st ≠ .free →
      gcmTag (gCtx s (mCtx m)).bind.keys.lw (msgIv m) (msgAad m) m.payload ≠ m.tag →
      ∃ t, exec (row.1 port m) s = .next t ∧ (gCtx t (mCtx m)).lw.auth = bump16 (gCtx s (mCtx m)).lw.auth 1 ∧
        (gCtx t (mCtx m)).secEvt = bump16 (gCtx s (mCtx m)).secEvt 1 ∧ t.mem = s.mem ∧ t.rtxs = s.rtxs)

/-- R413: a SEQ value is accepted exactly when it is above the newest or in the window of 1,024 and not marked; from then on it is marked,
and the marks of the values that stay in the window do not change. -/
def Obligations.ReplayWindowAcceptsEachSeqOnce : Prop :=
  ∀ (w : Word × BitVec 1024) (q : Word),
    let rejects := fun (w : Word × BitVec 1024) (x : Word) =>
      x.toNat ≤ w.1.toNat ∧ (1024 ≤ w.1.toNat - x.toNat ∨ w.2.getLsbD (w.1.toNat - x.toNat) = true)
    (windowStep w q = none ↔ rejects w q) ∧
    (∀ w', windowStep w q = some w' → w'.1.toNat = max w.1.toNat q.toNat ∧
      ∀ x : Word, w'.1.toNat < x.toNat + 1024 → (rejects w' x ↔ x = q ∨ rejects w x))

/-- R407, R416, R417, R418: what a chip does with a request that its checks let in: it answers a read with the bytes, a write or an AMO after
the access, a request that it may not serve with REFUSE. Without latent errors a read's bytes and taints are those of HBM. -/
def Obligations.TargetsServeRemoteAccesses : Prop :=
  (∀ (port : Fin 12) (m m' : Msg) (s t : State),
    let loc := localOf (mAddr m')
    let len := mLenB m'
    let n := 2 ^ fld m'.w3 5 4
    (recvMsg s port.val tRdReq m = .take m' t →
      (∀ c, targetCode t m' len = some c → exec (.rdReq port m) s = .next (refuseMsg t m' c)) ∧
      (targetCode t m' len = none →
        let r := readTarget t (mCtx m') loc len
        exec (.rdReq port m) s = .next (reply r.2.2 m' tRdRsp r.2.1 r.1))) ∧
    (recvMsg s port.val tWrReq m = .take m' t →
      (∀ c, targetCode t m' len = some c → exec (.wrReq port m) s = .next (refuseMsg t m' c)) ∧
      (targetCode t m' len = none →
        let masked := bitOf m'.w3 9
        let w := writeTarget t (mCtx m') loc (slice m'.payload (if masked then 32 else 0) len)
          (if masked then (List.range 256).map (fun i => (ofLe (slice m'.payload 0 32)).testBit i) else []) (mTaint m')
        exec (.wrReq port m) s = .next (if w.2 then refuseMsg w.1 m' eTmoHbm else reply w.1 m' tWrRsp 0 []))) ∧
    (recvMsg s port.val tAmoReq m = .take m' t → 2 ≤ fld m'.w3 5 4 → fld m'.w3 3 0 ≤ 9 → mAddr m' % n = 0 →
      (∀ c, targetCode t m' n = some c → exec (.amoReq port m) s = .next (refuseMsg t m' c)) ∧
      (targetCode t m' n = none →
        let r := readTarget t (mCtx m') loc n
        let new := amoNew (fld m'.w3 3 0) (fld m'.w3 5 4) (ofLe r.1) (numAt m'.payload 0 8) (numAt m'.payload 8 8)
        (new = none → exec (.amoReq port m) s = .next (reply r.2.2 m' tAmoRsp r.2.1 r.1)) ∧
        (∀ v, new = some v →
          let w := writeTarget r.2.2 (mCtx m') loc (leBytes v n) [] (mTaint m')
          w.2 = false → exec (.amoReq port m) s = .next (reply w.1 m' tAmoRsp r.2.1 r.1))))) ∧
  (∀ (s : State) (n loc len : Nat), s.mem.lineErr = [] → s.mem.noResp = [] → loc + len ≤ hbmEnd →
    (readTarget s n loc len).1 = Tab.getMany 0 s.mem.hbm loc len ∧ (readTarget s n loc len).2.2.mem.hbm = s.mem.hbm ∧
    (0 < len → ∀ i, (readTarget s n loc len).2.1.testBit i = true ↔ i ≤ (loc + len - 1) / 64 - loc / 64 ∧ Tab.get false s.mem.taint (loc / 64 + i) = true))

/-- R416, R418, R419, R425, R436, R440: an answer reaches the request that its RID names and releases what waited for it; a REFUSE is counted and
gives its code; a request of a running context without a response times out once: it is counted and reads as tainted zeros, a write or an atomic
operation leaves a record and faults its context. -/
def Obligations.AnswersAndTimeoutsReachTheirRequest : Prop :=
  (∀ (port : Fin 12) (m m' : Msg) (s t : State),
    (recvMsg s port.val tRdRsp m = .take m' t → exec (.rdRsp port m) s = .next (answer t m' [kRead] 1 0)) ∧
    (recvMsg s port.val tWrRsp m = .take m' t → exec (.wrRsp port m) s = .next (answer t m' [kWrite, kTaint] 1 0)) ∧
    (recvMsg s port.val tAmoRsp m = .take m' t → exec (.amoRsp port m) s = .next (answer t m' [kAmo] 1 0)) ∧
    (recvMsg s port.val tTuRsp m = .take m' t → exec (.tuRsp port m) s = .next (serveTu (answer t m' [kRow, kStage] 1 0) (mCtx m'))) ∧
    (recvMsg s port.val tRefuse m = .take m' t → exec (.refuse port m) s = .next (answer
      (uCtx t (refusedCtx t m') (fun c => { c with lw := { c.lw with refused := bump16 c.lw.refused 1 } })) m' [kRead, kWrite, kAmo, kRow, kStage, kTaint] 3 (m'.payload.headD 0))) ∧
    (recvMsg s port.val tTuReq m = .take m' t → exec (.tuReq port m) s = .next (serveTu
      (uCtx { t with nextId := t.nextId + 1 } (mCtx m') (fun c => { c with tuWait := c.tuWait ++ [(t.nextId, m')] })) (mCtx m')))) ∧
  (∀ (s : State) (m : Msg) (kinds : List Nat) (st : Nat) (code : Code), st ≤ 3 → (∀ r ∈ s.rtxs, r.st ≠ 4 ∧ r.kind ≠ kTaint) → (∀ n, (gCtx s n).fltPend = []) →
    (answer s m kinds st code).rtxs = s.rtxs.map (fun t => if rtxFits t m kinds then
      { t with st := st, data := m.payload, taint := mTaint m, code := code, wdrn := mWdrn m } else t)) ∧
  (∀ (s : State) (rid : BitVec 16) (x : RTx), s.rtxs.find? (fun t => t.rid == rid && t.st == 0) = some x →
    (holds s x.ctx = false ∨ ownTimeout s x = true → exec (.lockwayTimeout rid) s = .next s) ∧
    (holds s x.ctx = true → ownTimeout s x = false → (∀ r ∈ s.rtxs, r.rid ≠ rid → r.st ≠ 4) → (∀ n, (gCtx s n).fltPend = []) →
      let left := (s.rtxs.map (fun u => if u.rid = rid then { u with st := 2, msg := none } else u)).filter (fun u => u.kind != kTaint || inFlight u)
      let m := { uCtx s x.ctx (fun c => { c with lw := { c.lw with tmo := bump16 c.lw.tmo 1 } }) with rtxs := left }
      (x.kind ≠ kWrite → x.kind ≠ kAmo → exec (.lockwayTimeout rid) s = .next m) ∧
      (x.kind = kWrite ∨ x.kind = kAmo → (∀ n, (gCtx (errRecord m (reqAgent m x) eTmoLw) n).fltPend = []) →
        exec (.lockwayTimeout rid) s = .next (faultAtTick (errRecord m (reqAgent m x) eTmoLw) x.ctx eTmoLw)))) ∧
  (∀ (t : RTx) (acc va : Nat) (s : State), t.st = 2 → remoteAns t acc va s = .ok (List.replicate t.len 0, 15) s)

/-- R426, R555, R576: a trigger pin or message acts on this chip, and a pin's event goes to the reach; a failed trace junction ends the trace of
every consenting context. R533 to R539: collective fragments and orders act by their COLL_ID; a collective that stood for 64 pounds ends. -/
def Obligations.TriggersCollectivesAndOrdersAct : Prop :=
  (∀ (n : Fin 2) (s : State), isReady s = true → exec (.trigInEdge n) s = .next (sendTrig (sysTrigger s n.val 0 s.cfg.chipNum) 0 true n.val)) ∧
  (∀ (s : State) (k origin chip : Nat), (∀ n < 64, (gCtx s n).st = .free) →
    sysTrigger s k origin chip = emit { s with sysTrig := Tab.modify 0 s.sysTrig k (fun c => bump16 c 1) } (.pulse (if k = 0 then "TRIG_OUT0" else "TRIG_OUT1"))) ∧
  (∀ (port : Fin 12) (m m' : Msg) (s t : State), recvMsg s port.val tTrig m = .take m' t →
    exec (.trigMessage port m) s = .next (
      let k := b2n ((slice m'.payload 0 1).headD 0 |>.getLsbD 0)
      if mSys m' then sysTrigger t k 1 (mSrc m') else tjTrigger t (mCtx m') (2 + k) 1 (mSrc m'))) ∧
  (∀ s : State, ∃ t, exec .traceJunctionFail s = .next t ∧ t.mem = s.mem ∧
    ∀ n < 64, (gCtx t n).tj.state = if consentTrace s n then 3 else (gCtx s n).tj.state) ∧
  (∀ (port : Fin 12) (m m' : Msg) (s t : State), recvMsg s port.val tColl m = .take m' t →
    let n := mCtx m'
    let id := BitVec.ofNat 16 (fld m'.w3 15 0)
    let p := fld m'.w3 23 16
    let f := fld m'.w3 47 24
    let b := slice m'.payload 0 256
    ∀ c, (gCtx t n).coll = some c → c.op ≠ 0 →
      (c.collId ≠ id → exec (.coll port m) s = .next (collMismatch t n (mSrc m') id)) ∧
      (c.collId = id → p = c.phase → c.sent = true → exec (.coll port m) s = .next (collCheck (collFrag t n (mSrc m') p f b (mTaint m')) n)) ∧
      (c.collId = id → c.phase < p →
        exec (.coll port m) s = .next (uColl t n (fun c => { c with early := c.early ++ [(mSrc m', p, f, b, mTaint m')] })))) ∧
  (∀ (port : Fin 12) (m m' : Msg) (s t : State), recvMsg s port.val tMgmt m = .take m' t →
    let b := m'.payload.drop 8
    (fld m'.w3 15 0 = mopHello → exec (.mgmt port m) s = .next (mgmtHello t (mSrc m') b)) ∧
    (fld m'.w3 15 0 = mopShare → exec (.mgmt port m) s = .next (mgmtShare t (mSrc m') b)) ∧
    (fld m'.w3 15 0 = mopPhaseDone → exec (.mgmt port m) s = .next (mgmtPhaseDone t (mSrc m') b)) ∧
    (fld m'.w3 15 0 = mopLink → Tab.get (0, 0) t.reach.mgmtStamps (1000 + numAt b 0 2) = (0, 0) →
      let stamps := Tab.set (0, 0) t.reach.mgmtStamps (1000 + numAt b 0 2) (wordAt m'.payload 0, mSrc m' + 1)
      exec (.mgmt port m) s = .next (setLink { t with reach := { t.reach with mgmtStamps := stamps } } (numAt b 0 1) (numAt b 1 1) (numAt b 2 1 != 0) (wordAt b 8)))) ∧
  (∀ (ctx : Fin 64) (s : State) (c : Coll), (gCtx s ctx.val).coll = some c → c.op ≠ 0 →
    (64 ≤ c.pounds → exec (.collectiveTimeout ctx) s = .next (collEnd s ctx.val eTmoLw)) ∧
    (c.pounds < 64 → exec (.collectiveTimeout ctx) s = .next s))

/-- R394, R396, R404, R405, R439: a trained port that the delay measurement accepts enters service and a slow one is held down; a lost lane leaves a
degraded port or, below four lanes, a failed one; a lane that retrained waits for the tick; missing credit or answers fail the port. -/
def Obligations.PortsTrainDegradeAndFail : Prop :=
  ∀ (port : Fin 12) (s : State),
    let i := port.val
    let p := gPort s i
    (∀ (delay : BitVec 16), isReady s = true → portEnabled s i = true → p.st = 1 → 4 ≤ laneCount p →
      let m := uPort s i (fun p => { p with delay := delay })
      (delay.toNat ≤ 200 → exec (.portDelayMeasure port delay) s = .next (sendHello (portUpNow m i))) ∧
      (200 < delay.toNat → p.unacked = [] → p.waitTx = [] →
        exec (.portDelayMeasure port delay) s = .next (trunkCheck (portState (uPort m i freshLink) i 5) p.peerChip.toNat))) ∧
    (∀ (lanes peerChip : BitVec 8) (peerPort : BitVec 4), isReady s = true → portEnabled s i = true →
      let on := lanes &&& BitVec.ofNat 8 (fld (s.cfg.ports.getD i 0) 23 16)
      let m := uPort s i (fun p => { p with peerChip := peerChip, peerPort := peerPort })
      4 ≤ popN on.toNat 8 →
      (p.st = 1 ∨ p.st = 6 → portWired m i peerChip peerPort = false → exec (.portRetrain port lanes peerChip peerPort) s = .next (portState m i 4)) ∧
      (p.st = 1 → portWired m i peerChip peerPort = true →
        exec (.portRetrain port lanes peerChip peerPort) s = .next (uPort m i (fun p => { p with lanes := on }))) ∧
      (p.st = 6 → portWired m i peerChip peerPort = true →
        exec (.portRetrain port lanes peerChip peerPort) s = .next (uPort m i (fun p => { p with backNext := some on })))) ∧
    (∀ lane : Fin 8, portUp p = true → p.lanes.getLsbD lane.val = true →
      (5 ≤ laneCount p → ∃ t, exec (.laneDrop port lane) s = .next t ∧ (gPort t i).st = 3 ∧
        (∀ l < 8, (gPort t i).lanes.getLsbD l = (p.lanes.getLsbD l && decide (l ≠ lane.val))) ∧ (gPort t i).laneDrop = bump16 p.laneDrop 1) ∧
      (laneCount p ≤ 4 → ∃ m, exec (.laneDrop port lane) s = .next (failPort m i (Config.portFailCode s.free)) ∧
        (gPort m i).laneDrop = bump16 p.laneDrop 1 ∧ ∀ j, j ≠ i → gPort m j = gPort s j)) ∧
    (∀ lane : Fin 8, portUp p = true → p.lanes.getLsbD lane.val = false → bitOf (s.cfg.ports.getD i 0) (16 + lane.val) = true →
      exec (.laneRetrained port lane) s = .next (uPort s i (fun p => { p with retrained := p.retrained ||| laneBit lane.val }))) ∧
    (p.waitTx ≠ [] → exec (.creditTimeout port) s = .next (failPort s i eTmoCredit)) ∧
    (portUp p = true → exec (.peerStopsAnswering port) s = .next (failPort (useFree s) i (Config.portFailCode s.free))) ∧
    (∀ code, portUp p = true → p.unacked = [] → p.waitTx = [] →
      failPort s i code = trunkCheck (portState (uPort s i (fun p => { freshLink p with lastFail := code })) i 6) p.peerChip.toNat)

/-- R397, R398, R399, R403: a receiver discards a flit that fails its codeword or its FCRC with one NAK, takes the data flit that comes next in
sequence and acknowledges it, and applies a flit's acknowledgement and credit to what it has sent. -/
def Obligations.FlitsAreAcknowledgedInSequence : Prop :=
  ∀ (port : Fin 12) (flit : Bytes) (s : State), portUp (gPort s port.val) = true →
    let i := port.val
    let b := slice flit 0 256
    let w := wordAt b 0
    let good := numAt b 248 8 = crc32c 0xFFFFFFFF (b.take 248)
    let acked := fun (p : Port) => takeCredit (ackFlits p (BitVec.ofNat 12 (fld w 49 38))) (fld w 36 33) (fld w 32 22)
    (∀ fec, fec ≠ .corrected → (fec = .uncorrectable ∨ ¬ good) → exec (.flitReceive port flit fec) s = .next (
      discard (uPort s i (fun p => { p with uncorr := if fec = .uncorrectable then bump16 p.uncorr 1 else p.uncorr })) i)) ∧
    ((gPort s i).nakSent = true → discard s i = s) ∧
    (good → fld w 63 62 = 0 → bitOf w 37 = false → (gPort s i).waitTx = [] →
      exec (.flitReceive port flit .clean) s = .next (uPort s i acked)) ∧
    (good → fld w 63 62 = 1 → bitOf w 37 = false → (gPort s i).waitTx = [] → BitVec.ofNat 12 (fld w 61 50) = (gPort s i).rxLast + 1 →
      ∃ t, exec (.flitReceive port flit .clean) s = .next t ∧ (gPort t i).rxLast = BitVec.ofNat 12 (fld w 61 50) ∧ (gPort t i).nakSent = false ∧
        (gPort t i).rxf = bump64 (gPort s i).rxf 1 ∧ ∃ f, t.out = s.out ++ [.flit i f]) ∧
    (∀ (p : Port) (fack : BitVec 12) (f : SentFlit) (rest : List SentFlit), p.unacked = f :: rest →
      (seqDist f.seq fack < p.unacked.length → (ackFlits p fack).unacked = p.unacked.drop (seqDist f.seq fack + 1)) ∧
      (p.unacked.length ≤ seqDist f.seq fack → ackFlits p fack = p)) ∧
    (∀ (p : Port) (k n : Nat), n ≠ 0 → (k < 12 → n ≤ Tab.get 0 p.used k → Tab.get 0 (takeCredit p k n).used k = Tab.get 0 p.used k - n) ∧
      (12 ≤ k ∨ Tab.get 0 p.used k < n → takeCredit p k n = { p with creditErr := bump16 p.creditErr 1 }))

/-- R432: in a torus a minimal route reaches its destination in as many steps as the shorter ways round x and y take together, each step to
a neighbour. -/
def Obligations.TorusRoutesAreMinimal : Prop :=
  ∀ (s : State) (a b : Nat), s.cfg.topo = 1 → 1 ≤ s.cfg.topoX → 1 ≤ s.cfg.topoY → a < s.cfg.topoX * s.cfg.topoY → b < s.cfg.topoX * s.cfg.topoY →
    let ring := fun (n x y : Nat) => min ((y + n - x) % n) ((x + n - y) % n)
    let path := minPath s b (topoSize s + 1) a
    path.length = ring s.cfg.topoX (chipX s a) (chipX s b) + ring s.cfg.topoY (chipY s a) (chipY s b) ∧
    (a :: path).getLast? = some b ∧ ∀ i c d, (a :: path)[i]? = some c → (a :: path)[i + 1]? = some d → d ∈ neighbours s c

/-! ## Doorbells, rings and host copies (spec/14_host_interface.md) -/

/-- R102, R457, R458, R459, R460, R465, R466, R467: an in-range doorbell moves its index and another one is counted, and the chip notes that one
came, in case slack water is entered at the end of the pound; SQ_FETCH takes the entry at the head,
or completes a malformed one with E_RANGE, or stops the ring with E_HOST; RUN starts alone, HALT and NOP complete. -/
def Obligations.RingsTakeDoorbellsAndEntries : Prop :=
  (∀ (fn ctx : Fin 64) (t : Bool) (v : BitVec 32) (s : State),
    let n := ctx.val
    let x := v.extractLsb' 0 17
    let r := (gCtx s n).ring
    barOpen s fn.val = true → (fn.val = 0 ∨ ctxOf s fn.val = some n) → tOk s fn.val t = true → isBound s n = true →
    s.pm.st = 0 → s.pm.enterNext = false → ∀ g, fnOf s n = some g → (gFn s g).ringEn = true →
    let sq := (gFn s g).sqLog2.toNat
    let cq := (gFn s g).cqLog2.toNat
    let rung := { s with pm := { s.pm with bellSeen := true } }
    (∀ a h, ringPos sq x = some a → ringPos sq r.sqHead = some h →
      exec (.sqTail fn t ctx v) s = .next (if ringAhead sq h a ≤ 2 ^ sq then uRing rung n (fun r => { r with sqTail := x }) else badBell rung fn.val)) ∧
    (ringPos sq x = none → exec (.sqTail fn t ctx v) s = .next (badBell rung fn.val)) ∧
    (∀ a h b, ringPos cq x = some a → ringPos cq r.cqHead = some h → ringPos cq r.cqTail = some b → ringAhead cq h a ≤ ringAhead cq h b →
      exec (.cqHead fn t ctx v) s = .next (flushCq (uRing rung n (fun r => { r with cqHead := x })) n r.cqes.length))) ∧
  (∀ (ctx : Fin 64) (b : Bytes) (s : State) (g : Nat),
    let n := ctx.val
    canFetch s n = true → fnOf s n = some g →
    let e := parseEntry s.nextId (slice b 0 64)
    let m := uRing { s with nextId := s.nextId + 1 } n (fun r => { r with sqHead := ringNext (gFn s g).sqLog2.toNat r.sqHead })
    (entryOk (slice b 0 64) = true → exec (.sqFetch ctx (.data b)) s = .next (uRing m n (fun r => { r with entries := r.entries ++ [e] }))) ∧
    (entryOk (slice b 0 64) = false → exec (.sqFetch ctx (.data b)) s = .next (pushCqe m n { code := eRange, cid := e.cid, w1 := entryW1 m n e, tag := [] })) ∧
    (∃ t, exec (.sqFetch ctx .failed) s = .next t ∧ (gCtx t n).ring.stop = true ∧ (gFn t g).ringErr = eHost ∧
      (gCtx t n).sch.faultNext = lowCode (gCtx s n).sch.faultNext eHost)) ∧
  (∀ (ctx : Fin 64) (s : State) (e : SqEntry), isRunning s = true → isIn s ctx.val = true →
    let n := ctx.val
    (nextEntry s n 1 = some e → e.st = 0 → (gCtx s n).ring.runActive = false → exec (.sqRun ctx) s = .next (
      uRing (uEntry s n e.id (fun e => { e with st := 1, left := e.steps.toNat })) n (fun r => { r with runActive := true }))) ∧
    (nextEntry s n 2 = some e → e.st = 0 → exec (.sqHalt ctx) s = .next (
      if (gCtx s n).ring.runActive then uRing (uEntry s n e.id (fun e => { e with st := 1 })) n (fun r => { r with haltReq := true })
      else completeEntry s n e 0 [] (gCtx s n).sch.step)) ∧
    (nextEntry s n 5 = some e → exec (.sqNop ctx) s = .next (completeEntry s n e 0 [] 0)))

/-- R461, R462, R463, R464, R465, R466: a COPY_IN writes the host's bytes granule by granule, decrypted where it is sealed, and ends with E_INTEGRITY
where its tag fails, E_REPLAY where its nonce is not newer and E_TMO_HBM where an HBM timeout loses a granule; a COPY_OUT writes its bytes to the host; COPY_COMPLETE writes the entry of
the oldest performed copy, and a late host read taints what it would have filled. -/
def Obligations.CopiesMoveBytesBetweenHostAndContext : Prop :=
  ∀ (ctx : Fin 64) (s : State) (e : SqEntry),
    let n := ctx.val
    let find := fun (s : State) => (gCtx s n).ring.entries.find? (fun x => x.id == e.id)
    (nextEntry s n 3 = some e → copyOn s n = true →
      let go := (startIn s n e).1
      (∀ (b : Bytes) (x : SqEntry), (startIn s n e).2 = true →
        let t := copyInGo n e.id (b.length / 64 + 1) b go
        find t = some x → x.st = 1 → x.len ≤ x.pos →
        exec (.copyIn ctx (.data b)) s = .next (
          if x.sealed = true ∧ gcmTag (gCtx t n).bind.keys.ht (copyIv x.steps false) (copyAad x) x.buf ≠ x.tag then entryDone (taintCopy t n x 0 x.len) n x.id eIntegrity []
          else entryDone t n x.id 0 [])) ∧
      (e.st = 0 → e.sealed = true → e.steps.toNat ≤ (gCtx s n).ring.lastNonce.toNat → ∀ r,
        exec (.copyIn ctx r) s = .next (entryDone s n e.id eReplay [])) ∧
      ((startIn s n e).2 = true → exec (.copyIn ctx .failed) s = .next (copyReadFails go n e)) ∧
      (e.st = 1 → exec (.hostReadTimeout ctx) s = .next (copyReadFails s n e))) ∧
    (∀ (k : Nat) (b : Bytes) (s' : State), find s = some e → 64 ≤ b.length → e.pos < e.len → isParked s e.id = false →
      let pt := if e.sealed then copyCrypt (gCtx s n).bind.keys.ht e.steps false e.pos (b.take 64) else b.take 64
      writeVa (copyAgent n e) (e.va.toNat + e.pos) pt false { s with racc := 0 } = .ok () s' →
      let m := if s.mem.noResp = s'.mem.noResp then
          uEntry (opClean e.id s') n e.id (fun e => { e with pos := e.pos + 64, buf := if e.sealed then e.buf ++ b.take 64 else [] })
        else entryDone (opClean e.id s') n e.id eTmoHbm []
      ((find m).map (·.pos) = some (e.pos + 64) → copyInGo n e.id (k + 1) b s = copyInGo n e.id k (b.drop 64) m) ∧
      ((find m).map (·.pos) = some e.pos → copyInGo n e.id (k + 1) b s = m)) ∧
    (∀ f x, nextEntry s n 4 = some e → fnOf s n = some f → copyOn s n = true → e.st = 1 → (e.sealed = true ∨ plainOk s n = true) →
      let t := copyOutGo n e.id f (e.len / 64 + 1) s
      find t = some x → x.st = 1 → x.len ≤ x.pos → exec (.copyOut ctx) s = .next (
        entryDone t n x.id 0 (if x.sealed then gcmTag (gCtx t n).bind.keys.ht (copyIv x.nonce true) (copyAad x) x.buf else []))) ∧
    (nextEntry s n 4 = some e → (fnOf s n).isSome = true → copyOn s n = true → e.sealed = false → plainOk s n = false →
      exec (.copyOut ctx) s = .next (entryDone s n e.id eRange [])) ∧
    ((gCtx s n).ring.entries.find? (fun x => x.st == 2) = some e → exec (.copyComplete ctx) s = .next (completeEntry s n e e.code e.tag (entryW1 s n e)))

/-- R444, R453, R454, R456: the PF's BIND of a free context to a free VF with a pending handle is taken, and its completion installs the manifest,
fresh keys and the registers' Reset values, and makes the context Bound, or Admitted where the rotation names it; another one ends with
E_BUSY or E_RANGE. UNBIND begins at the next tick; its end frees the context, its pages, its tables, its queues and its function. -/
def Obligations.ContextsAreBoundAndUnbound : Prop :=
  ∀ (s : State) (fn vf ctx : Fin 64),
    let v := vf.val
    let n := ctx.val
    let acc := setAcc s 0 0
    (HostWrites s 0 → s.hi.busy = false → (gCtx s n).ending = 0 →
      let h := { s.hi with op := 1, ctx := BitVec.ofNat 6 n, vf := BitVec.ofNat 6 v }
      (bindCode acc v n s.hi.handle = 0 → exec (.bind 0 vf ctx) s = .next { acc with hi := { h with busy := true, bindNext := some (n, v, s.hi.handle) } }) ∧
      (bindCode acc v n s.hi.handle ≠ 0 → exec (.bind 0 vf ctx) s = .next { acc with hi := { h with res := bindCode acc v n s.hi.handle } })) ∧
    (HostWrites s 0 → s.hi.busy = false → n ≠ 0 → (gCtx s n).st ≠ .free → (gCtx s n).ending = 0 → ((gCtx s n).st = .bound → (gCtx s n).bind.pound ≠ s.tick.pound) →
      ∃ t, exec (.unbind 0 ctx) s = .next t ∧ (gCtx t n).ending = 1 ∧ t.hi.busy = true ∧ t.hi.unbindCtx = some n ∧ t.mem = s.mem) ∧
    (HostWrites s fn.val → fn.val ≠ 0 → exec (.bind fn vf ctx) s = .next (setAcc s fn.val eDenied) ∧ exec (.unbind fn ctx) s = .next (setAcc s fn.val eDenied)) ∧
    (bindCode s v n s.hi.handle = 0 ↔ n ≠ 0 ∧ (gCtx s n).st = .free ∧ (gFn s v).ctx = none ∧ v ≠ 0 ∧ v ≤ s.cfg.numVf ∧ s.hi.vfEnable = true ∧
      ∃ p, s.sec.pending.find? (fun p => p.handle == s.hi.handle) = some p ∧ (p.man.ctx = 0 ∨ p.man.ctx = n)) ∧
    (∀ handle p, s.hi.busy = true → s.hi.op = 1 → s.hi.bindNext = some (n, v, handle) → bindCode s v n handle = 0 →
      s.sec.pending.find? (fun p => p.handle == handle) = some p →
      ∃ t, exec .bindComplete s = .next t ∧ (gFn t v).ctx = some n ∧ (gCtx t n).st = (if isNamed s n then .admitted else .bound) ∧
        (gCtx t n).bind.man = some p.man ∧ (gCtx t n).bind.vf = some v ∧ (gCtx t n).bind.pound = s.tick.pound ∧ (gCtx t n).err = 0 ∧
        (gCtx t n).mmu = {} ∧ (gCtx t n).bind.keys.mem = (List.range 64).map (Config.randomByte s.free) ∧
        (∀ q ∈ t.sec.pending, q.handle ≠ p.handle) ∧ t.hi.busy = false ∧ t.hi.res = 0) ∧
    (n ≠ 0 → (gCtx s n).ending = 2 →
      ∃ t, exec (.unbindComplete ctx) s = .next t ∧ (gCtx t n).st = .free ∧ (gCtx t n).bind = {} ∧ (∀ e ∈ t.mem.own, e.2 ≠ n + 1) ∧
        (∀ e ∈ t.mem.pte, pteOwner e.1 ≠ n) ∧ (∀ e ∈ t.queues, e.2.ctx ≠ some n) ∧
        (∀ f, (gCtx s n).bind.vf = some f → (gFn t f).ctx = none ∧ (gFn t f).ide = false ∧ (gFn t f).tdi = 0))

/-- R454, R455, R456, R474 to R477: an FLR of a VF, or its disabling, unbinds its context, and an FLR of the PF or a hot reset every tenant
context; the 2840 stays ready and keeps its memory and its rotation. The TDISP messages move a VF's interface as the table says, each
accepted only where it says; a change of a locked interface moves it to ERROR and faults its context; IDE_KM keys a function whose context
is Bound over an open session. -/
def Obligations.FunctionResetsUnbindAndTdispMovesTheInterface : Prop :=
  ∀ (s : State) (vf : Fin 64), isReady s = true →
    let v := vf.val
    (v ≠ 0 → ∀ c ∈ [Instr.vfFlr vf, .vfDisable vf], ∃ t, exec c s = .next t ∧ t.boot = s.boot ∧ t.mem = s.mem ∧ t.rot = s.rot ∧
      (∀ n, (gFn s v).ctx = some n → n ≠ 0 → (gCtx s n).st ≠ .free → (gCtx s n).ending = 0 → (gCtx t n).ending = 1) ∧
      (∀ m, (gFn s v).ctx ≠ some m → gCtx t m = gCtx s m)) ∧
    (v ≠ 0 → ∀ t, exec (.vfFlr vf) s = .next t → gFn t v = flrFn (gFn s v)) ∧
    (∀ c ∈ [Instr.pfFlr, .hotReset], ∃ t, exec c s = .next t ∧ t.boot = s.boot ∧ t.mem = s.mem ∧ t.rot = s.rot ∧ t.hi.vfEnable = false ∧
      (∀ f, 1 ≤ f → f < 64 → ∀ n, (gFn s f).ctx = some n → n ≠ 0 → (gCtx s n).st ≠ .free → (gCtx t n).ending ≠ 0)) ∧
    (v ≠ 0 →
      let f := gFn s v
      let answers := fun (c : Instr) (ok : Bool) (x : BitVec 2) (d : Bytes) =>
        exec c s = .next (if ok then emit (uFn s v (fun f => { f with tdi := x })) (.tdisp v (0 :: d)) else emit s (.tdisp v [1]))
      (∀ n, f.ctx = some n → answers (.lockInterfaceRequest vf)
        (f.tdi == 0 && f.ide && ((gCtx s n).st == .bound && (manOf s n).permit.getLsbD 3)) 1 []) ∧
      (f.ctx = none → exec (.lockInterfaceRequest vf) s = .next (emit s (.tdisp v [1]))) ∧
      (exec (.getDeviceInterfaceReport vf) s = .next (if f.tdi = 1 ∨ f.tdi = 2 then emit s (.tdisp v (0 :: tdReport s v)) else emit s (.tdisp v [1]))) ∧
      answers (.startInterfaceRequest vf) (f.tdi == 1) 2 [] ∧
      (exec (.stopInterfaceRequest vf) s = .next (emit (endVf (uFn s v (fun f => { f with tdi := 0 })) v) (.tdisp v [0]))) ∧
      (f.tdi = 1 ∨ f.tdi = 2 → ∀ n, f.ctx = some n →
        exec (.tdiConfigChange vf) s = .next (faultAtTick (uFn s v (fun f => { f with tdi := 3 })) n eTdisp)) ∧
      (f.tdi = 0 ∨ f.tdi = 3 → exec (.tdiConfigChange vf) s = .next s) ∧
      (∀ n sess, f.ctx = some n → (s.sec.sessions.any (fun x => x.id == sess && x.ready)) = true →
        exec (.ideKm vf sess) s = .next (
          if (gCtx s n).st = .bound then uFn (useFree s) v (fun f => { f with ide := true, ideKey := (List.range 32).map (Config.randomByte s.free) }) else s)))

/-- R469, R470, R472, R480: a burst access reaches the log ring, the staging buffer or the memory of a confidential expert context as BW_SPACE
and the address say, and nothing else; one that crosses the end of the window with INC advances BW_ADDR. -/
def Obligations.BurstAccessesReachTheirSpace : Prop :=
  ∀ (fn : Fin 64) (t write : Bool) (off : BitVec 16) (len : Nat) (data : Bytes) (s : State),
    let f := gFn s fn.val
    let a := f.bwAddr.toNat + off.toNat
    let n := len % 65537
    barOpen s fn.val = true → tOk s fn.val t = true → (ctxOf s fn.val).isSome = true →
    let ends := fun (m : State) (d : Bytes) (taint : Bool) (code : Code) =>
      exec (.burstAccess fn t write off len data) s = .next (burstEnd m fn.val write off.toNat n d taint code)
    (burstTarget s fn.val write a n = .none → ends s (List.replicate n 0) false eRange) ∧
    (burstTarget s fn.val write a n = .log → ends s ((rangeFrom a n).map (logByte s)) false 0) ∧
    (burstTarget s fn.val write a n = .staging →
      if write then ends { s with boot := { s.boot with staging := Tab.setMany 0 s.boot.staging (a - 0x40000000) (slice data 0 n) } } [] false 0
      else ends s (Tab.getMany 0 s.boot.staging (a - 0x40000000) n) false 0) ∧
    (∀ c d u s', burstTarget s fn.val write a n = .memory c →
      (write = true → writeVa (burstAgent fn.val c) a (slice data 0 n) false { s with racc := 0 } = .ok () s' →
        ends (opClean (burstAgent fn.val c).id s') [] false 0) ∧
      (write = false → readVa (burstAgent fn.val c) a n { s with racc := 0 } = .ok (d, u) s' → ends (opClean (burstAgent fn.val c).id s') d u 0)) ∧
    (∀ c, burstTarget s fn.val write a n = .memory c → fn.val ≠ 0 ∧ f.bwSpace = true ∧ f.ctx = some c ∧ isExpert s c = true ∧
      (manOf s c).permit.getLsbD 2 = true ∧ f.tdi = 2 ∧ a + n ≤ 2 ^ 48) ∧
    (∀ (m : State) (d : Bytes) (taint : Bool) (code : Code), (gFn (burstEnd m fn.val write off.toNat n d taint code) fn.val).bwAddr =
      (if (gFn m fn.val).bwInc = true ∧ off.toNat ≤ 0xFFF8 ∧ 0xFFF8 < off.toNat + n then (gFn m fn.val).bwAddr + 0x10000 else (gFn m fn.val).bwAddr))

/-! ## Registers (spec/14 R444 to R452, spec/20_register_maps.md) -/

/-- R70, R444, R447, R449, R450, R451, R452: a register read answers the register's value with ACC_CODE 0, a _LO read latches the high half that the
next _HI read gives; a refused or misplaced access reads zero, or writes nothing, and leaves its code; LK_STATUS' flags go when the PF
reads them; the PCIe controller answers a late access. -/
def Obligations.RegistersAnswerTheirFunction : Prop :=
  ∀ (fn : Fin 64) (t : Bool) (off : BitVec 20) (s : State),
    let f := fn.val
    let o := off.toNat
    barOpen s f = true → s.boot.lkcFailed = false → tOk s f t = true → isReady s = true →
    let tells := fun (m : State) (v : Nat) (code : Code) => emit (setAcc m f code) (.readData f o (BitVec.ofNat 64 v))
    (ctxOf s f = none → (∀ len v, exec (.registerWrite fn t off len v) s = .next s) ∧ exec (.loRegisterRead fn t off) s = .next (emit s (.readData f o 0))) ∧
    ((ctxOf s f).isSome = true →
      (o % 4 ≠ 0 → (∀ len v, exec (.registerWrite fn t off len v) s = .next (setAcc s f eRange)) ∧ exec (.loRegisterRead fn t off) s = .next (tells s 0 eRange)) ∧
      (∀ len v, len ≠ 4 → len ≠ 8 → exec (.registerWrite fn t off len v) s = .next (setAcc s f eRange)) ∧
      (o % 4 = 0 →
        (∀ c, regRead s f o = .error c → exec (.loRegisterRead fn t off) s = .next (tells s 0 c)) ∧
        (∀ v, regRead s f o = .ok (.word v) → (o ≠ 0x1010 ∨ f ≠ 0) → exec (.loRegisterRead fn t off) s = .next (tells s v 0)) ∧
        (∀ v, regRead s f o = .ok (.lo v) → (o ≠ 0x1010 ∨ f ≠ 0) → ∃ m, exec (.loRegisterRead fn t off) s = .next m ∧
          m.out = s.out ++ [.readData f o (BitVec.ofNat 64 (v % 2 ^ 32))] ∧ m.ctxs = s.ctxs ∧
          ∀ v', (readReg m f (o + 4) (.hi v')).out = m.out ++ [.readData f (o + 4) (BitVec.ofNat 64 (v / 2 ^ 32 % 2 ^ 32))]) ∧
        (∀ v, writeCode s f o ≠ 0 → exec (.registerWrite fn t off 4 v) s = .next (setAcc s f (writeCode s f o))) ∧
        (∀ v, writeCode s f o = 0 → exec (.registerWrite fn t off 4 v) s = .next (
          regWrite (uFn (setAcc s f 0) f (fun x => if hiWritable o then { x with latch := Tab.set 0 x.latch (o - 4) 0 } else x)) f o (BitVec.ofNat 32 v.toNat))) ∧
        (∀ v, exec (.registerWrite fn t off 8 v) s = .next (
          bar0Write (bar0Write s f o (BitVec.ofNat 32 v.toNat)) f (o + 4) (BitVec.ofNat 32 (v.toNat / 2 ^ 32)))))) ∧
    (∃ m, exec (.lkStatusRead 0) s = .next m ∧ (barOpen s 0 = true → m.tick = { s.tick with resync := false, tickinLost := false, holdover := false })) ∧
    (f ≠ 0 → ∃ m, exec (.lkStatusRead fn) s = .next m ∧ m.tick = s.tick) ∧
    (∀ write, ∃ m, exec (.bar0Timeout fn write) s = .next m ∧ (gFn m f).accCode = eTmoBar0 ∧ m.hi.tmoBar0 = bump16 s.hi.tmoBar0 1 ∧
      (write = true → m.out = s.out) ∧ (write = false → ∃ a, m.out = s.out ++ [.readData f a 0xFFFFFFFF]))

/-- R71, R72, R223, R250, R452, R561, R562: a context's own function writes its weir rates, in range and under expert control, and its trace settings
while the trace does not run, from the next tick on; another write is refused and changes nothing but ACC_CODE. -/
def Obligations.ContextSettingsWaitForTheTick : Prop :=
  ∀ (fn ctx : Fin 64) (s : State), HostWrites s fn.val →
    let n := ctx.val
    let acc := setAcc s fn.val 0
    let refused := fun (code : Code) => setAcc acc fn.val code
    (owns s fn.val n = false → ∀ burst v off, exec (.weirWrite fn ctx burst v) s = .next (setAcc s fn.val eDenied) ∧
      exec (.traceConfigWrite fn ctx off v) s = .next (setAcc s fn.val eDenied) ∧ exec (.splitMaxWrite fn ctx v) s = .next (setAcc s fn.val eDenied)) ∧
    (owns s fn.val n = true →
      (∀ v, isExpert s n = true → 1 ≤ vf v 19 0 → vf v 19 0 ≤ 1000000 → exec (.weirWrite fn ctx false v) s = .next (uCtx acc n (fun c =>
        { c with weirs := Tab.modify {} c.weirs c.weirSel.toNat (fun w => { w with nextRate := some (vf v 19 0) }) }))) ∧
      (∀ v, isExpert s n = true → 4096 ≤ vf v 24 0 → vf v 24 0 ≤ 16 * 2 ^ 20 → exec (.weirWrite fn ctx true v) s = .next (uCtx acc n (fun c =>
        { c with weirs := Tab.modify {} c.weirs c.weirSel.toNat (fun w => { w with nextBurst := some (vf v 24 0) }) }))) ∧
      (∀ burst v, isExpert s n = false → exec (.weirWrite fn ctx burst v) s = .next (refused eRange)) ∧
      (∀ off v, n ≠ 0 → off.toNat ≤ 0x14 →
        (consentTrace s n = false → exec (.traceConfigWrite fn ctx off v) s = .next acc) ∧
        (consentTrace s n = true → (gCtx s n).tj.state = 2 → exec (.traceConfigWrite fn ctx off v) s = .next (refused eBusy)) ∧
        (consentTrace s n = true → (gCtx s n).tj.state ≠ 2 →
          let x := tjNext (gCtx s n).tj (off.toNat / 4 * 4) v
          exec (.traceConfigWrite fn ctx off v) s = .next (
            if vf (x.1.setWidth 32) 3 0 ≠ 0 ∧ tjBufOk acc n x = false then refused eRange else uCtx acc n (fun c => { c with tj := { c.tj with nxt := some x } })))) ∧
      (∀ v : BitVec 32, exec (.splitMaxWrite fn ctx v) s = .next (
        if isExpert s n = true ∧ v.toNat % 256 ≠ 0 then setAcc (uCtx s n (fun c => { c with splitNext := some (BitVec.ofNat 8 (v.toNat % 256)) })) fn.val 0
        else setAcc s fn.val eRange)))

/-! ## The tick, the rotation and slack water (spec/02_the_tick.md, spec/03) -/

/-- R41, R43 to R46, R48, R50, R51, R53, R100, R173, R502: TICK, once ticks run, is the tick: the cores sample their segments, a step with a segment that has
not committed stays, an overrun goes as R46 says, the pound number of a master rises by one, a follower takes the announced number or
goes on in holdover, and TICK_OUT pulses; in slack water the tick does its part of the work. A cluster of which a bank fails its scrub is
fenced and issues nothing in that pound (R502). -/
def Obligations.TicksSampleSegmentsAndNumberPounds : Prop :=
  ∀ s : State,
    (ticksRun s = false → exec .tick s = .next s) ∧
    (ticksRun s = true → s.pm.st = 1 → exec .tick s = .next (slackTick (patrolTick s))) ∧
    (ticksRun s = true → ∃ t, exec .tick s = .next t ∧ t = tickNow (patrolTick s) ∧
      (isMaster s = true → t.tick.started = true ∧ t.tick.pound = if s.tick.started then s.tick.pound + 1 else 0)) ∧
    (∀ (phys : Fin 52) (ccc : Bool), isReady s = true → phys.val ∉ s.fw.scrubBad →
      exec (.clusterFail phys ccc .scrub) s = .next { s with fw := { s.fw with scrubBad := s.fw.scrubBad ++ [phys.val] } }) ∧
    (∀ c p : Nat, c < 48 → p < 52 → Tab.get 0 s.fw.map c = p + 1 → p ∈ s.fw.scrubBad →
      (scrubTick s).fw.fenced.getLsbD p = true ∧ c ∈ (scrubTick s).fw.clOff) ∧
    (∀ n cl : Nat, cl ∈ s.fw.clOff → issueSeg s n cl = s) ∧
    (isMaster s = false → s.tick.started = true →
      (s.tick.msgSeen = true → (poundTick s).tick.pound = s.tick.announced ∧
        (poundTick s).tick.resync = (s.tick.resync || s.tick.announced != s.tick.pound + 1)) ∧
      (s.tick.msgSeen = false → (poundTick s).tick.pound = s.tick.pound + 1 ∧ (poundTick s).tick.holdover = true ∧
        (poundTick s).tick.holdRun = s.tick.holdRun + 1)) ∧
    (Out.pulse "TICK_OUT" ∈ (poundTick s).out) ∧
    (∀ n cl, (segOf s n cl).present = true → (segOf s n cl).committed = false → (segOf s n cl).started = true →
      let g := segOf s n cl
      let c := gCtx s n
      let u := sampleSeg s n cl
      let split := c.expert && g.splittable
      let faults := fun (code : Code) => (gCtx u n).sch.faultNext = lowCode c.sch.faultNext code
      (segReached s n cl g = true →
        segOf u n cl = { g with committed := true, started := false, overruns := 0 } ∧ (gCtx u n).sch.faultNext = c.sch.faultNext) ∧
      (segReached s n cl g = false → (gCtx u n).ovrCnt = bump16 c.ovrCnt 1 ∧
        (g.exc ≠ 0 → faults g.exc) ∧
        (g.exc = 0 → split = true → g.overruns + 1 < c.splitMax.toNat →
          segOf u n cl = { g with overruns := g.overruns + 1, split := true, started := false }) ∧
        (g.exc = 0 → split = true → c.splitMax.toNat ≤ g.overruns + 1 → faults eOverrun) ∧
        (g.exc = 0 → split = false → g.replayable = true → g.overruns = 0 →
          segOf u n cl = { g with overruns := 1, split := false, started := false } ∧ (gCtx u n).sch.faultNext = c.sch.faultNext) ∧
        (g.exc = 0 → split = false → g.replayable = false ∨ 0 < g.overruns → faults eOverrun))) ∧
    (∀ n, s.rot.holder = some n →
      (∃ e ∈ (gCtx ((List.range 48).foldl (fun s cl => sampleSeg s n cl) s) n).sch.segs, e.2.present = true ∧ e.2.committed = false) →
      (gCtx (sampleAll s) n).sch.step = (gCtx s n).sch.step)

/-- R50 to R52, R54, R56, R57, R65, R73, R424, R425: a TICK message of the parent announces the next pound and sets its instant; TICK_IN
disciplines a master; a follower leaves the reach after 16 holdover pounds and ends the contexts that span it; the master's PF commits a
rotation with a stamp at least 4 pounds ahead, which is in force from its pound on, in order; the end of a pre-emption's save frees the
clusters. -/
def Obligations.RotationsCommitAndFollowersKeepTheTick : Prop :=
  ∀ s : State,
    (∀ (port : Fin 12) (arrival : Nat) (m m' : Msg) (t : State), recvMsg s port.val tTick m = .take m' t →
      let ann := wordAt m'.payload 0
      (isMaster t = true ∨ masterHop t t.cfg.chipNum ≠ some (mSrc m') → exec (.tickMessage port arrival m) s = .next t) ∧
      (isMaster t = false → masterHop t t.cfg.chipNum = some (mSrc m') → (t.tick.started = false ∨ ann ≠ t.tick.pound ∨ t.tick.holdRun = 0) →
        ∃ u, exec (.tickMessage port arrival m) s = .next u ∧ u.tick.msgSeen = true ∧ u.tick.announced = ann ∧
          u.tick.nextAt = (arrival : Int) - (gPort t port.val).delay.toNat - numAt m'.payload 8 4 + period01 t)) ∧
    (∀ (interval : Nat) (ofs : Int), isReady s = true → isMaster s = true → s.cfg.tickinEn = true →
      let far := decide (period01 s < 10000 * ((interval : Int) - period01 s).natAbs)
      (far = true → exec (.tickInEdge interval ofs) s = .next { s with tick := { s.tick with ignored := s.tick.ignored + 1 } }) ∧
      (far = false → s.tick.adj = 0 → ∃ t, exec (.tickInEdge interval ofs) s = .next t ∧ t.tick.nextAt = s.tick.nextAt + 10 * max (-10) (min 10 ofs) ∧
        t.tick.tickinOfs = BitVec.ofInt 32 ofs) ∧
      exec .tickinLost s = .next { s with tick := { s.tick with tickinLost := true, tickinLock := false } }) ∧
    (isMaster s = false → ∀ interval ofs, exec (.tickInEdge interval ofs) s = .next s ∧ exec .tickinLost s = .next s) ∧
    (isReady s = true → s.reach.rstate = 1 → isMaster s = false → 16 ≤ s.tick.holdRun →
      ∃ t, exec .leaveReach s = .next t ∧ t.reach.rstate = 2 ∧ t.reach.key = [] ∧ t.tick.lostReach = true ∧ t.tick.pound = s.tick.pound ∧
        ∀ n, 1 ≤ n → n < 64 →
          (spansReach s n = true → (gCtx s n).st ≠ .free → (gCtx s n).st ≠ .faulted → (gCtx t n).st = .faulted ∧ (gCtx t n).err = eTickLost) ∧
          (spansReach s n = false → (gCtx t n).st = (gCtx s n).st)) ∧
    (isReady s = false ∨ s.reach.rstate ≠ 1 ∨ isMaster s = true ∨ s.tick.holdRun < 16 → exec .leaveReach s = .next s) ∧
    (∀ v : BitVec 32, HostWrites s 0 →
      let p : Word := BitVec.ofNat 64 (s.rot.pLo.toNat + v.toNat * 2 ^ 32)
      let l := (List.range s.rot.shadowLen.toNat).map (fun i => Tab.get {} s.rot.shadow i)
      let good := s.rot.shadowLen.toNat ≤ 256 ∧ s.tick.pound.toNat + 4 ≤ p.toNat ∧ ∀ e ∈ l, e.valid = true → e.slice ≠ 0
      (isMaster s = false → exec (.rotationCommit 0 v) s = .next (setAcc s 0 eDenied)) ∧
      (isMaster s = true → ¬ good → exec (.rotationCommit 0 v) s = .next (setAcc { s with rot := { s.rot with pHi := v } } 0 eRange)) ∧
      (isMaster s = true → good → ∃ t, exec (.rotationCommit 0 v) s = .next t ∧ (gFn t 0).accCode = 0 ∧
        t.rot = { s.rot with pHi := v, next := s.rot.next.filter (fun e => e.1 != p) ++ [(p, l)] })) ∧
    (∀ (fn : Fin 64) (v : BitVec 32), fn.val ≠ 0 → HostWrites s fn.val → exec (.rotationCommit fn v) s = .next (setAcc s fn.val eDenied)) ∧
    (∀ first l, (s.rot.next.filter (fun e => decide (e.1.toNat ≤ s.tick.pound.toNat))).getLast? = some (s.tick.pound, l) →
      (rotTick s first).rot.force = l ∧ (rotTick s first).rot.idx = 0 ∧ (rotTick s first).rot.left = ((rotValid l).headD {}).slice.toNat) ∧
    (∀ r : Rot, rotValid r.force ≠ [] →
      (1 < r.left → rotStep r = { r with left := r.left - 1 }) ∧
      (r.left ≤ 1 → (rotStep r).idx = (r.idx + 1) % (rotValid r.force).length ∧
        (rotStep r).left = ((rotValid r.force).getD (rotStep r).idx {}).slice.toNat)) ∧
    (∀ n, s.rot.saving = true → isReady s = true → s.rot.savingCtx = some n →
      ∃ t, exec .preemptSaveDone s = .next t ∧ t.rot.saving = false ∧ t.rot.savingCtx = none ∧ t.rot.holder = none ∧
        (s.fw.unitLost = [] → t.threads = [] ∧ t.harts = []))

/-- R99 to R106, R522, R594, R595, R603, R604: PM_REQ enters and leaves slack water and prepares mooring; the wake block drives MAIN_EN; what
takes the main rails or the clocks away ends every context and loses HBM, and what takes V3P3_AUX away loses the wake block too; OTP and
the flash slots stay. -/
def Obligations.PowerCommandsSlackMoorAndStop : Prop :=
  ∀ s : State,
    let lost := fun (t : State) => t.mem = {} ∧ t.ctxs = [] ∧ t.otp = s.otp ∧ t.boot.slotB.image = s.boot.slotB.image ∧ t.boot.slotA.image = s.boot.slotA.image
    (HostWrites s 0 →
      let acc := setAcc s 0 0
      (s.pm.bellSeen = false ∨ s.pm.st ≠ 0 ∨ s.pm.wakeNext ≠ 0 →
        exec (.enterSlack 0) s = .next { acc with pm := { s.pm with req := 1, enterNext := s.pm.st == 0 || s.pm.enterNext } }) ∧
      (s.pm.bellSeen = true → s.pm.st = 0 → s.pm.wakeNext = 0 →
        exec (.enterSlack 0) s = .next (collideRec { acc with pm := { s.pm with req := 1, enterNext := true, wakeNext := 1 } } 6 6)) ∧
      (s.pm.st = 1 → ∃ t, exec (.resume 0) s = .next t ∧ t.pm = { s.pm with req := 3, st := 0, wakeSrc := 2, idleRun := 0 } ∧ t.mem = s.mem) ∧
      (s.pm.st = 0 → s.pm.enterNext = false → exec (.resume 0) s = .next { acc with pm := { s.pm with req := 3 } }) ∧
      ((∃ n, 1 ≤ n ∧ n < 64 ∧ (gCtx s n).st ≠ .free ∧ (gCtx s n).st ≠ .faulted) →
        exec (.prepareMoor 0) s = .next (setAcc { acc with pm := { s.pm with req := 2 } } 0 eBusy)) ∧
      ((∀ n, 1 ≤ n → n < 64 → (gCtx s n).st = .free ∨ (gCtx s n).st = .faulted) →
        ∃ t, exec (.prepareMoor 0) s = .next t ∧ t.pm.st = 2 ∧ t.wake.mainEn = false ∧ t.reach.rstate ≠ 1 ∧ t.mem = s.mem)) ∧
    (∀ fn : Fin 64, fn.val ≠ 0 → HostWrites s fn.val → ∀ c ∈ [Instr.enterSlack fn, .resume fn, .prepareMoor fn], exec c s = .next (setAcc s fn.val eDenied)) ∧
    (isReady s = true → s.pm.st = 0 → exec .slackIdleExpiry s = .next (
      if s.cfg.slackIdle ≠ 0 ∧ s.cfg.slackIdle ≤ s.pm.idleRun + 1 ∧ isQuiet s = true then { s with pm := { s.pm with autoNext := true } } else s)) ∧
    (isReady s = true → s.pm.st = 1 → ∃ t, exec .wakeNAssert s = .next t ∧ t.pm = { s.pm with st := 0, wakeSrc := 8, idleRun := 0 }) ∧
    (isReady s = true → s.pm.st = 2 → s.wake.auxUp = true → s.wake.hold1s = false → exec .wakeNAssert s = .next (driveMain s true)) ∧
    (isReady s = false → exec .wakeNAssert s = .next (if s.wake.auxUp = true ∧ s.wake.hold1s = false then driveMain s true else s)) ∧
    (s.wake.auxUp = false → ∃ t, exec .auxPowerUp s = .next t ∧ t.wake = { s.wake with auxUp := true, mainEn := true } ∧ t.boot = { s.boot with phase := .off } ∧ t.mem = s.mem) ∧
    (s.wake.auxUp = true → exec .auxPowerUp s = .next s) ∧
    (powered s = true → ∃ t, exec .railFault s = .next t ∧ lost t ∧ t.boot.phase = .stopped ∧ t.wake = { s.wake with railFault := true }) ∧
    (s.boot.phase = .off ∨ s.boot.phase = .reset ∨ s.boot.phase = .noAux → exec .railFault s = .next s) ∧
    (powered s = true → s.wake.thermTrip = false → ∃ t, exec .thermalTrip s = .next t ∧ lost t ∧ t.boot.phase = .stopped ∧
      t.wake = { s.wake with thermTrip := true, tripLatch := true, tripSeen := true, hold1s := true, mainEn := false }) ∧
    exec .tripLatchClear s = .next (if s.wake.mainUp = true then s else { s with wake := { s.wake with tripLatch := false } }) ∧
    (∀ low, s.wake.hold1s = true → ∃ t, exec (.mainEnHoldExpiry low) s = .next t ∧ t.wake = { s.wake with hold1s := false, mainEn := low || s.wake.mainEn }) ∧
    (∀ low, s.wake.hold1s = false → exec (.mainEnHoldExpiry low) s = .next s) ∧
    (s.wake.mainUp = true → ∃ t, exec .mainRailsOff s = .next t ∧ lost t ∧ t.boot.phase = .off ∧ t.wake = { s.wake with
      mainUp := false, smbAlert := false, railFault := s.wake.railFault || (powered s && s.pm.st != 2) }) ∧
    (s.wake.mainUp = false → exec .mainRailsOff s = .next s) ∧
    (∃ t, exec .v3p3AuxLoss s = .next t ∧ lost t ∧ t.boot.phase = .noAux ∧ t.wake = {})

/-! ## Boot and update (spec/03 R74 to R95, R434, R435) -/

/-- R74, R76 to R79, R88, R90 to R94, R434, R592, R603: PERST_N boots the slot that R90 chooses, the other one where its image fails R87, or
recovery; a rise without the rails of R592 is the boot that the spec leaves undefined, and the one stop of the model. BOOT_READY settles
the slots and the chip runs alone or waits for its reach; a boot that times out fails its slot. The FW_UPD_ commands stage, verify and
write an image. -/
def Obligations.BootsVerifyImagesAndUpdatesStageThem : Prop :=
  ∀ s : State,
    let cold := (coldState s).boot
    let img := fun (b : Boot) (x : Bool) => flashRead b (flashBase x) slotBytes
    let good := fun (b : Boot) (x : Bool) => imageCode s.otp (img b x) = 0
    let spare := fun (b : Boot) (x : Bool) => (slotOf b (!x)).st = .active ∨ (slotOf b (!x)).st = .standby
    let x := s.boot.booted
    (s.wake.perstHigh = false → ∀ fails, exec (.perstNRise false fails) s = .fault .bootUndefined) ∧
    (s.wake.perstHigh = true → ∀ rails fails, exec (.perstNRise rails fails) s = .next s) ∧
    (s.wake.perstHigh = false → s.wake.auxUp = true → s.wake.tripLatch = true ∨ s.wake.thermTrip = true → ∀ fails,
      ∃ t, exec (.perstNRise true fails) s = .next t ∧ t.boot.phase = .reset ∧ t.wake = { s.wake with perstHigh := true, mainUp := true }) ∧
    (s.wake.perstHigh = false → s.wake.auxUp = true → s.wake.tripLatch = false → s.wake.thermTrip = false → ∀ fails,
      ∃ t, exec (.perstNRise true fails) s = .next t ∧ t.boot.phase = .booting ∧ t.sec.mode = 0 ∧ t.mem = {} ∧ t.ctxs = [] ∧ t.otp = s.otp ∧
        (∀ y, chooseSlot cold = some y → good cold y → t.cfg = cfgOf (img cold y) ∧ t.boot.booted = y ∧ t.boot.recover = false ∧ t.boot.fallback = false ∧
          t.fw.fenced = fails ∧ t.fw.map = bootMap fails ∧ t.fw.images = fwImages (img cold y)) ∧
        (∀ y, chooseSlot cold = some y → ¬ good cold y → spare cold y → good cold (!y) →
          t.cfg = cfgOf (img cold (!y)) ∧ t.boot.booted = (!y) ∧ t.boot.fallback = true ∧ (slotOf t.boot y).st = .failed) ∧
        (∀ y, chooseSlot cold = some y → ¬ good cold y → ¬ spare cold y → t.boot.recover = true ∧ (slotOf t.boot y).st = .failed) ∧
        (chooseSlot cold = none → t.boot.recover = true)) ∧
    (∀ (b : Boot) (y : Bool),
      ((slotOf b y).st = .pending → (slotOf b (!y)).st ≠ .pending → chooseSlot b = some y) ∧
      ((slotOf b y).st = .active → (slotOf b (!y)).st ≠ .pending → (slotOf b (!y)).st ≠ .active → chooseSlot b = some y) ∧
      ((slotOf b y).st = .standby → (slotOf b (!y)).st = .empty ∨ (slotOf b (!y)).st = .failed → chooseSlot b = some y)) ∧
    (s.wake.perstHigh = true → ∃ t, exec .perstNFall s = .next t ∧ t.mem = {} ∧ t.ctxs = [] ∧ t.otp = s.otp ∧ t.boot.phase = lowPhase s.wake ∧
      t.wake = { s.wake with perstHigh := false, smbAlert := false, thermTrip := s.wake.thermTrip && s.wake.tripLatch }) ∧
    (s.wake.perstHigh = false → exec .perstNFall s = .next s) ∧
    (s.boot.phase = .booting → s.boot.recover = true → ∃ t, exec .bootReady s = .next t ∧ t.boot = { s.boot with phase := .recovery, l3 := [] } ∧
      t.sec.mode = 1 ∧ t.mem = s.mem) ∧
    (s.boot.phase = .booting → s.boot.recover = false → ∃ m, exec .bootReady s = .next (if s.cfg.topo = 0 then runAlone m else m) ∧
      m.boot.phase = .ready ∧ m.cfg = s.cfg ∧ m.mem = s.mem ∧ (gCtx m 0).st = .bound ∧ (slotOf m.boot x).st = .active ∧
      ((slotOf s.boot x).st = .pending → (slotOf s.boot (!x)).st = .active → (slotOf m.boot (!x)).st = .standby) ∧
      m.otp.svnMin = (if s.cfg.svnCommit then BitVec.ofNat 32 (max s.otp.svnMin.toNat s.cfg.svn.toNat) else s.otp.svnMin)) ∧
    (s.boot.phase ≠ .booting → exec .bootReady s = .next s ∧ exec .bootTimeout s = .next s) ∧
    (s.boot.phase = .booting → s.boot.recover = false → ∃ t, exec .bootTimeout s = .next t ∧ t.boot.phase = .booting ∧ t.mem = { stks := s.mem.stks } ∧
      (slotOf t.boot x).st = .failed ∧ (spare cold x → good s.boot (!x) → t.boot.booted = (!x) ∧ t.boot.fallback = true ∧ t.cfg = cfgOf (img s.boot (!x))) ∧
      (¬ spare cold x → t.boot.recover = true)) ∧
    (mayForm s = true → exec .reachFormed s = .next (formReach s)) ∧ (mayForm s = false → exec .reachFormed s = .next s) ∧
    (∃ m, formReach s = tickNow m ∧ m.reach.rstate = 1 ∧ m.tick.started = false ∧ m.reach.key = (List.range 32).map (Config.randomByte s.free) ∧
      ∀ i < 256, m.reach.members.getLsbD i = (i == s.cfg.chipNum || (admittedChips s).any (fun h => h.chip == i))) ∧
    (isReady s = true → s.reach.rstate = 0 → exec .reachWaitExpiry s = .next (
      if mayForm s = true ∧ admittedChips s ≠ [] then formReach s else runAlone s)) ∧
    (isReady s = false ∨ s.reach.rstate ≠ 0 → exec .reachWaitExpiry s = .next s) ∧
    (HostWrites s 0 ∨ (s.boot.phase = .recovery ∧ barOpen s 0 = true) →
      let busy := s.boot.upd = 2 ∨ s.boot.upd = 4
      let b := s.boot
      let becomes := fun (c : Instr) (b' : Boot) => exec c s = .next { setAcc s 0 0 with boot := b' }
      becomes (.fwUpdOpen 0) (if busy then { b with cmd := 1, updResult := eBusy } else { b with cmd := 1, upd := 1, updResult := 0 }) ∧
      (b.upd = 1 ∨ b.upd = 3 → becomes (.fwUpdVerify 0) { b with
        cmd := 2, upd := 2, verifyCode := if numAt (stagedImage b) 0x0C 4 = b.updLen.toNat then imageCode s.otp (stagedImage b) else eRange }) ∧
      (b.upd ≠ 1 → b.upd ≠ 3 → becomes (.fwUpdVerify 0) { b with cmd := 2, updResult := if busy then eBusy else eRange }) ∧
      (b.upd = 3 → b.verifyCode = 0 → becomes (.fwUpdCommit 0) { b with cmd := 3, upd := 4, updResult := 0, progress := 0 }) ∧
      (b.upd ≠ 3 ∨ b.verifyCode ≠ 0 → becomes (.fwUpdCommit 0) { b with cmd := 3, updResult := if b.upd = 4 then eBusy else eRange }) ∧
      (b.upd ≠ 4 → becomes (.fwUpdAbort 0) { b with cmd := 4, upd := 0, updResult := 0 }) ∧
      (b.upd = 4 → ∃ t, exec (.fwUpdAbort 0) s = .next t ∧ t.boot.upd = 0 ∧ (slotOf t.boot (targetIsB b)).st = .failed ∧
        slotOf t.boot (!targetIsB b) = slotOf b (!targetIsB b))) ∧
    (∀ fn : Fin 64, fn.val ≠ 0 → HostWrites s fn.val → ∀ c ∈ [Instr.fwUpdOpen fn, .fwUpdVerify fn, .fwUpdCommit fn, .fwUpdAbort fn],
      exec c s = .next (setAcc s fn.val eDenied)) ∧
    (s.boot.upd = 2 → exec .fwUpdVerifyDone s = .next { s with boot := { s.boot with upd := 3, updResult := s.boot.verifyCode } }) ∧
    (s.boot.upd = 4 → ∃ t, exec .fwUpdCommitDone s = .next t ∧ t.boot.upd = 5 ∧ t.cfg = s.cfg ∧
      slotOf t.boot (targetIsB s.boot) = { st := .pending, image := stagedImage s.boot } ∧ slotOf t.boot (!targetIsB s.boot) = slotOf s.boot (!targetIsB s.boot)) ∧
    (s.boot.upd ≠ 2 → exec .fwUpdVerifyDone s = .next s) ∧ (s.boot.upd ≠ 4 → exec .fwUpdCommitDone s = .next s)

/-! ## The security core (spec/15) -/

/-- The SPDM requests that need the negotiation to have ended, outside a session and in session `i` (R485, R489). -/
def spdmLate (sess : Option Nat) (i : Nat) (a b : Byte) (o l : BitVec 16) (x y : Bytes) (sign : Bool) : List Instr :=
  [.getDigests sess, .getCertificate a o l, .challenge a x, .getMeasurements sess b sign x, .keyExchange y, .finish i y, .heartbeat i, .keyUpdate i,
   .endSession i, .submit i y, .withdraw i o, .unlockChallenge, .unlock y]

/-- R473, R484 to R490, R496, R510 to R512: the security core answers the requests of R485 and the messages of R489: the negotiation in order, the
certificates and measurements with the Alias key's signature, at most eight sessions, manifests that pass R496 pending under a handle
until a withdrawal or an expiry, and a debug unlock that passes R510 ends every context and boots in debug mode. The order of the
negotiation and the layouts are DSP0274's (the model's reading, notes/assumptions). -/
def Obligations.SecurityCoreAnswersItsRequests : Prop :=
  ∀ s : State,
    let tells := fun (c : Instr) (f : State → Prop) (r : Bytes) => ∃ t, exec c s = .next t ∧ t.out = s.out ++ [.spdm r] ∧ f t
    let same := fun (t : State) => t.sec = s.sec ∧ t.mem = s.mem ∧ t.ctxs = s.ctxs
    (secAnswers s = false → ∀ sess i a b o l x y sign index, (∀ c ∈ spdmLate sess i a b o l x y sign, exec c s = .next s) ∧
      exec (.getVersion x) s = .next s ∧ exec (.getCapabilities x) s = .next s ∧ exec (.negotiateAlgorithms x) s = .next s ∧
      exec (.doeDiscovery index) s = .next s) ∧
    (secAnswers s = true → s.sec.negotiated < 3 → ∀ sess i a b o l x y sign, ∀ c ∈ spdmLate sess i a b o l x y sign,
      exec c s = .next (spdmError s errUnexpected)) ∧
    (secAnswers s = true →
      (∀ index : Byte, ∃ t d, exec (.doeDiscovery index) s = .next t ∧ t = emit s (.doe d) ∧
        (index.toNat < 3 → d = [0x01, 0x00, index, if index.toNat < 2 then index + 1 else 0])) ∧
      (∀ req, tells (.getVersion req) (fun t => t.sec.negotiated = 1 ∧ t.mem = s.mem) [0x10, 0x04, 0, 0, 0, 1, 0x00, 0x13]) ∧
      (∀ req, 1 ≤ s.sec.negotiated → ∃ r, tells (.getCapabilities req) (fun t => t.sec.negotiated = max 2 s.sec.negotiated) r ∧
        r.take 4 = [0x13, 0x61, 0, 0] ∧ numAt r 8 4 = spdmFlags) ∧
      (∀ req, 2 ≤ s.sec.negotiated → ∃ r, tells (.negotiateAlgorithms req) (fun t => t.sec.negotiated = max 3 s.sec.negotiated) r ∧
        r.take 4 = [0x13, 0x63, 3, 0] ∧ numAt r 12 4 = 0x80 ∧ numAt r 16 4 = 2)) ∧
    (secAnswers s = true → 3 ≤ s.sec.negotiated →
      tells (.getDigests none) same (spdmMsg 0x01 1 1 (sha384 (certChain s))) ∧
      (∀ off len : BitVec 16, off.toNat ≤ (certChain s).length →
        let n := min len.toNat ((certChain s).length - off.toNat)
        tells (.getCertificate 0 off len) same (spdmMsg 0x02 0 0 (leBytes n 2 ++ leBytes ((certChain s).length - off.toNat - n) 2 ++ slice (certChain s) off.toNat n))) ∧
      (∀ slot off len nonce, slot ≠ 0 → exec (.getCertificate slot off len) s = .next (spdmError s errInvalid) ∧
        exec (.challenge slot nonce) s = .next (spdmError s errInvalid)) ∧
      (∀ nonce, ∃ body k, tells (.challenge 0 nonce) same (spdmMsg 0x03 0 1 (body ++
        slice (Config.aliasSign s.sec.cdi k (s.sec.trans ++ slice nonce 0 32 ++ spdmMsg 0x03 0 1 body)) 0 96)) ∧ body.take 48 = sha384 (certChain s)) ∧
      (∀ (i : Nat) (v : Bytes) (sign : Bool) (nonce : Bytes), i ∈ measIndices → measure s i = some v →
        ∃ r, tells (.getMeasurements none (BitVec.ofNat 8 i) sign nonce) same r ∧ byteAt r 4 = 1 ∧
          slice r 8 (v.length + 7) = [BitVec.ofNat 8 i, 1] ++ leBytes (v.length + 3) 2 ++ [measType i] ++ leBytes v.length 2 ++ v) ∧
      (∀ share, 8 ≤ s.sec.sessions.length → exec (.keyExchange share) s = .next (spdmError s errSpdmBusy)) ∧
      (∀ share, s.sec.sessions.length < 8 → ∃ r y, tells (.keyExchange share) (fun t => t.sec.sessions = s.sec.sessions ++ [y] ∧
        t.sec.nextSess = s.sec.nextSess + 1 ∧ t.sec.pending = s.sec.pending) r ∧ y.id = s.sec.nextSess ∧ y.ready = false ∧ byteAt r 1 = 0x64) ∧
      (∀ i y mac, sessOf s i = some y → y.ready = false →
        (mac = finishMac y → tells (.finish i mac) (fun t => t.sec.sessions = s.sec.sessions.map (fun z => if z.id = i then { z with ready := true } else z))
          (spdmMsg 0x65 0 0 [])) ∧
        (mac ≠ finishMac y → tells (.finish i mac) (fun t => t.sec.sessions = s.sec.sessions.filter (fun z => z.id != i)) (spdmMsg 0x7F errDecrypt 0 []))) ∧
      (∀ i p h, sessReady s i = false → ∀ c ∈ [Instr.heartbeat i, .keyUpdate i, .endSession i, .submit i p, .withdraw i h],
        exec c s = .next (spdmError s errSession)) ∧
      (∀ i, sessReady s i = true →
        tells (.heartbeat i) same (spdmMsg 0x68 0 0 []) ∧
        tells (.keyUpdate i) (fun t => t.sec = { s.sec with sessions := s.sec.sessions.map (fun z => if z.id = i then { z with key := nextKey z.key } else z) })
          (spdmMsg 0x69 1 0 []) ∧
        tells (.endSession i) (fun t => t.sec = { s.sec with sessions := s.sec.sessions.filter (fun z => z.id != i) }) (spdmMsg 0x6C 0 0 []) ∧
        (∀ p, submitCode s (p.drop 32) ≠ 0 → exec (.submit i p) s = .next (vendorAns s [submitCode s (p.drop 32), 0, 0])) ∧
        (∀ p, submitCode s (p.drop 32) = 0 → ∃ t h, exec (.submit i p) s = .next t ∧ h = freeHandle s 200 s.sec.nextHandle ∧
          t.out = (vendorAns s ([0] ++ leBytes h.toNat 2)).out ∧
          t.sec = { s.sec with pending := s.sec.pending ++ [{ handle := h, sess := i, man := manOfBytes (p.drop 32), jobKey := slice p 0 32 }], nextHandle := h + 1 }) ∧
        (∀ h, (s.sec.pending.any (fun p => p.handle == h && p.sess == i)) = true →
          exec (.withdraw i h) s = .next (vendorAns { s with sec := { s.sec with pending := s.sec.pending.filter (fun p => p.handle != h) } } [0])) ∧
        (∀ h, (s.sec.pending.any (fun p => p.handle == h && p.sess == i)) = false → exec (.withdraw i h) s = .next (vendorAns s [eDenied]))) ∧
      (∃ t, exec .unlockChallenge s = .next t ∧ t.sec.nonce = some ((List.range 32).map (Config.randomByte s.free)) ∧
        t.out = (vendorAns s ((List.range 32).map (Config.randomByte s.free))).out) ∧
      (∀ token, s.boot.phase = .offline → exec (.unlock token) s = .next (vendorAns s [eUnitLost])) ∧
      (∀ token, s.boot.phase ≠ .offline → tokenOk s token = false →
        exec (.unlock token) s = .next (vendorAns { s with sec := { s.sec with nonce := none } } [eDenied])) ∧
      (∀ token, s.boot.phase ≠ .offline → tokenOk s token = true → ∃ t, exec (.unlock token) s = .next t ∧ t.out = (vendorAns s [0]).out ∧
        t.boot.phase = .booting ∧ t.sec.mode = 2 ∧ t.sec.debugBit = true ∧ t.sec.sessions = [] ∧ t.sec.pending = [] ∧ t.ctxs = [] ∧ t.mem = { stks := s.mem.stks } ∧
        t.reach.key = [] ∧ t.sec.scope = BitVec.ofNat 32 (numAt token 8 4))) ∧
    (∀ b, submitCode s b = 0 → s.boot.phase ≠ .offline ∧ ecdsaVerify (slice b 0xA0 97) (slice b (b.length - 128) 96) (b.take (b.length - 128)) = true ∧
      manRangeOk s b = true ∧ tooLarge s (manOfBytes b) = false ∧ s.sec.pending.length < 63 ∧ s.sec.mode = 0) ∧
    (∀ h, (s.sec.pending.any (fun p => p.handle == h)) = true → s.boot.secFailed = false → s.hi.bindNext = none →
      exec (.manifestExpiry h) s = .next { s with sec := { s.sec with pending := s.sec.pending.filter (fun p => p.handle != h) } }) ∧
    (∀ h, (s.sec.pending.any (fun p => p.handle == h)) = false → exec (.manifestExpiry h) s = .next s)

/-! ## The governor and failures (spec/16 R519 to R532, spec/19 R598 to R602) -/

/-- R468, R519 to R524, R528 to R530, R579, R598 to R602: the governor's steps: a brake holds 800 MHz, counted and logged, and raises vector 3; a
throttle step takes 100 MHz off and a recovery gives them back up to the request; a power window asks for 50 MHz less or more. A PMC that
is silent holds the minimum safe point, a SEC or the second LKC miss takes the 2840 offline, a failing cluster pre-empts the context
that holds the pound and is due to be fenced. -/
def Obligations.GovernorStepsAndWatchdogs : Prop :=
  ∀ s : State,
    let on := governed s = true
    (on → s.gov.brake = false → ∃ t, exec .pwrBrakeAssert s = .next t ∧ t.gov.brake = true ∧ t.gov.brakeCnt = bump16 s.gov.brakeCnt 1 ∧
      (∀ k < 8, clkOf t.gov k = min 800 (clkOf s.gov k)) ∧ clkOf t.gov 8 = 1200 ∧ clkOf t.gov 9 = 1200 ∧ t.ctxs = s.ctxs ∧ t.tick = s.tick ∧ t.rot = s.rot ∧
      ((gFn s 0).msixEn = true → msixOpen (gFn s 0) 3 = true → t.out = s.out ++ [.msix 0 3])) ∧
    (on → s.gov.brake = true → exec .pwrBrakeAssert s = .next s) ∧
    (on → s.gov.brake = true → exec .pwrBrakeRelease s =
      .next { s with gov := setHarbor { s.gov with brake := false } (if s.gov.minSafe then 1200 else 2400) }) ∧
    (on → s.gov.brake = false → exec .pwrBrakeRelease s = .next s) ∧
    (∀ c : Byte, powered s = true → 100 ≤ c.toNat → ∃ t, exec (.thermalWarn c) s = .next t ∧ t.gov.warn = true ∧ t.gov.warnCnt = bump16 s.gov.warnCnt 1 ∧
      t.gov.tj = c ∧ t.wake.smbAlert = true) ∧
    (∀ c : Byte, powered s = false ∨ c.toNat < 100 → exec (.thermalWarn c) s = .next s) ∧
    (∀ (g : Fin 8) (c : Byte), on → 105 ≤ c.toNat → ∃ t, exec (.throttleStep g c) s = .next t ∧ clkOf t.gov g.val = clkOf s.gov g.val - 100 ∧
      (∀ k, k ≠ g.val → clkOf t.gov k = clkOf s.gov k) ∧ t.gov.throttle = bump16 s.gov.throttle 1 ∧ t.cfg = s.cfg ∧ t.ctxs = s.ctxs) ∧
    (∀ (g : Fin 8) (c : Byte), on → c.toNat ≤ 102 → ∃ t, exec (.throttleRecover g c) s = .next t ∧ (∀ k, k ≠ g.val → clkOf t.gov k = clkOf s.gov k) ∧
      clkOf t.gov g.val = max (clkOf s.gov g.val) (min (ceilingClk s.gov) (clkOf s.gov g.val + 100)) ∧ t.gov.clkReq = s.gov.clkReq) ∧
    (∀ w : BitVec 16, on → s.gov.minSafe = false →
      let lim := limitW s.cfg
      let req := s.gov.clkNext.getD s.gov.clkReq
      ∃ t, exec (.powerWindow w) s = .next t ∧ t.gov.cardW = w ∧ t.gov.clk = s.gov.clk ∧
        (lim < w.toNat → t.gov.clkNext = some (req - 50) ∧ t.gov.under = 0) ∧
        (w.toNat ≤ lim → 95 * lim < 100 * w.toNat → t.gov.clkNext = s.gov.clkNext ∧ t.gov.under = 0) ∧
        (w.toNat ≤ lim → 100 * w.toNat ≤ 95 * lim → s.gov.under < 99 → t.gov.clkNext = s.gov.clkNext ∧ t.gov.under = s.gov.under + 1) ∧
        (w.toNat ≤ lim → 100 * w.toNat ≤ 95 * lim → 99 ≤ s.gov.under → t.gov.clkNext = some (max req (min (profileClk lim) (req + 50))) ∧ t.gov.under = 0)) ∧
    (∀ (c : Nat), s.gov.clkNext = some c → (clockTick s).gov.clkReq = c ∧ (clockTick s).gov.clkNext = none ∧
      (clockTick s).gov.clockClamp = decide (1800 < c) ∧ (clockTick s).gov.clamp = (if 1800 < c then bump16 s.gov.clamp 8 else s.gov.clamp) ∧
      (∀ k < 8, clkOf (clockTick s).gov k ≤ min c 1800)) ∧
    (on → ∃ t, exec .pmcWatchdogMiss s = .next t ∧ t.gov.minSafe = true ∧ t.gov.wdog = bump16 s.gov.wdog 1 ∧ (∀ k < 8, clkOf t.gov k ≤ 800) ∧
      clkOf t.gov 8 = 1200 ∧ clkOf t.gov 9 = 1200 ∧
      t.ctxs = s.ctxs ∧ t.boot = s.boot) ∧
    (on → ∃ t, exec .secWatchdogMiss s = .next t ∧ t.boot.phase = .offline ∧ t.boot.secFailed = true ∧ t.sec.sessions = [] ∧ t.reach.key = [] ∧
      t.reach.rstate ≠ 1 ∧ t.rot.holder = none ∧ ∀ n < 64, (gCtx t n).bind.keys = {} ∧ ((gCtx s n).st ≠ .free → (gCtx t n).st = .faulted)) ∧
    (isReady s = true → s.boot.lkcMiss = 0 → ∃ t, exec .lkcWatchdogMiss s = .next t ∧ t.boot = { s.boot with lkcMiss := 2 } ∧ t.ctxs = s.ctxs ∧
      t.gov.wdog = bump16 s.gov.wdog 1) ∧
    (isReady s = true → s.boot.lkcMiss ≠ 0 → ∃ t, exec .lkcWatchdogMiss s = .next t ∧ t.boot.phase = .offline ∧ t.boot.lkcFailed = true ∧
      ∀ n < 64, (gCtx s n).st ≠ .free → (gCtx t n).st = .faulted) ∧
    (∀ (phys : Fin 52) (ccc rd : Bool), isReady s = true → s.fw.fenced.getLsbD phys.val = false → (∀ d ∈ s.fw.fenceDue, d.1 ≠ phys.val) →
      ∃ t, exec (.clusterFail phys ccc (.now rd)) s = .next t ∧ t.fw.fenceDue = s.fw.fenceDue ++ [(phys.val, b2n ccc)] ∧ t.fw.fenced = s.fw.fenced ∧
        (∀ c n, logicalOf s phys.val = some c → s.rot.holder = some n → holds s n = true →
          t.rot = { s.rot with saving := true, savingCtx := some n } ∧ t.fw.unitLost = s.fw.unitLost ++ [(64 * n + c, rd)]) ∧
        (s.rot.holder = none → t.rot = s.rot)) ∧
    (∀ phys : Fin 52, isReady s = true → s.fw.fenced.getLsbD phys.val = false → (∀ d ∈ s.fw.fenceDue, d.1 ≠ phys.val) →
      ∃ t, exec (.cccWatchdogMiss phys) s = .next t ∧ t.fw.fenceDue = s.fw.fenceDue ++ [(phys.val, 1)] ∧ t.gov.wdog = bump16 s.gov.wdog 1) ∧
    (∀ (phys c p : Nat) (r : List Nat), phys < 52 → s.fw.fenced.getLsbD phys = false → logicalOf s phys = some c → sparesOf s (phys / 26) = p :: r →
      p ∉ s.fw.scrubBad →
      (fenceCluster s phys).fw.fenced.getLsbD phys = true ∧ Tab.get 0 (fenceCluster s phys).fw.map c = p + 1 ∧
      ∀ d, d ≠ c → Tab.get 0 (fenceCluster s phys).fw.map d = Tab.get 0 s.fw.map d)

/-! ## Management pins and configuration requests (spec/19 R586 to R589, spec/03 R75, spec/14 R442, R443) -/

/-- R586 to R588: the SMBus target and the MCTP endpoint answer while the 2840 answers at all (recovery included: R587's bit 7, a reading of
the model): the status block with its PEC, the endpoint and terminus identifiers, and the sensors' values, which are those of the
block. The layouts are DSP0236's, DSP0240's and DSP0248's (the model's, notes/assumptions). -/
def Obligations.ManagementBusAnswersStatus : Prop :=
  ∀ s : State,
    let tells := fun (c : Instr) (r : Bytes) => exec c s = .next (emit s (.mctp r))
    let b := statusBlock s
    (pinsAnswer s = false → ∀ cmd req tid h ty k, ∀ c ∈ [Instr.smbusBlockRead cmd, .mctpControl req, .getTid, .setTid tid, .getPldmVersion ty, .getPldmTypes,
      .getPldmCommands ty, .getPdrRepositoryInfo, .getPdr h, .getSensorReading k, .getStateSensorReadings k], exec c s = .next s) ∧
    (pinsAnswer s = true →
      (∃ t pec, exec (.smbusBlockRead 0) s = .next t ∧ t.wake = { s.wake with smbAlert := false } ∧
        (s.wake.smbAlert = false → t.out = s.out ++ [.smbus (8 :: b ++ [pec])]) ∧
        (s.wake.smbAlert = true → t.out = s.out ++ [.smbus (8 :: b ++ [pec]), .level "SMB_ALERT_N" true])) ∧
      (∀ cmd, cmd ≠ 0 → exec (.smbusBlockRead cmd) s = .next s) ∧
      (∀ req, ∃ t r, exec (.mctpControl req) s = .next t ∧ t.out = s.out ++ [.mctp r] ∧ r.take 3 = [0, BitVec.ofNat 8 (byteAt req 1 % 32), BitVec.ofNat 8 (byteAt req 2)] ∧
        (byteAt req 2 = 1 → t.mgmt = { s.mgmt with eid := BitVec.ofNat 8 (byteAt req 4) }) ∧ (byteAt req 2 ≠ 1 → t.mgmt = s.mgmt) ∧
        (byteAt req 2 = 2 → r.drop 3 = [0, s.mgmt.eid, 0, 0]) ∧ (byteAt req 2 = 5 → r.drop 3 = [0, 1, 1]) ∧
        (byteAt req 2 ∉ [1, 2, 4, 5] → r.drop 3 = [5])) ∧
      tells .getTid [0, s.mgmt.tid] ∧
      (∀ tid, tid ≠ 0 → tid ≠ 0xFF → ∃ t, exec (.setTid tid) s = .next t ∧ t.mgmt = { s.mgmt with tid := tid } ∧ t.out = s.out ++ [.mctp [0]]) ∧
      (∀ tid, tid = 0 ∨ tid = 0xFF → tells (.setTid tid) [2]) ∧
      (∀ ty, ty = 0 ∨ ty = 2 → ∃ v, v.length = 4 ∧ tells (.getPldmVersion ty) ([0, 0, 0, 0, 0, 5] ++ v ++ leBytes (crc32 v) 4)) ∧
      (∀ ty, ty ≠ 0 → ty ≠ 2 → tells (.getPldmVersion ty) [0x83] ∧ tells (.getPldmCommands ty) [0x83]) ∧
      tells .getPldmTypes [0, 5, 0, 0, 0, 0, 0, 0, 0] ∧
      tells (.getPldmCommands 0) (0 :: 0x3E :: List.replicate 31 0) ∧
      tells (.getPldmCommands 2) (0 :: leBytes (2 ^ 0x11 + 2 ^ 0x21 + 2 ^ 0x50 + 2 ^ 0x51) 32) ∧
      (∃ r, tells .getPdrRepositoryInfo r ∧ r.length = 41 ∧ numAt r 28 4 = 10) ∧
      (∀ h : BitVec 32, h.toNat ≤ 10 → ∃ r, tells (.getPdr h) r ∧ byteAt r 0 = 0 ∧ numAt r 1 4 = (if h.toNat = 10 then 0 else max 1 h.toNat + 1) ∧
        r.drop 12 = Config.pldmPdr (max 1 h.toNat)) ∧
      (∀ h : BitVec 32, 10 < h.toNat → tells (.getPdr h) [0x82]) ∧
      tells (.getSensorReading 1) [0, 0, 0, 0, 0, 0, 0, s.gov.tj] ∧ tells (.getSensorReading 2) [0, 0, 0, 0, 0, 0, 0, BitVec.ofNat 8 (hbmMax s)] ∧
      tells (.getSensorReading 3) ([0, 2, 0, 0, 0, 0, 0] ++ leBytes s.gov.cardW.toNat 2) ∧
      tells (.getSensorReading 4) [0, 0, 0, 0, 0, 0, 0, BitVec.ofNat 8 (clkNow s.gov / 10)] ∧
      (∀ k : BitVec 16, k.toNat = 0 ∨ 4 < k.toNat → tells (.getSensorReading k) [0x80]) ∧
      tells (.getStateSensorReadings 5) [0, 1, 0, BitVec.ofNat 8 s.pm.st.toNat, 0, 0] ∧
      (∀ k : Nat, k < 5 → tells (.getStateSensorReadings (BitVec.ofNat 16 (6 + k))) [0, 1, 0, if (govBits s.gov).testBit k then 1 else 0, 0, 0]) ∧
      (∀ k : BitVec 16, k.toNat < 5 ∨ 10 < k.toNat → tells (.getStateSensorReadings k) [0x80])) ∧
    (b.length = 8 ∧ (byteAt b 0).testBit 0 = (s.boot.phase == .ready) ∧ (byteAt b 0).testBit 6 = (s.boot.phase == .offline) ∧
      (byteAt b 0).testBit 7 = (s.boot.phase == .recovery) ∧ (byteAt b 0).testBit 4 = s.gov.brake ∧ (byteAt b 0).testBit 5 = s.gov.warn)

/-- R75, R442, R443, R475, R589: the JTAG instructions while the main rails are up; a configuration request is answered with Request Retry
Status before the 2840 is ready, then read and applied to a function that exists, and a change of a locked VF moves its interface to
ERROR. -/
def Obligations.JtagScansAndConfigurationRequestsApply : Prop :=
  ∀ s : State,
    (s.wake.mainUp = false → ∀ b l, ∀ c ∈ [Instr.jtagBypass b, .jtagIdcode, .jtagSamplePreload l, .jtagExtest, .jtagClamp, .jtagHighz], exec c s = .next s) ∧
    (s.wake.mainUp = true →
      exec .jtagIdcode s = .next (emit { s with mgmt := { s.mgmt with jtagIr := 2 } } (.jtag ((List.range 32).map (fun i => (0x12840A1D : Nat).testBit i)))) ∧
      (∀ b, exec (.jtagBypass b) s = .next (emit { s with mgmt := { s.mgmt with jtagIr := 0xFF, bypass := b } } (.jtag [s.mgmt.bypass && s.mgmt.jtagIr == 0xFF]))) ∧
      (∀ l, ∃ t v, exec (.jtagSamplePreload l) s = .next t ∧ t.mgmt = { s.mgmt with jtagIr := 1, preload := l.take 36 } ∧ t.out = s.out ++ [.jtag v] ∧ v.length = 36) ∧
      (∃ t v, exec .jtagExtest s = .next t ∧ t.mgmt = { s.mgmt with jtagIr := 0 } ∧ t.out = s.out ++ [.jtag v] ∧ v.length = 36) ∧
      exec .jtagClamp s = .next (emit { s with mgmt := { s.mgmt with jtagIr := 3 } } (.jtag [false])) ∧
      exec .jtagHighz s = .next (emit { s with mgmt := { s.mgmt with jtagIr := 4 } } (.jtag [false]))) ∧
    (∀ (fn : Fin 64) (r : CfgReq), s.boot.phase = .booting → exec (.configurationRequest fn r) s = .next (emit s (.retryStatus fn.val))) ∧
    (∀ (fn : Fin 64) (r : CfgReq), s.boot.phase ≠ .booting → answersHost s = false → exec (.configurationRequest fn r) s = .next s) ∧
    (∀ (fn : Fin 64) (r : CfgReq), answersHost s = true → fnExists s fn.val = false → exec (.configurationRequest fn r) s = .next (emit s (.unsupported fn.val))) ∧
    (∀ fn : Fin 64, answersHost s = true → fnExists s fn.val = true →
      let f := gFn s fn.val
      (∀ off : BitVec 12, exec (.configurationRequest fn (.read off)) s = .next (emit s (.cfgData fn.val (off.toNat / 4 * 4) (cfgWord s fn.val (off.toNat / 4 * 4))))) ∧
      (s.boot.phase ≠ .recovery → cfgWord s fn.val 0 = BitVec.ofNat 32 ((if fn.val = 0 then s.cfg.did else s.cfg.vfDid).toNat * 65536 + s.cfg.vid.toNat)) ∧
      (s.boot.phase = .recovery → cfgWord s fn.val 0 = s.otp.recoveryId.setWidth 32) ∧
      (∀ d, exec (.configurationRequest fn (.pmState d)) s = .next (uFn s fn.val (fun f => { f with d3hot := d }))) ∧
      (∀ e, ∃ t, exec (.configurationRequest fn (.busMaster e)) s = .next t ∧ (gFn t fn.val).bme = e ∧ t.mem = s.mem) ∧
      (∀ e, ∃ t, exec (.configurationRequest fn (.memSpace e)) s = .next t ∧ (gFn t fn.val).memSpace = e ∧ t.mem = s.mem) ∧
      (∀ e m, ∃ t, exec (.configurationRequest fn (.msixControl e m)) s = .next t ∧ (gFn t fn.val).msixEn = e ∧ (gFn t fn.val).msixMask = m) ∧
      (∀ (i : Fin 3) (a : Word), ∃ t, exec (.configurationRequest fn (.bar i a)) s = .next t ∧ Tab.get 0 (gFn t fn.val).bars i.val = a) ∧
      (∀ e, fn.val ≠ 0 → f.tdi = 1 ∨ f.tdi = 2 → e ≠ f.bme → ∀ n, f.ctx = some n → ∃ t, exec (.configurationRequest fn (.busMaster e)) s = .next t ∧
        (gFn t fn.val).tdi = 3 ∧ (gCtx t n).sch.faultNext = lowCode (gCtx s n).sch.faultNext eTdisp)) ∧
    (∀ (fn : Fin 64) on k, fn.val ≠ 0 → answersHost s = true → fnExists s fn.val = true → exec (.configurationRequest fn (.vfEnable on k)) s = .next s) ∧
    (∀ k, answersHost s = true →
      (k ≤ s.cfg.numVf → exec (.configurationRequest 0 (.vfEnable true k)) s = .next { s with hi := { s.hi with vfEnable := true, numVfs := k } }) ∧
      (s.cfg.numVf < k → exec (.configurationRequest 0 (.vfEnable true k)) s = .next s) ∧
      (∃ t, exec (.configurationRequest 0 (.vfEnable false k)) s = .next t ∧ t.hi.vfEnable = false ∧ t.hi.numVfs = 0 ∧ t.mem = s.mem))

/-! ## Reset, memory and the whole machine -/

/-- R15, R58, R113, R317, R595: the machine before any power: no command waits, no rail is up, memory lists nothing and has its canonical form,
every context is Free, every thread Idle with its registers at zero, no AMU entry is valid, and the tick, the rotation and the reach have
not begun. The zeros that the spec does not give, OTP and the empty flash among them, are the model's choice (notes/assumptions). -/
def Obligations.ResetIsAnUnpoweredChip : Prop :=
  let r := State.reset
  r.pending = [] ∧ r.boot.phase = .noAux ∧ r.wake = {} ∧ r.out = [] ∧ r.mem = {} ∧ Memory.wf r.mem = true ∧ r.tick.started = false ∧ r.tick.pound = 0 ∧
  r.rot.force = [] ∧ r.rot.holder = none ∧ r.pm.st = 0 ∧ r.reach.rstate = 0 ∧ r.reach.key = [] ∧ r.sec.sessions = [] ∧ r.sec.pending = [] ∧
  (∀ n, (gCtx r n).st = .free) ∧ (∀ k, (gTh r k).st = .idle ∧ (gTh r k).m = [] ∧ (gTh r k).pend = []) ∧ (∀ cl i, (gAmu r cl i).valid = false) ∧
  (∀ q, (gQueue r q).ctx = none) ∧ (∀ f, (gFn r f).ctx = none ∧ (gFn r f).bme = false ∧ (gFn r f).memSpace = false)

/-- R142, R176, R185, R609: what is written to cluster memory or to HBM reads back, and no other byte changes: every other byte reads after the
write as it read before. Zeroing a range makes its bytes read as zero. A line whose stack does not answer (R575) is left out: its write is
lost. -/
def Obligations.MemoryReadsBackWhatWasWritten : Prop :=
  (∀ (s : State) (cl off : Nat) (b : Bytes) (taint : Bool), (clRead (clWrite s cl off b taint) cl off b.length).1 = b) ∧
  (∀ (s : State) (cl off cl' off' : Nat) (b : Bytes) (taint : Bool), off + b.length ≤ 0x800000 → off' < 0x800000 →
    (cl' ≠ cl ∨ off' < off ∨ off + b.length ≤ off') →
    (clRead (clWrite s cl off b taint) cl' off' 1).1 = (clRead s cl' off' 1).1) ∧
  (∀ (s : State) (n addr : Nat) (b : Bytes) (taint : Bool),
    (∀ line, addr / 64 ≤ line → 64 * line < addr + b.length → Tab.get false s.mem.noResp line = false) →
    (hbmWrite s n addr b taint).2 = false ∧ (hbmRead (hbmWrite s n addr b taint).1 n addr b.length).1 = b ∧
    ∀ a, a < addr ∨ addr + b.length ≤ a → (hbmRead (hbmWrite s n addr b taint).1 n a 1).1 = (hbmRead s n a 1).1) ∧
  (∀ (s : State) (n lo hi a : Nat), lo % 64 = 0 → hi % 64 = 0 →
    (lo ≤ a → a < hi → (hbmRead (hbmZero s lo hi) n a 1).1 = [0]) ∧
    (a < lo ∨ hi ≤ a → (hbmRead (hbmZero s lo hi) n a 1).1 = (hbmRead s n a 1).1))

/-- Every command answers a next state, but for one: the boot that R592's rails do not allow, which the spec leaves undefined. -/
def Obligations.CommandsStopOnlyAtAnUndefinedBoot : Prop :=
  ∀ (c : Instr) (s : State),
    (∃ t, exec c s = .next t) ∨
    (exec c s = .fault .bootUndefined ∧ ∃ rails fails, c = .perstNRise rails fails ∧ s.wake.perstHigh = false ∧ (rails = false ∨ s.wake.auxUp = false))

/-- Every step keeps the canonical form of memory: keys strictly rising, nothing listed that reads the same unlisted. -/
def Obligations.EveryStepKeepsMemoryCanonical : Prop :=
  ∀ s t : State, Memory.wf s.mem = true → step s = .next t → Memory.wf t.mem = true

/-- R89: from a state in which the 2840 answers to the next such state, no step changes a configuration setting; and a write to the registers
that report settings leaves what they read. -/
def Obligations.ConfigurationSettingsStayBetweenResets : Prop :=
  (∀ s t : State, answersHost s = true → step s = .next t → answersHost t = true → t.cfg = s.cfg) ∧
  (∀ (s : State) (fn : Fin 64) (tb : Bool) (off : BitVec 20) (len : Nat) (v : Word),
    off.toNat / 4096 = 0x01 ∨ off.toNat / 4096 = 0x15 ∨ off.toNat = 0x3014 ∨ off.toNat = 0x4104 →
    ∃ t, exec (.registerWrite fn tb off len v) s = .next t ∧ t.cfg = s.cfg ∧ regRead t fn.val off.toNat = regRead s fn.val off.toNat)
end

