-- ==== Sys2Proof/Laws/Crypto.lean ====
section
/-! SUPPORT. Lengths in AES-256-GCM: a ciphertext is as long as its plaintext, a tag has 16 bytes. -/

namespace Sys2Proof.Machine

theorem getD_mem {α : Type} (d : α) : ∀ (l : List α) (i : Nat), i < l.length → l.getD i d ∈ l
  | a :: _, 0, _ => by simp
  | a :: r, i + 1, h => by
    have := getD_mem d r i (by simpa using h)
    rw [List.getD_cons_succ]
    exact List.mem_cons_of_mem a this

theorem xorBytes_length (a b : Bytes) : (xorBytes a b).length = min a.length b.length := by simp [xorBytes]

theorem chunksOf_flatten {α : Type} (n : Nat) : ∀ (k : Nat) (l : List α), l.length ≤ n * k → (chunksOf n k l).flatten = l := by
  intro k
  induction k with
  | zero => intro l h; cases l with | nil => rfl | cons => simp at h
  | succ k ih =>
    intro l h
    cases l with
    | nil => simp [chunksOf]
    | cons x r =>
      simp only [chunksOf, List.isEmpty_cons]
      simp only [Bool.false_eq_true, if_false, List.flatten_cons]
      rw [ih _ (by simp only [List.length_drop]; rw [Nat.mul_succ] at h; omega)]
      exact List.take_append_drop n (x :: r)

theorem chunksOf_le {α : Type} (n : Nat) : ∀ (k : Nat) (l : List α), ∀ c ∈ chunksOf n k l, c.length ≤ n := by
  intro k
  induction k with
  | zero => intro l c h; simp [chunksOf] at h
  | succ k ih =>
    intro l c h
    simp only [chunksOf] at h
    split at h
    · simp at h
    · cases h with
      | head => simp <;> omega
      | tail _ h => exact ih _ _ h

theorem chunksOf_exact {α : Type} (n : Nat) (hn : 0 < n) : ∀ (k : Nat) (l : List α), l.length = n * k →
    (chunksOf n k l).length = k ∧ ∀ c ∈ chunksOf n k l, c.length = n := by
  intro k
  induction k with
  | zero => intro l _; simp [chunksOf]
  | succ k ih =>
    intro l h
    rw [Nat.mul_succ] at h
    cases l with
    | nil => simp at h; omega
    | cons x r =>
      simp only [chunksOf, List.isEmpty_cons, Bool.false_eq_true, if_false]
      have hd : ((x :: r).drop n).length = n * k := by rw [List.length_drop]; omega
      obtain ⟨h1, h2⟩ := ih _ hd
      refine ⟨by simp [h1], ?_⟩
      intro c hc
      cases hc with
      | head => rw [List.length_take]; omega
      | tail _ hc => exact h2 c hc

theorem slice_length (b : Bytes) (off n : Nat) : (slice b off n).length = n := by
  simp only [slice, List.length_append, List.length_replicate, List.length_take, List.length_drop]; omega

/-- Every word of the key schedule has 4 bytes. -/
theorem aesExpand_words : ∀ (k i : Nat) (rc : Byte) (w : List Bytes), 8 ≤ w.length → (∀ x ∈ w, x.length = 4) →
    (aesExpand k i rc w).length = w.length + k ∧ ∀ x ∈ aesExpand k i rc w, x.length = 4 := by
  intro k
  induction k with
  | zero => intro i rc w _ h; exact ⟨rfl, h⟩
  | succ k ih =>
    intro i rc w hw h
    have hh : (w.headD []).length = 4 := by
      cases w with
      | nil => simp at hw
      | cons a r => exact h a (by simp)
    have h7 : (w.getD 7 []).length = 4 := by
      exact h _ (getD_mem _ _ _ (by omega))
    have key : ∀ t' : Bytes, t'.length = 4 → ∀ rc', (aesExpand k (i + 1) rc' (xorBytes (w.getD 7 []) t' :: w)).length = w.length + (k + 1) ∧
        ∀ x ∈ aesExpand k (i + 1) rc' (xorBytes (w.getD 7 []) t' :: w), x.length = 4 := by
      intro t' ht rc'
      obtain ⟨a, b⟩ := ih (i + 1) rc' (xorBytes (w.getD 7 []) t' :: w) (by simp; omega) (by
        intro x hx
        cases hx with
        | head => rw [xorBytes_length, h7, ht]; rfl
        | tail _ hx => exact h x hx)
      exact ⟨by rw [a]; simp; omega, b⟩
    simp only [aesExpand]
    apply key
    split
    · have hm : (((w.headD []).drop 1 ++ (w.headD []).take 1).map sbox).length = 4 := by
        simp only [List.length_map, List.length_append, List.length_drop, List.length_take]; omega
      split
      · rename_i x r hx; rw [hx] at hm; simpa using hm
      · rename_i hx; rw [hx] at hm; simp at hm
    · split
      · simpa using hh
      · exact hh

/-- Fifteen round keys of 16 bytes each. -/
theorem aesKeys_shape (key : Bytes) : (aesKeys key).length = 15 ∧ ∀ k ∈ aesKeys key, k.length = 16 := by
  obtain ⟨a1, a2⟩ := chunksOf_exact 4 (by omega) 8 (slice key 0 32) (by rw [slice_length])
  obtain ⟨b1, b2⟩ := aesExpand_words 52 8 1 (chunksOf 4 8 (slice key 0 32)).reverse (by simp [a1]) (by
    intro x hx; exact a2 x (by simpa using hx))
  obtain ⟨c1, c2⟩ := chunksOf_exact 4 (by omega) 15 (aesExpand 52 8 1 (chunksOf 4 8 (slice key 0 32)).reverse).reverse (by
    rw [List.length_reverse, b1, List.length_reverse, a1])
  have hsub : ∀ (n k : Nat) (l : List Bytes), ∀ c ∈ chunksOf n k l, ∀ x ∈ c, x ∈ l := by
    intro n k
    induction k with
    | zero => intro l c h; simp [chunksOf] at h
    | succ k ih =>
      intro l c h x hx
      simp only [chunksOf] at h
      split at h
      · simp at h
      · cases h with
        | head => exact List.mem_of_mem_take hx
        | tail _ h => exact List.mem_of_mem_drop (ih _ _ h x hx)
  refine ⟨by simp only [aesKeys, List.length_map]; exact c1, ?_⟩
  intro k hk
  simp only [aesKeys, List.mem_map] at hk
  obtain ⟨c, hc, rfl⟩ := hk
  have h4 : ∀ x ∈ c, x.length = 4 := fun x hx => b2 x (by simpa using hsub _ _ _ c hc x hx)
  have hl := c2 c hc
  have : ∀ (m : Nat) (l : List Bytes), l.length = m → (∀ x ∈ l, x.length = 4) → l.flatten.length = 4 * m := by
    intro m
    induction m with
    | zero => intro l h _; cases l with | nil => rfl | cons => simp at h
    | succ m ih =>
      intro l h h4
      cases l with
      | nil => simp at h
      | cons a r =>
        rw [List.flatten_cons, List.length_append, ih r (by simpa using h) (fun x hx => h4 x (by simp [hx])), h4 a (by simp)]
        omega
  rw [this 4 c hl h4]

theorem shiftRows_length (b : Bytes) : (shiftRows b).length = 16 := by simp [shiftRows]

/-- A block of AES has 16 bytes. -/
theorem aesBlock_length (key b : Bytes) : (aesBlock (aesKeys key) b).length = 16 := by
  obtain ⟨h1, h2⟩ := aesKeys_shape key
  simp only [aesBlock, xorBytes_length, shiftRows_length]
  rw [h2 _ (getD_mem _ _ _ (by omega))]
  rfl

theorem rangeFrom_length (lo n : Nat) : (rangeFrom lo n).length = n := by simp [rangeFrom]

/-- Counter mode keeps the length. -/
theorem gcmCtr_length (key iv b : Bytes) (c : Nat) : (gcmCtr (aesKeys key) iv c b).length = b.length := by
  have hb := chunksOf_flatten 16 (b.length / 16 + 1) b (by omega)
  have hle := chunksOf_le 16 (b.length / 16 + 1) b
  simp only [gcmCtr]
  generalize chunksOf 16 (b.length / 16 + 1) b = l at hb hle
  rw [← hb]
  clear hb
  have : ∀ (l : List Bytes) (r : List Nat), r.length = l.length → (∀ x ∈ l, x.length ≤ 16) →
      ((l.zip r).flatMap (fun p => xorBytes p.1 (aesBlock (aesKeys key) (iv ++ beBytes p.2 4)))).length = l.flatten.length := by
    intro l
    induction l with
    | nil => intro r _ _; simp
    | cons a l ih =>
      intro r hr hl
      cases r with
      | nil => simp at hr
      | cons n r =>
        simp only [List.zip_cons_cons, List.flatMap_cons, List.length_append, List.flatten_cons]
        rw [ih r (by simpa using hr) (fun x hx => hl x (by simp [hx])), xorBytes_length, aesBlock_length]
        have := hl a (by simp)
        omega
  exact this l _ (rangeFrom_length _ _) hle

/-- A ciphertext is as long as its plaintext. -/
theorem gcmCrypt_length (key iv b : Bytes) : (gcmCrypt key iv b).length = b.length := gcmCtr_length key iv b 2

theorem beBytes_16 (n : Nat) : (beBytes n 16).length = 16 := by
  simp [beBytes, leBytes]

/-- A tag has 16 bytes. -/
theorem gcmTag_length (key iv aad ct : Bytes) : (gcmTag key iv aad ct).length = 16 := by
  simp only [gcmTag, xorBytes_length, aesBlock_length, beBytes_16]
  rfl

end Sys2Proof.Machine
end

