-- ==== Sys2Proof/Laws/Tab.lean ====
section
/-! SUPPORT. The laws of sparse tables: a read after a write gives the value written, a write leaves every other key alone, and every
operation keeps the canonical form. -/

namespace Sys2Proof.Machine

variable {α : Type}

theorem Tab.get_ins (d : α) (t : Tab α) (a b : Nat) (x : α) :
    Tab.get d (Tab.ins t a x) b = if a = b then x else Tab.get d t b := by
  induction t with
  | nil => simp [Tab.ins, Tab.get]
  | cons e r ih =>
    obtain ⟨k, v⟩ := e
    simp only [Tab.ins]
    split
    · simp [Tab.get]
    · split
      · subst_vars; simp only [Tab.get]; split <;> rfl
      · simp only [Tab.get, ih]; split <;> split <;> simp_all

theorem Tab.get_filter_ne (d : α) (t : Tab α) (a b : Nat) :
    Tab.get d (t.filter (fun e => decide (e.1 ≠ a))) b = if a = b then d else Tab.get d t b := by
  induction t with
  | nil => simp [Tab.get]
  | cons e r ih =>
    obtain ⟨k, v⟩ := e
    by_cases h : k = a
    · subst h; simp only [List.filter, ne_eq, not_true, decide_false, ih, Tab.get]; split <;> rfl
    · simp only [List.filter, ne_eq, h, not_false_iff, decide_true, Tab.get, ih]
      split <;> split <;> simp_all

/-- A read after a write: the value written at its key, what was there before at any other. -/
theorem Tab.get_set [DecidableEq α] (d : α) (t : Tab α) (a b : Nat) (x : α) :
    Tab.get d (Tab.set d t a x) b = if a = b then x else Tab.get d t b := by
  unfold Tab.set
  split
  · subst_vars; exact Tab.get_filter_ne _ t a b
  · exact Tab.get_ins d t a b x

@[simp] theorem Tab.get_set_same [DecidableEq α] (d : α) (t : Tab α) (a : Nat) (x : α) : Tab.get d (Tab.set d t a x) a = x := by
  simp [Tab.get_set]

theorem Tab.get_set_other [DecidableEq α] (d : α) (t : Tab α) {a b : Nat} (x : α) (h : a ≠ b) :
    Tab.get d (Tab.set d t a x) b = Tab.get d t b := by
  simp [Tab.get_set, h]

@[simp] theorem Tab.get_modify [DecidableEq α] (d : α) (t : Tab α) (a b : Nat) (f : α → α) :
    Tab.get d (Tab.modify d t a f) b = if a = b then f (Tab.get d t a) else Tab.get d t b := Tab.get_set d t a b _

@[simp] theorem Tab.get_nil (d : α) (a : Nat) : Tab.get d ([] : Tab α) a = d := rfl

theorem Tab.get_clear [DecidableEq α] (d : α) (t : Tab α) (lo hi b : Nat) :
    Tab.get d (Tab.clear t lo hi) b = if lo ≤ b ∧ b < hi then d else Tab.get d t b := by
  induction t with
  | nil => simp [Tab.clear, Tab.get]
  | cons e r ih =>
    obtain ⟨k, v⟩ := e
    unfold Tab.clear at ih ⊢
    rw [List.filter_cons]
    by_cases h : lo ≤ k ∧ k < hi
    · obtain ⟨h1, h2⟩ := h
      simp only [h1, h2, decide_true, Bool.and_self, Bool.not_true, Bool.false_eq_true, if_false, ih, Tab.get]
      split
      · rfl
      · split
        · subst_vars; omega
        · rfl
    · have : (!(decide (lo ≤ k) && decide (k < hi))) = true := by
        rcases Nat.lt_or_ge k lo with h1 | h1
        · simp [Nat.not_le.mpr h1]
        · have : ¬ k < hi := fun h2 => h ⟨h1, h2⟩
          simp [this]
      simp only [this, if_true, Tab.get, ih]
      split
      · subst_vars; rw [if_neg h]
      · rfl

theorem Tab.ins_ins (t : Tab α) (a : Nat) (x y : α) : Tab.ins (Tab.ins t a x) a y = Tab.ins t a y := by
  induction t with
  | nil => simp [Tab.ins]
  | cons e r ih =>
    obtain ⟨k, v⟩ := e
    simp only [Tab.ins]
    split
    · simp [Tab.ins]
    · split
      · simp [Tab.ins]
      · simp [Tab.ins, *]

theorem Tab.filter_ins (t : Tab α) (a : Nat) (x : α) :
    (Tab.ins t a x).filter (fun e => decide (e.1 ≠ a)) = t.filter (fun e => decide (e.1 ≠ a)) := by
  induction t with
  | nil => simp [Tab.ins]
  | cons e r ih =>
    obtain ⟨k, v⟩ := e
    simp only [Tab.ins]
    split
    · simp
    · split
      · subst_vars; simp
      · simp only [List.filter_cons, ih]

/-- Two writes at one key leave the second one. -/
theorem Tab.set_set [DecidableEq α] (d : α) (t : Tab α) (a : Nat) (x y : α) (hx : x ≠ d) :
    Tab.set d (Tab.set d t a x) a y = Tab.set d t a y := by
  unfold Tab.set
  rw [if_neg hx]
  split
  · exact Tab.filter_ins t a x
  · exact Tab.ins_ins t a x y

/-! ## The canonical form -/

/-- The canonical form as a property: keys rise strictly and no default is listed. -/
theorem Tab.wfFrom_iff [DecidableEq α] (d : α) (lo : Option Nat) (t : Tab α) :
    Tab.wfFrom d lo t = true ↔
      (t.Pairwise (fun a b => a.1 < b.1)) ∧ (∀ e ∈ t, e.2 ≠ d) ∧ (∀ l, lo = some l → ∀ e ∈ t, l < e.1) := by
  induction t generalizing lo with
  | nil => simp [Tab.wfFrom]
  | cons e r ih =>
    obtain ⟨k, v⟩ := e
    simp only [Tab.wfFrom, Bool.and_eq_true, ih, List.pairwise_cons, List.mem_cons, forall_eq_or_imp, decide_eq_true_eq]
    constructor
    · rintro ⟨⟨h1, h2⟩, h3, h4, h5⟩
      refine ⟨⟨fun e he => h5 k rfl e he, h3⟩, ⟨h2, h4⟩, ?_⟩
      rintro l rfl
      have h1 : l < k := by simpa using h1
      exact ⟨h1, fun e he => Nat.lt_trans h1 (h5 k rfl e he)⟩
    · rintro ⟨⟨h1, h2⟩, ⟨h3, h4⟩, h5⟩
      refine ⟨⟨?_, h3⟩, h2, h4, ?_⟩
      · cases lo with
        | none => rfl
        | some l => simpa using (h5 l rfl).1
      · rintro l hl e he
        cases hl
        exact h1 e he

theorem Tab.wf_iff [DecidableEq α] (d : α) (t : Tab α) :
    Tab.wf d t = true ↔ (t.Pairwise (fun a b => a.1 < b.1)) ∧ (∀ e ∈ t, e.2 ≠ d) := by
  unfold Tab.wf
  rw [Tab.wfFrom_iff]
  simp

theorem Tab.wf_filter [DecidableEq α] (d : α) (t : Tab α) (p : Nat × α → Bool) (h : Tab.wf d t = true) :
    Tab.wf d (t.filter p) = true := by
  rw [Tab.wf_iff] at h ⊢
  exact ⟨h.1.filter p, fun e he => h.2 e (List.mem_filter.mp he).1⟩

theorem Tab.mem_ins (t : Tab α) (a : Nat) (x : α) (e : Nat × α) (h : e ∈ Tab.ins t a x) : e = (a, x) ∨ e ∈ t := by
  induction t with
  | nil => simpa [Tab.ins] using h
  | cons f r ih =>
    obtain ⟨k, v⟩ := f
    simp only [Tab.ins] at h
    split at h
    · simpa using h
    · split at h
      · rcases List.mem_cons.mp h with h | h
        · exact .inl h
        · exact .inr (List.mem_cons_of_mem _ h)
      · rcases List.mem_cons.mp h with h | h
        · exact .inr (h ▸ List.mem_cons_self ..)
        · rcases ih h with h | h
          · exact .inl h
          · exact .inr (List.mem_cons_of_mem _ h)

theorem Tab.wf_ins [DecidableEq α] (d : α) (t : Tab α) (a : Nat) (x : α) (hx : x ≠ d) (h : Tab.wf d t = true) :
    Tab.wf d (Tab.ins t a x) = true := by
  rw [Tab.wf_iff] at h ⊢
  obtain ⟨hp, hd⟩ := h
  refine ⟨?_, fun e he => (Tab.mem_ins t a x e he).elim (fun h => h ▸ hx) (hd e)⟩
  clear hd
  induction t with
  | nil => simp [Tab.ins]
  | cons f r ih =>
    obtain ⟨k, v⟩ := f
    obtain ⟨h1, h2⟩ := List.pairwise_cons.mp hp
    simp only [Tab.ins]
    split
    · rename_i hak
      refine List.pairwise_cons.mpr ⟨?_, hp⟩
      intro e he
      rcases List.mem_cons.mp he with rfl | he
      · exact hak
      · exact Nat.lt_trans hak (h1 e he)
    · split
      · subst_vars; exact List.pairwise_cons.mpr ⟨h1, h2⟩
      · refine List.pairwise_cons.mpr ⟨?_, ih h2⟩
        intro e he
        rcases Tab.mem_ins r a x e he with rfl | he
        · show k < a; omega
        · exact h1 e he

/-- A write keeps the canonical form. -/
theorem Tab.wf_set [DecidableEq α] (d : α) (t : Tab α) (a : Nat) (x : α) (h : Tab.wf d t = true) :
    Tab.wf d (Tab.set d t a x) = true := by
  unfold Tab.set
  split
  · exact Tab.wf_filter d t _ h
  · exact Tab.wf_ins d t a x ‹_› h

theorem Tab.wf_modify [DecidableEq α] (d : α) (t : Tab α) (a : Nat) (f : α → α) (h : Tab.wf d t = true) :
    Tab.wf d (Tab.modify d t a f) = true := Tab.wf_set d t a _ h

theorem Tab.wf_clear [DecidableEq α] (d : α) (t : Tab α) (lo hi : Nat) (h : Tab.wf d t = true) :
    Tab.wf d (Tab.clear t lo hi) = true := Tab.wf_filter d t _ h

theorem Tab.wf_setMany [DecidableEq α] (d : α) (l : List α) (t : Tab α) (a : Nat) (h : Tab.wf d t = true) :
    Tab.wf d (Tab.setMany d t a l) = true := by
  induction l generalizing t a with
  | nil => exact h
  | cons x r ih => exact ih _ _ (Tab.wf_set d t a x h)

theorem Tab.wf_mapV [DecidableEq α] (d : α) (f : α → α) (t : Tab α) (h : Tab.wf d t = true) :
    Tab.wf d (Tab.mapV d f t) = true := by
  rw [Tab.wf_iff] at h ⊢
  unfold Tab.mapV
  refine ⟨List.Pairwise.filter _ (h.1.map _ (fun _ _ hab => hab)), fun e he => ?_⟩
  simpa using (List.mem_filter.mp he).2

theorem Tab.wf_nil [DecidableEq α] (d : α) : Tab.wf d ([] : Tab α) = true := rfl

/-! ## Ranges -/

theorem Tab.get_setMany [DecidableEq α] (d : α) (l : List α) (t : Tab α) (a b : Nat) :
    Tab.get d (Tab.setMany d t a l) b = if h : a ≤ b ∧ b - a < l.length then l[b - a] else Tab.get d t b := by
  induction l generalizing t a with
  | nil => simp [Tab.setMany]
  | cons x r ih =>
    rw [Tab.setMany, ih, Tab.get_set]
    by_cases hab : a = b
    · subst hab; simp <;> (intro h; omega)
    · by_cases hlt : a ≤ b
      · have e1 : b - a = (b - (a + 1)) + 1 := by omega
        by_cases h2 : b - (a + 1) < r.length
        · have h3 : a + 1 ≤ b ∧ b - (a + 1) < r.length := ⟨by omega, h2⟩
          have h4 : a ≤ b ∧ b - a < (x :: r).length := ⟨hlt, by simp; omega⟩
          rw [dif_pos h3, dif_pos h4]
          simp only [e1, List.getElem_cons_succ]
        · have h3 : ¬ (a + 1 ≤ b ∧ b - (a + 1) < r.length) := fun h => h2 h.2
          have h4 : ¬ (a ≤ b ∧ b - a < (x :: r).length) := by simp; omega
          rw [dif_neg h3, dif_neg h4, if_neg hab]
      · have h3 : ¬ (a + 1 ≤ b ∧ b - (a + 1) < r.length) := by omega
        have h4 : ¬ (a ≤ b ∧ b - a < (x :: r).length) := by omega
        rw [dif_neg h3, dif_neg h4, if_neg hab]

@[simp] theorem Tab.length_getMany (d : α) (t : Tab α) (a n : Nat) : (Tab.getMany d t a n).length = n := by
  induction n generalizing a with
  | zero => rfl
  | succ n ih => simp [Tab.getMany, ih]

theorem Tab.getElem_getMany (d : α) (t : Tab α) (a n i : Nat) (h : i < (Tab.getMany d t a n).length) :
    (Tab.getMany d t a n)[i] = Tab.get d t (a + i) := by
  induction n generalizing a i with
  | zero => simp [Tab.getMany] at h
  | succ n ih =>
    cases i with
    | zero => rfl
    | succ i =>
      simp only [Tab.getMany, List.getElem_cons_succ]
      rw [ih]; congr 1; omega

/-- Reading back the range just written gives the values written. -/
theorem Tab.getMany_setMany [DecidableEq α] (d : α) (l : List α) (t : Tab α) (a : Nat) :
    Tab.getMany d (Tab.setMany d t a l) a l.length = l := by
  apply List.ext_getElem
  · simp
  · intro i h1 h2
    rw [Tab.getElem_getMany, Tab.get_setMany, dif_pos ⟨by omega, by omega⟩]
    simp

end Sys2Proof.Machine
end

