-- ==== Sys2Proof/Laws/State.lean ====
section
/-! SUPPORT. What each update of the state leaves alone, one lemma a field, and what the tables of the state read after an update, so that no
proof unfolds a record update. -/

namespace Sys2Proof.Machine

/-! ## uCtx -/

@[simp] theorem uCtx_pending (s : State) (n : Nat) (f : Ctx → Ctx) : (uCtx s n f).pending = s.pending := rfl
@[simp] theorem uCtx_free (s : State) (n : Nat) (f : Ctx → Ctx) : (uCtx s n f).free = s.free := rfl
@[simp] theorem uCtx_nextId (s : State) (n : Nat) (f : Ctx → Ctx) : (uCtx s n f).nextId = s.nextId := rfl
@[simp] theorem uCtx_rid (s : State) (n : Nat) (f : Ctx → Ctx) : (uCtx s n f).rid = s.rid := rfl
@[simp] theorem uCtx_racc (s : State) (n : Nat) (f : Ctx → Ctx) : (uCtx s n f).racc = s.racc := rfl
@[simp] theorem uCtx_out (s : State) (n : Nat) (f : Ctx → Ctx) : (uCtx s n f).out = s.out := rfl
@[simp] theorem uCtx_boot (s : State) (n : Nat) (f : Ctx → Ctx) : (uCtx s n f).boot = s.boot := rfl
@[simp] theorem uCtx_otp (s : State) (n : Nat) (f : Ctx → Ctx) : (uCtx s n f).otp = s.otp := rfl
@[simp] theorem uCtx_cfg (s : State) (n : Nat) (f : Ctx → Ctx) : (uCtx s n f).cfg = s.cfg := rfl
@[simp] theorem uCtx_tick (s : State) (n : Nat) (f : Ctx → Ctx) : (uCtx s n f).tick = s.tick := rfl
@[simp] theorem uCtx_rot (s : State) (n : Nat) (f : Ctx → Ctx) : (uCtx s n f).rot = s.rot := rfl
@[simp] theorem uCtx_pm (s : State) (n : Nat) (f : Ctx → Ctx) : (uCtx s n f).pm = s.pm := rfl
@[simp] theorem uCtx_wake (s : State) (n : Nat) (f : Ctx → Ctx) : (uCtx s n f).wake = s.wake := rfl
@[simp] theorem uCtx_gov (s : State) (n : Nat) (f : Ctx → Ctx) : (uCtx s n f).gov = s.gov := rfl
@[simp] theorem uCtx_fw (s : State) (n : Nat) (f : Ctx → Ctx) : (uCtx s n f).fw = s.fw := rfl
@[simp] theorem uCtx_sec (s : State) (n : Nat) (f : Ctx → Ctx) : (uCtx s n f).sec = s.sec := rfl
@[simp] theorem uCtx_hi (s : State) (n : Nat) (f : Ctx → Ctx) : (uCtx s n f).hi = s.hi := rfl
@[simp] theorem uCtx_mgmt (s : State) (n : Nat) (f : Ctx → Ctx) : (uCtx s n f).mgmt = s.mgmt := rfl
@[simp] theorem uCtx_sysTrig (s : State) (n : Nat) (f : Ctx → Ctx) : (uCtx s n f).sysTrig = s.sysTrig := rfl
@[simp] theorem uCtx_fns (s : State) (n : Nat) (f : Ctx → Ctx) : (uCtx s n f).fns = s.fns := rfl
@[simp] theorem uCtx_threads (s : State) (n : Nat) (f : Ctx → Ctx) : (uCtx s n f).threads = s.threads := rfl
@[simp] theorem uCtx_turn (s : State) (n : Nat) (f : Ctx → Ctx) : (uCtx s n f).turn = s.turn := rfl
@[simp] theorem uCtx_barriers (s : State) (n : Nat) (f : Ctx → Ctx) : (uCtx s n f).barriers = s.barriers := rfl
@[simp] theorem uCtx_ops (s : State) (n : Nat) (f : Ctx → Ctx) : (uCtx s n f).ops = s.ops := rfl
@[simp] theorem uCtx_units (s : State) (n : Nat) (f : Ctx → Ctx) : (uCtx s n f).units = s.units := rfl
@[simp] theorem uCtx_amu (s : State) (n : Nat) (f : Ctx → Ctx) : (uCtx s n f).amu = s.amu := rfl
@[simp] theorem uCtx_queues (s : State) (n : Nat) (f : Ctx → Ctx) : (uCtx s n f).queues = s.queues := rfl
@[simp] theorem uCtx_tows (s : State) (n : Nat) (f : Ctx → Ctx) : (uCtx s n f).tows = s.tows := rfl
@[simp] theorem uCtx_flights (s : State) (n : Nat) (f : Ctx → Ctx) : (uCtx s n f).flights = s.flights := rfl
@[simp] theorem uCtx_codecWait (s : State) (n : Nat) (f : Ctx → Ctx) : (uCtx s n f).codecWait = s.codecWait := rfl
@[simp] theorem uCtx_lanes (s : State) (n : Nat) (f : Ctx → Ctx) : (uCtx s n f).lanes = s.lanes := rfl
@[simp] theorem uCtx_harts (s : State) (n : Nat) (f : Ctx → Ctx) : (uCtx s n f).harts = s.harts := rfl
@[simp] theorem uCtx_ports (s : State) (n : Nat) (f : Ctx → Ctx) : (uCtx s n f).ports = s.ports := rfl
@[simp] theorem uCtx_rtxs (s : State) (n : Nat) (f : Ctx → Ctx) : (uCtx s n f).rtxs = s.rtxs := rfl
@[simp] theorem uCtx_reach (s : State) (n : Nat) (f : Ctx → Ctx) : (uCtx s n f).reach = s.reach := rfl
@[simp] theorem uCtx_faults (s : State) (n : Nat) (f : Ctx → Ctx) : (uCtx s n f).faults = s.faults := rfl
@[simp] theorem uCtx_mem (s : State) (n : Nat) (f : Ctx → Ctx) : (uCtx s n f).mem = s.mem := rfl

/-! ## uFn -/

@[simp] theorem uFn_pending (s : State) (n : Nat) (f : Fn → Fn) : (uFn s n f).pending = s.pending := rfl
@[simp] theorem uFn_free (s : State) (n : Nat) (f : Fn → Fn) : (uFn s n f).free = s.free := rfl
@[simp] theorem uFn_nextId (s : State) (n : Nat) (f : Fn → Fn) : (uFn s n f).nextId = s.nextId := rfl
@[simp] theorem uFn_rid (s : State) (n : Nat) (f : Fn → Fn) : (uFn s n f).rid = s.rid := rfl
@[simp] theorem uFn_racc (s : State) (n : Nat) (f : Fn → Fn) : (uFn s n f).racc = s.racc := rfl
@[simp] theorem uFn_out (s : State) (n : Nat) (f : Fn → Fn) : (uFn s n f).out = s.out := rfl
@[simp] theorem uFn_boot (s : State) (n : Nat) (f : Fn → Fn) : (uFn s n f).boot = s.boot := rfl
@[simp] theorem uFn_otp (s : State) (n : Nat) (f : Fn → Fn) : (uFn s n f).otp = s.otp := rfl
@[simp] theorem uFn_cfg (s : State) (n : Nat) (f : Fn → Fn) : (uFn s n f).cfg = s.cfg := rfl
@[simp] theorem uFn_tick (s : State) (n : Nat) (f : Fn → Fn) : (uFn s n f).tick = s.tick := rfl
@[simp] theorem uFn_rot (s : State) (n : Nat) (f : Fn → Fn) : (uFn s n f).rot = s.rot := rfl
@[simp] theorem uFn_pm (s : State) (n : Nat) (f : Fn → Fn) : (uFn s n f).pm = s.pm := rfl
@[simp] theorem uFn_wake (s : State) (n : Nat) (f : Fn → Fn) : (uFn s n f).wake = s.wake := rfl
@[simp] theorem uFn_gov (s : State) (n : Nat) (f : Fn → Fn) : (uFn s n f).gov = s.gov := rfl
@[simp] theorem uFn_fw (s : State) (n : Nat) (f : Fn → Fn) : (uFn s n f).fw = s.fw := rfl
@[simp] theorem uFn_sec (s : State) (n : Nat) (f : Fn → Fn) : (uFn s n f).sec = s.sec := rfl
@[simp] theorem uFn_hi (s : State) (n : Nat) (f : Fn → Fn) : (uFn s n f).hi = s.hi := rfl
@[simp] theorem uFn_mgmt (s : State) (n : Nat) (f : Fn → Fn) : (uFn s n f).mgmt = s.mgmt := rfl
@[simp] theorem uFn_sysTrig (s : State) (n : Nat) (f : Fn → Fn) : (uFn s n f).sysTrig = s.sysTrig := rfl
@[simp] theorem uFn_ctxs (s : State) (n : Nat) (f : Fn → Fn) : (uFn s n f).ctxs = s.ctxs := rfl
@[simp] theorem uFn_threads (s : State) (n : Nat) (f : Fn → Fn) : (uFn s n f).threads = s.threads := rfl
@[simp] theorem uFn_turn (s : State) (n : Nat) (f : Fn → Fn) : (uFn s n f).turn = s.turn := rfl
@[simp] theorem uFn_barriers (s : State) (n : Nat) (f : Fn → Fn) : (uFn s n f).barriers = s.barriers := rfl
@[simp] theorem uFn_ops (s : State) (n : Nat) (f : Fn → Fn) : (uFn s n f).ops = s.ops := rfl
@[simp] theorem uFn_units (s : State) (n : Nat) (f : Fn → Fn) : (uFn s n f).units = s.units := rfl
@[simp] theorem uFn_amu (s : State) (n : Nat) (f : Fn → Fn) : (uFn s n f).amu = s.amu := rfl
@[simp] theorem uFn_queues (s : State) (n : Nat) (f : Fn → Fn) : (uFn s n f).queues = s.queues := rfl
@[simp] theorem uFn_tows (s : State) (n : Nat) (f : Fn → Fn) : (uFn s n f).tows = s.tows := rfl
@[simp] theorem uFn_flights (s : State) (n : Nat) (f : Fn → Fn) : (uFn s n f).flights = s.flights := rfl
@[simp] theorem uFn_codecWait (s : State) (n : Nat) (f : Fn → Fn) : (uFn s n f).codecWait = s.codecWait := rfl
@[simp] theorem uFn_lanes (s : State) (n : Nat) (f : Fn → Fn) : (uFn s n f).lanes = s.lanes := rfl
@[simp] theorem uFn_harts (s : State) (n : Nat) (f : Fn → Fn) : (uFn s n f).harts = s.harts := rfl
@[simp] theorem uFn_ports (s : State) (n : Nat) (f : Fn → Fn) : (uFn s n f).ports = s.ports := rfl
@[simp] theorem uFn_rtxs (s : State) (n : Nat) (f : Fn → Fn) : (uFn s n f).rtxs = s.rtxs := rfl
@[simp] theorem uFn_reach (s : State) (n : Nat) (f : Fn → Fn) : (uFn s n f).reach = s.reach := rfl
@[simp] theorem uFn_faults (s : State) (n : Nat) (f : Fn → Fn) : (uFn s n f).faults = s.faults := rfl
@[simp] theorem uFn_mem (s : State) (n : Nat) (f : Fn → Fn) : (uFn s n f).mem = s.mem := rfl

/-! ## uPort -/

@[simp] theorem uPort_pending (s : State) (n : Nat) (f : Port → Port) : (uPort s n f).pending = s.pending := rfl
@[simp] theorem uPort_free (s : State) (n : Nat) (f : Port → Port) : (uPort s n f).free = s.free := rfl
@[simp] theorem uPort_nextId (s : State) (n : Nat) (f : Port → Port) : (uPort s n f).nextId = s.nextId := rfl
@[simp] theorem uPort_rid (s : State) (n : Nat) (f : Port → Port) : (uPort s n f).rid = s.rid := rfl
@[simp] theorem uPort_racc (s : State) (n : Nat) (f : Port → Port) : (uPort s n f).racc = s.racc := rfl
@[simp] theorem uPort_out (s : State) (n : Nat) (f : Port → Port) : (uPort s n f).out = s.out := rfl
@[simp] theorem uPort_boot (s : State) (n : Nat) (f : Port → Port) : (uPort s n f).boot = s.boot := rfl
@[simp] theorem uPort_otp (s : State) (n : Nat) (f : Port → Port) : (uPort s n f).otp = s.otp := rfl
@[simp] theorem uPort_cfg (s : State) (n : Nat) (f : Port → Port) : (uPort s n f).cfg = s.cfg := rfl
@[simp] theorem uPort_tick (s : State) (n : Nat) (f : Port → Port) : (uPort s n f).tick = s.tick := rfl
@[simp] theorem uPort_rot (s : State) (n : Nat) (f : Port → Port) : (uPort s n f).rot = s.rot := rfl
@[simp] theorem uPort_pm (s : State) (n : Nat) (f : Port → Port) : (uPort s n f).pm = s.pm := rfl
@[simp] theorem uPort_wake (s : State) (n : Nat) (f : Port → Port) : (uPort s n f).wake = s.wake := rfl
@[simp] theorem uPort_gov (s : State) (n : Nat) (f : Port → Port) : (uPort s n f).gov = s.gov := rfl
@[simp] theorem uPort_fw (s : State) (n : Nat) (f : Port → Port) : (uPort s n f).fw = s.fw := rfl
@[simp] theorem uPort_sec (s : State) (n : Nat) (f : Port → Port) : (uPort s n f).sec = s.sec := rfl
@[simp] theorem uPort_hi (s : State) (n : Nat) (f : Port → Port) : (uPort s n f).hi = s.hi := rfl
@[simp] theorem uPort_mgmt (s : State) (n : Nat) (f : Port → Port) : (uPort s n f).mgmt = s.mgmt := rfl
@[simp] theorem uPort_sysTrig (s : State) (n : Nat) (f : Port → Port) : (uPort s n f).sysTrig = s.sysTrig := rfl
@[simp] theorem uPort_fns (s : State) (n : Nat) (f : Port → Port) : (uPort s n f).fns = s.fns := rfl
@[simp] theorem uPort_ctxs (s : State) (n : Nat) (f : Port → Port) : (uPort s n f).ctxs = s.ctxs := rfl
@[simp] theorem uPort_threads (s : State) (n : Nat) (f : Port → Port) : (uPort s n f).threads = s.threads := rfl
@[simp] theorem uPort_turn (s : State) (n : Nat) (f : Port → Port) : (uPort s n f).turn = s.turn := rfl
@[simp] theorem uPort_barriers (s : State) (n : Nat) (f : Port → Port) : (uPort s n f).barriers = s.barriers := rfl
@[simp] theorem uPort_ops (s : State) (n : Nat) (f : Port → Port) : (uPort s n f).ops = s.ops := rfl
@[simp] theorem uPort_units (s : State) (n : Nat) (f : Port → Port) : (uPort s n f).units = s.units := rfl
@[simp] theorem uPort_amu (s : State) (n : Nat) (f : Port → Port) : (uPort s n f).amu = s.amu := rfl
@[simp] theorem uPort_queues (s : State) (n : Nat) (f : Port → Port) : (uPort s n f).queues = s.queues := rfl
@[simp] theorem uPort_tows (s : State) (n : Nat) (f : Port → Port) : (uPort s n f).tows = s.tows := rfl
@[simp] theorem uPort_flights (s : State) (n : Nat) (f : Port → Port) : (uPort s n f).flights = s.flights := rfl
@[simp] theorem uPort_codecWait (s : State) (n : Nat) (f : Port → Port) : (uPort s n f).codecWait = s.codecWait := rfl
@[simp] theorem uPort_lanes (s : State) (n : Nat) (f : Port → Port) : (uPort s n f).lanes = s.lanes := rfl
@[simp] theorem uPort_harts (s : State) (n : Nat) (f : Port → Port) : (uPort s n f).harts = s.harts := rfl
@[simp] theorem uPort_rtxs (s : State) (n : Nat) (f : Port → Port) : (uPort s n f).rtxs = s.rtxs := rfl
@[simp] theorem uPort_reach (s : State) (n : Nat) (f : Port → Port) : (uPort s n f).reach = s.reach := rfl
@[simp] theorem uPort_faults (s : State) (n : Nat) (f : Port → Port) : (uPort s n f).faults = s.faults := rfl
@[simp] theorem uPort_mem (s : State) (n : Nat) (f : Port → Port) : (uPort s n f).mem = s.mem := rfl

/-! ## uHart -/

@[simp] theorem uHart_pending (s : State) (n : Nat) (f : Hart → Hart) : (uHart s n f).pending = s.pending := rfl
@[simp] theorem uHart_free (s : State) (n : Nat) (f : Hart → Hart) : (uHart s n f).free = s.free := rfl
@[simp] theorem uHart_nextId (s : State) (n : Nat) (f : Hart → Hart) : (uHart s n f).nextId = s.nextId := rfl
@[simp] theorem uHart_rid (s : State) (n : Nat) (f : Hart → Hart) : (uHart s n f).rid = s.rid := rfl
@[simp] theorem uHart_racc (s : State) (n : Nat) (f : Hart → Hart) : (uHart s n f).racc = s.racc := rfl
@[simp] theorem uHart_out (s : State) (n : Nat) (f : Hart → Hart) : (uHart s n f).out = s.out := rfl
@[simp] theorem uHart_boot (s : State) (n : Nat) (f : Hart → Hart) : (uHart s n f).boot = s.boot := rfl
@[simp] theorem uHart_otp (s : State) (n : Nat) (f : Hart → Hart) : (uHart s n f).otp = s.otp := rfl
@[simp] theorem uHart_cfg (s : State) (n : Nat) (f : Hart → Hart) : (uHart s n f).cfg = s.cfg := rfl
@[simp] theorem uHart_tick (s : State) (n : Nat) (f : Hart → Hart) : (uHart s n f).tick = s.tick := rfl
@[simp] theorem uHart_rot (s : State) (n : Nat) (f : Hart → Hart) : (uHart s n f).rot = s.rot := rfl
@[simp] theorem uHart_pm (s : State) (n : Nat) (f : Hart → Hart) : (uHart s n f).pm = s.pm := rfl
@[simp] theorem uHart_wake (s : State) (n : Nat) (f : Hart → Hart) : (uHart s n f).wake = s.wake := rfl
@[simp] theorem uHart_gov (s : State) (n : Nat) (f : Hart → Hart) : (uHart s n f).gov = s.gov := rfl
@[simp] theorem uHart_fw (s : State) (n : Nat) (f : Hart → Hart) : (uHart s n f).fw = s.fw := rfl
@[simp] theorem uHart_sec (s : State) (n : Nat) (f : Hart → Hart) : (uHart s n f).sec = s.sec := rfl
@[simp] theorem uHart_hi (s : State) (n : Nat) (f : Hart → Hart) : (uHart s n f).hi = s.hi := rfl
@[simp] theorem uHart_mgmt (s : State) (n : Nat) (f : Hart → Hart) : (uHart s n f).mgmt = s.mgmt := rfl
@[simp] theorem uHart_sysTrig (s : State) (n : Nat) (f : Hart → Hart) : (uHart s n f).sysTrig = s.sysTrig := rfl
@[simp] theorem uHart_fns (s : State) (n : Nat) (f : Hart → Hart) : (uHart s n f).fns = s.fns := rfl
@[simp] theorem uHart_ctxs (s : State) (n : Nat) (f : Hart → Hart) : (uHart s n f).ctxs = s.ctxs := rfl
@[simp] theorem uHart_threads (s : State) (n : Nat) (f : Hart → Hart) : (uHart s n f).threads = s.threads := rfl
@[simp] theorem uHart_turn (s : State) (n : Nat) (f : Hart → Hart) : (uHart s n f).turn = s.turn := rfl
@[simp] theorem uHart_barriers (s : State) (n : Nat) (f : Hart → Hart) : (uHart s n f).barriers = s.barriers := rfl
@[simp] theorem uHart_ops (s : State) (n : Nat) (f : Hart → Hart) : (uHart s n f).ops = s.ops := rfl
@[simp] theorem uHart_units (s : State) (n : Nat) (f : Hart → Hart) : (uHart s n f).units = s.units := rfl
@[simp] theorem uHart_amu (s : State) (n : Nat) (f : Hart → Hart) : (uHart s n f).amu = s.amu := rfl
@[simp] theorem uHart_queues (s : State) (n : Nat) (f : Hart → Hart) : (uHart s n f).queues = s.queues := rfl
@[simp] theorem uHart_tows (s : State) (n : Nat) (f : Hart → Hart) : (uHart s n f).tows = s.tows := rfl
@[simp] theorem uHart_flights (s : State) (n : Nat) (f : Hart → Hart) : (uHart s n f).flights = s.flights := rfl
@[simp] theorem uHart_codecWait (s : State) (n : Nat) (f : Hart → Hart) : (uHart s n f).codecWait = s.codecWait := rfl
@[simp] theorem uHart_lanes (s : State) (n : Nat) (f : Hart → Hart) : (uHart s n f).lanes = s.lanes := rfl
@[simp] theorem uHart_ports (s : State) (n : Nat) (f : Hart → Hart) : (uHart s n f).ports = s.ports := rfl
@[simp] theorem uHart_rtxs (s : State) (n : Nat) (f : Hart → Hart) : (uHart s n f).rtxs = s.rtxs := rfl
@[simp] theorem uHart_reach (s : State) (n : Nat) (f : Hart → Hart) : (uHart s n f).reach = s.reach := rfl
@[simp] theorem uHart_faults (s : State) (n : Nat) (f : Hart → Hart) : (uHart s n f).faults = s.faults := rfl
@[simp] theorem uHart_mem (s : State) (n : Nat) (f : Hart → Hart) : (uHart s n f).mem = s.mem := rfl

/-! ## uTh -/

@[simp] theorem uTh_pending (s : State) (n : Nat) (f : Thread → Thread) : (uTh s n f).pending = s.pending := rfl
@[simp] theorem uTh_free (s : State) (n : Nat) (f : Thread → Thread) : (uTh s n f).free = s.free := rfl
@[simp] theorem uTh_nextId (s : State) (n : Nat) (f : Thread → Thread) : (uTh s n f).nextId = s.nextId := rfl
@[simp] theorem uTh_rid (s : State) (n : Nat) (f : Thread → Thread) : (uTh s n f).rid = s.rid := rfl
@[simp] theorem uTh_racc (s : State) (n : Nat) (f : Thread → Thread) : (uTh s n f).racc = s.racc := rfl
@[simp] theorem uTh_out (s : State) (n : Nat) (f : Thread → Thread) : (uTh s n f).out = s.out := rfl
@[simp] theorem uTh_boot (s : State) (n : Nat) (f : Thread → Thread) : (uTh s n f).boot = s.boot := rfl
@[simp] theorem uTh_otp (s : State) (n : Nat) (f : Thread → Thread) : (uTh s n f).otp = s.otp := rfl
@[simp] theorem uTh_cfg (s : State) (n : Nat) (f : Thread → Thread) : (uTh s n f).cfg = s.cfg := rfl
@[simp] theorem uTh_tick (s : State) (n : Nat) (f : Thread → Thread) : (uTh s n f).tick = s.tick := rfl
@[simp] theorem uTh_rot (s : State) (n : Nat) (f : Thread → Thread) : (uTh s n f).rot = s.rot := rfl
@[simp] theorem uTh_pm (s : State) (n : Nat) (f : Thread → Thread) : (uTh s n f).pm = s.pm := rfl
@[simp] theorem uTh_wake (s : State) (n : Nat) (f : Thread → Thread) : (uTh s n f).wake = s.wake := rfl
@[simp] theorem uTh_gov (s : State) (n : Nat) (f : Thread → Thread) : (uTh s n f).gov = s.gov := rfl
@[simp] theorem uTh_fw (s : State) (n : Nat) (f : Thread → Thread) : (uTh s n f).fw = s.fw := rfl
@[simp] theorem uTh_sec (s : State) (n : Nat) (f : Thread → Thread) : (uTh s n f).sec = s.sec := rfl
@[simp] theorem uTh_hi (s : State) (n : Nat) (f : Thread → Thread) : (uTh s n f).hi = s.hi := rfl
@[simp] theorem uTh_mgmt (s : State) (n : Nat) (f : Thread → Thread) : (uTh s n f).mgmt = s.mgmt := rfl
@[simp] theorem uTh_sysTrig (s : State) (n : Nat) (f : Thread → Thread) : (uTh s n f).sysTrig = s.sysTrig := rfl
@[simp] theorem uTh_fns (s : State) (n : Nat) (f : Thread → Thread) : (uTh s n f).fns = s.fns := rfl
@[simp] theorem uTh_ctxs (s : State) (n : Nat) (f : Thread → Thread) : (uTh s n f).ctxs = s.ctxs := rfl
@[simp] theorem uTh_turn (s : State) (n : Nat) (f : Thread → Thread) : (uTh s n f).turn = s.turn := rfl
@[simp] theorem uTh_barriers (s : State) (n : Nat) (f : Thread → Thread) : (uTh s n f).barriers = s.barriers := rfl
@[simp] theorem uTh_ops (s : State) (n : Nat) (f : Thread → Thread) : (uTh s n f).ops = s.ops := rfl
@[simp] theorem uTh_units (s : State) (n : Nat) (f : Thread → Thread) : (uTh s n f).units = s.units := rfl
@[simp] theorem uTh_amu (s : State) (n : Nat) (f : Thread → Thread) : (uTh s n f).amu = s.amu := rfl
@[simp] theorem uTh_queues (s : State) (n : Nat) (f : Thread → Thread) : (uTh s n f).queues = s.queues := rfl
@[simp] theorem uTh_tows (s : State) (n : Nat) (f : Thread → Thread) : (uTh s n f).tows = s.tows := rfl
@[simp] theorem uTh_flights (s : State) (n : Nat) (f : Thread → Thread) : (uTh s n f).flights = s.flights := rfl
@[simp] theorem uTh_codecWait (s : State) (n : Nat) (f : Thread → Thread) : (uTh s n f).codecWait = s.codecWait := rfl
@[simp] theorem uTh_lanes (s : State) (n : Nat) (f : Thread → Thread) : (uTh s n f).lanes = s.lanes := rfl
@[simp] theorem uTh_harts (s : State) (n : Nat) (f : Thread → Thread) : (uTh s n f).harts = s.harts := rfl
@[simp] theorem uTh_ports (s : State) (n : Nat) (f : Thread → Thread) : (uTh s n f).ports = s.ports := rfl
@[simp] theorem uTh_rtxs (s : State) (n : Nat) (f : Thread → Thread) : (uTh s n f).rtxs = s.rtxs := rfl
@[simp] theorem uTh_reach (s : State) (n : Nat) (f : Thread → Thread) : (uTh s n f).reach = s.reach := rfl
@[simp] theorem uTh_faults (s : State) (n : Nat) (f : Thread → Thread) : (uTh s n f).faults = s.faults := rfl
@[simp] theorem uTh_mem (s : State) (n : Nat) (f : Thread → Thread) : (uTh s n f).mem = s.mem := rfl

/-! ## uQueue -/

@[simp] theorem uQueue_pending (s : State) (n : Nat) (f : BQueue → BQueue) : (uQueue s n f).pending = s.pending := rfl
@[simp] theorem uQueue_free (s : State) (n : Nat) (f : BQueue → BQueue) : (uQueue s n f).free = s.free := rfl
@[simp] theorem uQueue_nextId (s : State) (n : Nat) (f : BQueue → BQueue) : (uQueue s n f).nextId = s.nextId := rfl
@[simp] theorem uQueue_rid (s : State) (n : Nat) (f : BQueue → BQueue) : (uQueue s n f).rid = s.rid := rfl
@[simp] theorem uQueue_racc (s : State) (n : Nat) (f : BQueue → BQueue) : (uQueue s n f).racc = s.racc := rfl
@[simp] theorem uQueue_out (s : State) (n : Nat) (f : BQueue → BQueue) : (uQueue s n f).out = s.out := rfl
@[simp] theorem uQueue_boot (s : State) (n : Nat) (f : BQueue → BQueue) : (uQueue s n f).boot = s.boot := rfl
@[simp] theorem uQueue_otp (s : State) (n : Nat) (f : BQueue → BQueue) : (uQueue s n f).otp = s.otp := rfl
@[simp] theorem uQueue_cfg (s : State) (n : Nat) (f : BQueue → BQueue) : (uQueue s n f).cfg = s.cfg := rfl
@[simp] theorem uQueue_tick (s : State) (n : Nat) (f : BQueue → BQueue) : (uQueue s n f).tick = s.tick := rfl
@[simp] theorem uQueue_rot (s : State) (n : Nat) (f : BQueue → BQueue) : (uQueue s n f).rot = s.rot := rfl
@[simp] theorem uQueue_pm (s : State) (n : Nat) (f : BQueue → BQueue) : (uQueue s n f).pm = s.pm := rfl
@[simp] theorem uQueue_wake (s : State) (n : Nat) (f : BQueue → BQueue) : (uQueue s n f).wake = s.wake := rfl
@[simp] theorem uQueue_gov (s : State) (n : Nat) (f : BQueue → BQueue) : (uQueue s n f).gov = s.gov := rfl
@[simp] theorem uQueue_fw (s : State) (n : Nat) (f : BQueue → BQueue) : (uQueue s n f).fw = s.fw := rfl
@[simp] theorem uQueue_sec (s : State) (n : Nat) (f : BQueue → BQueue) : (uQueue s n f).sec = s.sec := rfl
@[simp] theorem uQueue_hi (s : State) (n : Nat) (f : BQueue → BQueue) : (uQueue s n f).hi = s.hi := rfl
@[simp] theorem uQueue_mgmt (s : State) (n : Nat) (f : BQueue → BQueue) : (uQueue s n f).mgmt = s.mgmt := rfl
@[simp] theorem uQueue_sysTrig (s : State) (n : Nat) (f : BQueue → BQueue) : (uQueue s n f).sysTrig = s.sysTrig := rfl
@[simp] theorem uQueue_fns (s : State) (n : Nat) (f : BQueue → BQueue) : (uQueue s n f).fns = s.fns := rfl
@[simp] theorem uQueue_ctxs (s : State) (n : Nat) (f : BQueue → BQueue) : (uQueue s n f).ctxs = s.ctxs := rfl
@[simp] theorem uQueue_threads (s : State) (n : Nat) (f : BQueue → BQueue) : (uQueue s n f).threads = s.threads := rfl
@[simp] theorem uQueue_turn (s : State) (n : Nat) (f : BQueue → BQueue) : (uQueue s n f).turn = s.turn := rfl
@[simp] theorem uQueue_barriers (s : State) (n : Nat) (f : BQueue → BQueue) : (uQueue s n f).barriers = s.barriers := rfl
@[simp] theorem uQueue_ops (s : State) (n : Nat) (f : BQueue → BQueue) : (uQueue s n f).ops = s.ops := rfl
@[simp] theorem uQueue_units (s : State) (n : Nat) (f : BQueue → BQueue) : (uQueue s n f).units = s.units := rfl
@[simp] theorem uQueue_amu (s : State) (n : Nat) (f : BQueue → BQueue) : (uQueue s n f).amu = s.amu := rfl
@[simp] theorem uQueue_tows (s : State) (n : Nat) (f : BQueue → BQueue) : (uQueue s n f).tows = s.tows := rfl
@[simp] theorem uQueue_flights (s : State) (n : Nat) (f : BQueue → BQueue) : (uQueue s n f).flights = s.flights := rfl
@[simp] theorem uQueue_codecWait (s : State) (n : Nat) (f : BQueue → BQueue) : (uQueue s n f).codecWait = s.codecWait := rfl
@[simp] theorem uQueue_lanes (s : State) (n : Nat) (f : BQueue → BQueue) : (uQueue s n f).lanes = s.lanes := rfl
@[simp] theorem uQueue_harts (s : State) (n : Nat) (f : BQueue → BQueue) : (uQueue s n f).harts = s.harts := rfl
@[simp] theorem uQueue_ports (s : State) (n : Nat) (f : BQueue → BQueue) : (uQueue s n f).ports = s.ports := rfl
@[simp] theorem uQueue_rtxs (s : State) (n : Nat) (f : BQueue → BQueue) : (uQueue s n f).rtxs = s.rtxs := rfl
@[simp] theorem uQueue_reach (s : State) (n : Nat) (f : BQueue → BQueue) : (uQueue s n f).reach = s.reach := rfl
@[simp] theorem uQueue_faults (s : State) (n : Nat) (f : BQueue → BQueue) : (uQueue s n f).faults = s.faults := rfl
@[simp] theorem uQueue_mem (s : State) (n : Nat) (f : BQueue → BQueue) : (uQueue s n f).mem = s.mem := rfl

/-! ## uUnit -/

@[simp] theorem uUnit_pending (s : State) (n : Nat) (f : UnitQ → UnitQ) : (uUnit s n f).pending = s.pending := rfl
@[simp] theorem uUnit_free (s : State) (n : Nat) (f : UnitQ → UnitQ) : (uUnit s n f).free = s.free := rfl
@[simp] theorem uUnit_nextId (s : State) (n : Nat) (f : UnitQ → UnitQ) : (uUnit s n f).nextId = s.nextId := rfl
@[simp] theorem uUnit_rid (s : State) (n : Nat) (f : UnitQ → UnitQ) : (uUnit s n f).rid = s.rid := rfl
@[simp] theorem uUnit_racc (s : State) (n : Nat) (f : UnitQ → UnitQ) : (uUnit s n f).racc = s.racc := rfl
@[simp] theorem uUnit_out (s : State) (n : Nat) (f : UnitQ → UnitQ) : (uUnit s n f).out = s.out := rfl
@[simp] theorem uUnit_boot (s : State) (n : Nat) (f : UnitQ → UnitQ) : (uUnit s n f).boot = s.boot := rfl
@[simp] theorem uUnit_otp (s : State) (n : Nat) (f : UnitQ → UnitQ) : (uUnit s n f).otp = s.otp := rfl
@[simp] theorem uUnit_cfg (s : State) (n : Nat) (f : UnitQ → UnitQ) : (uUnit s n f).cfg = s.cfg := rfl
@[simp] theorem uUnit_tick (s : State) (n : Nat) (f : UnitQ → UnitQ) : (uUnit s n f).tick = s.tick := rfl
@[simp] theorem uUnit_rot (s : State) (n : Nat) (f : UnitQ → UnitQ) : (uUnit s n f).rot = s.rot := rfl
@[simp] theorem uUnit_pm (s : State) (n : Nat) (f : UnitQ → UnitQ) : (uUnit s n f).pm = s.pm := rfl
@[simp] theorem uUnit_wake (s : State) (n : Nat) (f : UnitQ → UnitQ) : (uUnit s n f).wake = s.wake := rfl
@[simp] theorem uUnit_gov (s : State) (n : Nat) (f : UnitQ → UnitQ) : (uUnit s n f).gov = s.gov := rfl
@[simp] theorem uUnit_fw (s : State) (n : Nat) (f : UnitQ → UnitQ) : (uUnit s n f).fw = s.fw := rfl
@[simp] theorem uUnit_sec (s : State) (n : Nat) (f : UnitQ → UnitQ) : (uUnit s n f).sec = s.sec := rfl
@[simp] theorem uUnit_hi (s : State) (n : Nat) (f : UnitQ → UnitQ) : (uUnit s n f).hi = s.hi := rfl
@[simp] theorem uUnit_mgmt (s : State) (n : Nat) (f : UnitQ → UnitQ) : (uUnit s n f).mgmt = s.mgmt := rfl
@[simp] theorem uUnit_sysTrig (s : State) (n : Nat) (f : UnitQ → UnitQ) : (uUnit s n f).sysTrig = s.sysTrig := rfl
@[simp] theorem uUnit_fns (s : State) (n : Nat) (f : UnitQ → UnitQ) : (uUnit s n f).fns = s.fns := rfl
@[simp] theorem uUnit_ctxs (s : State) (n : Nat) (f : UnitQ → UnitQ) : (uUnit s n f).ctxs = s.ctxs := rfl
@[simp] theorem uUnit_threads (s : State) (n : Nat) (f : UnitQ → UnitQ) : (uUnit s n f).threads = s.threads := rfl
@[simp] theorem uUnit_turn (s : State) (n : Nat) (f : UnitQ → UnitQ) : (uUnit s n f).turn = s.turn := rfl
@[simp] theorem uUnit_barriers (s : State) (n : Nat) (f : UnitQ → UnitQ) : (uUnit s n f).barriers = s.barriers := rfl
@[simp] theorem uUnit_ops (s : State) (n : Nat) (f : UnitQ → UnitQ) : (uUnit s n f).ops = s.ops := rfl
@[simp] theorem uUnit_amu (s : State) (n : Nat) (f : UnitQ → UnitQ) : (uUnit s n f).amu = s.amu := rfl
@[simp] theorem uUnit_queues (s : State) (n : Nat) (f : UnitQ → UnitQ) : (uUnit s n f).queues = s.queues := rfl
@[simp] theorem uUnit_tows (s : State) (n : Nat) (f : UnitQ → UnitQ) : (uUnit s n f).tows = s.tows := rfl
@[simp] theorem uUnit_flights (s : State) (n : Nat) (f : UnitQ → UnitQ) : (uUnit s n f).flights = s.flights := rfl
@[simp] theorem uUnit_codecWait (s : State) (n : Nat) (f : UnitQ → UnitQ) : (uUnit s n f).codecWait = s.codecWait := rfl
@[simp] theorem uUnit_lanes (s : State) (n : Nat) (f : UnitQ → UnitQ) : (uUnit s n f).lanes = s.lanes := rfl
@[simp] theorem uUnit_harts (s : State) (n : Nat) (f : UnitQ → UnitQ) : (uUnit s n f).harts = s.harts := rfl
@[simp] theorem uUnit_ports (s : State) (n : Nat) (f : UnitQ → UnitQ) : (uUnit s n f).ports = s.ports := rfl
@[simp] theorem uUnit_rtxs (s : State) (n : Nat) (f : UnitQ → UnitQ) : (uUnit s n f).rtxs = s.rtxs := rfl
@[simp] theorem uUnit_reach (s : State) (n : Nat) (f : UnitQ → UnitQ) : (uUnit s n f).reach = s.reach := rfl
@[simp] theorem uUnit_faults (s : State) (n : Nat) (f : UnitQ → UnitQ) : (uUnit s n f).faults = s.faults := rfl
@[simp] theorem uUnit_mem (s : State) (n : Nat) (f : UnitQ → UnitQ) : (uUnit s n f).mem = s.mem := rfl

/-! ## uLane -/

@[simp] theorem uLane_pending (s : State) (n : Nat) (f : Lane → Lane) : (uLane s n f).pending = s.pending := rfl
@[simp] theorem uLane_free (s : State) (n : Nat) (f : Lane → Lane) : (uLane s n f).free = s.free := rfl
@[simp] theorem uLane_nextId (s : State) (n : Nat) (f : Lane → Lane) : (uLane s n f).nextId = s.nextId := rfl
@[simp] theorem uLane_rid (s : State) (n : Nat) (f : Lane → Lane) : (uLane s n f).rid = s.rid := rfl
@[simp] theorem uLane_racc (s : State) (n : Nat) (f : Lane → Lane) : (uLane s n f).racc = s.racc := rfl
@[simp] theorem uLane_out (s : State) (n : Nat) (f : Lane → Lane) : (uLane s n f).out = s.out := rfl
@[simp] theorem uLane_boot (s : State) (n : Nat) (f : Lane → Lane) : (uLane s n f).boot = s.boot := rfl
@[simp] theorem uLane_otp (s : State) (n : Nat) (f : Lane → Lane) : (uLane s n f).otp = s.otp := rfl
@[simp] theorem uLane_cfg (s : State) (n : Nat) (f : Lane → Lane) : (uLane s n f).cfg = s.cfg := rfl
@[simp] theorem uLane_tick (s : State) (n : Nat) (f : Lane → Lane) : (uLane s n f).tick = s.tick := rfl
@[simp] theorem uLane_rot (s : State) (n : Nat) (f : Lane → Lane) : (uLane s n f).rot = s.rot := rfl
@[simp] theorem uLane_pm (s : State) (n : Nat) (f : Lane → Lane) : (uLane s n f).pm = s.pm := rfl
@[simp] theorem uLane_wake (s : State) (n : Nat) (f : Lane → Lane) : (uLane s n f).wake = s.wake := rfl
@[simp] theorem uLane_gov (s : State) (n : Nat) (f : Lane → Lane) : (uLane s n f).gov = s.gov := rfl
@[simp] theorem uLane_fw (s : State) (n : Nat) (f : Lane → Lane) : (uLane s n f).fw = s.fw := rfl
@[simp] theorem uLane_sec (s : State) (n : Nat) (f : Lane → Lane) : (uLane s n f).sec = s.sec := rfl
@[simp] theorem uLane_hi (s : State) (n : Nat) (f : Lane → Lane) : (uLane s n f).hi = s.hi := rfl
@[simp] theorem uLane_mgmt (s : State) (n : Nat) (f : Lane → Lane) : (uLane s n f).mgmt = s.mgmt := rfl
@[simp] theorem uLane_sysTrig (s : State) (n : Nat) (f : Lane → Lane) : (uLane s n f).sysTrig = s.sysTrig := rfl
@[simp] theorem uLane_fns (s : State) (n : Nat) (f : Lane → Lane) : (uLane s n f).fns = s.fns := rfl
@[simp] theorem uLane_ctxs (s : State) (n : Nat) (f : Lane → Lane) : (uLane s n f).ctxs = s.ctxs := rfl
@[simp] theorem uLane_threads (s : State) (n : Nat) (f : Lane → Lane) : (uLane s n f).threads = s.threads := rfl
@[simp] theorem uLane_turn (s : State) (n : Nat) (f : Lane → Lane) : (uLane s n f).turn = s.turn := rfl
@[simp] theorem uLane_barriers (s : State) (n : Nat) (f : Lane → Lane) : (uLane s n f).barriers = s.barriers := rfl
@[simp] theorem uLane_ops (s : State) (n : Nat) (f : Lane → Lane) : (uLane s n f).ops = s.ops := rfl
@[simp] theorem uLane_units (s : State) (n : Nat) (f : Lane → Lane) : (uLane s n f).units = s.units := rfl
@[simp] theorem uLane_amu (s : State) (n : Nat) (f : Lane → Lane) : (uLane s n f).amu = s.amu := rfl
@[simp] theorem uLane_queues (s : State) (n : Nat) (f : Lane → Lane) : (uLane s n f).queues = s.queues := rfl
@[simp] theorem uLane_tows (s : State) (n : Nat) (f : Lane → Lane) : (uLane s n f).tows = s.tows := rfl
@[simp] theorem uLane_flights (s : State) (n : Nat) (f : Lane → Lane) : (uLane s n f).flights = s.flights := rfl
@[simp] theorem uLane_codecWait (s : State) (n : Nat) (f : Lane → Lane) : (uLane s n f).codecWait = s.codecWait := rfl
@[simp] theorem uLane_harts (s : State) (n : Nat) (f : Lane → Lane) : (uLane s n f).harts = s.harts := rfl
@[simp] theorem uLane_ports (s : State) (n : Nat) (f : Lane → Lane) : (uLane s n f).ports = s.ports := rfl
@[simp] theorem uLane_rtxs (s : State) (n : Nat) (f : Lane → Lane) : (uLane s n f).rtxs = s.rtxs := rfl
@[simp] theorem uLane_reach (s : State) (n : Nat) (f : Lane → Lane) : (uLane s n f).reach = s.reach := rfl
@[simp] theorem uLane_faults (s : State) (n : Nat) (f : Lane → Lane) : (uLane s n f).faults = s.faults := rfl
@[simp] theorem uLane_mem (s : State) (n : Nat) (f : Lane → Lane) : (uLane s n f).mem = s.mem := rfl

/-! ## uStack -/

@[simp] theorem uStack_pending (s : State) (n : Nat) (f : Stack → Stack) : (uStack s n f).pending = s.pending := rfl
@[simp] theorem uStack_free (s : State) (n : Nat) (f : Stack → Stack) : (uStack s n f).free = s.free := rfl
@[simp] theorem uStack_nextId (s : State) (n : Nat) (f : Stack → Stack) : (uStack s n f).nextId = s.nextId := rfl
@[simp] theorem uStack_rid (s : State) (n : Nat) (f : Stack → Stack) : (uStack s n f).rid = s.rid := rfl
@[simp] theorem uStack_racc (s : State) (n : Nat) (f : Stack → Stack) : (uStack s n f).racc = s.racc := rfl
@[simp] theorem uStack_out (s : State) (n : Nat) (f : Stack → Stack) : (uStack s n f).out = s.out := rfl
@[simp] theorem uStack_boot (s : State) (n : Nat) (f : Stack → Stack) : (uStack s n f).boot = s.boot := rfl
@[simp] theorem uStack_otp (s : State) (n : Nat) (f : Stack → Stack) : (uStack s n f).otp = s.otp := rfl
@[simp] theorem uStack_cfg (s : State) (n : Nat) (f : Stack → Stack) : (uStack s n f).cfg = s.cfg := rfl
@[simp] theorem uStack_tick (s : State) (n : Nat) (f : Stack → Stack) : (uStack s n f).tick = s.tick := rfl
@[simp] theorem uStack_rot (s : State) (n : Nat) (f : Stack → Stack) : (uStack s n f).rot = s.rot := rfl
@[simp] theorem uStack_pm (s : State) (n : Nat) (f : Stack → Stack) : (uStack s n f).pm = s.pm := rfl
@[simp] theorem uStack_wake (s : State) (n : Nat) (f : Stack → Stack) : (uStack s n f).wake = s.wake := rfl
@[simp] theorem uStack_gov (s : State) (n : Nat) (f : Stack → Stack) : (uStack s n f).gov = s.gov := rfl
@[simp] theorem uStack_fw (s : State) (n : Nat) (f : Stack → Stack) : (uStack s n f).fw = s.fw := rfl
@[simp] theorem uStack_sec (s : State) (n : Nat) (f : Stack → Stack) : (uStack s n f).sec = s.sec := rfl
@[simp] theorem uStack_hi (s : State) (n : Nat) (f : Stack → Stack) : (uStack s n f).hi = s.hi := rfl
@[simp] theorem uStack_mgmt (s : State) (n : Nat) (f : Stack → Stack) : (uStack s n f).mgmt = s.mgmt := rfl
@[simp] theorem uStack_sysTrig (s : State) (n : Nat) (f : Stack → Stack) : (uStack s n f).sysTrig = s.sysTrig := rfl
@[simp] theorem uStack_fns (s : State) (n : Nat) (f : Stack → Stack) : (uStack s n f).fns = s.fns := rfl
@[simp] theorem uStack_ctxs (s : State) (n : Nat) (f : Stack → Stack) : (uStack s n f).ctxs = s.ctxs := rfl
@[simp] theorem uStack_threads (s : State) (n : Nat) (f : Stack → Stack) : (uStack s n f).threads = s.threads := rfl
@[simp] theorem uStack_turn (s : State) (n : Nat) (f : Stack → Stack) : (uStack s n f).turn = s.turn := rfl
@[simp] theorem uStack_barriers (s : State) (n : Nat) (f : Stack → Stack) : (uStack s n f).barriers = s.barriers := rfl
@[simp] theorem uStack_ops (s : State) (n : Nat) (f : Stack → Stack) : (uStack s n f).ops = s.ops := rfl
@[simp] theorem uStack_units (s : State) (n : Nat) (f : Stack → Stack) : (uStack s n f).units = s.units := rfl
@[simp] theorem uStack_amu (s : State) (n : Nat) (f : Stack → Stack) : (uStack s n f).amu = s.amu := rfl
@[simp] theorem uStack_queues (s : State) (n : Nat) (f : Stack → Stack) : (uStack s n f).queues = s.queues := rfl
@[simp] theorem uStack_tows (s : State) (n : Nat) (f : Stack → Stack) : (uStack s n f).tows = s.tows := rfl
@[simp] theorem uStack_flights (s : State) (n : Nat) (f : Stack → Stack) : (uStack s n f).flights = s.flights := rfl
@[simp] theorem uStack_codecWait (s : State) (n : Nat) (f : Stack → Stack) : (uStack s n f).codecWait = s.codecWait := rfl
@[simp] theorem uStack_lanes (s : State) (n : Nat) (f : Stack → Stack) : (uStack s n f).lanes = s.lanes := rfl
@[simp] theorem uStack_harts (s : State) (n : Nat) (f : Stack → Stack) : (uStack s n f).harts = s.harts := rfl
@[simp] theorem uStack_ports (s : State) (n : Nat) (f : Stack → Stack) : (uStack s n f).ports = s.ports := rfl
@[simp] theorem uStack_rtxs (s : State) (n : Nat) (f : Stack → Stack) : (uStack s n f).rtxs = s.rtxs := rfl
@[simp] theorem uStack_reach (s : State) (n : Nat) (f : Stack → Stack) : (uStack s n f).reach = s.reach := rfl
@[simp] theorem uStack_faults (s : State) (n : Nat) (f : Stack → Stack) : (uStack s n f).faults = s.faults := rfl

/-! ## uMem -/

@[simp] theorem uMem_pending (s : State) (f : Mem → Mem) : (uMem s f).pending = s.pending := rfl
@[simp] theorem uMem_free (s : State) (f : Mem → Mem) : (uMem s f).free = s.free := rfl
@[simp] theorem uMem_nextId (s : State) (f : Mem → Mem) : (uMem s f).nextId = s.nextId := rfl
@[simp] theorem uMem_rid (s : State) (f : Mem → Mem) : (uMem s f).rid = s.rid := rfl
@[simp] theorem uMem_racc (s : State) (f : Mem → Mem) : (uMem s f).racc = s.racc := rfl
@[simp] theorem uMem_out (s : State) (f : Mem → Mem) : (uMem s f).out = s.out := rfl
@[simp] theorem uMem_boot (s : State) (f : Mem → Mem) : (uMem s f).boot = s.boot := rfl
@[simp] theorem uMem_otp (s : State) (f : Mem → Mem) : (uMem s f).otp = s.otp := rfl
@[simp] theorem uMem_cfg (s : State) (f : Mem → Mem) : (uMem s f).cfg = s.cfg := rfl
@[simp] theorem uMem_tick (s : State) (f : Mem → Mem) : (uMem s f).tick = s.tick := rfl
@[simp] theorem uMem_rot (s : State) (f : Mem → Mem) : (uMem s f).rot = s.rot := rfl
@[simp] theorem uMem_pm (s : State) (f : Mem → Mem) : (uMem s f).pm = s.pm := rfl
@[simp] theorem uMem_wake (s : State) (f : Mem → Mem) : (uMem s f).wake = s.wake := rfl
@[simp] theorem uMem_gov (s : State) (f : Mem → Mem) : (uMem s f).gov = s.gov := rfl
@[simp] theorem uMem_fw (s : State) (f : Mem → Mem) : (uMem s f).fw = s.fw := rfl
@[simp] theorem uMem_sec (s : State) (f : Mem → Mem) : (uMem s f).sec = s.sec := rfl
@[simp] theorem uMem_hi (s : State) (f : Mem → Mem) : (uMem s f).hi = s.hi := rfl
@[simp] theorem uMem_mgmt (s : State) (f : Mem → Mem) : (uMem s f).mgmt = s.mgmt := rfl
@[simp] theorem uMem_sysTrig (s : State) (f : Mem → Mem) : (uMem s f).sysTrig = s.sysTrig := rfl
@[simp] theorem uMem_fns (s : State) (f : Mem → Mem) : (uMem s f).fns = s.fns := rfl
@[simp] theorem uMem_ctxs (s : State) (f : Mem → Mem) : (uMem s f).ctxs = s.ctxs := rfl
@[simp] theorem uMem_threads (s : State) (f : Mem → Mem) : (uMem s f).threads = s.threads := rfl
@[simp] theorem uMem_turn (s : State) (f : Mem → Mem) : (uMem s f).turn = s.turn := rfl
@[simp] theorem uMem_barriers (s : State) (f : Mem → Mem) : (uMem s f).barriers = s.barriers := rfl
@[simp] theorem uMem_ops (s : State) (f : Mem → Mem) : (uMem s f).ops = s.ops := rfl
@[simp] theorem uMem_units (s : State) (f : Mem → Mem) : (uMem s f).units = s.units := rfl
@[simp] theorem uMem_amu (s : State) (f : Mem → Mem) : (uMem s f).amu = s.amu := rfl
@[simp] theorem uMem_queues (s : State) (f : Mem → Mem) : (uMem s f).queues = s.queues := rfl
@[simp] theorem uMem_tows (s : State) (f : Mem → Mem) : (uMem s f).tows = s.tows := rfl
@[simp] theorem uMem_flights (s : State) (f : Mem → Mem) : (uMem s f).flights = s.flights := rfl
@[simp] theorem uMem_codecWait (s : State) (f : Mem → Mem) : (uMem s f).codecWait = s.codecWait := rfl
@[simp] theorem uMem_lanes (s : State) (f : Mem → Mem) : (uMem s f).lanes = s.lanes := rfl
@[simp] theorem uMem_harts (s : State) (f : Mem → Mem) : (uMem s f).harts = s.harts := rfl
@[simp] theorem uMem_ports (s : State) (f : Mem → Mem) : (uMem s f).ports = s.ports := rfl
@[simp] theorem uMem_rtxs (s : State) (f : Mem → Mem) : (uMem s f).rtxs = s.rtxs := rfl
@[simp] theorem uMem_reach (s : State) (f : Mem → Mem) : (uMem s f).reach = s.reach := rfl
@[simp] theorem uMem_faults (s : State) (f : Mem → Mem) : (uMem s f).faults = s.faults := rfl

/-! ## emit -/

@[simp] theorem emit_pending (s : State) (o : Out) : (emit s o).pending = s.pending := rfl
@[simp] theorem emit_free (s : State) (o : Out) : (emit s o).free = s.free := rfl
@[simp] theorem emit_nextId (s : State) (o : Out) : (emit s o).nextId = s.nextId := rfl
@[simp] theorem emit_rid (s : State) (o : Out) : (emit s o).rid = s.rid := rfl
@[simp] theorem emit_racc (s : State) (o : Out) : (emit s o).racc = s.racc := rfl
@[simp] theorem emit_boot (s : State) (o : Out) : (emit s o).boot = s.boot := rfl
@[simp] theorem emit_otp (s : State) (o : Out) : (emit s o).otp = s.otp := rfl
@[simp] theorem emit_cfg (s : State) (o : Out) : (emit s o).cfg = s.cfg := rfl
@[simp] theorem emit_tick (s : State) (o : Out) : (emit s o).tick = s.tick := rfl
@[simp] theorem emit_rot (s : State) (o : Out) : (emit s o).rot = s.rot := rfl
@[simp] theorem emit_pm (s : State) (o : Out) : (emit s o).pm = s.pm := rfl
@[simp] theorem emit_wake (s : State) (o : Out) : (emit s o).wake = s.wake := rfl
@[simp] theorem emit_gov (s : State) (o : Out) : (emit s o).gov = s.gov := rfl
@[simp] theorem emit_fw (s : State) (o : Out) : (emit s o).fw = s.fw := rfl
@[simp] theorem emit_sec (s : State) (o : Out) : (emit s o).sec = s.sec := rfl
@[simp] theorem emit_hi (s : State) (o : Out) : (emit s o).hi = s.hi := rfl
@[simp] theorem emit_mgmt (s : State) (o : Out) : (emit s o).mgmt = s.mgmt := rfl
@[simp] theorem emit_sysTrig (s : State) (o : Out) : (emit s o).sysTrig = s.sysTrig := rfl
@[simp] theorem emit_fns (s : State) (o : Out) : (emit s o).fns = s.fns := rfl
@[simp] theorem emit_ctxs (s : State) (o : Out) : (emit s o).ctxs = s.ctxs := rfl
@[simp] theorem emit_threads (s : State) (o : Out) : (emit s o).threads = s.threads := rfl
@[simp] theorem emit_turn (s : State) (o : Out) : (emit s o).turn = s.turn := rfl
@[simp] theorem emit_barriers (s : State) (o : Out) : (emit s o).barriers = s.barriers := rfl
@[simp] theorem emit_ops (s : State) (o : Out) : (emit s o).ops = s.ops := rfl
@[simp] theorem emit_units (s : State) (o : Out) : (emit s o).units = s.units := rfl
@[simp] theorem emit_amu (s : State) (o : Out) : (emit s o).amu = s.amu := rfl
@[simp] theorem emit_queues (s : State) (o : Out) : (emit s o).queues = s.queues := rfl
@[simp] theorem emit_tows (s : State) (o : Out) : (emit s o).tows = s.tows := rfl
@[simp] theorem emit_flights (s : State) (o : Out) : (emit s o).flights = s.flights := rfl
@[simp] theorem emit_codecWait (s : State) (o : Out) : (emit s o).codecWait = s.codecWait := rfl
@[simp] theorem emit_lanes (s : State) (o : Out) : (emit s o).lanes = s.lanes := rfl
@[simp] theorem emit_harts (s : State) (o : Out) : (emit s o).harts = s.harts := rfl
@[simp] theorem emit_ports (s : State) (o : Out) : (emit s o).ports = s.ports := rfl
@[simp] theorem emit_rtxs (s : State) (o : Out) : (emit s o).rtxs = s.rtxs := rfl
@[simp] theorem emit_reach (s : State) (o : Out) : (emit s o).reach = s.reach := rfl
@[simp] theorem emit_faults (s : State) (o : Out) : (emit s o).faults = s.faults := rfl
@[simp] theorem emit_mem (s : State) (o : Out) : (emit s o).mem = s.mem := rfl

/-! ## uWake -/

@[simp] theorem uWake_pending (s : State) (f : Wake → Wake) : (uWake s f).pending = s.pending := rfl
@[simp] theorem uWake_free (s : State) (f : Wake → Wake) : (uWake s f).free = s.free := rfl
@[simp] theorem uWake_nextId (s : State) (f : Wake → Wake) : (uWake s f).nextId = s.nextId := rfl
@[simp] theorem uWake_rid (s : State) (f : Wake → Wake) : (uWake s f).rid = s.rid := rfl
@[simp] theorem uWake_racc (s : State) (f : Wake → Wake) : (uWake s f).racc = s.racc := rfl
@[simp] theorem uWake_out (s : State) (f : Wake → Wake) : (uWake s f).out = s.out := rfl
@[simp] theorem uWake_boot (s : State) (f : Wake → Wake) : (uWake s f).boot = s.boot := rfl
@[simp] theorem uWake_otp (s : State) (f : Wake → Wake) : (uWake s f).otp = s.otp := rfl
@[simp] theorem uWake_cfg (s : State) (f : Wake → Wake) : (uWake s f).cfg = s.cfg := rfl
@[simp] theorem uWake_tick (s : State) (f : Wake → Wake) : (uWake s f).tick = s.tick := rfl
@[simp] theorem uWake_rot (s : State) (f : Wake → Wake) : (uWake s f).rot = s.rot := rfl
@[simp] theorem uWake_pm (s : State) (f : Wake → Wake) : (uWake s f).pm = s.pm := rfl
@[simp] theorem uWake_gov (s : State) (f : Wake → Wake) : (uWake s f).gov = s.gov := rfl
@[simp] theorem uWake_fw (s : State) (f : Wake → Wake) : (uWake s f).fw = s.fw := rfl
@[simp] theorem uWake_sec (s : State) (f : Wake → Wake) : (uWake s f).sec = s.sec := rfl
@[simp] theorem uWake_hi (s : State) (f : Wake → Wake) : (uWake s f).hi = s.hi := rfl
@[simp] theorem uWake_mgmt (s : State) (f : Wake → Wake) : (uWake s f).mgmt = s.mgmt := rfl
@[simp] theorem uWake_sysTrig (s : State) (f : Wake → Wake) : (uWake s f).sysTrig = s.sysTrig := rfl
@[simp] theorem uWake_fns (s : State) (f : Wake → Wake) : (uWake s f).fns = s.fns := rfl
@[simp] theorem uWake_ctxs (s : State) (f : Wake → Wake) : (uWake s f).ctxs = s.ctxs := rfl
@[simp] theorem uWake_threads (s : State) (f : Wake → Wake) : (uWake s f).threads = s.threads := rfl
@[simp] theorem uWake_turn (s : State) (f : Wake → Wake) : (uWake s f).turn = s.turn := rfl
@[simp] theorem uWake_barriers (s : State) (f : Wake → Wake) : (uWake s f).barriers = s.barriers := rfl
@[simp] theorem uWake_ops (s : State) (f : Wake → Wake) : (uWake s f).ops = s.ops := rfl
@[simp] theorem uWake_units (s : State) (f : Wake → Wake) : (uWake s f).units = s.units := rfl
@[simp] theorem uWake_amu (s : State) (f : Wake → Wake) : (uWake s f).amu = s.amu := rfl
@[simp] theorem uWake_queues (s : State) (f : Wake → Wake) : (uWake s f).queues = s.queues := rfl
@[simp] theorem uWake_tows (s : State) (f : Wake → Wake) : (uWake s f).tows = s.tows := rfl
@[simp] theorem uWake_flights (s : State) (f : Wake → Wake) : (uWake s f).flights = s.flights := rfl
@[simp] theorem uWake_codecWait (s : State) (f : Wake → Wake) : (uWake s f).codecWait = s.codecWait := rfl
@[simp] theorem uWake_lanes (s : State) (f : Wake → Wake) : (uWake s f).lanes = s.lanes := rfl
@[simp] theorem uWake_harts (s : State) (f : Wake → Wake) : (uWake s f).harts = s.harts := rfl
@[simp] theorem uWake_ports (s : State) (f : Wake → Wake) : (uWake s f).ports = s.ports := rfl
@[simp] theorem uWake_rtxs (s : State) (f : Wake → Wake) : (uWake s f).rtxs = s.rtxs := rfl
@[simp] theorem uWake_reach (s : State) (f : Wake → Wake) : (uWake s f).reach = s.reach := rfl
@[simp] theorem uWake_faults (s : State) (f : Wake → Wake) : (uWake s f).faults = s.faults := rfl
@[simp] theorem uWake_mem (s : State) (f : Wake → Wake) : (uWake s f).mem = s.mem := rfl

/-! ## uBoot -/

@[simp] theorem uBoot_pending (s : State) (f : Boot → Boot) : (uBoot s f).pending = s.pending := rfl
@[simp] theorem uBoot_free (s : State) (f : Boot → Boot) : (uBoot s f).free = s.free := rfl
@[simp] theorem uBoot_nextId (s : State) (f : Boot → Boot) : (uBoot s f).nextId = s.nextId := rfl
@[simp] theorem uBoot_rid (s : State) (f : Boot → Boot) : (uBoot s f).rid = s.rid := rfl
@[simp] theorem uBoot_racc (s : State) (f : Boot → Boot) : (uBoot s f).racc = s.racc := rfl
@[simp] theorem uBoot_out (s : State) (f : Boot → Boot) : (uBoot s f).out = s.out := rfl
@[simp] theorem uBoot_otp (s : State) (f : Boot → Boot) : (uBoot s f).otp = s.otp := rfl
@[simp] theorem uBoot_cfg (s : State) (f : Boot → Boot) : (uBoot s f).cfg = s.cfg := rfl
@[simp] theorem uBoot_tick (s : State) (f : Boot → Boot) : (uBoot s f).tick = s.tick := rfl
@[simp] theorem uBoot_rot (s : State) (f : Boot → Boot) : (uBoot s f).rot = s.rot := rfl
@[simp] theorem uBoot_pm (s : State) (f : Boot → Boot) : (uBoot s f).pm = s.pm := rfl
@[simp] theorem uBoot_wake (s : State) (f : Boot → Boot) : (uBoot s f).wake = s.wake := rfl
@[simp] theorem uBoot_gov (s : State) (f : Boot → Boot) : (uBoot s f).gov = s.gov := rfl
@[simp] theorem uBoot_fw (s : State) (f : Boot → Boot) : (uBoot s f).fw = s.fw := rfl
@[simp] theorem uBoot_sec (s : State) (f : Boot → Boot) : (uBoot s f).sec = s.sec := rfl
@[simp] theorem uBoot_hi (s : State) (f : Boot → Boot) : (uBoot s f).hi = s.hi := rfl
@[simp] theorem uBoot_mgmt (s : State) (f : Boot → Boot) : (uBoot s f).mgmt = s.mgmt := rfl
@[simp] theorem uBoot_sysTrig (s : State) (f : Boot → Boot) : (uBoot s f).sysTrig = s.sysTrig := rfl
@[simp] theorem uBoot_fns (s : State) (f : Boot → Boot) : (uBoot s f).fns = s.fns := rfl
@[simp] theorem uBoot_ctxs (s : State) (f : Boot → Boot) : (uBoot s f).ctxs = s.ctxs := rfl
@[simp] theorem uBoot_threads (s : State) (f : Boot → Boot) : (uBoot s f).threads = s.threads := rfl
@[simp] theorem uBoot_turn (s : State) (f : Boot → Boot) : (uBoot s f).turn = s.turn := rfl
@[simp] theorem uBoot_barriers (s : State) (f : Boot → Boot) : (uBoot s f).barriers = s.barriers := rfl
@[simp] theorem uBoot_ops (s : State) (f : Boot → Boot) : (uBoot s f).ops = s.ops := rfl
@[simp] theorem uBoot_units (s : State) (f : Boot → Boot) : (uBoot s f).units = s.units := rfl
@[simp] theorem uBoot_amu (s : State) (f : Boot → Boot) : (uBoot s f).amu = s.amu := rfl
@[simp] theorem uBoot_queues (s : State) (f : Boot → Boot) : (uBoot s f).queues = s.queues := rfl
@[simp] theorem uBoot_tows (s : State) (f : Boot → Boot) : (uBoot s f).tows = s.tows := rfl
@[simp] theorem uBoot_flights (s : State) (f : Boot → Boot) : (uBoot s f).flights = s.flights := rfl
@[simp] theorem uBoot_codecWait (s : State) (f : Boot → Boot) : (uBoot s f).codecWait = s.codecWait := rfl
@[simp] theorem uBoot_lanes (s : State) (f : Boot → Boot) : (uBoot s f).lanes = s.lanes := rfl
@[simp] theorem uBoot_harts (s : State) (f : Boot → Boot) : (uBoot s f).harts = s.harts := rfl
@[simp] theorem uBoot_ports (s : State) (f : Boot → Boot) : (uBoot s f).ports = s.ports := rfl
@[simp] theorem uBoot_rtxs (s : State) (f : Boot → Boot) : (uBoot s f).rtxs = s.rtxs := rfl
@[simp] theorem uBoot_reach (s : State) (f : Boot → Boot) : (uBoot s f).reach = s.reach := rfl
@[simp] theorem uBoot_faults (s : State) (f : Boot → Boot) : (uBoot s f).faults = s.faults := rfl
@[simp] theorem uBoot_mem (s : State) (f : Boot → Boot) : (uBoot s f).mem = s.mem := rfl

/-! ## useFree -/

@[simp] theorem useFree_pending (s : State) : (useFree s).pending = s.pending := rfl
@[simp] theorem useFree_nextId (s : State) : (useFree s).nextId = s.nextId := rfl
@[simp] theorem useFree_rid (s : State) : (useFree s).rid = s.rid := rfl
@[simp] theorem useFree_racc (s : State) : (useFree s).racc = s.racc := rfl
@[simp] theorem useFree_out (s : State) : (useFree s).out = s.out := rfl
@[simp] theorem useFree_boot (s : State) : (useFree s).boot = s.boot := rfl
@[simp] theorem useFree_otp (s : State) : (useFree s).otp = s.otp := rfl
@[simp] theorem useFree_cfg (s : State) : (useFree s).cfg = s.cfg := rfl
@[simp] theorem useFree_tick (s : State) : (useFree s).tick = s.tick := rfl
@[simp] theorem useFree_rot (s : State) : (useFree s).rot = s.rot := rfl
@[simp] theorem useFree_pm (s : State) : (useFree s).pm = s.pm := rfl
@[simp] theorem useFree_wake (s : State) : (useFree s).wake = s.wake := rfl
@[simp] theorem useFree_gov (s : State) : (useFree s).gov = s.gov := rfl
@[simp] theorem useFree_fw (s : State) : (useFree s).fw = s.fw := rfl
@[simp] theorem useFree_sec (s : State) : (useFree s).sec = s.sec := rfl
@[simp] theorem useFree_hi (s : State) : (useFree s).hi = s.hi := rfl
@[simp] theorem useFree_mgmt (s : State) : (useFree s).mgmt = s.mgmt := rfl
@[simp] theorem useFree_sysTrig (s : State) : (useFree s).sysTrig = s.sysTrig := rfl
@[simp] theorem useFree_fns (s : State) : (useFree s).fns = s.fns := rfl
@[simp] theorem useFree_ctxs (s : State) : (useFree s).ctxs = s.ctxs := rfl
@[simp] theorem useFree_threads (s : State) : (useFree s).threads = s.threads := rfl
@[simp] theorem useFree_turn (s : State) : (useFree s).turn = s.turn := rfl
@[simp] theorem useFree_barriers (s : State) : (useFree s).barriers = s.barriers := rfl
@[simp] theorem useFree_ops (s : State) : (useFree s).ops = s.ops := rfl
@[simp] theorem useFree_units (s : State) : (useFree s).units = s.units := rfl
@[simp] theorem useFree_amu (s : State) : (useFree s).amu = s.amu := rfl
@[simp] theorem useFree_queues (s : State) : (useFree s).queues = s.queues := rfl
@[simp] theorem useFree_tows (s : State) : (useFree s).tows = s.tows := rfl
@[simp] theorem useFree_flights (s : State) : (useFree s).flights = s.flights := rfl
@[simp] theorem useFree_codecWait (s : State) : (useFree s).codecWait = s.codecWait := rfl
@[simp] theorem useFree_lanes (s : State) : (useFree s).lanes = s.lanes := rfl
@[simp] theorem useFree_harts (s : State) : (useFree s).harts = s.harts := rfl
@[simp] theorem useFree_ports (s : State) : (useFree s).ports = s.ports := rfl
@[simp] theorem useFree_rtxs (s : State) : (useFree s).rtxs = s.rtxs := rfl
@[simp] theorem useFree_reach (s : State) : (useFree s).reach = s.reach := rfl
@[simp] theorem useFree_faults (s : State) : (useFree s).faults = s.faults := rfl
@[simp] theorem useFree_mem (s : State) : (useFree s).mem = s.mem := rfl

/-! ## Reading back -/

@[simp] theorem gCtx_uCtx (s : State) (a b : Nat) (f : Ctx → Ctx) : gCtx (uCtx s a f) b = if a = b then f (gCtx s a) else gCtx s b := by
  simp [gCtx, uCtx]
@[simp] theorem gFn_uFn (s : State) (a b : Nat) (f : Fn → Fn) : gFn (uFn s a f) b = if a = b then f (gFn s a) else gFn s b := by
  simp [gFn, uFn]
@[simp] theorem gPort_uPort (s : State) (a b : Nat) (f : Port → Port) : gPort (uPort s a f) b = if a = b then f (gPort s a) else gPort s b := by
  simp [gPort, uPort]
@[simp] theorem gHart_uHart (s : State) (a b : Nat) (f : Hart → Hart) : gHart (uHart s a f) b = if a = b then f (gHart s a) else gHart s b := by
  simp [gHart, uHart]
@[simp] theorem gQueue_uQueue (s : State) (a b : Nat) (f : BQueue → BQueue) : gQueue (uQueue s a f) b = if a = b then f (gQueue s a) else gQueue s b := by
  simp [gQueue, uQueue]
@[simp] theorem gUnit_uUnit (s : State) (a b : Nat) (f : UnitQ → UnitQ) : gUnit (uUnit s a f) b = if a = b then f (gUnit s a) else gUnit s b := by
  simp [gUnit, uUnit]
@[simp] theorem gLane_uLane (s : State) (a b : Nat) (f : Lane → Lane) : gLane (uLane s a f) b = if a = b then f (gLane s a) else gLane s b := by
  simp [gLane, uLane]
@[simp] theorem gTh_uTh (s : State) (a b : Nat) (f : Thread → Thread) : gTh (uTh s a f) b = if a = b then f (gTh s a) else gTh s b := by
  simp [gTh, uTh]
@[simp] theorem gStack_uStack (s : State) (a b : Nat) (f : Stack → Stack) : gStack (uStack s a f) b = if a = b then f (gStack s a) else gStack s b := by
  simp [gStack, uStack]

@[simp] theorem gFn_uCtx (s : State) (a b : Nat) (f : Ctx → Ctx) : gFn (uCtx s a f) b = gFn s b := rfl
@[simp] theorem gPort_uCtx (s : State) (a b : Nat) (f : Ctx → Ctx) : gPort (uCtx s a f) b = gPort s b := rfl
@[simp] theorem gHart_uCtx (s : State) (a b : Nat) (f : Ctx → Ctx) : gHart (uCtx s a f) b = gHart s b := rfl
@[simp] theorem gTh_uCtx (s : State) (a b : Nat) (f : Ctx → Ctx) : gTh (uCtx s a f) b = gTh s b := rfl
@[simp] theorem gQueue_uCtx (s : State) (a b : Nat) (f : Ctx → Ctx) : gQueue (uCtx s a f) b = gQueue s b := rfl
@[simp] theorem gUnit_uCtx (s : State) (a b : Nat) (f : Ctx → Ctx) : gUnit (uCtx s a f) b = gUnit s b := rfl
@[simp] theorem gLane_uCtx (s : State) (a b : Nat) (f : Ctx → Ctx) : gLane (uCtx s a f) b = gLane s b := rfl
@[simp] theorem gCtx_uFn (s : State) (a b : Nat) (f : Fn → Fn) : gCtx (uFn s a f) b = gCtx s b := rfl
@[simp] theorem gPort_uFn (s : State) (a b : Nat) (f : Fn → Fn) : gPort (uFn s a f) b = gPort s b := rfl
@[simp] theorem gHart_uFn (s : State) (a b : Nat) (f : Fn → Fn) : gHart (uFn s a f) b = gHart s b := rfl
@[simp] theorem gTh_uFn (s : State) (a b : Nat) (f : Fn → Fn) : gTh (uFn s a f) b = gTh s b := rfl
@[simp] theorem gQueue_uFn (s : State) (a b : Nat) (f : Fn → Fn) : gQueue (uFn s a f) b = gQueue s b := rfl
@[simp] theorem gUnit_uFn (s : State) (a b : Nat) (f : Fn → Fn) : gUnit (uFn s a f) b = gUnit s b := rfl
@[simp] theorem gLane_uFn (s : State) (a b : Nat) (f : Fn → Fn) : gLane (uFn s a f) b = gLane s b := rfl
@[simp] theorem gCtx_uPort (s : State) (a b : Nat) (f : Port → Port) : gCtx (uPort s a f) b = gCtx s b := rfl
@[simp] theorem gFn_uPort (s : State) (a b : Nat) (f : Port → Port) : gFn (uPort s a f) b = gFn s b := rfl
@[simp] theorem gHart_uPort (s : State) (a b : Nat) (f : Port → Port) : gHart (uPort s a f) b = gHart s b := rfl
@[simp] theorem gTh_uPort (s : State) (a b : Nat) (f : Port → Port) : gTh (uPort s a f) b = gTh s b := rfl
@[simp] theorem gQueue_uPort (s : State) (a b : Nat) (f : Port → Port) : gQueue (uPort s a f) b = gQueue s b := rfl
@[simp] theorem gUnit_uPort (s : State) (a b : Nat) (f : Port → Port) : gUnit (uPort s a f) b = gUnit s b := rfl
@[simp] theorem gLane_uPort (s : State) (a b : Nat) (f : Port → Port) : gLane (uPort s a f) b = gLane s b := rfl
@[simp] theorem gCtx_uHart (s : State) (a b : Nat) (f : Hart → Hart) : gCtx (uHart s a f) b = gCtx s b := rfl
@[simp] theorem gFn_uHart (s : State) (a b : Nat) (f : Hart → Hart) : gFn (uHart s a f) b = gFn s b := rfl
@[simp] theorem gPort_uHart (s : State) (a b : Nat) (f : Hart → Hart) : gPort (uHart s a f) b = gPort s b := rfl
@[simp] theorem gTh_uHart (s : State) (a b : Nat) (f : Hart → Hart) : gTh (uHart s a f) b = gTh s b := rfl
@[simp] theorem gQueue_uHart (s : State) (a b : Nat) (f : Hart → Hart) : gQueue (uHart s a f) b = gQueue s b := rfl
@[simp] theorem gUnit_uHart (s : State) (a b : Nat) (f : Hart → Hart) : gUnit (uHart s a f) b = gUnit s b := rfl
@[simp] theorem gLane_uHart (s : State) (a b : Nat) (f : Hart → Hart) : gLane (uHart s a f) b = gLane s b := rfl
@[simp] theorem gCtx_uTh (s : State) (a b : Nat) (f : Thread → Thread) : gCtx (uTh s a f) b = gCtx s b := rfl
@[simp] theorem gFn_uTh (s : State) (a b : Nat) (f : Thread → Thread) : gFn (uTh s a f) b = gFn s b := rfl
@[simp] theorem gPort_uTh (s : State) (a b : Nat) (f : Thread → Thread) : gPort (uTh s a f) b = gPort s b := rfl
@[simp] theorem gHart_uTh (s : State) (a b : Nat) (f : Thread → Thread) : gHart (uTh s a f) b = gHart s b := rfl
@[simp] theorem gQueue_uTh (s : State) (a b : Nat) (f : Thread → Thread) : gQueue (uTh s a f) b = gQueue s b := rfl
@[simp] theorem gUnit_uTh (s : State) (a b : Nat) (f : Thread → Thread) : gUnit (uTh s a f) b = gUnit s b := rfl
@[simp] theorem gLane_uTh (s : State) (a b : Nat) (f : Thread → Thread) : gLane (uTh s a f) b = gLane s b := rfl
@[simp] theorem gCtx_uQueue (s : State) (a b : Nat) (f : BQueue → BQueue) : gCtx (uQueue s a f) b = gCtx s b := rfl
@[simp] theorem gFn_uQueue (s : State) (a b : Nat) (f : BQueue → BQueue) : gFn (uQueue s a f) b = gFn s b := rfl
@[simp] theorem gPort_uQueue (s : State) (a b : Nat) (f : BQueue → BQueue) : gPort (uQueue s a f) b = gPort s b := rfl
@[simp] theorem gHart_uQueue (s : State) (a b : Nat) (f : BQueue → BQueue) : gHart (uQueue s a f) b = gHart s b := rfl
@[simp] theorem gTh_uQueue (s : State) (a b : Nat) (f : BQueue → BQueue) : gTh (uQueue s a f) b = gTh s b := rfl
@[simp] theorem gUnit_uQueue (s : State) (a b : Nat) (f : BQueue → BQueue) : gUnit (uQueue s a f) b = gUnit s b := rfl
@[simp] theorem gLane_uQueue (s : State) (a b : Nat) (f : BQueue → BQueue) : gLane (uQueue s a f) b = gLane s b := rfl
@[simp] theorem gCtx_uUnit (s : State) (a b : Nat) (f : UnitQ → UnitQ) : gCtx (uUnit s a f) b = gCtx s b := rfl
@[simp] theorem gFn_uUnit (s : State) (a b : Nat) (f : UnitQ → UnitQ) : gFn (uUnit s a f) b = gFn s b := rfl
@[simp] theorem gPort_uUnit (s : State) (a b : Nat) (f : UnitQ → UnitQ) : gPort (uUnit s a f) b = gPort s b := rfl
@[simp] theorem gHart_uUnit (s : State) (a b : Nat) (f : UnitQ → UnitQ) : gHart (uUnit s a f) b = gHart s b := rfl
@[simp] theorem gTh_uUnit (s : State) (a b : Nat) (f : UnitQ → UnitQ) : gTh (uUnit s a f) b = gTh s b := rfl
@[simp] theorem gQueue_uUnit (s : State) (a b : Nat) (f : UnitQ → UnitQ) : gQueue (uUnit s a f) b = gQueue s b := rfl
@[simp] theorem gLane_uUnit (s : State) (a b : Nat) (f : UnitQ → UnitQ) : gLane (uUnit s a f) b = gLane s b := rfl
@[simp] theorem gCtx_uLane (s : State) (a b : Nat) (f : Lane → Lane) : gCtx (uLane s a f) b = gCtx s b := rfl
@[simp] theorem gFn_uLane (s : State) (a b : Nat) (f : Lane → Lane) : gFn (uLane s a f) b = gFn s b := rfl
@[simp] theorem gPort_uLane (s : State) (a b : Nat) (f : Lane → Lane) : gPort (uLane s a f) b = gPort s b := rfl
@[simp] theorem gHart_uLane (s : State) (a b : Nat) (f : Lane → Lane) : gHart (uLane s a f) b = gHart s b := rfl
@[simp] theorem gTh_uLane (s : State) (a b : Nat) (f : Lane → Lane) : gTh (uLane s a f) b = gTh s b := rfl
@[simp] theorem gQueue_uLane (s : State) (a b : Nat) (f : Lane → Lane) : gQueue (uLane s a f) b = gQueue s b := rfl
@[simp] theorem gUnit_uLane (s : State) (a b : Nat) (f : Lane → Lane) : gUnit (uLane s a f) b = gUnit s b := rfl
@[simp] theorem gCtx_uStack (s : State) (n : Nat) (f : Stack → Stack) (b : Nat) : gCtx (uStack s n f) b = gCtx s b := rfl
@[simp] theorem gFn_uStack (s : State) (n : Nat) (f : Stack → Stack) (b : Nat) : gFn (uStack s n f) b = gFn s b := rfl
@[simp] theorem gPort_uStack (s : State) (n : Nat) (f : Stack → Stack) (b : Nat) : gPort (uStack s n f) b = gPort s b := rfl
@[simp] theorem gHart_uStack (s : State) (n : Nat) (f : Stack → Stack) (b : Nat) : gHart (uStack s n f) b = gHart s b := rfl
@[simp] theorem gTh_uStack (s : State) (n : Nat) (f : Stack → Stack) (b : Nat) : gTh (uStack s n f) b = gTh s b := rfl
@[simp] theorem gQueue_uStack (s : State) (n : Nat) (f : Stack → Stack) (b : Nat) : gQueue (uStack s n f) b = gQueue s b := rfl
@[simp] theorem gUnit_uStack (s : State) (n : Nat) (f : Stack → Stack) (b : Nat) : gUnit (uStack s n f) b = gUnit s b := rfl
@[simp] theorem gLane_uStack (s : State) (n : Nat) (f : Stack → Stack) (b : Nat) : gLane (uStack s n f) b = gLane s b := rfl
@[simp] theorem gCtx_uMem (s : State) (f : Mem → Mem) (b : Nat) : gCtx (uMem s f) b = gCtx s b := rfl
@[simp] theorem gFn_uMem (s : State) (f : Mem → Mem) (b : Nat) : gFn (uMem s f) b = gFn s b := rfl
@[simp] theorem gPort_uMem (s : State) (f : Mem → Mem) (b : Nat) : gPort (uMem s f) b = gPort s b := rfl
@[simp] theorem gHart_uMem (s : State) (f : Mem → Mem) (b : Nat) : gHart (uMem s f) b = gHart s b := rfl
@[simp] theorem gTh_uMem (s : State) (f : Mem → Mem) (b : Nat) : gTh (uMem s f) b = gTh s b := rfl
@[simp] theorem gQueue_uMem (s : State) (f : Mem → Mem) (b : Nat) : gQueue (uMem s f) b = gQueue s b := rfl
@[simp] theorem gUnit_uMem (s : State) (f : Mem → Mem) (b : Nat) : gUnit (uMem s f) b = gUnit s b := rfl
@[simp] theorem gLane_uMem (s : State) (f : Mem → Mem) (b : Nat) : gLane (uMem s f) b = gLane s b := rfl
@[simp] theorem gCtx_emit (s : State) (o : Out) (b : Nat) : gCtx (emit s o) b = gCtx s b := rfl
@[simp] theorem gFn_emit (s : State) (o : Out) (b : Nat) : gFn (emit s o) b = gFn s b := rfl
@[simp] theorem gPort_emit (s : State) (o : Out) (b : Nat) : gPort (emit s o) b = gPort s b := rfl
@[simp] theorem gHart_emit (s : State) (o : Out) (b : Nat) : gHart (emit s o) b = gHart s b := rfl
@[simp] theorem gTh_emit (s : State) (o : Out) (b : Nat) : gTh (emit s o) b = gTh s b := rfl
@[simp] theorem gQueue_emit (s : State) (o : Out) (b : Nat) : gQueue (emit s o) b = gQueue s b := rfl
@[simp] theorem gUnit_emit (s : State) (o : Out) (b : Nat) : gUnit (emit s o) b = gUnit s b := rfl
@[simp] theorem gLane_emit (s : State) (o : Out) (b : Nat) : gLane (emit s o) b = gLane s b := rfl
@[simp] theorem gCtx_uWake (s : State) (f : Wake → Wake) (b : Nat) : gCtx (uWake s f) b = gCtx s b := rfl
@[simp] theorem gFn_uWake (s : State) (f : Wake → Wake) (b : Nat) : gFn (uWake s f) b = gFn s b := rfl
@[simp] theorem gPort_uWake (s : State) (f : Wake → Wake) (b : Nat) : gPort (uWake s f) b = gPort s b := rfl
@[simp] theorem gHart_uWake (s : State) (f : Wake → Wake) (b : Nat) : gHart (uWake s f) b = gHart s b := rfl
@[simp] theorem gTh_uWake (s : State) (f : Wake → Wake) (b : Nat) : gTh (uWake s f) b = gTh s b := rfl
@[simp] theorem gQueue_uWake (s : State) (f : Wake → Wake) (b : Nat) : gQueue (uWake s f) b = gQueue s b := rfl
@[simp] theorem gUnit_uWake (s : State) (f : Wake → Wake) (b : Nat) : gUnit (uWake s f) b = gUnit s b := rfl
@[simp] theorem gLane_uWake (s : State) (f : Wake → Wake) (b : Nat) : gLane (uWake s f) b = gLane s b := rfl
@[simp] theorem gCtx_uBoot (s : State) (f : Boot → Boot) (b : Nat) : gCtx (uBoot s f) b = gCtx s b := rfl
@[simp] theorem gFn_uBoot (s : State) (f : Boot → Boot) (b : Nat) : gFn (uBoot s f) b = gFn s b := rfl
@[simp] theorem gPort_uBoot (s : State) (f : Boot → Boot) (b : Nat) : gPort (uBoot s f) b = gPort s b := rfl
@[simp] theorem gHart_uBoot (s : State) (f : Boot → Boot) (b : Nat) : gHart (uBoot s f) b = gHart s b := rfl
@[simp] theorem gTh_uBoot (s : State) (f : Boot → Boot) (b : Nat) : gTh (uBoot s f) b = gTh s b := rfl
@[simp] theorem gQueue_uBoot (s : State) (f : Boot → Boot) (b : Nat) : gQueue (uBoot s f) b = gQueue s b := rfl
@[simp] theorem gUnit_uBoot (s : State) (f : Boot → Boot) (b : Nat) : gUnit (uBoot s f) b = gUnit s b := rfl
@[simp] theorem gLane_uBoot (s : State) (f : Boot → Boot) (b : Nat) : gLane (uBoot s f) b = gLane s b := rfl
@[simp] theorem gCtx_useFree (s : State) (b : Nat) : gCtx (useFree s) b = gCtx s b := rfl
@[simp] theorem gFn_useFree (s : State) (b : Nat) : gFn (useFree s) b = gFn s b := rfl
@[simp] theorem gPort_useFree (s : State) (b : Nat) : gPort (useFree s) b = gPort s b := rfl
@[simp] theorem gHart_useFree (s : State) (b : Nat) : gHart (useFree s) b = gHart s b := rfl
@[simp] theorem gTh_useFree (s : State) (b : Nat) : gTh (useFree s) b = gTh s b := rfl
@[simp] theorem gQueue_useFree (s : State) (b : Nat) : gQueue (useFree s) b = gQueue s b := rfl
@[simp] theorem gUnit_useFree (s : State) (b : Nat) : gUnit (useFree s) b = gUnit s b := rfl
@[simp] theorem gLane_useFree (s : State) (b : Nat) : gLane (useFree s) b = gLane s b := rfl

end Sys2Proof.Machine
end

