-- ==== Sys2Proof/Laws/Memory.lean ====
section
/-! SUPPORT. Memory keeps its canonical form: every operation on memory keeps Memory.wf, and the operations of Machine/Base.lean leave memory
alone. -/

set_option linter.unusedSimpArgs false

namespace Sys2Proof.Machine

/-! ## What leaves memory alone -/

@[simp] theorem driveMain_mem (s : State) (b : Bool) : (driveMain s b).mem = s.mem := by unfold driveMain; split <;> rfl
@[simp] theorem logRec_mem (s : State) (tp core cl sev : Nat) (a b : Word) : (logRec s tp core cl sev a b).mem = s.mem := by
  unfold logRec; dsimp only; split <;> rfl
@[simp] theorem collideRec_mem (s : State) (a b : Nat) : (collideRec s a b).mem = s.mem := by simp [collideRec]
@[simp] theorem raiseVec_mem (s : State) (f v : Nat) : (raiseVec s f v).mem = s.mem := by
  unfold raiseVec; dsimp only; split; rfl; split <;> rfl
@[simp] theorem raiseCtx_mem (s : State) (n v : Nat) : (raiseCtx s n v).mem = s.mem := by unfold raiseCtx; split <;> simp
@[simp] theorem setSt_mem (s : State) (n : Nat) (st : CtxState) : (setSt s n st).mem = s.mem := by
  unfold setSt; split; rfl; dsimp only; split <;> simp
@[simp] theorem faultAtTick_mem (s : State) (n : Nat) (c : Code) : (faultAtTick s n c).mem = s.mem := rfl
@[simp] theorem flushCq_mem (s : State) (n k : Nat) : (flushCq s n k).mem = s.mem := by
  induction k generalizing s with
  | zero => rfl
  | succ k ih =>
    unfold flushCq
    split
    · dsimp only; split
      · rfl
      · rw [ih]; simp
    · rfl
@[simp] theorem pushCqe_mem (s : State) (n : Nat) (c : Cqe) : (pushCqe s n c).mem = s.mem := by simp [pushCqe]
@[simp] theorem completeEntry_mem (s : State) (n : Nat) (e : SqEntry) (c : Code) (t : Bytes) (w : Word) :
    (completeEntry s n e c t w).mem = s.mem := by simp [completeEntry]
@[simp] theorem failEntries_mem (s : State) (n : Nat) (c : Code) (l : List SqEntry) : (failEntries s n c l).mem = s.mem := by
  induction l generalizing s with
  | nil => rfl
  | cons e r ih => unfold failEntries; rw [ih]; simp
@[simp] theorem discardAgents_mem (s : State) (n : Nat) : (discardAgents s n).mem = s.mem := by
  unfold discardAgents; dsimp only; split <;> rfl
@[simp] theorem enterFaulted_mem (s : State) (n : Nat) (c : Code) : (enterFaulted s n c).mem = s.mem := by
  unfold enterFaulted; split; rfl; simp
@[simp] theorem preempt_mem (s : State) (n : Nat) : (preempt s n).mem = s.mem := by unfold preempt; split <;> rfl
@[simp] theorem securityEvent_mem (s : State) (n k : Nat) : (securityEvent s n k).mem = s.mem := by
  unfold securityEvent; dsimp only; (repeat' split) <;> simp
@[simp] theorem leaveReachCore_mem (s : State) : (leaveReachCore s).mem = s.mem := by unfold leaveReachCore; split <;> simp
@[simp] theorem faultAll_mem (s : State) (c : Code) : (faultAll s c).mem = s.mem := by
  unfold faultAll
  generalize List.range 64 = l
  induction l generalizing s with
  | nil => rfl
  | cons n r ih => rw [List.foldl_cons, ih]; simp
@[simp] theorem commitFail_mem (s : State) : (commitFail s).mem = s.mem := by unfold commitFail; split <;> rfl
@[simp] theorem goOffline_mem (s : State) : (goOffline s).mem = s.mem := by simp [goOffline]
@[simp] theorem dropRecord_mem (s : State) (n : Nat) : (dropRecord s n).mem = s.mem := rfl

/-! ## What keeps the canonical form -/

theorem Memory.wf_iff (m : Mem) : Memory.wf m = true ↔
    Tab.wf 0 m.hbm = true ∧ Tab.wf false m.taint = true ∧ Tab.wf 0 m.lineErr = true ∧ Tab.wf false m.noResp = true ∧ Tab.wf 0 m.own = true ∧
    Tab.wf 0 m.pte = true ∧ Tab.wf 0 m.tables = true ∧ Tab.wf {} m.stks = true ∧ Tab.wf 0 m.cmem = true ∧ Tab.wf {} m.cline = true ∧
    Tab.wf false m.cmemErr = true ∧ Tab.wf 0 m.cmemUe = true := by
  simp only [Memory.wf, Bool.and_eq_true, and_assoc]

/-- State.reset's memory has the form. -/
theorem Memory.wf_reset : Memory.wf State.reset.mem = true := rfl

theorem Memory.wf_stacks (m : Mem) (n : Nat) (f : Stack → Stack) (h : Memory.wf m = true) :
    Memory.wf { m with stks := Tab.modify {} m.stks n f } = true := by
  simp_all [Memory.wf_iff, Tab.wf_set, Tab.wf_clear, Tab.wf_setMany, Tab.wf_modify]
theorem Memory.wf_noResp (m : Mem) (l : Nat) (x : Bool) (h : Memory.wf m = true) :
    Memory.wf { m with noResp := Tab.set false m.noResp l x } = true := by
  simp_all [Memory.wf_iff, Tab.wf_set, Tab.wf_clear, Tab.wf_setMany, Tab.wf_modify]
theorem Memory.wf_lineErr (m : Mem) (l : Nat) (x : Nat) (h : Memory.wf m = true) :
    Memory.wf { m with lineErr := Tab.set 0 m.lineErr l x } = true := by
  simp_all [Memory.wf_iff, Tab.wf_set, Tab.wf_clear, Tab.wf_setMany, Tab.wf_modify]
theorem Memory.wf_taint (m : Mem) (l : Nat) (x : Bool) (h : Memory.wf m = true) :
    Memory.wf { m with taint := Tab.set false m.taint l x } = true := by
  simp_all [Memory.wf_iff, Tab.wf_set, Tab.wf_clear, Tab.wf_setMany, Tab.wf_modify]
theorem Memory.wf_hbm_clear (m : Mem) (lo hi : Nat) (h : Memory.wf m = true) :
    Memory.wf { m with hbm := Tab.clear m.hbm lo hi } = true := by
  simp_all [Memory.wf_iff, Tab.wf_set, Tab.wf_clear, Tab.wf_setMany, Tab.wf_modify]
theorem Memory.wf_line (m : Mem) (a l : Nat) (b : Bytes) (x : Bool) (e : Nat) (h : Memory.wf m = true) :
    Memory.wf { m with hbm := Tab.setMany 0 m.hbm a b, taint := Tab.set false m.taint l x, lineErr := Tab.set 0 m.lineErr l e } = true := by
  simp_all [Memory.wf_iff, Tab.wf_set, Tab.wf_clear, Tab.wf_setMany, Tab.wf_modify]
theorem Memory.wf_part (m : Mem) (a l : Nat) (b : Bytes) (x : Bool) (h : Memory.wf m = true) :
    Memory.wf { m with hbm := Tab.setMany 0 m.hbm a b, taint := Tab.set false m.taint l x } = true := by
  simp_all [Memory.wf_iff, Tab.wf_set, Tab.wf_clear, Tab.wf_setMany, Tab.wf_modify]
theorem Memory.wf_zero (m : Mem) (lo hi lo' hi' : Nat) (h : Memory.wf m = true) :
    Memory.wf { m with hbm := Tab.clear m.hbm lo hi, taint := Tab.clear m.taint lo' hi', lineErr := Tab.clear m.lineErr lo' hi' } = true := by
  simp_all [Memory.wf_iff, Tab.wf_set, Tab.wf_clear, Tab.wf_setMany, Tab.wf_modify]
theorem Memory.wf_pte (m : Mem) (k : Nat) (e : Word) (h : Memory.wf m = true) :
    Memory.wf { m with pte := Tab.set 0 m.pte k e } = true := by
  simp_all [Memory.wf_iff, Tab.wf_set, Tab.wf_clear, Tab.wf_setMany, Tab.wf_modify]
theorem Memory.wf_tables (m : Mem) (k v : Nat) (h : Memory.wf m = true) :
    Memory.wf { m with tables := Tab.set 0 m.tables k v } = true := by
  simp_all [Memory.wf_iff, Tab.wf_set, Tab.wf_clear, Tab.wf_setMany, Tab.wf_modify]
theorem Memory.wf_clError (m : Mem) (l cl : Nat) (f : Nat → Nat) (g : LineBits → LineBits) (h : Memory.wf m = true) :
    Memory.wf { m with cmemErr := Tab.set false m.cmemErr l false, cmemUe := Tab.modify 0 m.cmemUe cl f, cline := Tab.modify {} m.cline l g } = true := by
  simp_all [Memory.wf_iff, Tab.wf_set, Tab.wf_clear, Tab.wf_setMany, Tab.wf_modify]
theorem Memory.wf_clLine (m : Mem) (l : Nat) (x : LineBits) (h : Memory.wf m = true) :
    Memory.wf { m with cline := Tab.set {} m.cline l x } = true := by
  simp_all [Memory.wf_iff, Tab.wf_set, Tab.wf_clear, Tab.wf_setMany, Tab.wf_modify]
theorem Memory.wf_cmem_clear (m : Mem) (lo hi : Nat) (h : Memory.wf m = true) :
    Memory.wf { m with cmem := Tab.clear m.cmem lo hi } = true := by
  simp_all [Memory.wf_iff, Tab.wf_set, Tab.wf_clear, Tab.wf_setMany, Tab.wf_modify]
theorem Memory.wf_clFull (m : Mem) (k l : Nat) (b : Bytes) (x : LineBits) (h : Memory.wf m = true) :
    Memory.wf { m with cmem := Tab.setMany 0 m.cmem k b, cmemErr := Tab.set false m.cmemErr l false, cline := Tab.set {} m.cline l x } = true := by
  simp_all [Memory.wf_iff, Tab.wf_set, Tab.wf_clear, Tab.wf_setMany, Tab.wf_modify]
theorem Memory.wf_clPart (m : Mem) (k l : Nat) (b : Bytes) (x : LineBits) (h : Memory.wf m = true) :
    Memory.wf { m with cmem := Tab.setMany 0 m.cmem k b, cline := Tab.set {} m.cline l x } = true := by
  simp_all [Memory.wf_iff, Tab.wf_set, Tab.wf_clear, Tab.wf_setMany, Tab.wf_modify]

theorem uStack_wf (s : State) (n : Nat) (f : Stack → Stack) (h : Memory.wf s.mem = true) : Memory.wf (uStack s n f).mem = true := by
  exact Memory.wf_stacks _ _ _ h

theorem stackOk_wf (s : State) (l : Nat) (h : Memory.wf s.mem = true) : Memory.wf (stackOk s l).mem = true := by
  unfold stackOk; split; exact h; exact uStack_wf _ _ _ h

theorem stackTimeout_wf (s : State) (l : Nat) (h : Memory.wf s.mem = true) : Memory.wf (stackTimeout s l).mem = true := by
  have h' : Memory.wf (uMem (uStack s (stackOf (64 * l)) (fun x => { x with tmoRun := x.tmoRun + 1 }))
      (fun m => { m with noResp := Tab.set false m.noResp l false })).mem = true := by
    exact Memory.wf_noResp _ _ _ (uStack_wf s _ _ h)
  unfold stackTimeout; dsimp only; split
  · rw [goOffline_mem]; exact h'
  · exact h'

theorem settleLine_wf (s : State) (n l : Nat) (h : Memory.wf s.mem = true) : Memory.wf (settleLine s n l).mem = true := by
  unfold settleLine
  split
  · exact h
  · have h1 : Memory.wf (uMem s (fun m => { m with lineErr := Tab.set 0 m.lineErr l 0 })).mem = true := by
      exact Memory.wf_lineErr _ _ _ h
    dsimp only
    split
    · exact uStack_wf _ _ _ h1
    · have h2 : Memory.wf (uMem (uMem s (fun m => { m with lineErr := Tab.set 0 m.lineErr l 0 }))
          (fun m => { m with taint := Tab.set false m.taint l true })).mem = true := by
        exact Memory.wf_taint _ _ _ h1
      split
      · exact uStack_wf _ _ _ h2
      · rw [securityEvent_mem]
        refine uStack_wf _ _ _ ?_
        exact Memory.wf_hbm_clear _ _ _ h2

theorem hbmPiece_wf (s : State) (n a k : Nat) (h : Memory.wf s.mem = true) : Memory.wf (hbmPiece s n a k).2.2.mem = true := by
  unfold hbmPiece; dsimp only; split
  · exact stackTimeout_wf _ _ (uStack_wf _ _ _ h)
  · exact settleLine_wf _ _ _ (stackOk_wf _ _ h)

theorem hbmRead_wf (s : State) (n a k : Nat) (h : Memory.wf s.mem = true) : Memory.wf (hbmRead s n a k).2.2.mem = true := by
  unfold hbmRead
  generalize cut 64 a k = l
  suffices hs : ∀ acc : Bytes × Bool × State, Memory.wf acc.2.2.mem = true →
      Memory.wf (l.foldl (fun (b, t, s) p => let (b', t', s) := hbmPiece s n p.1 p.2; (b ++ b', t || t', s)) acc).2.2.mem = true from hs _ h
  induction l with
  | nil => exact fun _ h => h
  | cons p r ih => exact fun acc h => ih _ (hbmPiece_wf acc.2.2 n p.1 p.2 h)

theorem hbmWritePiece_wf (s : State) (n a : Nat) (b : Bytes) (t : Bool) (h : Memory.wf s.mem = true) :
    Memory.wf (hbmWritePiece s n a b t).mem = true := by
  unfold hbmWritePiece; dsimp only; split
  · exact stackTimeout_wf _ _ h
  · split
    · exact Memory.wf_line _ _ _ _ _ _ (stackOk_wf s (a / 64) h)
    · exact Memory.wf_part _ _ _ _ _ (settleLine_wf _ n (a / 64) (stackOk_wf s (a / 64) h))

theorem hbmWrite_wf (s : State) (n a : Nat) (b : Bytes) (t : Bool) (h : Memory.wf s.mem = true) :
    Memory.wf (hbmWrite s n a b t).1.mem = true := by
  unfold hbmWrite
  generalize cut 64 a b.length = l
  suffices hs : ∀ acc : State × Bool, Memory.wf acc.1.mem = true →
      Memory.wf (l.foldl (fun (s, lost) p =>
        let line := p.1 / 64
        let gone := Tab.get false s.mem.noResp line
        (hbmWritePiece s n p.1 (slice b (p.1 - a) p.2) t, lost || gone)) acc).1.mem = true from hs _ h
  induction l with
  | nil => exact fun _ h => h
  | cons p r ih => exact fun acc h => ih _ (hbmWritePiece_wf acc.1 n p.1 _ t h)

theorem hbmZero_wf (s : State) (lo hi : Nat) (h : Memory.wf s.mem = true) : Memory.wf (hbmZero s lo hi).mem = true :=
  Memory.wf_zero _ _ _ _ _ h

theorem setPte_wf (s : State) (k : Nat) (e : Word) (h : Memory.wf s.mem = true) : Memory.wf (setPte s k e).mem = true :=
  Memory.wf_pte _ _ _ h

theorem touchLeaf_wf (s : State) (x : Xl) (w : Bool) (h : Memory.wf s.mem = true) : Memory.wf (touchLeaf s x w).mem = true :=
  setPte_wf _ _ _ h

theorem fillHole_wf (s : State) (x : Xl) (va : Nat) (h : Memory.wf s.mem = true) : Memory.wf (fillHole s x va).mem = true := by
  unfold fillHole; split
  · exact setPte_wf _ _ _ (hbmZero_wf _ _ _ h)
  · exact h

theorem clWritePiece_wf (m : Mem) (k : Nat) (b : Bytes) (t : Bool) (h : Memory.wf m = true) : Memory.wf (clWritePiece m k b t) = true := by
  unfold clWritePiece; dsimp only
  have h' : Memory.wf (if (Tab.get {} m.cline (k / 64)).written = true then m
      else { m with cmem := Tab.clear m.cmem (64 * (k / 64)) (64 * (k / 64) + 64) }) = true := by
    split
    · exact h
    · exact Memory.wf_cmem_clear _ _ _ h
  generalize (if (Tab.get {} m.cline (k / 64)).written = true then m
      else { m with cmem := Tab.clear m.cmem (64 * (k / 64)) (64 * (k / 64) + 64) }) = m' at h'
  split
  · exact Memory.wf_clFull _ _ _ _ _ h'
  · exact Memory.wf_clPart _ _ _ _ _ h'

theorem clTaint_wf (m : Mem) (k : Nat) (h : Memory.wf m = true) : Memory.wf (clTaint m k) = true := by
  unfold clTaint; dsimp only
  split
  · exact Memory.wf_clLine _ _ _ h
  · exact Memory.wf_clLine _ _ _ (Memory.wf_cmem_clear _ _ _ h)

theorem clWrite_wf (s : State) (cl off : Nat) (b : Bytes) (t : Bool) (h : Memory.wf s.mem = true) : Memory.wf (clWrite s cl off b t).mem = true := by
  unfold clWrite
  show Memory.wf (List.foldl _ s.mem _) = true
  generalize cut 64 (clKey cl off) b.length = l
  generalize s.mem = m at h
  induction l generalizing m with
  | nil => exact h
  | cons p r ih => exact ih _ (clWritePiece_wf _ _ _ _ h)

/-- What each step of a fold keeps, the fold keeps. -/
theorem foldl_keeps {α β : Type} (P : β → Prop) (f : β → α → β) (hf : ∀ b a, P b → P (f b a)) (l : List α) (b : β) (h : P b) : P (l.foldl f b) := by
  induction l generalizing b with
  | nil => exact h
  | cons x r ih => exact ih _ (hf _ _ h)

theorem clRead_wf (s : State) (cl off k : Nat) (h : Memory.wf s.mem = true) : Memory.wf (clRead s cl off k).2.2.mem = true := by
  unfold clRead
  refine foldl_keeps (fun acc : Bytes × Bool × State => Memory.wf acc.2.2.mem = true) _ ?_ _ _ h
  rintro ⟨b, t, s⟩ p h
  have h' : Memory.wf (if Tab.get false s.mem.cmemErr (p.1 / 64) = true then
      uMem s (fun m => { m with
        cmemErr := Tab.set false m.cmemErr (p.1 / 64) false
        cmemUe := Tab.modify 0 m.cmemUe cl (· + 1)
        cline := Tab.modify {} m.cline (p.1 / 64) (fun l => { l with taint := true }) }) else s).mem = true := by
    split
    · exact Memory.wf_clError _ _ _ _ _ h
    · exact h
  dsimp only at h' ⊢
  generalize (if Tab.get false s.mem.cmemErr (p.1 / 64) = true then _ else s) = s' at h' ⊢
  split <;> exact h'

@[simp] theorem recordDone_mem (s : State) (n : Nat) : (recordDone s n).mem = s.mem := raiseCtx_mem _ _ _

theorem queueRecord_mem (s : State) (n : Nat) (ws : List Word) : (queueRecord s n ws).mem = s.mem := rfl

theorem recordAt_wf (s : State) (n : Nat) (ws : List Word) (x : Xl) (h : Memory.wf s.mem = true) : Memory.wf (recordAt s n ws x).mem = true := by
  unfold recordAt; dsimp only
  generalize recordBytes s n ws = b
  split; · rw [queueRecord_mem]; exact h
  split
  · split; · rw [dropRecord_mem]; exact h
    split; · rw [queueRecord_mem]; exact h
    split
    · rw [dropRecord_mem]; exact clRead_wf _ _ _ _ h
    · rw [recordDone_mem]; exact clWrite_wf _ _ _ _ _ (touchLeaf_wf _ _ _ (clRead_wf _ _ _ _ h))
  · split
    · rw [dropRecord_mem]; exact h
    · rw [recordDone_mem]; exact hbmWrite_wf _ _ _ _ _ (fillHole_wf _ _ _ (touchLeaf_wf _ _ _ h))

theorem putRecordWords_wf (s : State) (n : Nat) (ws : List Word) (h : Memory.wf s.mem = true) : Memory.wf (putRecordWords s n ws).mem = true := by
  unfold putRecordWords
  split; · rw [dropRecord_mem]; exact h
  split; · rw [queueRecord_mem]; exact h
  split
  · rw [dropRecord_mem]; exact h
  · exact recordAt_wf _ _ _ _ h

theorem writeRecord_wf (s : State) (ag : Agent) (c : Code) (k acc va : Nat) (h : Memory.wf s.mem = true) :
    Memory.wf (writeRecord s ag c k acc va).mem = true := putRecordWords_wf _ _ _ h

/-! ## Tables and ownership -/

theorem foldl_wf {α : Type} (f : State → α → State) (hf : ∀ s x, Memory.wf s.mem = true → Memory.wf (f s x).mem = true) (l : List α) (s : State)
    (h : Memory.wf s.mem = true) : Memory.wf (l.foldl f s).mem = true := by
  induction l generalizing s with
  | nil => exact h
  | cons x r ih => exact ih _ (hf _ _ h)

theorem addTables_wf (s : State) (n level va : Nat) (h : Memory.wf s.mem = true) : Memory.wf (addTables s n level va).mem = true := by
  unfold addTables
  refine foldl_wf _ (fun s x h => setPte_wf _ _ _ h) _ _ (foldl_wf _ (fun s x h => ?_) _ _ h)
  exact Memory.wf_tables _ _ _ h

theorem pruneTable_wf (s : State) (n level va : Nat) (h : Memory.wf s.mem = true) : Memory.wf (pruneTable s n level va).mem = true := by
  unfold pruneTable; split
  · exact Memory.wf_tables _ _ _ (setPte_wf s _ 0 h)
  · exact h

theorem setOwner_wf (s : State) (p k v : Nat) (h : Memory.wf s.mem = true) : Memory.wf (setOwner s p k v).mem = true := by
  have key : ∀ (l : List Nat) (t : Tab Nat), Tab.wf 0 t = true → Tab.wf 0 (l.foldl (fun t i => Tab.set 0 t i v) t) = true := by
    intro l
    induction l with
    | nil => exact fun _ h => h
    | cons x r ih => exact fun t h => ih _ (Tab.wf_set _ _ _ _ h)
  have h0 := (Memory.wf_iff _).mp h
  have h1 := key (rangeFrom p k) _ (Tab.wf_clear 0 s.mem.own p (p + k) h0.2.2.2.2.1)
  exact (Memory.wf_iff _).mpr ⟨h0.1, h0.2.1, h0.2.2.1, h0.2.2.2.1, h1, h0.2.2.2.2.2⟩

end Sys2Proof.Machine
end

