-- ==== Sys2Proof/Laws/Yoren.lean ====
section
/-! SUPPORT. How one slot operation issues: what the shared operations of spec/04_yoren_core.md can do, said once. -/

namespace Sys2Proof.Machine

theorem uTh_uTh (s : State) (k : Nat) (f g : Thread → Thread) (h : f (gTh s k) ≠ {}) :
    uTh (uTh s k f) k g = uTh s k (fun t => g (f t)) := by
  have h' : f (Tab.get {} s.threads k) ≠ {} := h
  simp only [uTh, Tab.modify, Tab.get_set_same]
  rw [Tab.set_set _ _ _ _ _ h']

/-- A thread whose bundle number has been advanced is not the thread of an unlisted key. -/
theorem Thread.ne_default_of_bundle (t : Thread) (h : t.bundle ≠ 0) : t ≠ {} := by
  intro e; subst e; exact h rfl

/-- A thread with a staged operation is not the thread of an unlisted key. -/
theorem Thread.ne_default_of_staged (t : Thread) (h : t.staged ≠ []) : t ≠ {} := by
  intro e; subst e; exact h rfl

@[simp] theorem applyW_pc (t : Thread) (w : RegW) : (applyW t w).pc = t.pc := by
  cases w <;> simp only [applyW] <;> split <;> rfl
@[simp] theorem applyW_bundle (t : Thread) (w : RegW) : (applyW t w).bundle = t.bundle := by
  cases w <;> simp only [applyW] <;> split <;> rfl
@[simp] theorem applyW_staged (t : Thread) (w : RegW) : (applyW t w).staged = t.staged := by
  cases w <;> simp only [applyW] <;> split <;> rfl
@[simp] theorem applyW_st (t : Thread) (w : RegW) : (applyW t w).st = t.st := by
  cases w <;> simp only [applyW] <;> split <;> rfl
@[simp] theorem applyW_m (t : Thread) (w : RegW) : (applyW t w).m = t.m := by
  cases w <;> simp only [applyW] <;> split <;> rfl
@[simp] theorem applyW_tsw (t : Thread) (w : RegW) : (applyW t w).tsw = t.tsw := by
  cases w <;> simp only [applyW] <;> split <;> rfl

/-- What results becoming visible leaves alone: everything but the register files and the list of results on their way. -/
theorem commitPend_frame (t : Thread) (n : Nat) :
    (commitPend t n).pc = t.pc ∧ (commitPend t n).bundle = t.bundle ∧ (commitPend t n).staged = t.staged ∧
    (commitPend t n).st = t.st ∧ (commitPend t n).m = t.m ∧ (commitPend t n).tsw = t.tsw := by
  have key : ∀ (l : List Pend) (t : Thread),
      (l.foldl (fun t p => applyW t p.w) t).pc = t.pc ∧ (l.foldl (fun t p => applyW t p.w) t).bundle = t.bundle ∧
      (l.foldl (fun t p => applyW t p.w) t).staged = t.staged ∧ (l.foldl (fun t p => applyW t p.w) t).st = t.st ∧
      (l.foldl (fun t p => applyW t p.w) t).m = t.m ∧ (l.foldl (fun t p => applyW t p.w) t).tsw = t.tsw := by
    intro l
    induction l with
    | nil => intro t; simp
    | cons p r ih => intro t; simpa using ih (applyW t p.w)
  exact key _ t

@[simp] theorem issueThread_pc (s : State) (k : Nat) : (issueThread s k).pc = (gTh s k).pc := (commitPend_frame _ _).1
@[simp] theorem issueThread_bundle (s : State) (k : Nat) : (issueThread s k).bundle = (gTh s k).bundle := (commitPend_frame _ _).2.1
@[simp] theorem issueThread_m (s : State) (k : Nat) : (issueThread s k).m = (gTh s k).m := (commitPend_frame _ _).2.2.2.2.1

theorem issueThread_staging (s : State) (k : Nat) (l : List (Nat × Word)) :
    issueThread (uTh s k (fun t => { t with staged := l })) k = issueThread s k := by
  simp only [issueThread, gTh_uTh, if_true]

theorem issueView_staging (s : State) (n k : Nat) (l : List (Nat × Word)) :
    issueView (uTh s k (fun t => { t with staged := l })) n k = issueView s n k := by
  simp only [issueView, gTh_uTh, if_true, issueThread_staging]
  rfl

theorem uTh_useFree (s : State) (k : Nat) (f : Thread → Thread) : useFree (uTh s k f) = uTh (useFree s) k f := rfl


/-- The acting slots do not see that the bundle was staged. -/
theorem issueSlots_staging (s : State) (b : YCtx) (l : List (Nat × Word)) (act : List (Nat × Word)) (h : l ≠ []) :
    issueSlots (uTh s b.key (fun t => { t with staged := l })) b act = issueSlots s b act := by
  unfold issueSlots
  rw [uTh_uTh _ _ _ _ (Thread.ne_default_of_staged _ h)]

theorem slotExc_uTh (s : State) (k : Nat) (f : Thread → Thread) (b : YCtx) (slot : Nat) (x : Word) :
    slotExc (uTh s k f) b slot x = slotExc s b slot x := rfl

/-- Which path a bundle of one slot operation takes: an exception, a wait for room, or its effect. -/
theorem slotRow_solo {s : State} {n : Nat} {i : Issue} (h : SoloIssue s n i) (slot op : Nat) (w : BitVec 56) :
    slotRow slot op i w s =
      (let b := issueView s n (thKey i.t)
       let x := slotWord op w
       let act := if slotActs b slot x then [(slot, x)] else []
       let s' := uTh (useFree s) (thKey i.t) (fun t => { t with staged := [(slot, x)] })
       match slotExc s b slot x with
       | some c => programExc s' b c
       | none =>
         match roomWait s b act with
         | some r => uTh s' (thKey i.t) (fun t => { t with st := .parked [r], staged := [] })
         | none => issueSlots (useFree s) b act) := by
  obtain ⟨h1, h2, h3, h4, h5, h6, h7, h8⟩ := h
  have hl : (if i.more then
      (uTh s (thKey i.t) (fun t => { t with staged := stageSlot slot (slotWord op w) t.staged })) else
      issueBundle (uTh s (thKey i.t) (fun t => { t with staged := stageSlot slot (slotWord op w) t.staged })) n (thKey i.t)) =
      issueBundle (uTh s (thKey i.t) (fun t => { t with staged := [(slot, slotWord op w)] })) n (thKey i.t) := by
    rw [h5]
    simp only [Bool.false_eq_true, if_false]
    congr 1
    simp only [uTh, Tab.modify]
    rw [show (Tab.get {} s.threads (thKey i.t)).staged = [] from h4]
    rfl
  simp only [slotRow, wordRow, h1, h2, h3, h7, h8, Bool.not_true, bne_self_eq_false, Bool.or_self, Bool.false_eq_true, if_false]
  rw [hl]
  unfold issueBundle
  simp only [issueView_staging, gTh_uTh, if_true, uTh_useFree]
  have hin : ¬ (Tab.get {} (gCtx (uTh s (thKey i.t) fun t => { t with staged := [(slot, slotWord op w)] }) n).sch.segs
      (issueView s n (thKey i.t)).cl).codeLen ≤ (issueView s n (thKey i.t)).pc.toNat := Nat.not_le.mpr h6
  rw [if_neg hin]
  have e1 : List.findSome? (fun x => slotExc (uTh s (thKey i.t) fun t => { t with staged := [(slot, slotWord op w)] })
      (issueView s n (thKey i.t)) x.1 x.2) [(slot, slotWord op w)] = slotExc s (issueView s n (thKey i.t)) slot (slotWord op w) := by
    simp only [List.findSome?, slotExc_uTh]
    cases slotExc s (issueView s n (thKey i.t)) slot (slotWord op w) <;> rfl
  have e2 : List.filter (fun x => slotActs (issueView s n (thKey i.t)) x.1 x.2) [(slot, slotWord op w)] =
      if slotActs (issueView s n (thKey i.t)) slot (slotWord op w) then [(slot, slotWord op w)] else [] := by
    simp only [List.filter]
    split <;> simp_all
  rw [e1, e2]
  cases he : slotExc s (issueView s n (thKey i.t)) slot (slotWord op w) with
  | some c => rfl
  | none =>
    have e3 : ∀ act, roomWait (uTh s (thKey i.t) fun t => { t with staged := [(slot, slotWord op w)] }) (issueView s n (thKey i.t)) act =
        roomWait s (issueView s n (thKey i.t)) act := fun _ => rfl
    simp only [e3]
    cases hr : roomWait s (issueView s n (thKey i.t))
      (if slotActs (issueView s n (thKey i.t)) slot (slotWord op w) then [(slot, slotWord op w)] else []) with
    | some r => rfl
    | none => exact issueSlots_staging (useFree s) (issueView s n (thKey i.t)) _ _ (by simp)

/-- A bundle of one scalar or vector slot: it waits for no room. -/
theorem roomWait_alu (s : State) (b : YCtx) (slot : Nat) (x : Word) (h : slot < 4) (act : Bool) :
    roomWait s b (if act then [(slot, x)] else []) = none := by
  have : slotFlag slot x = none := by unfold slotFlag; split <;> first | rfl | omega
  cases act
  · rfl
  · have h5 : slot ≠ 5 := by omega
    have h6 : slot ≠ 6 := by omega
    simp [roomWait, this, h5, h6]

/-! ## A thread changed twice -/

theorem uTh_const (s : State) (k : Nat) (f : Thread → Thread) : uTh s k f = uTh s k (fun _ => f (gTh s k)) := rfl

theorem setTsw_uTh (s : State) (k : Nat) (u : Thread) (bits : Word) (h : u.bundle ≠ 0) :
    setTsw (uTh s k (fun _ => u)) k bits = uTh s k (fun _ => raiseTsw u bits) := by
  unfold setTsw
  split
  · subst_vars; simp [raiseTsw]
  · exact uTh_uTh _ _ _ _ (Thread.ne_default_of_bundle _ h)

theorem addResult_uTh (s : State) (b : YCtx) (u : Thread) (slot lat : Nat) (w : RegW) (h : u.bundle ≠ 0) :
    addResult (uTh s b.key (fun _ => u)) b slot lat w =
      uTh s b.key (fun _ => { u with pend := addPend { at_ := b.bundle + lat, issued := b.bundle, slot := slot, w := w } u.pend }) :=
  uTh_uTh _ _ _ _ (Thread.ne_default_of_bundle _ h)

@[simp] theorem raiseTsw_bundle (t : Thread) (b : Word) : (raiseTsw t b).bundle = t.bundle := rfl

/-- A bundle that only changes its own thread and goes on in sequence. -/
theorem issueEnd_seq (s : State) (n key : Nat) (u : Thread) (pc : BitVec 32) (h : u.bundle ≠ 0) :
    issueEnd (uTh s key (fun _ => u)) n key pc {} false =
      tjRun (uTh s key (fun _ => { u with pc := pc + 1, st := .ready })) n key (pc + 1).toNat := by
  have h2 := fun g => uTh_uTh s key (fun _ => u) g (Thread.ne_default_of_bundle u h)
  simp only [issueEnd, h2]
  rfl

/-- A bundle none of whose slots acts. -/
theorem issueSlots_none (s : State) (n key : Nat) :
    issueSlots (useFree s) (issueView s n key) [] = retireBundle s n key (issueThread s key) := by
  simp only [issueSlots, List.foldl, List.any, List.find?, Bool.false_and]
  refine (issueEnd_seq (issueBase s key) n key _ _ (by simp)).trans ?_
  simp only [retireBundle, retireIn, stepThread, issueThread_pc, issueThread_bundle]
  rfl

/-! ## Fields of the slot word of a row -/

theorem slotWord_toNat (op : Nat) (w : BitVec 56) (h : op < 256) : (slotWord op w).toNat = op * 2 ^ 56 + w.toNat := by
  have hw := w.isLt
  have h1 : (place op 63 56).toNat = op <<< 56 := by
    simp only [place, BitVec.toNat_ofNat]
    rw [Nat.mod_eq_of_lt (by omega : op < 2 ^ (63 + 1 - 56)), Nat.mod_eq_of_lt]
    rw [Nat.shiftLeft_eq]; omega
  have h2 : (BitVec.ofNat 64 w.toNat).toNat = w.toNat := by
    simp only [BitVec.toNat_ofNat]; exact Nat.mod_eq_of_lt (by omega)
  unfold slotWord
  rw [BitVec.toNat_or, h1, h2, ← Nat.shiftLeft_add_eq_or_of_lt hw, Nat.shiftLeft_eq]

theorem fOp_slotWord (op : Nat) (w : BitVec 56) (h : op < 256) : fOp (slotWord op w) = op := by
  have hw := w.isLt
  simp only [fOp, fld, slotWord_toNat op w h, Nat.shiftRight_eq_div_pow]
  omega

theorem slotWord_ne_zero (op : Nat) (w : BitVec 56) (h : op < 256) (h0 : op ≠ 0) : slotWord op w ≠ 0 := by
  intro e
  have := slotWord_toNat op w h
  rw [e] at this
  simp at this
  omega

/-! ## Scalar slots (R120) -/

/-- The operands of a scalar slot with their taints: SRCA, and SRCB or the immediate. -/
def scalarA (e : Env) (slot : Nat) (x : Word) : Word × Bool := if sReadsA (fOp x) then readS e (8 * slot + 1) (fA x) else (0, false)
def scalarB (e : Env) (slot : Nat) (x : Word) : Word × Bool :=
  if fBit33 x then (BitVec.ofInt 64 (fImm x), false) else if sReadsB (fOp x) then readS e (8 * slot + 2) (fB x) else (0, false)

/-- The OR of the operands' taints. -/
def scalarTaint (e : Env) (slot : Nat) (x : Word) : Bool := (scalarA e slot x).2 || (scalarB e slot x).2

/-- The register write of a scalar slot. -/
def scalarW (e : Env) (slot : Nat) (x : Word) : RegW :=
  let r := sResult (fOp x) (scalarA e slot x).1 (scalarB e slot x).1
  if fOp x = 0x0D then .p (fDst x % 8) (if r = 0 then 0 else allOnes) allOnes else .s (fDst x) r (scalarTaint e slot x)

theorem sLatency_pset : sLatency 0x0D = 1 := rfl

/-- What an acting scalar slot does to a thread: its result pends, its taint is noted. -/
theorem scalarFx_uTh (s : State) (b : YCtx) (u : Thread) (slot : Nat) (x : Word) (h : u.bundle ≠ 0) :
    scalarFx (uTh s b.key (fun _ => u)) b slot x =
      uTh s b.key (fun _ =>
        { raiseTsw u (taintBit (scalarTaint b.e slot x)) with
          pend := addPend { at_ := b.bundle + sLatency (fOp x), issued := b.bundle, slot := slot, w := scalarW b.e slot x } u.pend }) := by
  by_cases hp : fOp x = 0x0D
  · simp only [scalarFx, hp, if_true]
    rw [setTsw_uTh _ _ _ _ h, addResult_uTh _ _ _ _ _ _ (by simpa using h)]
    simp only [scalarW, scalarTaint, scalarA, scalarB, hp]
    rfl
  · simp only [scalarFx, hp, if_false]
    rw [setTsw_uTh _ _ _ _ h, addResult_uTh _ _ _ _ _ _ (by simpa using h)]
    simp only [scalarW, hp, if_false]
    rfl

/-- A bundle of one acting slot that only writes its own thread. -/
theorem issueSlots_one (s : State) (n key slot : Nat) (x : Word) (u : Thread) (hu : u.bundle ≠ 0) (h7 : slot ≠ 7)
    (hf : (slot == 4 && fOp x == 10) = false)
    (hfx : slotFx (uTh (issueBase s key) key (fun _ => { issueThread s key with bundle := (gTh s key).bundle + 1 })) (issueView s n key) slot x =
      uTh (issueBase s key) key (fun _ => u)) :
    issueSlots (useFree s) (issueView s n key) [(slot, x)] =
      tjRun (uTh (issueBase s key) key (fun _ => { u with pc := (gTh s key).pc + 1, st := .ready })) n key ((gTh s key).pc + 1).toNat := by
  have h7' : (slot == 7) = false := by simpa using h7
  unfold issueSlots
  simp only [List.foldl, List.find?, List.any, h7', hf, Bool.false_and, Bool.or_self]
  have hfx' : slotFx (uTh (issueBase s key) (issueView s n key).key (fun _ => { (issueView s n key).e.th with bundle := (issueView s n key).bundle + 1 }))
      (issueView s n key) slot x = uTh (issueBase s key) key (fun _ => u) := hfx
  have hb : takeTurn (uTh (useFree s) (issueView s n key).key (fun _ => { (issueView s n key).e.th with bundle := (issueView s n key).bundle + 1 }))
      (issueView s n key).key = uTh (issueBase s key) (issueView s n key).key (fun _ =>
        { (issueView s n key).e.th with bundle := (issueView s n key).bundle + 1 }) := rfl
  rw [hb, hfx']
  exact issueEnd_seq _ _ _ _ _ hu

/-- A bundle of one legal slot of S0 to V1 whose acting writes one result. -/
theorem alu_solo {s : State} {n : Nat} {i : Issue} (h : SoloIssue s n i) (slot op : Nat) (w : BitVec 56) (hs : slot < 4)
    (lat : Nat) (rw : RegW) (bits : Word) (hl : slotIllegal slot (slotWord op w) = false)
    (hfx : ∀ u : Thread, u.bundle ≠ 0 →
      slotFx (uTh (issueBase s (thKey i.t)) (thKey i.t) (fun _ => u)) (issueView s n (thKey i.t)) slot (slotWord op w) =
        uTh (issueBase s (thKey i.t)) (thKey i.t) (fun _ =>
          { raiseTsw u bits with pend := addPend { at_ := (gTh s (thKey i.t)).bundle + lat, issued := (gTh s (thKey i.t)).bundle, slot := slot, w := rw } u.pend })) :
    slotRow slot op i w s = soloResult s n (thKey i.t) slot lat (slotWord op w) rw bits := by
  rw [slotRow_solo h]
  have h4 : slot ≠ 4 := by omega
  have he : slotExc s (issueView s n (thKey i.t)) slot (slotWord op w) = none := by simp [slotExc, hl, h4]
  simp only [he, roomWait_alu s _ slot _ hs]
  unfold soloResult
  split
  · rw [issueSlots_one s n (thKey i.t) slot _ _ (by simp) (by omega) (by simp [h4]) (hfx _ (by simp))]
    simp only [retireBundle, retireIn, stepThread, raiseTsw, pendResult, issueThread_pc, issueThread_bundle]
  · exact issueSlots_none s n _

/-- The bundle of one legal scalar operation. -/
theorem scalar_solo {s : State} {n : Nat} {i : Issue} (h : SoloIssue s n i) (op : Nat) (w : BitVec 56) (hop : op < 256)
    (h0 : op ≠ 0) (hl : sIllegal (sSlot i) (slotWord op w) = false) :
    slotRow (sSlot i) op i w s =
      soloResult s n (thKey i.t) (sSlot i) (sLatency op) (slotWord op w)
        (scalarW (issueView s n (thKey i.t)).e (sSlot i) (slotWord op w))
        (taintBit (scalarTaint (issueView s n (thKey i.t)).e (sSlot i) (slotWord op w))) := by
  have hs : sSlot i = 0 ∨ sSlot i = 1 := by unfold sSlot; split <;> simp
  refine alu_solo h _ op w (by omega) _ _ _ ?_ ?_
  · unfold slotIllegal
    rw [if_neg (slotWord_ne_zero op w hop h0)]
    rcases hs with e | e <;> simp only [e] at hl ⊢ <;> exact hl
  · intro u hu
    have hfx : ∀ s' b x, slotFx s' b (sSlot i) x = scalarFx s' b (sSlot i) x := by
      intro s' b x; unfold slotFx; rcases hs with e | e <;> simp [e]
    rw [hfx]
    have := scalarFx_uTh (issueBase s (thKey i.t)) (issueView s n (thKey i.t)) u (sSlot i) (slotWord op w) hu
    rw [fOp_slotWord op w hop] at this
    exact this

/-! ## Vector slots (R121) -/

/-- The bundle of one legal vector operation. -/
theorem vector_solo {s : State} {n : Nat} {i : Issue} (h : SoloIssue s n i) (op : Nat) (w : BitVec 56) (hop : op < 256)
    (h0 : op ≠ 0) (hl : vIllegal (vSlot i) (slotWord op w) = false) :
    slotRow (vSlot i) op i w s =
      (let o := vResult (issueView s n (thKey i.t)).e (vSlot i) (slotWord op w)
       match o.w with
       | some r => soloResult s n (thKey i.t) (vSlot i) (vLatency op (fEt (slotWord op w))) (slotWord op w) r (fpBits o.fl ||| taintBit o.taint)
       | none => retireBundle s n (thKey i.t) (raiseTsw (issueThread s (thKey i.t)) (fpBits o.fl ||| taintBit o.taint))) := by
  have hs : vSlot i = 2 ∨ vSlot i = 3 := by unfold vSlot; split <;> simp
  have hfx : ∀ s' b x, slotFx s' b (vSlot i) x = vectorFx s' b (vSlot i) x := by
    intro s' b x; unfold slotFx; rcases hs with e | e <;> simp [e]
  have hne := slotWord_ne_zero op w hop h0
  have hill : slotIllegal (vSlot i) (slotWord op w) = false := by
    unfold slotIllegal
    rw [if_neg hne]
    rcases hs with e | e <;> simp only [e] at hl ⊢ <;> exact hl
  cases ho : (vResult (issueView s n (thKey i.t)).e (vSlot i) (slotWord op w)).w with
  | some r =>
    simp only [ho]
    refine alu_solo h _ op w (by omega) _ _ _ hill ?_
    intro u hu
    rw [hfx]
    simp only [vectorFx, ho]
    have e1 := setTsw_uTh (issueBase s (thKey i.t)) (issueView s n (thKey i.t)).key u
      (fpBits (vResult (issueView s n (thKey i.t)).e (vSlot i) (slotWord op w)).fl |||
        taintBit (vResult (issueView s n (thKey i.t)).e (vSlot i) (slotWord op w)).taint) hu
    rw [show (uTh (issueBase s (thKey i.t)) (thKey i.t) fun _ => u) = uTh (issueBase s (thKey i.t)) (issueView s n (thKey i.t)).key fun _ => u from rfl, e1,
      addResult_uTh _ _ _ _ _ _ (by simpa using hu), fOp_slotWord op w hop]
    rfl
  | none =>
    simp only [ho]
    rw [slotRow_solo h]
    have h4 : vSlot i ≠ 4 := by omega
    have he : slotExc s (issueView s n (thKey i.t)) (vSlot i) (slotWord op w) = none := by simp [slotExc, hill, h4]
    have ha : slotActs (issueView s n (thKey i.t)) (vSlot i) (slotWord op w) = true := by
      have hb : (slotWord op w != 0) = true := by simpa using hne
      unfold slotActs
      rw [hb]
      rcases hs with e | e <;> rw [e] <;> rfl
    have hr := roomWait_alu s (issueView s n (thKey i.t)) (vSlot i) (slotWord op w) (by omega) true
    simp only [if_true] at hr
    simp only [he, ha, if_true, hr]
    rw [issueSlots_one s n (thKey i.t) (vSlot i) _
      (raiseTsw { issueThread s (thKey i.t) with bundle := (gTh s (thKey i.t)).bundle + 1 }
        (fpBits (vResult (issueView s n (thKey i.t)).e (vSlot i) (slotWord op w)).fl |||
          taintBit (vResult (issueView s n (thKey i.t)).e (vSlot i) (slotWord op w)).taint))
      (by simp) (by omega) (by simp [h4])]
    · simp only [retireBundle, retireIn, stepThread, raiseTsw, issueThread_pc, issueThread_bundle]
    · rw [hfx]
      simp only [vectorFx, ho]
      exact setTsw_uTh _ _ _ _ (by simp)

/-- The number that elements make up, element 0 lowest. -/
def packNat (es : Nat) (l : List Nat) : Nat := l.foldr (fun e acc => e % 2 ^ (8 * es) + 2 ^ (8 * es) * acc) 0

theorem packNat_lt (es : Nat) (l : List Nat) : packNat es l < 2 ^ (8 * es * l.length) := by
  induction l with
  | nil => simp [packNat]
  | cons x r ih =>
    have h1 : x % 2 ^ (8 * es) < 2 ^ (8 * es) := Nat.mod_lt _ (Nat.two_pow_pos _)
    have h2 : packNat es (x :: r) = x % 2 ^ (8 * es) + 2 ^ (8 * es) * packNat es r := rfl
    rw [h2, List.length_cons, Nat.mul_add, Nat.mul_one, Nat.add_comm (8 * es * r.length), Nat.pow_add]
    calc x % 2 ^ (8 * es) + 2 ^ (8 * es) * packNat es r < 2 ^ (8 * es) + 2 ^ (8 * es) * packNat es r := by omega
      _ = 2 ^ (8 * es) * (packNat es r + 1) := by rw [Nat.mul_add, Nat.mul_one, Nat.add_comm]
      _ ≤ 2 ^ (8 * es) * 2 ^ (8 * es * r.length) := Nat.mul_le_mul_left _ ih

theorem packNat_elem (es : Nat) (l : List Nat) (k : Nat) (h : k < l.length) :
    packNat es l / 2 ^ (8 * es * k) % 2 ^ (8 * es) = l[k] % 2 ^ (8 * es) := by
  induction l generalizing k with
  | nil => simp at h
  | cons x r ih =>
    have h2 : packNat es (x :: r) = x % 2 ^ (8 * es) + 2 ^ (8 * es) * packNat es r := rfl
    have h1 : x % 2 ^ (8 * es) < 2 ^ (8 * es) := Nat.mod_lt _ (Nat.two_pow_pos _)
    cases k with
    | zero => rw [h2]; simp [Nat.add_mul_mod_self_left]
    | succ k =>
      rw [h2, Nat.mul_add, Nat.mul_one, Nat.add_comm (8 * es * k), Nat.pow_add, ← Nat.div_div_eq_div_mul,
        Nat.add_mul_div_left _ _ (Nat.two_pow_pos _), Nat.div_eq_of_lt h1, Nat.zero_add, List.getElem_cons_succ]
      exact ih k (by simpa using h)

/-- An element of a vector built from its elements. -/
theorem vElem_vPack (es : Nat) (l : List Nat) (k : Nat) (h : k < l.length) (hl : es * l.length ≤ 128) :
    vElem (vPack es l) es k = l[k] % 2 ^ (8 * es) := by
  have hlt : packNat es l < 2 ^ (8 * 128) :=
    Nat.lt_of_lt_of_le (packNat_lt es l) (Nat.pow_le_pow_right (by decide) (by rw [Nat.mul_assoc]; omega))
  have : (vPack es l).toNat = packNat es l := by
    have gen : ∀ w x : Nat, x < 2 ^ w → (BitVec.ofNat w x).toNat = x := by
      intro w x h; rw [BitVec.toNat_ofNat, Nat.mod_eq_of_lt h]
    exact gen (8 * 128) _ hlt
  simp only [vElem, this, Nat.shiftRight_eq_div_pow]
  exact packNat_elem es l k h

theorem vElem_lt (x : BitVec 1024) (es k : Nat) : vElem x es k < 2 ^ (8 * es) := Nat.mod_lt _ (Nat.two_pow_pos _)

theorem popN_eq (x n : Nat) : popN x n = (List.range n).countP (fun k => x.testBit k) := by
  induction n generalizing x with
  | zero => rfl
  | succ n ih =>
    rw [popN, ih, List.range_succ_eq_map, List.countP_cons, List.countP_map]
    have e : (fun k => (x / 2).testBit k) = (fun k => x.testBit k) ∘ Nat.succ := by
      funext k; simp [Nat.testBit_succ]
    rw [e, Nat.testBit_zero]
    rcases Nat.mod_two_eq_zero_or_one x with h | h <;> simp [h, Nat.add_comm]

theorem clzN_eq (x n : Nat) : clzN x n = ((List.range n).takeWhile (fun k => !x.testBit (n - 1 - k))).length := by
  induction n with
  | zero => rfl
  | succ n ih =>
    rw [clzN, ih, List.range_succ_eq_map, List.takeWhile_cons]
    simp only [Nat.add_sub_cancel, Nat.sub_zero]
    by_cases h : x.testBit n
    · simp [h]
    · simp only [h, Bool.not_false, if_true, List.length_cons, Bool.false_eq_true, if_false, List.takeWhile_map, List.length_map]
      rw [Nat.add_comm]
      congr 3
      funext k
      simp only [Function.comp]
      congr 2
      omega

end Sys2Proof.Machine
end

