-- ==== Sys2Proof/Tests/Slice0.lean ====
section
/-! SUPPORT. Tests of the model: ill-formed commands that WellFormed refuses, single steps whose results the spec gives, and a witness
that the hypotheses of each statement can be met together. -/

namespace Sys2Proof.Tests

open Sys2Proof Sys2Proof.Machine

set_option Elab.async false

/-! ## Ill-formed commands: one for each check -/

def blank : Msg := { w0 := 0, w1 := 0, w2 := 0, w3 := 0, payload := [], tag := [] }

theorem test_illformed_msg : wellFormed (.rdReq 0 blank) = false := by decide
theorem test_wellformed_msg : wellFormed (.rdRsp 0 { blank with w0 := 0x1000000000000000, tag := List.replicate 16 0 }) = true := by decide
theorem test_illformed_accessLen : wellFormed (.registerWrite 0 false 0 0 0) = false := by decide
theorem test_illformed_hostRead : wellFormed (.importPage 0 1 (.data [])) = false := by decide
theorem test_illformed_badOp : wellFormed (.mmuOpInvalid 0 1 8) = false := by decide
theorem test_illformed_lines : wellFormed (.hbmPatrol [0xD8000000] []) = false := by decide +kernel
theorem test_illformed_length : wellFormed (.keyExchange [1]) = false := by decide
theorem test_illformed_granules : wellFormed (.copyIn 1 (.data [0])) = false := by decide
theorem test_illformed_vf : wellFormed (.vfFlr 0) = false := by decide
theorem test_illformed_burst : wellFormed (.burstAccess 1 false false 0xFFFF 2 []) = false := by decide
theorem test_illformed_nonce : wellFormed (.getMeasurements none 0 true []) = false := by decide
theorem test_illformed_payload : wellFormed (.submit 0 []) = false := by decide
theorem test_illformed_traceOff : wellFormed (.traceConfigWrite 1 1 0x18 0) = false := by decide
theorem test_illformed_atLeast : wellFormed (.thermalWarn 99) = false := by decide
theorem test_illformed_atMost : wellFormed (.throttleRecover 0 103) = false := by decide
theorem test_illformed_mctp : wellFormed (.mctpControl [0]) = false := by decide
theorem test_illformed_preload : wellFormed (.jtagSamplePreload []) = false := by decide

/-! ## A small machine: context 1 holds the pound through function 1, thread 0 of cluster 0 is Ready, hart 0 runs -/

def man1 : Manifest :=
  { clusters := 1, harts := 1, fastMax := 1, deepMax := 1, consent := 3, permit := 0xF,
    cls := [{ basins := [{ base := 0, size := 65536, liveOff := 0, liveLen := 0, va := 0 }] }] }

def ctx1 : Ctx :=
  { st := .running, bind := { vf := some 1, man := some man1 }, sch := { segs := [(0, { present := true, started := true, codeLen := 16 })] } }

def fn1 : Fn := { memSpace := true, bme := true, ctx := some 1, ringEn := true, sqLog2 := 2, cqLog2 := 2 }

def th0 : Thread := { st := .ready, member := true, s := [(1, 5), (2, 7)] }

def chip : State :=
  { State.reset with
    boot := { phase := .ready }
    wake := { auxUp := true, mainUp := true, mainEn := true, perstHigh := true }
    cfg := { numVf := 8 }
    hi := { vfEnable := true, numVfs := 8 }
    fns := [(0, { memSpace := true, bme := true }), (1, fn1)]
    ctxs := [(0, { st := .bound }), (1, ctx1)]
    rot := { holder := some 1 }
    threads := [(0, th0)]
    harts := [(0, { named := true })]
    queues := [(0, { ctx := some 1, berths := 4, free := 4, ring := 0x1000 })] }

def iss : Issue := { t := { cl := 0, core := 0, th := 0 }, alt := false, more := false }

/-- A slot operation with DST 3, A 1, B 2, enabled by p0. -/
def word3 : BitVec 56 := 0xC10800000000#56

theorem solo : SoloIssue chip 1 iss := ⟨by decide, by decide, by decide, by decide, by decide, by decide, by decide, by decide⟩
theorem solo_alt : SoloIssue chip 1 { iss with alt := true } := ⟨by decide, by decide, by decide, by decide, by decide, by decide, by decide, by decide⟩

/-- What a command leaves. -/
def after (c : Instr) (s : State) (p : State → Bool) : Bool := match exec c s with | .next t => p t | _ => false

/-- An operation ends well. -/
def ends {α : Type} (m : EStateM.Result Halt State α) (p : α → State → Bool) : Bool := match m with | .ok a s => p a s | .error _ _ => false

theorem ends_ok {α : Type} {m : EStateM.Result Halt State α} {p : α → State → Bool} (h : ends m p = true) : ∃ a s, m = .ok a s ∧ p a s = true := by
  cases m with
  | ok a s => exact ⟨a, s, rfl, h⟩
  | error e s => cases h

/-! ## Single steps -/

def pends (op : Issue → BitVec 56 → Instr) (lat : Nat) (x : Word) : Bool :=
  after (op iss word3) chip (fun t => (gTh t 0).pend == [{ at_ := lat, issued := 0, slot := 0, w := .s 3 x false }])

/-- R120 on s1 = 5, s2 = 7. -/
theorem test_add : pends .add 1 12 = true := by decide
theorem test_sub_wraps : pends .sub 1 0xFFFFFFFFFFFFFFFE = true := by decide +kernel
theorem test_shl : pends .shl 1 640 = true := by decide +kernel
theorem test_slt : pends .slt 1 1 = true := by decide +kernel
theorem test_mul : pends .mul 3 35 = true := by decide +kernel
theorem test_rem : pends .remOp 18 5 = true := by decide +kernel
/-- R120: a division by zero gives all ones. -/
theorem test_div_zero : after (.divOp iss 0xC10000000000#56) chip (fun t =>
    (gTh t 0).pend == [{ at_ := 18, issued := 0, slot := 0, w := .s 3 0xFFFFFFFFFFFFFFFF false }]) = true := by decide +kernel
/-- R148: an unlisted opcode is E_ILLEGAL; here a reserved bit. -/
theorem test_illegal : after (.add iss 0x100000000#56) chip (fun t => (gTh t 0).st == .parked [.stopped] && (gCtx t 1).sch.faultNext == 0x10) = true := by decide +kernel

/-! ## Witnesses: the queue and Yoren -/

theorem witness_StepRunsTheFrontCommand :
    ({ chip with pending := [.tripLatchClear] } : State).pending = .tripLatchClear :: [] ∧ chip.pending = [] := by decide

theorem witness_ScalarOperations : SoloIssue chip 1 iss ∧ ∀ row ∈ scalarRows, bitOf (slotWord row.2.1 0) 32 = false ∧ iss.alt = false :=
  ⟨solo, by decide⟩

theorem witness_OneOperand : SoloIssue chip 1 iss ∧ bitOf (slotWord 0 0x200000000#56) 32 = false ∧ fBit33 (slotWord 0x14 0x200000000#56) = true :=
  ⟨solo, by decide⟩

theorem witness_VectorInteger : ∀ row ∈ vectorIntRows, fEt (slotWord row.2.1 0) < 4 ∧
    (vIllegal (vSlot iss) (slotWord row.2.1 0) = false ∨ vIllegal (vSlot { iss with alt := true }) (slotWord row.2.1 0) = false) := by decide

theorem witness_VectorFloat :
    (∀ row ∈ vectorFloatRows, vIllegal 2 (slotWord row.2.1 0x80000000#56) = false ∧ 4 ≤ fEt (slotWord row.2.1 0x80000000#56)) ∧
    vIllegal 2 (slotWord 0x04 0x80000000#56) = false ∧ vIllegal 3 (slotWord 0x0D 0x80000000#56) = false := by decide

theorem witness_VectorData : vIllegal 2 (slotWord 0x0E 0) = false ∧ vIllegal 3 (slotWord 0x0F 0) = false ∧ vIllegal 2 (slotWord 0x10 0) = false ∧
    vIllegal 3 (slotWord 0x11 0) = false ∧ vIllegal 3 (slotWord 0x12 0x60000000#56) = false ∧ vIllegal 2 (slotWord 0x13 0) = false := by decide

theorem witness_BasinAccesses : ∀ row ∈ [(0x01, 1), (0x02, 1), (0x03, 128), (0x04, 128)],
    mIllegal (slotWord row.1 0) = false ∧ actsAs chip 1 iss 4 (slotWord row.1 0) ∧
    inBasin chip 1 0 (memAddr (issueView chip 1 0) (slotWord row.1 0)).1 row.2 = true ∧ (memAddr (issueView chip 1 0) (slotWord row.1 0)).1 % row.2 = 0 ∧
    isExpert chip 1 = false ∧ sat64 (gCtx chip 1).mmu.uninit (unwritten chip 0 0 128) = false := by unfold actsAs; decide +kernel

theorem witness_GlobalAccesses : ∀ row ∈ [(0x05, 4), (0x06, 4), (0x07, 128), (0x08, 128), (0x09, 4), (0x0A, 1)],
    mIllegal (slotWord row.1 0x800000000#56) = false ∧ actsAs chip 1 iss 4 (slotWord row.1 0x800000000#56) ∧
    (memAddr (issueView chip 1 0) (slotWord row.1 0x800000000#56)).1 < 2 ^ 48 ∧
    (memAddr (issueView chip 1 0) (slotWord row.1 0x800000000#56)).1 % row.2 = 0 ∧ Tab.get 0 (issueThread chip 0).m 0 < 63 := by
  unfold actsAs; decide +kernel

theorem witness_UnitSlots : (∀ op ∈ [1, 2, 3], uIllegal (slotWord op 0) = false ∧ actsAs chip 1 iss 5 (slotWord op 0)) ∧
    Tab.get 0 (issueThread chip 0).m (fMf (slotWord 1 0)) < 63 ∧ (gUnit chip (unitKey 1 0 0)).held.length < 16 := by unfold actsAs; decide

theorem witness_StreamSlots : (∀ op ∈ [1, 2, 3, 4, 5], tIllegal (slotWord op 0) = false ∧ actsAs chip 1 iss 6 (slotWord op 0)) ∧
    Tab.get 0 (issueThread chip 0).m (fMfT (slotWord 0 0)) < 63 ∧ queueCluster 0 = some 0 ∧ queueRoom chip 0 = true ∧ towCount chip 0 < 64 ∧
    flightsRun chip 0 < 4 := by unfold actsAs; decide

/-- A machine whose thread 1 runs already. -/
def chip2 : State := { chip with threads := [(0, th0), (1, th0)] }

theorem witness_ControlSlots : (∀ op ∈ [1, 2, 3, 4, 5, 6, 7, 8, 9, 10, 11, 12, 13], cIllegal (slotWord op 0) = false ∧ actsAs chip 1 iss 7 (slotWord op 0)) ∧
    (readS (issueView chip 1 0).e 57 (fA (slotWord 0 0))).1.toNat < 2 ^ 32 := by unfold actsAs; decide

theorem witness_Spawn : fld (slotWord 0 0x20000000#56) 31 29 = 1 ∧ (gTh chip 1).st = .idle ∧ SoloIssue chip2 1 iss ∧ (gTh chip2 1).st = .ready :=
  ⟨by decide, by decide, ⟨by decide, by decide, by decide, by decide, by decide, by decide, by decide, by decide⟩, by decide⟩

/-- A thread whose turn it is not: thread 1 of its core issued last, and thread 2 is Ready too. -/
theorem witness_NotItsTurn : myTurn { chip with threads := [(0, th0), (2, th0)], turn := [(0, 1)] } 0 = false ∧
    clServes { chip with fw := { chip.fw with clOff := [0] } } 0 = false ∧ (∃ k : Fin 8, k.val = 2) ∧
    slotExc chip (issueView chip 1 0) 2 1 = some eIllegal ∧ slotExc chip (issueView chip 1 0) 7 1 = some eIllegal := by
  refine ⟨by decide +kernel, by decide, ⟨2, rfl⟩, by decide +kernel, by decide +kernel⟩

theorem witness_Encodings : (∀ row ∈ yorenRows, row.2.1 iss < 8 ∧ row.2.2 < 256) ∧ bitOf (slotWord 1 0x100000000#56) 32 = true := by decide

theorem witness_ProgramExceptions : SoloIssue chip 1 iss ∧ slotExc chip (issueView chip 1 0) 0 (slotWord 1 0x100000000#56) = some eIllegal ∧
    slotExc chip (issueView chip 1 0) 4 (slotWord 1 0xC00000001#56) = some eAlign ∧ holds chip 1 = true ∧ (gTh chip 0).st = .ready ∧
    (gTh chip 1).st ≠ .ready := ⟨solo, by decide, by decide +kernel, by decide, by decide, by decide⟩

/-! ## Witnesses: completions, harbor cores, memory -/

/-- Context 1 maps its page 1 to the local page 0, writable, and holds the pound; one access of each outcome is on its way. -/
def pt1 : Tab Word := [(2 ^ 40 + 2 ^ 36, 1), (2 ^ 40 + 2 * 2 ^ 36, 1), (2 ^ 40 + 3 * 2 ^ 36 + 1, 3)]

def opAt (id : Nat) (va : Word) : MemOp := { id := id, thread := 0, ctx := 1, mf := 0, kind := .ldg 3 0 false, va := va, taint := false, pc := 0, dropped := false }

def chipM : State := { chip with mem := { pte := pt1, own := [(0, 2)] }, ops := [opAt 1 0x10000, opAt 2 0x20000] }

def faults {α : Type} (m : EStateM.Result Halt State α) : Bool := match m with | .error (.fault _ _ _) _ => true | _ => false

theorem witness_Completions :
    chipM.ops.find? (fun p => p.id == 1) = some (opAt 1 0x10000) ∧ chipM.ops.find? (fun p => p.id == 2) = some (opAt 2 0x20000) ∧
    isRunning chipM = true ∧ (chipM.rot.saving && chipM.rot.savingCtx == some 1) = false ∧ opBlocked (opAt 1 0x10000) chipM.ops = false ∧
    isParked chipM 1 = false ∧
    ends (opMove (threadAgent 1 0 0 1) (opAt 1 0x10000) { chipM with racc := 0 }) (fun w _ => w == some (.s 3 0 false)) = true ∧
    faults (opMove (threadAgent 1 0 0 2) (opAt 2 0x20000) { chipM with racc := 0 }) = true := by decide +kernel

def parkedOn (why : List Park) : State := { chip with threads := [(0, { th0 with st := .parked why })] }

theorem witness_Unpark :
    (∀ p ∈ [Park.eos, .flag 0, .fence], parkOver (parkedOn [p]) 1 0 (gTh (parkedOn [p]) 0) p = true) ∧
    (gTh (parkedOn [.eos]) 0).st = .parked [.eos] ∧ holds (parkedOn [.eos]) 1 = true ∧
    (gTh { chip with threads := [(0, { th0 with st := .bubble })] } 0).st = .bubble := by decide

/-- R108: EOS with every count zero has ended. -/
theorem test_unpark_eos : after (.threadUnpark iss.t) (parkedOn [.eos]) (fun t => (gTh t 0).st == .ended) = true := by decide

theorem witness_HarborCommands : hartRuns chip 0 = some 1 ∧ (gHart chip 0).out < 64 ∧ tjWants chip 1 13 none = false := by decide

/-- The hart's x1 points at a descriptor at VA 0x10000. -/
def chipH (d : Bytes) : State := { chipM with harts := [(0, { named := true, x := [(1, 0x10000)] })], mem := { chipM.mem with hbm := Tab.setMany 0 [] 0 d } }

def hAg : Agent := hartAgent 1 0 0

theorem witness_HarborFetch : ends (hartFetch hAg 0x10000 64 { chipH [] with racc := 0 }) (fun d _ => d.1.length == 64 && !towOk d.1) = true ∧
    ends (hartFetch hAg 0x10040 32 { chipH [] with racc := 0 }) (fun d _ => d.1.length == 32) = true ∧
    ends (hartFetch hAg 0x10000 64 { chipH [] with racc := 0 }) (fun d s => (bargeReject s 1 0 63 d.1).isSome) = true := by decide +kernel

/-- R160: a copy that a queue of the I/O tile takes, a flight whose rings and command lie in a basin, an inline write. -/
def hdr1 : Bytes := wordsBytes [0x0040000000000000, 0, 0x10200, 0, 0x40, 0x10080, 0x1000, 1]
def rec1 : Bytes := wordsBytes [(2 : Word) <<< 53 ||| 0x2000, 0x3000, 1, 0]
def copy64 : Bytes := wordsBytes [0x0140000000000000, 0x10000, 0x10080, 0x100000040, 0, 0, 0, 0]
def inline8 : Bytes := wordsBytes [0x0200000000000008, 0, 0x10000, 0, 0x1122, 0, 0, 0]

theorem witness_HarborSubmits :
    (let s := { chipH copy64 with queues := [(98304, { ctx := some 1, weir := true })] };
     ends (hartFetch hAg 0x10000 64 { s with racc := 0 }) (fun d s' => d.1 == copy64 && bargeReject (opClean hAg.id s') 1 98304 63 d.1 == none &&
       bargeReject (opClean hAg.id s') 1 98305 63 d.1 == some eDenied && queueRoom (opClean hAg.id s') 98304) = true) ∧
    ends (hartFetch hAg 0x10000 64 { chipH inline8 with racc := 0 }) (fun d _ => towOk d.1) = true ∧
    ends (hartFetch hAg 0x10000 64 { chipH (hdr1 ++ rec1) with racc := 0 }) (fun hd s1 => ends (hartFetch hAg 0x10040 (32 * (fNlast hd.1 + 1)) s1) (fun rs s2 =>
      flightOk (opClean hAg.id s2) 1 0 hd.1 [slice rs.1 0 32] && !flightOk (opClean hAg.id s2) 1 0 hd.1 [List.replicate 32 0])) = true := by decide +kernel

/-- A hart in bare mode, and one under Sv39 with its root table at VA 0x10000. -/
def hBare : Hart := { named := true }
def hSv : Hart := { named := true, satp := 0x8000000000000010 }

/-- The root's entry 0 is a 1 GiB leaf at 0, readable and writable, accessed and dirty. -/
def chipSv : State := { chipM with mem := { chipM.mem with hbm := [(0, 0xC7)] }, racc := 0 }

theorem witness_HarborAccesses :
    vsLevels hBare.satp = none ∧
    ends (hartVs hAg hSv true 0x10008 4 chipSv) (fun r _ => r == .inr [(0x10008, 4)]) = true ∧
    ends (hartVs hAg { hSv with user := true } false 0x10008 4 chipSv) (fun r _ => r == .inl 13) = true ∧
    ends (hartVs hAg hSv true 0x4000000000 4 chipSv) (fun r _ => r == .inl 15) = true ∧
    ends (hartLoad hAg [(0x10000, 4)] { chipM with racc := 0 }) (fun rs _ => rs.findSome? (fun (a, x) => taintedAt a x) == none) = true ∧
    ends (hartLoad hAg [(0x10000, 4)] { chipM with mem := { chipM.mem with taint := [(0, true)] } })
      (fun rs _ => rs.findSome? (fun (a, x) => taintedAt a x) == some 0x10000) = true ∧
    ends (hartStore hAg [(0x10000, 2)] [1, 2] { chipM with racc := 0 }) (fun _ s => Tab.get 0 s.mem.hbm 1 == 2) = true ∧
    hartWindow chipM 1 accWrite 0x10000 2 = false ∧ (0x0000700B : BitVec 32).extractLsb' 0 7 = 0x0B ∧ (0x0000700B : BitVec 32).extractLsb' 12 3 = 7 := by decide +kernel

/-- A hart in user mode may zero blocks where senvcfg lets it; one with FS and VS on uses its f and v registers. -/
theorem witness_HarborForms : let t : Hart := { hBare with sstatus := 0x2200 }
    fld t.sstatus 14 13 ≠ 0 ∧ fld t.sstatus 10 9 ≠ 0 ∧ t.vstart = 0 ∧ (4 : BitVec 5).toNat % 2 ^ 2 = 0 ∧ (hReg t 0).toNat % 2 ^ 3 = 0 ∧
    ends (hartAmoOp hAg 1 { t with x := [(1, 0x10008)] } 0x10008 3 0 7 chipSv) (fun r s => (match r with | .loaded x => x == 0 | _ => false) && Tab.get 0 s.mem.hbm 8 == 7) = true ∧
    ({ hBare with user := true, senvcfg := 0x80 } : Hart).senvcfg.getLsbD 7 = true ∧ csrOpen t 0x140 = true ∧ csrOpen t 0xC01 = true ∧
    (csrRead chip t 0 0x140).isSome = true ∧ (csrRead chip t 0 0xC01).isSome = true ∧ hBare.user = false ∧ coreOf chip 0 = some 0 := by decide +kernel

/-- R158: the time register at the tick of pound 3 of 50 us is not below 150 us, in its unit of 10 ns. -/
theorem test_time_register : ∃ d < 5000, csrRead { chip with cfg := { chip.cfg with tickPeriod := 5000 }, tick := { started := true, pound := 3 } } hBare 0 0xC01 =
    some (15000 + BitVec.ofNat 64 d) := ⟨Config.sinceTick 0 % 5000, Nat.mod_lt _ (by decide), rfl⟩

/-- R157, R159: cbo.zero covers a granule and clears its taint; x0 ignores a write. -/
theorem test_cbo_zero : after (.harborAccess 0 (.cboZero 1)) { chipH [1, 2] with mem := { (chipH [1, 2]).mem with taint := [(0, true)] } }
    (fun t => t.mem.hbm == [] && t.mem.taint == [] && (gHart t 0).pc == 4) = true := by decide +kernel

/-- The MMU_ registers of context 1 name a free page and the free local page 2. -/
def chipMap (va : BitVec 32) (pa : BitVec 32) : State :=
  { chipM with ctxs := [(0, { st := .bound }), (1, { ctx1 with mmu := { va := va, paLo := pa }, expNext := 1 })] }

theorem hostWrites_chipMap (va pa : BitVec 32) : HostWrites (chipMap va pa) 1 := ⟨rfl, rfl, rfl, rfl⟩

theorem witness_Mapping : MmuTakes (chipMap 2 2) 1 1 ∧ (chipMap 2 2).faults = [] :=
  ⟨⟨hostWrites_chipMap 2 2, by decide, by decide, by decide⟩, rfl⟩

theorem witness_Map : let s := chipMap 2 2
    chipOf (mmuPa s 1) = s.cfg.chipNum ∧ localOf (mmuPa s 1) + 65536 ≤ ctxPageEnd ∧ isMapped s 1 (mmuVa s 1) false = false ∧
    ownedBy s (localOf (mmuPa s 1) / 65536) 1 (· != 0) = false ∧ tablesUsed s + (missingTables s 1 3 (mmuVa s 1)).length ≤ 16384 := by decide +kernel

theorem witness_MapBlock : let s := chipMap 0x2000 0x2000
    mmuPa s 1 % 2 ^ 29 = 0 ∧ mmuVa s 1 % 2 ^ 29 = 0 ∧ localOf (mmuPa s 1) + 2 ^ 29 ≤ ctxPageEnd ∧ isMapped s 1 (mmuVa s 1) true = false ∧
    ownedBy s (localOf (mmuPa s 1) / 65536) 8192 (· != 0) = false := by decide +kernel

theorem witness_Unmap : let s := chipMap 1 0
    namedLeaf s 1 (mmuVa s 1) = some (3, 2 ^ 40 + 3 * 2 ^ 36 + 1, 3) ∧ bitOf 3 4 = false ∧ chipOf (fld 3 59 24 * 65536) = s.cfg.chipNum ∧
    walk s 1 (mmuVa s 1) = .leaf 3 (2 ^ 40 + 3 * 2 ^ 36 + 1) 3 := by decide +kernel

/-- A leaf that names page 2 of chip 1, and a page that context 1 or another one owns already. -/
theorem witness_UnmapRemote : let s := { chipMap 1 0 with mem := { chipM.mem with pte := [(2 ^ 40 + 2 ^ 36, 1), (2 ^ 40 + 2 * 2 ^ 36, 1), (2 ^ 40 + 3 * 2 ^ 36 + 1, place (2 ^ 28 + 2) 59 24 ||| 3)] } }
    (match namedLeaf s 1 (mmuVa s 1) with | some (3, _, e) => !bitOf e 4 && chipOf (fld e 59 24 * 65536) == 1 | _ => false) = true ∧ s.cfg.chipNum = 0 ∧
    ownedBy chipM 0 1 (· == 1 + 1) = true ∧ ownedBy chipM 0 1 (· != 2 + 1) = true ∧ ownedBy chipM 0 1 (· != 1 + 1) = false ∧ localOf 0 + 1 * 65536 ≤ ctxPageEnd := by
  decide +kernel

/-- R183, R185: a page that the context owns is refused to a second MAP; an UNMAP for it releases it. -/
theorem test_mapFor_own : (mapFor chipM 1 0 false).1 = eRange ∧ (unmapFor chipM 1 0 false).1 = 0 ∧ (unmapFor chipM 1 0 false).2.mem.own = [] := by decide +kernel

theorem witness_Export : let s := chipMap 1 0
    mmuHost s 1 % 64 = 0 ∧ (gCtx s 1).versions.length < 262144 ∧ s.mem.lineErr = [] ∧ s.mem.noResp = [] := by decide

theorem slice_mid (a m c : Bytes) : slice (a ++ (m ++ c)) a.length m.length = m := by
  simp [slice]

theorem slice_pre (a m : Bytes) (k n : Nat) (h : k + n ≤ a.length) : slice (a ++ m) k n = slice a k n := by
  simp only [slice]
  rw [List.drop_append_of_le_length (by omega), List.take_append_of_le_length (by rw [List.length_drop]; omega)]

/-- A blob of page 2 under version 1 whose tag verifies, for every key, taint bitmap and ciphertext: its head, its tag, zeros, both. -/
def head1 : Bytes := blobHead 1 0x20000 1 true 0
def blob (k bm ct : Bytes) : Bytes := head1 ++ (gcmTag k (blobIv 0x20000 1) (head1 ++ bm) ct ++ (List.replicate 16 0 ++ (bm ++ ct)))

theorem witness_Import (k bm ct : Bytes) (hb : bm.length = 128) (hc : ct.length = 65536) :
    fld (wordAt (blob k bm ct) 0) 47 16 * 65536 = 0x20000 ∧ wordAt (blob k bm ct) 8 = 1 ∧
    gcmTag k (blobIv 0x20000 1) (slice (blob k bm ct) 0 32 ++ slice (blob k bm ct) 0x40 128) (slice (blob k bm ct) 0xC0 65536) = slice (blob k bm ct) 0x20 16 ∧
    Tab.get 0 (gCtx { chipMap 2 2 with ctxs := [(1, { ctx1 with versions := [(2, 1)] })] } 1).versions 2 = 1 := by
  have hh : head1.length = 32 := by decide
  have ht := gcmTag_length k (blobIv 0x20000 1) (head1 ++ bm) ct
  have hw : ∀ o, o + 8 ≤ 32 → wordAt (blob k bm ct) o = wordAt head1 o := fun o ho => by
    simp only [wordAt, blob]; rw [slice_pre _ _ _ _ (by rw [hh]; exact ho)]
  have w0 := hw 0 (by omega)
  have w8 := hw 8 (by omega)
  have h0 : slice (blob k bm ct) 0 32 = head1 := by
    have := slice_mid [] head1 (gcmTag k (blobIv 0x20000 1) (head1 ++ bm) ct ++ (List.replicate 16 0 ++ (bm ++ ct)))
    rw [hh] at this; exact this
  have h2 : slice (blob k bm ct) 0x20 16 = gcmTag k (blobIv 0x20000 1) (head1 ++ bm) ct := by
    have := slice_mid head1 (gcmTag k (blobIv 0x20000 1) (head1 ++ bm) ct) (List.replicate 16 0 ++ (bm ++ ct))
    rw [hh, ht] at this; exact this
  have h3 : slice (blob k bm ct) 0x40 128 = bm := by
    have := slice_mid (head1 ++ (gcmTag k (blobIv 0x20000 1) (head1 ++ bm) ct ++ List.replicate 16 0)) bm ct
    simp only [List.length_append, hh, ht, hb, List.length_replicate, List.append_assoc] at this; exact this
  have h4 : slice (blob k bm ct) 0xC0 65536 = ct := by
    have := slice_mid (head1 ++ (gcmTag k (blobIv 0x20000 1) (head1 ++ bm) ct ++ (List.replicate 16 0 ++ bm))) ct []
    simp only [List.length_append, hh, ht, hb, hc, List.length_replicate, List.append_assoc, List.append_nil] at this; exact this
  refine ⟨?_, ?_, ?_, by decide⟩
  · rw [w0]; decide +kernel
  · rw [w8]; decide +kernel
  · rw [h0, h2, h3, h4]

theorem witness_MappingBusy : let s : State := { chip with ctxs := [(1, { ctx1 with mmu := { busy := true, result := 1 } })] }
    HostWrites s 1 ∧ mmuReach s 1 1 = true ∧ (gCtx s 1).mmu.busy = true ∧ (gCtx s 1).mmu.waitChip = false :=
  ⟨⟨rfl, rfl, rfl, rfl⟩, rfl, rfl, rfl⟩

theorem witness_Hbm : isReady chip = true ∧ 64 * 0xD7FFFFFF < hbmEnd ∧ chip.mem.lineErr = [] := by decide

/-! ## Witnesses: units, barges, flights, codec lanes -/

/-- A held command of context 1. -/
def held (d : Bytes) (pos : Nat) (waiting : Bool) : UCmd := { id := 1, owner := .none, ctx := 1, cmd := d, pos := pos, waiting := waiting }

def chipU (u : Nat) (c : UCmd) : State := { chipM with units := [(unitKey 1 0 u, { held := [c] })] }

/-- INVAL of entry 0 (R321): OP 3, COUNT 1. -/
def invalCmd : Bytes := wordsBytes [0x0300000000000000, 0, 0, 1, 0, 0, 0, 0]

def invalRow : UnitRow := amuRowOf .inval 3 (fun e p _ _ => amuInvalStep e p)

theorem invalRow_mem : invalRow ∈ tableRows ++ featureRows ++ searchRows := by
  simp only [List.mem_append]
  exact .inr (by unfold searchRows; exact .tail _ (.tail _ (.head _)))

theorem cmdRuns_of {row : UnitRow} {cl id dst : Nat} {s : State} {c : UCmd} (hf : frontCmd s cl row.unit (fun x => x.id == id) = some c)
    (hp : isParked s (row.agent cl c).id = false) (h : ends (cmdWork row cl c dst { s with racc := 0 }) (fun r s' =>
      let t := endCmd (opClean (row.agent cl c).id s') cl row.unit (row.agent cl c) c 0
      r.done && r.code == 0 && !isParked t id && frontCmd t cl row.unit (fun x => x.id == id) == none) = true) :
    ∃ t, CmdRuns row cl id dst 0 s t := by
  obtain ⟨r, s', h1, h2⟩ := ends_ok h
  simp only [Bool.and_eq_true, beq_iff_eq, Bool.not_eq_true'] at h2
  exact ⟨_, .ends hf hp h1 h2.1.1.1 h2.1.1.2 rfl h2.1.2 h2.2⟩

theorem witness_UnitRows : ∃ t, RowMeets invalRow (chipU 2 (held invalCmd 1 false)) 0 (held invalCmd 1 false) ∧
    invalRow.ok (chipU 2 (held invalCmd 1 false)) (held invalCmd 1 false) = true ∧ aOp invalCmd = invalRow.op ∧
    invalRow.starts (chipU 2 (held invalCmd 1 false)) 0 (held invalCmd 1 false) = true ∧ 0 < invalRow.fuel invalCmd ∧
    CmdRuns invalRow 0 1 (invalRow.dst invalCmd) 0 (chipU 2 (held invalCmd 1 false)) t := by
  obtain ⟨t, h⟩ := cmdRuns_of (row := invalRow) (cl := 0) (id := 1) (dst := 0) (s := chipU 2 (held invalCmd 1 false)) (c := held invalCmd 1 false)
    (by decide +kernel) (by decide +kernel) (by decide +kernel)
  exact ⟨t, ⟨by decide +kernel, by decide +kernel, by decide +kernel, by decide +kernel⟩, by decide +kernel, by decide +kernel, by decide +kernel, by decide +kernel, h⟩

theorem witness_UnitRows_rejected : invalRow.ok (chipU 2 (held (List.replicate 64 0) 0 false)) (held (List.replicate 64 0) 0 false) = false := by decide +kernel

theorem test_inval : after (.inval 0 .queue) { chipU 2 (held invalCmd 0 false) with amu := [(0, { valid := true, prio := 1 })] }
    (fun t => !(gAmu t 0 0).valid && (gAmu t 0 0).prio == 1 && (gUnit t (unitKey 1 0 2)).held == []) = true := by decide +kernel

/-- An update waits behind an older BUILD that writes the AMU (R324). -/
theorem witness_UnitRows_waits : let s := { chipU 2 (held invalCmd 1 false) with units := [(unitKey 1 0 1, { held := [{ held (wordsBytes [0x0900010000000000, 0, 0, 0, 0, 0, 0, 0]) 0 false with id := 0, scratch := leBytes 0 16 }] }), (unitKey 1 0 2, { held := [held invalCmd 1 false] })] }
    invalRow.unit = 2 ∧ invalRow.starts s 0 (held invalCmd 1 false) = false := by decide +kernel

/-- What an operation that ends well leaves. -/
def left {α : Type} (m : EStateM.Result Halt State α) : State := match m with | .ok _ s => s | .error _ s => s

theorem ends_eq {α : Type} [DecidableEq α] {m : EStateM.Result Halt State α} {x : α} (h : ends m (fun a _ => decide (a = x)) = true) : m = .ok x (left m) := by
  cases m with
  | ok a s => simp only [ends, decide_eq_true_eq] at h; subst h; rfl
  | error e s => cases h

/-- A flight whose one stage has a command at VA 0x10000: a LOOKUP (R321: OP 4, COUNT 1) or a decompression (R368: OP 2, FIRST, FINAL). -/
def lookCmd : Bytes := wordsBytes [0x0400000000000000, 0, 0, 1, 0, 0, 0, 0]
def jobRec : Bytes := wordsBytes [0x0200C00000000000, 0, 0, 0, 0, 0, 0, 0]

def stage1 (u : Word) : Stage := { rec_ := wordsBytes [u <<< 53 ||| 0x10000, 0x10100, 1, 0] }

def flight1 (st : Stage) : Flight :=
  { id := 1, cl := 0, owner := .none, ctx := 1, hdr := wordsBytes [0, 0, 0x10200, 0, 0x40, 0x10080, 0x10140, 1], stages := [st], active := true }

def chipF (cmd : Bytes) (f : Flight) : State := { chipM with flights := [f], mem := { chipM.mem with hbm := Tab.setMany 0 [] 0 cmd } }

def flightIn (s : State) : Flight := (flightOf s 1).getD (flight1 (stage1 0))
def stageIn (s : State) : Stage := (stageNow s 1 0).getD (stage1 0)

def lookRow : UnitRow := amuRowOf .lookup 4 (fun e p _ _ => amuLookupStep e p)

/-- The LOOKUP's flight with its input ended, with its command read, and when the unit has begun to serve it. -/
def lookF : Flight := flight1 (stage1 2)
def lookFed : State := stageFed (chipF lookCmd lookF) lookF 0
def lookRead : EStateM.Result Halt State (Bytes × Bool) := readVa (stageAgent lookF 0) (stCmd (stage1 2).rec_) 64 { lookFed with racc := 0 }
def lookServed : State := served (uStage (opClean (stageAgent lookF 0).id (left lookRead)) 1 0 (fun x => { x with cmd := some lookCmd })) 0 2 (stageKey 1 0)
/-- Then it has the end marker, and then its last element. -/
def lookEnded : State := takeBerth (stepOnce lookServed 0 2 (flightIn lookServed) 0 (stageIn lookServed) lookCmd lookRow.sstep) 0 2 (flightIn lookServed) 0 (stageAgent (flightIn lookServed) 0)
def lookDone : State := stepOnce lookEnded 0 2 (flightIn lookEnded) 0 (stageIn lookEnded) lookCmd lookRow.sstep

theorem witness_FlightStages : StageMeets (chipF lookCmd lookF) 0 lookRow.unit lookF 0 (stage1 2) ∧ (stage1 2).cmd = none ∧
    isParked lookFed (stageAgent lookF 0).id = false ∧ stCmd (stage1 2).rec_ % 64 = 0 ∧ lookRead = .ok (lookCmd, false) (left lookRead) ∧
    lookRow.sok (chipF lookCmd lookF) (stageEnv lookF 0 0 (stage1 2) lookCmd) = true ∧ aOp lookCmd = lookRow.op ∧
    stageNow lookFed 1 0 = some (stage1 2) ∧
    lookRow.sok (chipF lookCmd lookF) (stageEnv lookF 0 0 (stage1 2) (List.replicate 64 0)) = false :=
  ⟨⟨by decide +kernel, by decide +kernel, rfl, rfl, by decide +kernel, by decide +kernel, rfl, by decide +kernel, rfl, by decide +kernel⟩, rfl,
    by decide +kernel, by decide +kernel, ends_eq (by decide +kernel), by decide +kernel, by decide +kernel, by decide +kernel, by decide +kernel⟩

/-- Its turn: it takes the end marker, works to its last element, and sets its own end marker. -/
theorem witness_FlightTurn : StageTurn lookRow 0 1 0 2 1 lookServed (uStage lookDone 1 0 (fun x => { x with ring := { x.ring with ended := true } })) :=
  .takes (f := flightIn lookServed) (st := stageIn lookServed) (by decide +kernel) (by decide +kernel) (by decide +kernel) (by decide +kernel) (by decide +kernel)
    (by decide) rfl (by decide +kernel) (by decide +kernel) rfl (by decide +kernel)
    (.works (f := flightIn lookEnded) (st := stageIn lookEnded) (by decide +kernel) (by decide +kernel) (by decide +kernel) (by decide +kernel) (by decide +kernel)
      (by decide) rfl (by decide +kernel)
      (.ends (f := flightIn lookDone) (st := stageIn lookDone) (by decide +kernel) (by decide +kernel) (by decide +kernel) (by decide +kernel) (by decide +kernel)))

/-- R240: behind its last element a stage sets the end marker of its ring. -/
theorem test_stage_ends : after (.lookup 0 (.stage 1 0)) (chipF lookCmd lookF) (fun t => (stageIn t).ring.ended && (flightIn t).err == none) = true := by decide +kernel

/-- A stage with one berth to hand on and one to take: its own ring has a free berth, IN_RING a full one. -/
def berthF : Flight :=
  { flight1 { stage1 2 with queue := [{ lines := [(List.replicate 64 7, true)] }], ring := { free := 1 } } with inRing := { full := [(0, 64)] } }

theorem witness_Berths : let s := chipF [] berthF
    isParked s (stageAgent berthF 0).id = false ∧ (feeder berthF 0).full = (0, 64) :: [] ∧ (stageIn s).queue = { lines := [(List.replicate 64 7, true)] } :: [] ∧
    ends (readParts (stageAgent berthF 0) ((feederAt berthF 0).1 + 64) 64 { s with racc := 0 }) (fun ps _ => partsLen ps == 64) = true ∧
    ends ((do
        writeParts (stageAgent berthF 0) 0x10140 (laid [(List.replicate 64 7, true)] 0x10140)
        bumpFilled (stageAgent berthF 0) 0x10100 1 : M Unit) { s with racc := 0 }) (fun _ s => Tab.get 0 s.mem.hbm 0x17F == 7) = true := by decide +kernel

/-- Table 0 of context 1: 1 row of 4 bytes of FP32, its descriptor at VA 0x10040, its map of one shard at 0x10080, that shard's halves at
0x10200 (R255, R260, R274); the half of step 0 is applied. -/
def tabD : Bytes := wordsBytes [0x0600000400000004, 0x10080, 1, 0, 0, 0, 0, 0]
def tabM : Bytes := wordsBytes [1, 0, 0, 0, 0, 0, 0, 0, 0, 0x10100, 0x10200, 0]

/-- APPLY of step 0 in class 1 (R265: OP 5, NBAG 1). -/
def applyCmd : UCmd := held (wordsBytes [0x0540000000000000, 0, 0, 0, 0, 0, 1, 0]) 0 false

def chipT (c : UCmd) : State :=
  { chipU 0 c with
    ctxs := [(0, { st := .bound }), (1, { ctx1 with bind := { ctx1.bind with man := some { man1 with ntables := 1, tdirVa := 0x10040 } } })]
    mem := { chipM.mem with hbm := Tab.setMany 0 (Tab.setMany 0 (Tab.setMany 0 [] 0x40 tabD) 0x80 tabM) 0x200 (wordBytes 0x30000) } }

theorem witness_Apply : frontCmd (chipT applyCmd) 0 0 (fun c => !c.waiting) = some applyCmd ∧ holds (chipT applyCmd) 1 = true ∧
    clServes (chipT applyCmd) 0 = true ∧ applyCmd.cmd.length = 64 ∧
    tuOk false applyCmd.cmd = true ∧ aOp applyCmd.cmd = 5 ∧ isParked (chipT applyCmd) (tuAgent 0 applyCmd).id = false ∧ applyCmd.scratch = [] ∧
    ends (applyWait (tuEnv 0 applyCmd) { chipT applyCmd with racc := 0 }) (fun r _ => r.2.1 && r.1.length == 168) = true := by decide +kernel

def applyOn : UCmd := { applyCmd with scratch := tabD ++ tabM ++ List.replicate 8 0 }
def applyWaits : UCmd := { applyOn with waiting := true }

theorem witness_ApplyStart : frontCmd (chipT applyWaits) 0 0 (applyNext (chipT applyWaits) 0) = some applyWaits ∧
    uHeld (chipT applyWaits) 1 0 0 1 (fun c => { c with waiting := false }) = chipT applyOn ∧ ∃ t, CmdRuns applyStartRow 0 1 0 0 (chipT applyOn) t :=
  ⟨by decide +kernel, by decide +kernel, cmdRuns_of (c := applyOn) (by decide +kernel) (by decide +kernel) (by decide +kernel)⟩

theorem witness_DaGate : let s := { chipU 4 (held invalCmd 0 true) with ctxs := [(0, { st := .bound }), (1, { ctx1 with da := { sat := 2 } })] }
    frontCmd s 0 4 (fun _ => true) = some (held invalCmd 0 true) ∧ (held invalCmd 0 true).waiting = true ∧
    holds s 1 = true ∧ clServes s 0 = true ∧ daOpen s 1 0 invalCmd [] = true ∧ gateStages s 0 = [] ∧
    clServes { s with fw := { s.fw with clOff := [0] } } 0 = false ∧
    (readyKeys (uHeld (gateCount s 1) 1 0 4 1 (fun x => { x with waiting := false })) 0 4).all (· == 0) = true := by decide +kernel

/-- A layer whose gate waits for a first barge of queue 0. -/
theorem witness_DaGateClosed : daOpen chip 1 0 (wordsBytes [1, 0, 0, 0, 0, 0, 0, 0]) (wordsBytes [0, 0, 0, 0, 0, 0, 0, 0] ++ leBytes 0 8) = true := by decide +kernel

theorem witness_Amu : Tab.wf {} chip.amu = true ∧ amuFind { chip with amu := [(3, { valid := true, prio := 1 }), (5, { valid := true, prio := 2 })] } 0 0 =
    some (5, { valid := true, prio := 2 }) := by decide +kernel

theorem witness_Order : aOp (wordsBytes [0x0100000000000000]) = 1 ∧ oKt (wordsBytes [0x0100000000000000]) < 4 := by decide

/-- A copy of 64 bytes from VA 0x10000 (R213, R214), at its end and at its start; queue 0 has its ring at VA 0x10000. -/
def bdesc (pos : Nat) : BDesc := { id := 1, owner := .none, ctx := 1, d := wordsBytes [0x0140000000000000, 0x10000, 0x10080, 0x100000040, 0, 0, 0, 0], pIssue := 0, pos := pos }
def chipB (d : BDesc) : State := { chipM with queues := [(0, { ctx := some 1, weir := true, descs := [d] })] }

def chipR (d : BDesc) : State := { chipM with queues := [(0, { ctx := some 1, berths := 4, free := 4, ring := 0x10000, descs := [d] })] }

theorem witness_Barges_end : BargeRuns 0 0 (chipR (bdesc 64)) (bargeDone (chipR (bdesc 64)) 0 (bdesc 64)) ∧ 0 < bSize (bdesc 64).d * bCount (bdesc 64).d + 2 ∧
    (gQueue (bargeDone (chipR (bdesc 64)) 0 (bdesc 64)) 0).count ≠ (gQueue (chipR (bdesc 64)) 0).count :=
  ⟨.ends (desc := bdesc 64) (rest := []) (by decide +kernel) (by decide +kernel) (by decide +kernel) (by decide +kernel), by decide +kernel, by decide +kernel⟩

theorem witness_Barges_piece : 1 ≤ bSize (bdesc 0).d ∧
    ends (bargeMove (bargeAgent 1 0 0 1 1 .none) (gQueue (chipB (bdesc 0)) 0) (bdesc 0) { chipB (bdesc 0) with racc := 0 }) (fun r _ => r == (0, false)) = true := by
  decide +kernel

def waitR : RTx := { rid := 7, owner := 1, ctx := 1, kind := 0, addr := 0, len := 8 }
def tow1 : TowOp := { id := 1, owner := .none, ctx := 1, cl := 0, d := wordsBytes [0x0200000000000008, 0, 0x10000, 0, 0x1122, 0, 0, 0] }

theorem witness_BargeTimeout : let s := { chipB (bdesc 0) with rtxs := [waitR] }
    (gQueue s 0).descs = bdesc 0 :: [] ∧ holds s 1 = true ∧ ∃ r ∈ s.rtxs, r.owner = (bdesc 0).id ∧ r.st ≠ 1 :=
  ⟨by decide +kernel, by decide, waitR, .head _, rfl, by decide⟩

theorem witness_Towpath : let s := { chipM with tows := [tow1] }
    s.tows.find? (fun t => t.id == 1) = some tow1 ∧ holds s tow1.ctx = true ∧ isParked s 1 = false ∧ tOp tow1.d = 2 ∧
    ends (towMove (towAgent 1 0 1 .none) tow1 { s with racc := 0 }) (fun _ s => Tab.getMany 0 s.mem.hbm 0 2 == [0x22, 0x11]) = true := by decide +kernel

/-- A flight whose last stage has set its end marker, and one whose output has a granule to write. -/
def overF : Flight := flight1 { stage1 2 with ring := { ended := true } }
def outF : Flight := { flight1 (stage1 2) with obuf := [(List.replicate 64 9, false)] }

theorem witness_Flights : ∃ s', flightOf (chipF [] overF) 1 = some overF ∧ overF.active = true ∧ holds (chipF [] overF) 1 = true ∧
    OutRuns 1 0 (chipF [] overF) (drainPiece (chipF [] overF) overF) ∧ 0 < 2 * fDstMax overF.hdr + 3 ∧
    flightOf (drainPiece (chipF [] overF) overF) 1 = some overF ∧ flightOver overF = true ∧ flightOver lookF = false ∧
    isParked (drainPiece (chipF [] overF) overF) (outAgent overF).id = false ∧
    writeVa (outAgent overF) (fDone overF.hdr) (flightRecord overF.filled overF.pos overF.tainted (flightCode overF).1 (flightCode overF).2) false
      { drainPiece (chipF [] overF) overF with racc := 0 } = .ok () s' := by
  obtain ⟨u, s', h, _⟩ := ends_ok (m := writeVa (outAgent overF) (fDone overF.hdr) (flightRecord overF.filled overF.pos overF.tainted (flightCode overF).1 (flightCode overF).2)
    false { drainPiece (chipF [] overF) overF with racc := 0 }) (p := fun _ _ => true) (by decide +kernel)
  exact ⟨s', by decide +kernel, rfl, by decide +kernel, .rests (by decide +kernel) (by decide +kernel), by decide +kernel, by decide +kernel, by decide +kernel,
    by decide +kernel, by decide +kernel, h⟩

theorem witness_FlightOutput : outF.err = none ∧ 64 ≤ partsLen outF.obuf ∧ outF.pos < fDstMax outF.hdr ∧ isParked (chipF [] outF) (outAgent outF).id = false ∧
    ends (writeVa (outAgent outF) (bDst outF.hdr) (List.replicate 64 9) false { chipF [] outF with racc := 0 })
      (fun _ s => flightOf s 1 == some outF && Tab.get 0 s.mem.hbm 0x200 == 9) = true := by decide +kernel

/-- R241: output beyond DST_MAX ends the flight with E_RANGE. -/
theorem test_output_beyond : (flightIn (drainPiece (chipF [] { outF with pos := 64 }) { outF with pos := 64 })).err = some (eRange, 0) := by decide +kernel

def codecF (st : Stage → Stage) : Flight := flight1 (st (stage1 5))
def chipL (st : Stage → Stage) (l : Lane) : State := { chipF jobRec (codecF st) with lanes := [(0, l)] }
def fedF : Flight := { codecF id with inRing := { ended := true } }

theorem witness_CodecTake : let p := refreshWait (pumpCodecs (chipL id {}))
    p.codecWait = [] ++ (1, 0) :: [] ∧ flightOf p 1 = some fedF ∧ fedF.stages[0]? = some (stage1 5) ∧ holds p 1 = true ∧ stUnit (stage1 5).rec_ = 5 ∧
    lanesHeld p 1 false < (manOf p 1).fastMax ∧ laneFree (gLane p 0) = true ∧
    (let m := refreshWait (uStage (uLane (countStall (useFree p) 1 5) 0 (fun x => { x with ctx := some 1, flight := 1, stage := 0 })) 1 0 (fun x => { x with lane := some 0 }));
     isParked m (laneAgent fedF 0 0).id = false ∧
     ends (checkJob (laneAgent fedF 0 0) fedF 0 0 (stage1 5) { m with racc := 0 }) (fun r _ => r.1 == jobRec && cOp r.1 == 2 && cChain r.1 == 0) = true) := by
  decide +kernel

def busy : Lane := { ctx := some 1, flight := 1, stage := 0 }
def onLane (st : Stage) : Stage := { st with lane := some 0, cmd := some jobRec, job := some {} }
def laneFed : State := laneTake 0 1 0 turnFuel (stageFed (chipL onLane busy) (codecF onLane) 0)
def laneDone : State :=
  jobDone (opClean (laneAgent (flightIn laneFed) 0 0).id { laneFed with racc := 0 }) (flightIn laneFed) 0 0 jobRec 0 (runJob jobRec true false {} [])
    (jobBerths jobRec false (berthSize (stShift (stage1 5).rec_)) (runJob jobRec true false {} [])) (runJob jobRec true false {} []).endCode []

theorem witness_CodecJob : let s := chipL onLane busy
    flightOf s (gLane s 0).flight = some (codecF onLane) ∧ (codecF onLane).stages[0]? = some (onLane (stage1 5)) ∧ (gLane s 0).ctx = some 1 ∧
    (gLane s 0).saving = false ∧ holds s 1 = true ∧ (gLane s 0).fenced = false ∧ (gLane (chipL onLane { saving := true }) 0).saving = true ∧
    flightOf laneFed 1 = some (flightIn laneFed) ∧ stageNow laneFed 1 0 = some (stageIn laneFed) ∧ (flightIn laneFed).err = none ∧
    (stageIn laneFed).inEnd = true ∧ (stageIn laneFed).done = false ∧ (stageIn laneFed).cmd = some jobRec ∧ (stageIn laneFed).job = some {} ∧
    isParked laneFed (laneAgent (flightIn laneFed) 0 0).id = false ∧ cState jobRec = 0 ∧ cChain jobRec = 0 := by decide +kernel

theorem witness_CodecPut : (flightOf (lanePut 0 1 0 turnFuel laneDone) 1).isSome = true ∧ flightOf laneDone 1 = some (flightIn laneDone) ∧
    (stageIn laneDone).done = true ∧ (stageIn laneDone).queue = [] := by decide +kernel

/-! ## Witnesses: Lockway -/

/-- Port 0 is up towards chip 1 and chip 0 is a member of a formed reach that chip 1 leads; context 1 has a Lockway key. -/
def chipP : State :=
  { chip with
    cfg := { chip.cfg with topo := 2, tickMaster := 1, ports := [0xFF1001], topoX := 2 }
    reach := { rstate := 1, members := 3, key := [1] }
    ctxs := [(0, { st := .bound }), (1, { ctx1 with bind := { ctx1.bind with keys := { lw := [2] } } })]
    ports := [(0, { st := 2, lanes := 0xFF, peerChip := 1 })] }

/-- A message of chip 1 to chip 0, before it is sealed. -/
def plain (ty ctx : Nat) (sys : Bool) (w3 : Word) (rid : BitVec 16) (payload : Bytes) : Msg :=
  { w0 := header0 ty 1 ctx 1 0 (payload.length / 16) sys false 0 rid, w1 := 5, w2 := 0, w3 := w3, payload := payload, tag := [] }

/-- The state in which a message for this chip is opened, and what opening it leaves. -/
def seenIn (s : State) (m : Msg) : State :=
  sendIdle (uPort (if mCtx m != 0 then wakeUp s 4 else s) 0 (fun p => { p with owed := Tab.modify 0 p.owed (msgCvc m) (· + msgChunks m) })) 0 false

def winOf (s : State) (m : Msg) : Word × BitVec 1024 :=
  if mSys m then Tab.get (0, 0) s.reach.win (mSrc m * 4 + mClass m) else Tab.get (0, 0) (gCtx s (mCtx m)).lw.win (mSrc m * 4 + mClass m)

def openedIn (s : State) (m : Msg) : State :=
  match windowStep (winOf s m) m.w1 with
  | none => s
  | some w =>
    if mSys m then { s with reach := { s.reach with win := Tab.set (0, 0) s.reach.win (mSrc m * 4 + mClass m) w } }
    else countRx (uCtx s (mCtx m) (fun c => { c with lw := { c.lw with win := Tab.set (0, 0) c.lw.win (mSrc m * 4 + mClass m) w } })) (mCtx m)

/-- What a message must satisfy before its tag is looked at. -/
def comes (s : State) (ty : Nat) (m : Msg) (key : Bytes) : Bool :=
  isReady s && portUp (gPort s 0) && mType m == ty && decide (Tab.get 0 (gPort s 0).rxUsed (msgCvc m) + msgChunks m ≤ bufSize (msgCvc m)) &&
  !(badMsg s m || !auxOk m || m.payload.length != 16 * mLen m) && (if mCtx m != 0 then wakeUp s 4 else s).cfg.chipNum == mDst m &&
  msgKey (seenIn s m) m == key && !key.isEmpty && (mSys m == (mCtx m == 0 || mType m == tTick || mType m == tMgmt) || (mSys m && mType m == tTrig)) &&
  (windowStep (winOf (seenIn s m) m) m.w1).isSome

/-- What is sealed with the right key is taken. -/
theorem sealed_taken {s : State} {ty : Nat} {m : Msg} {key : Bytes} (h : comes s ty m key = true) :
    recvMsg s 0 ty (sealMsg key m) = .take { sealMsg key m with payload := gcmCrypt key (msgIv m) (sealMsg key m).payload } (openedIn (seenIn s m) m) := by
  simp only [comes, Bool.and_eq_true, Bool.not_eq_true', decide_eq_true_eq, beq_iff_eq] at h
  obtain ⟨⟨⟨⟨⟨⟨⟨⟨⟨h1, h2⟩, h3⟩, h4⟩, h5⟩, h6⟩, h7⟩, h8⟩, h9⟩, h10⟩ := h
  obtain ⟨w, hw⟩ := Option.isSome_iff_exists.mp h10
  have hl : (sealMsg key m).payload.length = m.payload.length := gcmCrypt_length _ _ _
  have hc : msgChunks (sealMsg key m) = msgChunks m := by simp only [msgChunks, hl]; rfl
  have hk : msgKey (seenIn s m) (sealMsg key m) = key := h7
  have ho : openMsg (seenIn s m) (sealMsg key m) = .take { sealMsg key m with payload := gcmCrypt key (msgIv m) (sealMsg key m).payload } (openedIn (seenIn s m) m) := by
    have e2 : (gcmTag key (msgIv m) (msgAad m) (sealMsg key m).payload != (sealMsg key m).tag) = false := by
      simp [sealMsg]
    unfold openMsg
    simp only [hk]
    have r1 : mSys (sealMsg key m) = mSys m := rfl
    have r2 : mType (sealMsg key m) = mType m := rfl
    have r3 : mCtx (sealMsg key m) = mCtx m := rfl
    have r4 : msgIv (sealMsg key m) = msgIv m := rfl
    have r5 : msgAad (sealMsg key m) = msgAad m := rfl
    have r6 : mSrc (sealMsg key m) = mSrc m := rfl
    have r7 : mClass (sealMsg key m) = mClass m := rfl
    have r8 : (sealMsg key m).w1 = m.w1 := rfl
    simp only [r1, r2, r3, r4, r5, r6, r7, r8, e2, h8, Bool.or_false, Bool.false_and, Bool.false_eq_true, if_false]
    have h9' : (mSys m == (mCtx m == 0 || mType m == tTick || mType m == tMgmt) || mSys m && mType m == tTrig) = true := by
      simp only [Bool.or_eq_true, Bool.and_eq_true, beq_iff_eq] at h9 ⊢; exact h9
    simp only [h9', Bool.not_true, Bool.false_eq_true, if_false]
    have hw' : windowStep (if mSys m = true then Tab.get (0, 0) (seenIn s m).reach.win (mSrc m * 4 + mClass m)
        else Tab.get (0, 0) (gCtx (seenIn s m) (mCtx m)).lw.win (mSrc m * 4 + mClass m)) m.w1 = some w := hw
    simp only [hw', openedIn, hw, Bool.and_false, Bool.false_and, Bool.false_eq_true, if_false]
  have hb : badMsg s (sealMsg key m) = badMsg s m := rfl
  have ha : auxOk (sealMsg key m) = auxOk m := rfl
  unfold recvMsg
  have r3 : mCtx (sealMsg key m) = mCtx m := rfl
  have r9 : msgCvc (sealMsg key m) = msgCvc m := rfl
  have r10 : mType (sealMsg key m) = mType m := rfl
  have r11 : mDst (sealMsg key m) = mDst m := rfl
  have r12 : mLen (sealMsg key m) = mLen m := rfl
  simp only [r3, r9, r10, r11, r12, hc, hl, hb, ha, h1, h2, h3, h5, h6, bne_self_eq_false, Bool.not_true, Bool.or_self, Bool.false_eq_true, if_false, Nat.not_lt.mpr h4]
  exact ho

/-- A message as it is taken. -/
def opened (key : Bytes) (m : Msg) : Msg := { sealMsg key m with payload := gcmCrypt key (msgIv m) (sealMsg key m).payload }

/-- A published vector: AES-256-GCM with a key, an IV and data of zeros (SP 800-38D's test case 13). -/
theorem test_gcm : gcmTag [] (List.replicate 12 0) [] [] = [0x53, 0x0f, 0x8a, 0xfb, 0xc7, 0x45, 0x36, 0xb9, 0xa9, 0x63, 0xb4, 0xf1, 0xc4, 0xcb, 0x73, 0x8b] := by
  decide +kernel

theorem witness_Messages : isReady chipP = true ∧ portUp (gPort chipP 0) = true ∧ portUp (gPort chip 0) = false ∧
    (let m := { plain tRdReq 1 false 8 9 [] with tag := List.replicate 16 0 };
     mType m = tRdReq ∧ Tab.get 0 (gPort chipP 0).rxUsed (msgCvc m) + msgChunks m ≤ bufSize (msgCvc m) ∧ (badMsg chipP m || !auxOk m || m.payload.length != 16 * mLen m) = false ∧
     mDst m = chipP.cfg.chipNum ∧ mSys m = false ∧ mCtx m ≠ 0 ∧ (gCtx chipP (mCtx m)).st ≠ .free ∧
     gcmTag (gCtx chipP (mCtx m)).bind.keys.lw (msgIv m) (msgAad m) m.payload ≠ m.tag) ∧
    (badMsg chipP (plain tRdReq 1 false 0xF000 9 []) || !auxOk (plain tRdReq 1 false 0xF000 9 [])) = true ∧
    ¬ Tab.get 0 [(3, 4095)] (msgCvc (plain tRdReq 1 false 8 9 [])) + msgChunks (plain tRdReq 1 false 8 9 []) ≤ bufSize (msgCvc (plain tRdReq 1 false 8 9 [])) := by
  decide +kernel

/-- Chip 0 of the same reach, with local page 0 owned by context 1; a request waits for its answer; a collective stands. -/
def chipO : State := { chipP with mem := { own := [(0, 2)] } }
def coll1 (id : BitVec 16) : Coll := { idx := 0, op := 1, red := 0, et := 0, collId := id, len := 64, src := 0, dst := 0, sent := true, pounds := 64 }
def chipC : State := { chipP with ctxs := [(1, { ctx1 with coll := some (coll1 0), bind := { ctx1.bind with keys := { lw := [2] } } })] }

/-- Every row's message is taken when it is sealed with its key. -/
theorem witness_MessagesTaken : ∀ row ∈ msgRows,
    (row.2 ≠ tMgmt → comes chipO row.2 (plain row.2 1 false 8 9 []) [2] = true) ∧ (row.2 = tMgmt → comes chipO row.2 (plain row.2 0 true 1 9 []) [1] = true) := by decide +kernel

theorem witness_TickMessage : comes chipO tTick (plain tTick 0 true 0 9 (List.replicate 16 0)) [1] = true := by decide +kernel

/-- R417: a read of what the context does not own is refused, one of its own page is served. -/
theorem witness_Targets :
    targetCode (openedIn (seenIn chipP (plain tRdReq 1 false 8 9 [])) (plain tRdReq 1 false 8 9 [])) (opened [2] (plain tRdReq 1 false 8 9 [])) 8 = some eDenied ∧
    targetCode (openedIn (seenIn chipO (plain tRdReq 1 false 8 9 [])) (plain tRdReq 1 false 8 9 [])) (opened [2] (plain tRdReq 1 false 8 9 [])) 8 = none ∧
    mLenB (opened [2] (plain tRdReq 1 false 8 9 [])) = 8 ∧ fld (opened [2] (plain tAmoReq 1 false 0x20 9 [])).w3 5 4 = 2 := by decide +kernel

theorem witness_Timeouts : let s := { chipP with rtxs := [{ waitR with owner := 9 }] }
    s.rtxs.find? (fun t => t.rid == 7 && t.st == 0) = some { waitR with owner := 9 } ∧ holds s 1 = true ∧ ownTimeout s { waitR with owner := 9 } = false ∧
    (∀ r ∈ s.rtxs, r.st ≠ 4) := by decide +kernel

theorem witness_Collectives : (gCtx (openedIn (seenIn chipC (plain tColl 1 false 0 9 [])) (plain tColl 1 false 0 9 [])) 1).coll = some (coll1 0) ∧ (coll1 0).op ≠ 0 ∧
    comes chipC tColl (plain tColl 1 false 0 9 []) [2] = true ∧ (coll1 0).collId = BitVec.ofNat 16 (fld (opened [2] (plain tColl 1 false 0 9 [])).w3 15 0) ∧
    (∀ n < 64, (gCtx State.reset n).st = .free) ∧ 64 ≤ (coll1 0).pounds := by decide +kernel

theorem witness_Ports :
    (let s := { chipP with ports := [(0, { st := 1, lanes := 0xFF, peerChip := 1 })] }
     isReady s = true ∧ portEnabled s 0 = true ∧ (gPort s 0).st = 1 ∧ 4 ≤ laneCount (gPort s 0) ∧ (gPort s 0).unacked = [] ∧ (gPort s 0).waitTx = [] ∧
     4 ≤ popN ((0x0F : BitVec 8) &&& BitVec.ofNat 8 (fld (s.cfg.ports.getD 0 0) 23 16)).toNat 8) ∧
    portUp (gPort chipP 0) = true ∧ (gPort chipP 0).lanes.getLsbD 7 = true ∧ 5 ≤ laneCount (gPort chipP 0) ∧
    laneCount ({ st := 3, lanes := 0x0F } : Port) ≤ 4 ∧ bitOf (chipP.cfg.ports.getD 0 0) (16 + 7) = true ∧
    portWired chipP 0 1 0 = true ∧ portWired chipP 0 1 5 = false := by decide +kernel

/-- A flit that is good: idle, or the next data flit. -/
theorem witness_Flits : (let b := flitBytes 0 0 0xFFF false 0 0 15 [];
      numAt b 248 8 = crc32c 0xFFFFFFFF (b.take 248) ∧ fld (wordAt b 0) 63 62 = 0 ∧ bitOf (wordAt b 0) 37 = false) ∧
    (let b := flitBytes 1 0 0xFFF false 0 0 15 [];
      numAt b 248 8 = crc32c 0xFFFFFFFF (b.take 248) ∧ fld (wordAt b 0) 63 62 = 1 ∧ BitVec.ofNat 12 (fld (wordAt b 0) 61 50) = (gPort chipP 0).rxLast + 1) ∧
    (gPort chipP 0).waitTx = [] := by decide +kernel

theorem witness_Torus : let s := { chip with cfg := { chip.cfg with topo := 1, topoX := 4, topoY := 2 } }
    s.cfg.topo = 1 ∧ 7 < s.cfg.topoX * s.cfg.topoY ∧ minPath s 7 9 0 = [3, 7] := by decide +kernel

/-! ## Witnesses: the host interface -/

def entry1 (op : Nat) (st : Nat) : SqEntry := { id := 1, op := op, order := false, sealed := false, cid := 7, host := 0, va := 0x10000, len := 64, steps := 1, tag := [], st := st }

def chipQ (l : List SqEntry) : State := { chipM with ctxs := [(0, { st := .bound }), (1, { ctx1 with ring := { sqTail := 1, entries := l } })] }

/-- The indices at the edge of a ring of 4: the tail a whole ring ahead is taken, an index 4 is outside it. -/
theorem witness_Doorbells : barOpen chip 1 = true ∧ ctxOf chip 1 = some 1 ∧ tOk chip 1 false = true ∧ isBound chip 1 = true ∧ chip.pm.st = 0 ∧ chip.pm.enterNext = false ∧
    fnOf chip 1 = some 1 ∧ (gFn chip 1).ringEn = true ∧ ringPos 2 0x10000 = some 4 ∧ ringPos 2 (gCtx chip 1).ring.sqHead = some 0 ∧ ringAhead 2 0 4 ≤ 2 ^ 2 ∧
    ringPos 2 4 = none ∧ ringAhead 2 0 0 ≤ ringAhead 2 0 0 := by decide +kernel

theorem witness_SqFetch : canFetch (chipQ []) 1 = true ∧ fnOf (chipQ []) 1 = some 1 ∧ entryOk (wordsBytes [0x0500000000000000, 0, 0, 0, 0, 0, 0, 0]) = true ∧
    entryOk (wordsBytes [0, 0, 0, 0, 0, 0, 0, 0]) = false := by decide +kernel

theorem witness_RunHaltNop : isIn chip 1 = true ∧ isRunning chip = true ∧ ∀ op ∈ [1, 2, 5], nextEntry (chipQ [entry1 op 0]) 1 op = some (entry1 op 0) := by decide

theorem witness_CopyIn : nextEntry (chipQ [entry1 3 0]) 1 3 = some (entry1 3 0) ∧ copyOn (chipQ [entry1 3 0]) 1 = true ∧ (startIn (chipQ [entry1 3 0]) 1 (entry1 3 0)).2 = true ∧
    (let t := copyInGo 1 1 2 (List.replicate 64 9) (startIn (chipQ [entry1 3 0]) 1 (entry1 3 0)).1;
     (gCtx t 1).ring.entries.find? (fun x => x.id == 1) = some { entry1 3 1 with pos := 64 } ∧ Tab.get 0 t.mem.hbm 63 = 9) ∧
    nextEntry (chipQ [{ entry1 3 0 with sealed := true, steps := 0 }]) 1 3 = some { entry1 3 0 with sealed := true, steps := 0 } ∧
    (0 : Word).toNat ≤ (gCtx chip 1).ring.lastNonce.toNat ∧ nextEntry (chipQ [entry1 3 1]) 1 3 = some (entry1 3 1) ∧
    ends (writeVa (copyAgent 1 (entry1 3 1)) 0x10000 (List.replicate 64 9) false { chipQ [entry1 3 1] with racc := 0 }) (fun _ _ => true) = true := by decide +kernel

/-- The granule at address 0 is lost: the entry ends with E_TMO_HBM at its first position. -/
theorem witness_CopyInLost : let s := { chipQ [entry1 3 1] with mem := { chipM.mem with noResp := [(0, true)] } };
    ends (writeVa (copyAgent 1 (entry1 3 1)) 0x10000 (List.replicate 64 9) false { s with racc := 0 }) (fun _ t => s.mem.noResp != t.mem.noResp) = true ∧
    (gCtx (copyInGo 1 1 2 (List.replicate 64 9) s) 1).ring.entries.find? (fun x => x.id == 1) = some { entry1 3 2 with code := eTmoHbm } := by decide +kernel

theorem witness_CopyOut : nextEntry (chipQ [entry1 4 1]) 1 4 = some (entry1 4 1) ∧ fnOf (chipQ [entry1 4 1]) 1 = some 1 ∧ copyOn (chipQ [entry1 4 1]) 1 = true ∧
    plainOk (chipQ [entry1 4 1]) 1 = true ∧
    (gCtx (copyOutGo 1 1 1 2 (chipQ [entry1 4 1])) 1).ring.entries.find? (fun x => x.id == 1) = some { entry1 4 1 with pos := 64 } ∧
    plainOk { chipQ [] with ctxs := [(1, { ctx1 with bind := { vf := some 1, man := some { man1 with permit := 0 } } })] } 1 = false ∧
    (gCtx (chipQ [entry1 4 2]) 1).ring.entries.find? (fun x => x.st == 2) = some (entry1 4 2) := by decide +kernel

/-- A pending manifest under handle 5; a BIND of context 2 to VF 2 is under way. -/
def chipS : State :=
  { chip with sec := { pending := [{ handle := 5, sess := 1, man := { man1 with ctx := 2 }, jobKey := [] }] }, hi := { chip.hi with handle := 5 } }
def chipG : State := { chipS with hi := { chipS.hi with busy := true, op := 1, bindNext := some (2, 2, 5) } }

theorem witness_Bind : HostWrites chipS 0 ∧ chipS.hi.busy = false ∧ (gCtx chipS 2).ending = 0 ∧ bindCode (setAcc chipS 0 0) 2 2 chipS.hi.handle = 0 ∧
    bindCode (setAcc chipS 0 0) 2 3 chipS.hi.handle ≠ 0 ∧ (gCtx chipS 1).st ≠ .free ∧ (gCtx chipS 1).ending = 0 ∧ (gCtx chipS 1).st ≠ .bound ∧ HostWrites chipS 1 ∧
    chipG.hi.busy = true ∧ chipG.hi.op = 1 ∧ chipG.hi.bindNext = some (2, 2, 5) ∧ bindCode chipG 2 2 5 = 0 ∧ (chipG.sec.pending.find? (fun p => p.handle == 5)).isSome = true ∧
    (gCtx { chip with ctxs := [(1, { ctx1 with ending := 2 })] } 1).ending = 2 :=
  ⟨⟨rfl, rfl, rfl, rfl⟩, rfl, rfl, by decide, by decide, by decide, rfl, by decide, ⟨rfl, rfl, rfl, rfl⟩, rfl, rfl, rfl, by decide, by decide, rfl⟩

theorem witness_FunctionResets : isReady chip = true ∧ (gFn chip 1).ctx = some 1 ∧ (gCtx chip 1).st ≠ .free ∧ (gFn chip 2).ctx = none ∧ (gFn chip 1).tdi = 0 ∧
    (gFn { chip with fns := [(1, { fn1 with tdi := 1 })] } 1).tdi = 1 ∧ ({ chip with sec := { sessions := [{ id := 1, ready := true, key := [] }] } } : State).sec.sessions.any
      (fun x => x.id == 1 && x.ready) = true := by decide

/-- Function 1 in RUN with its window on context memory, and its context under expert control. -/
def chipW : State := { chipM with fns := [(0, { memSpace := true }), (1, { fn1 with bwAddr := 0x10000, bwSpace := true, tdi := 2 })],
                                  ctxs := [(0, { st := .bound }), (1, { ctx1 with expert := true })] }

theorem witness_Burst : barOpen chipW 1 = true ∧ tOk chipW 1 true = true ∧ (ctxOf chipW 1).isSome = true ∧ burstTarget chipW 1 true 0x10000 8 = .memory 1 ∧
    burstTarget chip 0 false 0xFFFF8 8 = .log ∧ burstTarget chip 0 false 0x100000 8 = .none ∧
    burstTarget { chip with boot := { chip.boot with upd := 1 } } 0 true 0x41EFFFF8 8 = .staging ∧
    ends (writeVa (burstAgent 1 1) 0x10000 [1, 2, 3, 4, 5, 6, 7, 8] false { chipW with racc := 0 }) (fun _ s => Tab.get 0 s.mem.hbm 7 == 8) = true := by decide +kernel

theorem witness_Registers : barOpen chip 1 = true ∧ chip.boot.lkcFailed = false ∧ tOk chip 1 false = true ∧ isReady chip = true ∧ ctxOf chip 2 = none ∧ (ctxOf chip 1).isSome = true ∧
    (match regRead chip 1 0x2000 with | .error c => c == eDenied | .ok _ => false) = true ∧ (match regRead chip 0 0x1000 with | .ok _ => true | .error _ => false) = true ∧
    (match regRead chip 1 0x20000 with | .error c => c == eRange | .ok _ => false) = true ∧
    writeCode chip 1 0x20000 = eRange ∧ writeCode chip 1 0x20 = 0 := by decide +kernel

def man0 : Manifest := { man1 with consent := 0 }

theorem witness_Settings : HostWrites chip 1 ∧ owns chip 1 2 = false ∧ owns chipW 1 1 = true ∧ isExpert chipW 1 = true ∧ isExpert chip 1 = false ∧ vf 1000000 19 0 = 1000000 ∧
    vf 0x1000000 24 0 = 16 * 2 ^ 20 ∧ consentTrace chip 1 = true ∧ (gCtx chip 1).tj.state ≠ 2 ∧
    consentTrace { chip with ctxs := [(1, { ctx1 with bind := { vf := some 1, man := some man0 } })] } 1 = false :=
  ⟨⟨rfl, rfl, rfl, rfl⟩, by decide, by decide, by decide, by decide, by decide, by decide, by decide, by decide, by decide⟩

/-! ## Witnesses: the tick, power, boot -/

theorem witness_Ticks : ticksRun chip = false ∧ ticksRun { chip with reach := { rstate := 2 } } = true ∧ isMaster chip = true ∧ isMaster chipP = false ∧
    (segOf chip 1 0).present = true ∧ (segOf chip 1 0).committed = false ∧ (segOf chip 1 0).started = true ∧ segReached chip 1 0 (segOf chip 1 0) = false ∧
    segReached { chip with threads := [] } 1 0 (segOf chip 1 0) = true := by decide +kernel

/-- The cluster behind logical number 0 fails its scrub. -/
theorem witness_Scrub : let s := { chip with fw := { chip.fw with map := [(0, 1)], scrubBad := [0] } }
    isReady chip = true ∧ 1 ∉ s.fw.scrubBad ∧ Tab.get 0 s.fw.map 0 = 0 + 1 ∧ 0 ∈ s.fw.scrubBad ∧ (scrubTick s).fw.fenced = 1 ∧ Tab.get 0 (scrubTick s).fw.map 0 = 2 ∧ 0 ∈ (scrubTick s).fw.clOff := by decide +kernel

/-- The first tick of a chip that runs alone is pound 0 (R41). -/
theorem test_first_tick : after .tick { chip with threads := [], ctxs := [(0, { st := .bound })], rot := {}, reach := { rstate := 2 } } (fun t => t.tick.started && t.tick.pound == 0) = true := by
  decide +kernel

/-- R45: a segment whose threads have ended commits its step at the tick. -/
theorem test_tick_commits : after .tick { chip with threads := [], harts := [], reach := { rstate := 2 }, tick := { started := true, pound := 4 }, ctxs := [(1, { ctx1 with sch := { ctx1.sch with issued := true } })] } (fun t => (gCtx t 1).sch.step == 1 && t.tick.pound == 5) = true := by
  decide +kernel

theorem witness_Rotation : HostWrites chip 0 ∧ isMaster chip = true ∧ isReady chip = true ∧
    (let s := { chip with rot := { chip.rot with shadow := [(0, { valid := true, ctx := 1, slice := 1 })], shadowLen := 1, pLo := 4 } };
     s.rot.shadowLen.toNat ≤ 256 ∧ s.tick.pound.toNat + 4 ≤ (BitVec.ofNat 64 (s.rot.pLo.toNat + 0 * 2 ^ 32)).toNat) ∧
    ({ chipP with tick := { holdRun := 16 } } : State).tick.holdRun = 16 ∧ isMaster chipP = false ∧ chipP.reach.rstate = 1 ∧
    rotValid [{ valid := true, ctx := 1, slice := 2 }] ≠ [] ∧
    (([(4, []), (0, [{ valid := true, ctx := 1, slice := 1 }])] : List (Word × List RotEntry)).filter (fun e => decide (e.1.toNat ≤ 0))).getLast? = some (0, [{ valid := true, ctx := 1, slice := 1 }]) ∧
    (let s := { chip with rot := { saving := true, savingCtx := some 1 } }; s.rot.saving = true ∧ s.rot.savingCtx = some 1 ∧ s.fw.unitLost = []) :=
  ⟨⟨rfl, rfl, rfl, rfl⟩, by decide, by decide, by decide, rfl, by decide, rfl, by decide, by decide, by decide⟩

theorem witness_TickIn : let s := { chip with cfg := { chip.cfg with tickinEn := true } }
    isReady s = true ∧ isMaster s = true ∧ s.cfg.tickinEn = true ∧ s.tick.adj = 0 ∧
    decide (period01 s < 10000 * (((500050 : Nat) : Int) - period01 s).natAbs) = false ∧ decide (period01 s < 10000 * (((500051 : Nat) : Int) - period01 s).natAbs) = true := by decide

theorem witness_Power : HostWrites chip 0 ∧ powered chip = true ∧ chip.wake.thermTrip = false ∧ chip.wake.mainUp = true ∧ State.reset.wake.auxUp = false ∧ State.reset.boot.phase = .noAux ∧
    (∃ n, 1 ≤ n ∧ n < 64 ∧ (gCtx chip n).st ≠ .free ∧ (gCtx chip n).st ≠ .faulted) ∧
    (∀ n < 64, 1 ≤ n → (gCtx { chip with ctxs := [] } n).st = .free ∨ (gCtx { chip with ctxs := [] } n).st = .faulted) ∧
    ({ chip with pm := { st := 1 } } : State).pm.st = 1 ∧ ({ chip with wake := { hold1s := true } } : State).wake.hold1s = true :=
  ⟨⟨rfl, rfl, rfl, rfl⟩, by decide, rfl, rfl, rfl, rfl, ⟨1, by decide, by decide, by decide, by decide⟩, by decide, rfl, rfl⟩

/-- A doorbell has been written in the pound in which ENTER_SLACK follows (spec/03 Corners). -/
theorem witness_BellThenSlack : let s := { chip with pm := { bellSeen := true } }
    HostWrites s 0 ∧ s.pm.bellSeen = true ∧ s.pm.st = 0 ∧ s.pm.wakeNext = 0 ∧ chip.pm.bellSeen = false :=
  ⟨⟨rfl, rfl, rfl, rfl⟩, rfl, rfl, rfl, rfl⟩

/-- Power is up and PERST_N is low; slot A is Active and slot B Standby, both with images that fail R87. -/
def cold1 : State := { State.reset with wake := { auxUp := true, mainEn := true }, boot := { phase := .off, slotA := { st := .active }, slotB := { st := .standby } } }

theorem witness_Boot : cold1.wake.perstHigh = false ∧ cold1.wake.auxUp = true ∧ cold1.wake.tripLatch = false ∧ cold1.wake.thermTrip = false ∧
    chooseSlot (coldState cold1).boot = some false ∧ imageCode cold1.otp (flashRead (coldState cold1).boot (flashBase false) slotBytes) ≠ 0 ∧ (slotOf (coldState cold1).boot true).st = .standby ∧
    chooseSlot {} = none ∧ chip.wake.perstHigh = true := by decide +kernel

/-- R592: without its rails the boot is not defined; R92: with no image that passes, the boot ends in recovery. -/
theorem test_undefined_boot : exec (.perstNRise false 0) cold1 = .fault .bootUndefined := rfl
theorem test_recovery : after (.perstNRise true 0) cold1 (fun s => s.boot.recover && after .bootReady s (fun t => t.boot.phase == .recovery)) = true := by decide +kernel

theorem witness_BootEnd : let s : State := { chip with boot := { phase := .booting } }
    s.boot.phase = .booting ∧ s.boot.recover = false ∧ mayForm chip = false ∧ mayForm { chipP with cfg := { chipP.cfg with tickMaster := 0 }, reach := {} } = true ∧
    isReady chip = true ∧ chip.reach.rstate = 0 ∧ HostWrites chip 0 ∧ (∀ u ∈ ([1, 2, 3, 4] : List (BitVec 4)), ({ chip with boot := { chip.boot with upd := u } } : State).boot.upd = u) :=
  ⟨rfl, rfl, by decide, by decide, by decide, rfl, ⟨rfl, rfl, rfl, rfl⟩, by decide⟩

/-! ## Witnesses: the security core, the governor, the management bus -/

def sess1 (ready : Bool) : Session := { id := 1, ready := ready, key := [] }
def chipV : State := { chip with sec := { chip.sec with negotiated := 3, sessions := [sess1 true], pending := [{ handle := 5, sess := 1, man := man1, jobKey := [] }] } }

theorem witness_Security : secAnswers State.reset = false ∧ secAnswers chip = true ∧ chip.sec.negotiated < 3 ∧ secAnswers chipV = true ∧ 3 ≤ chipV.sec.negotiated ∧
    sessReady chipV 1 = true ∧ sessReady chipV 2 = false ∧ chipV.sec.sessions.length < 8 ∧ submitCode chipV [] ≠ 0 ∧
    (chipV.sec.pending.any (fun p => p.handle == 5 && p.sess == 1)) = true ∧ chipV.hi.bindNext = none ∧ chipV.boot.phase ≠ .offline ∧ tokenOk chipV [] = false ∧
    sessOf { chipV with sec := { chipV.sec with sessions := [sess1 false] } } 1 = some (sess1 false) := by decide +kernel

theorem witness_Governor : ({ chip with gov := { brake := true } } : State).gov.brake = true ∧ governed chip = true ∧ powered chip = true ∧ chip.gov.brake = false ∧ chip.gov.minSafe = false ∧ isReady chip = true ∧ chip.boot.lkcMiss = 0 ∧
    chip.fw.fenced.getLsbD 51 = false ∧ chip.fw.fenceDue = [] ∧ 100 ≤ (100 : Byte).toNat ∧ 105 ≤ (105 : Byte).toNat ∧ (102 : Byte).toNat ≤ 102 ∧
    (let s := { chip with fw := { chip.fw with map := [(0, 1)] } }; logicalOf s 0 = some 0 ∧ sparesOf s 0 = 1 :: rangeFrom 2 24 ∧ 1 ∉ s.fw.scrubBad) := by decide +kernel

/-- The fused limit of 1.80 GHz: a request at it is applied as it is, one above it is clamped and counted (R519, R520). -/
theorem witness_ClockClamp :
    (clockTick { chip with gov := { chip.gov with clkNext := some 1800 } }).gov.clamp = 0 ∧
    (let t := clockTick { chip with gov := { chip.gov with clkNext := some 1801 } }; t.gov.clamp = 8 ∧ t.gov.clkReq = 1801 ∧ clkOf t.gov 7 ≤ 1800 ∧ t.fw.logHead = 8) := by decide +kernel

theorem witness_Bus : pinsAnswer State.reset = false ∧ pinsAnswer chip = true ∧ (10 : BitVec 32).toNat ≤ 10 ∧ (4 : BitVec 16).toNat ≤ 4 := by decide

theorem witness_Jtag : State.reset.wake.mainUp = false ∧ chip.wake.mainUp = true ∧ answersHost chip = true ∧ fnExists chip 1 = true ∧ fnExists chip 63 = false ∧
    ({ chip with boot := { phase := .booting } } : State).boot.phase = .booting ∧ (8 ≤ chip.cfg.numVf) := by decide

theorem test_idcode : after .jtagIdcode chip (fun t => t.out == [.jtag ((List.range 32).map (fun i => (0x12840A1D : Nat).testBit i))]) = true := by decide +kernel

/-! ## Witnesses: memory and the whole machine -/

theorem witness_Memory : Memory.wf chipM.mem = true ∧ Tab.get false chipM.mem.noResp 0 = false ∧ (64 : Nat) % 64 = 0 ∧ 0x7FFFFF + 1 ≤ 0x800000 := by decide +kernel

theorem test_hbm_reads_back : (hbmRead (hbmWrite chipM 1 62 [1, 2, 3, 4] true).1 1 62 4).1 = [1, 2, 3, 4] ∧ Tab.get false (hbmWrite chipM 1 62 [1, 2, 3, 4] true).1.mem.taint 1 = true := by
  decide +kernel

theorem witness_Steps : Memory.wf ({ chipM with pending := [.tripLatchClear] } : State).mem = true ∧ answersHost chip = true ∧ after .tripLatchClear chip (fun t => answersHost t) = true := by
  decide +kernel

theorem witness_SettingRegisters : (0x3014 : BitVec 20).toNat = 0x3014 ∧ (0x4104 : BitVec 20).toNat = 0x4104 ∧ (0x1FFF : BitVec 20).toNat / 4096 = 0x01 ∧ (0x15000 : BitVec 20).toNat / 4096 = 0x15 := by decide

end Sys2Proof.Tests
end

section
/-! PROOFS. The state after reset: every table of the state is empty there, so each accessor answers its record's Reset value. -/

namespace Sys2Proof.Machine

@[simp] theorem gCtx_reset (n : Nat) : gCtx State.reset n = {} := rfl
@[simp] theorem gTh_reset (k : Nat) : gTh State.reset k = {} := rfl
@[simp] theorem gAmu_reset (cl i : Nat) : gAmu State.reset cl i = {} := rfl
@[simp] theorem gQueue_reset (q : Nat) : gQueue State.reset q = {} := rfl
@[simp] theorem gFn_reset (f : Nat) : gFn State.reset f = {} := rfl

/-- Before any power the chip is off and the outside has seen nothing (R595). -/
theorem reset_is_off : State.reset.pending = [] ∧ State.reset.boot.phase = .noAux ∧ State.reset.wake = {} ∧ State.reset.out = [] :=
  ⟨rfl, rfl, rfl, rfl⟩

/-- Before the first tick no pound runs, no rotation waits, no reach is formed and no session is open. -/
theorem reset_nothing_begun :
    State.reset.tick.started = false ∧ State.reset.tick.pound = 0 ∧ State.reset.rot.force = [] ∧ State.reset.rot.holder = none ∧ State.reset.pm.st = 0 ∧
    State.reset.reach.rstate = 0 ∧ State.reset.reach.key = [] ∧ State.reset.sec.sessions = [] ∧ State.reset.sec.pending = [] :=
  ⟨rfl, rfl, rfl, rfl, rfl, rfl, rfl, rfl, rfl⟩

/-- Settles O56: the scalar parts hold by the definition of reset, memory by `Memory.wf_reset`, and each clause over all numbers by what its
accessor answers at reset. -/
theorem resetIsAnUnpoweredChip : Obligations.ResetIsAnUnpoweredChip := by
  unfold Obligations.ResetIsAnUnpoweredChip
  obtain ⟨hpending, hphase, hwake, hout⟩ := reset_is_off
  obtain ⟨hstarted, hpound, hforce, hholder, hpm, hrstate, hkey, hsessions, hsubmits⟩ := reset_nothing_begun
  have hctx (n : Nat) : (gCtx State.reset n).st = .free := by rw [gCtx_reset]
  have hth (k : Nat) : (gTh State.reset k).st = .idle ∧ (gTh State.reset k).m = [] ∧ (gTh State.reset k).pend = [] := by simp
  have hamu (cl i : Nat) : (gAmu State.reset cl i).valid = false := by rw [gAmu_reset]
  have hqueue (q : Nat) : (gQueue State.reset q).ctx = none := by rw [gQueue_reset]
  have hfn (f : Nat) : (gFn State.reset f).ctx = none ∧ (gFn State.reset f).bme = false ∧ (gFn State.reset f).memSpace = false := by simp
  exact ⟨hpending, hphase, hwake, hout, rfl, Memory.wf_reset, hstarted, hpound, hforce, hholder, hpm, hrstate, hkey, hsessions, hsubmits,
    hctx, hth, hamu, hqueue, hfn⟩

end Sys2Proof.Machine
end

section
/-! PROOFS. Harbor cores (spec/05_harbor_cores.md): how an agent's operation ends, said once, when a hart runs, and what its commands and
submissions come to. -/

namespace Sys2Proof.Machine

/-! ## How an operation of an agent ends -/

theorem bind_of_ok {α β : Type} {m : M α} {f : α → M β} {s s' : State} {a : α} (h : m s = .ok a s') : (m >>= f) s = f a s' := by
  change EStateM.bind m f s = f a s'
  rw [EStateM.bind, h]

section RunOp
variable {α : Type} {s s' : State} {ag : Agent} {m : M α} {good : α → State → State} {bad : Code → State → State}

theorem runOp_of_ok {a : α} (hp : isParked s ag.id = false) (hm : m { s with racc := 0 } = .ok a s') :
    runOp s ag m good bad = good a (opClean ag.id s') := by
  simp only [runOp, hp, hm]
  rfl

/-- An operation that an error code ends leaves its requests' traffic and the table counters, and no effect on memory (R155, R565). -/
theorem runOp_of_code {c : Code} (hp : isParked s ag.id = false) (hm : m { s with racc := 0 } = .error (.code c) s') (hc : c ≠ eUninit) :
    runOp s ag m good bad = bad c (uCtx (dropReqs (keepNet s s') ag.id) ag.ctx (fun x => { x with tu := (gCtx s' ag.ctx).tu })) := by
  simp only [runOp, hp, hm, if_neg hc]
  rfl

end RunOp

/-! ## A hart that runs (R164, R167) -/

theorem hartRuns_iff {s : State} {h n : Nat} : hartRuns s h = some n ↔ s.rot.holder = some n ∧ holds s n = true ∧ (gHart s h).named = true ∧
    (gHart s h).ended = false ∧ (gHart s h).waiting = false ∧ isParked s (hartId n h) = false ∧ (coreOf s h).isSome = true := by
  unfold hartRuns
  split
  next hnone => simp [hnone]
  next m hsome =>
    rw [hsome]
    constructor
    · intro hr
      obtain ⟨hcond, hm⟩ := Option.ite_none_right_eq_some.mp hr
      cases hm
      simpa [and_assoc, Option.isSome_iff_ne_none] using hcond
    · rintro ⟨hm, hcond⟩
      cases hm
      exact if_pos (by simpa [and_assoc, Option.isSome_iff_ne_none] using hcond)

theorem hartRuns_holder {s : State} {h n : Nat} (hr : hartRuns s h = some n) : s.rot.holder = some n := (hartRuns_iff.mp hr).1

theorem hartRuns_ready {s : State} {h n : Nat} (hr : hartRuns s h = some n) : isReady s = true := by
  obtain ⟨-, hholds, -⟩ := hartRuns_iff.mp hr
  simp only [holds, isRunning, Bool.and_eq_true] at hholds
  exact hholds.1.1.1.1

theorem hartRuns_not_parked {s : State} {h n : Nat} (hr : hartRuns s h = some n) (pc : Word) : isParked s (hartAgent n h pc).id = false := by
  obtain ⟨-, -, -, -, -, hparked, -⟩ := hartRuns_iff.mp hr
  exact hparked

/-! ## Registers and going on -/

theorem hSet_zero (t : Hart) (v : Word) : hSet t 0 v = t := if_pos rfl
theorem hReg_zero (t : Hart) : hReg t 0 = 0 := if_pos rfl

@[simp] theorem tjWants_uHart (s : State) (i : Nat) (f : Hart → Hart) (n bit : Nat) (cl : Option Nat) :
    tjWants (uHart s i f) n bit cl = tjWants s n bit cl := rfl

section Untraced
variable {s : State} {n : Nat} (ht : tjWants s n 13 none = false) (h : Nat)
include ht

theorem tjHarbor_untraced (why : Nat) (pc : Word) : tjHarbor s n h why pc = s := by simp [tjHarbor, ht]
theorem tjHartRun_untraced (pc : Word) : tjHartRun s n h pc = s := by simp [tjHartRun, ht]
theorem hartNext_untraced : hartNext s n h = uHart s h (fun t => { t with pc := t.pc + 4 }) := by
  simp [hartNext, tjHartRun_untraced, ht]

end Untraced

/-! ## Instructions that only write a register, and HWAITT (R159) -/

theorem hartSet_of_runs {s : State} {h n : Nat} (hr : hartRuns s h = some n) (rd : BitVec 5) (v : Nat → State → Word × State) :
    hartSet s h rd v = hartNext (uHart (v n s).2 h (fun t => hSet t rd (v n s).1)) n h := by
  simp only [hartSet, hr]

theorem hartSet_of_not_runs {s : State} {h : Nat} (hr : hartRuns s h = none) (rd : BitVec 5) (v : Nat → State → Word × State) :
    hartSet s h rd v = s := by
  simp only [hartSet, hr]

/-- The time that HTREM gives is the free value cut to the period. -/
theorem exec_htrem_of_runs {s : State} {h : Fin 16} {n : Nat} (hr : hartRuns s h.val = some n) (rd : BitVec 5) :
    ∃ v ≤ 10 * s.cfg.tickPeriod, exec (.htrem h rd) s =
      .next (hartNext (uHart (useFree s) h.val (fun t => hSet t rd (BitVec.ofNat 64 v))) n h.val) :=
  ⟨Config.remainNs s.free % (10 * s.cfg.tickPeriod + 1), Nat.le_of_lt_succ (Nat.mod_lt _ (Nat.succ_pos _)), congrArg _ (hartSet_of_runs hr rd _)⟩

theorem exec_hwaitt_of_runs {s : State} {h : Fin 16} {n : Nat} (hr : hartRuns s h.val = some n) :
    exec (.hwaitt h) s = .next (tjHarbor (tjHartRun (uHart s h.val (fun t => { t with waiting := true, pc := t.pc + 4 })) n h.val (gHart s h.val).pc)
      n h.val 3 (gHart s h.val).pc) := by
  change execHwaitt h s = _
  simp only [execHwaitt, hr]

theorem exec_hwaitt_of_not_runs {s : State} {h : Fin 16} (hr : hartRuns s h.val = none) : exec (.hwaitt h) s = .next s := by
  change execHwaitt h s = _
  simp only [execHwaitt, hr]

/-! ## Submissions (R160, R161) -/

theorem zero_lowCode (c : Code) : lowCode 0 c = c := if_pos rfl

theorem lowCode_ne_zero {a : Code} (ha : a ≠ 0) (b : Code) : lowCode a b ≠ 0 := by
  unfold lowCode
  split
  · contradiction
  · split
    · exact ha
    · split <;> assumption

/-- E_RANGE is the lowest code, so nothing found besides it changes the answer (R567). -/
theorem lowCode_eRange_left (c : Code) : lowCode eRange c = eRange := by
  unfold lowCode eRange
  split
  · contradiction
  · split
    · rfl
    · split
      · rfl
      · bv_omega

/-- A hart goes on with a submission's code in rd. -/
def hartAnswer (s : State) (n h : Nat) (rd : BitVec 5) (c : Code) : State :=
  hartNext (uHart s h (fun t => hSet t rd (BitVec.ofNat 64 c.toNat))) n h

/-- The submission is one more outstanding, in a pound that has begun. -/
def hartCounted (s : State) (h : Nat) : State :=
  uHart { s with rot := { s.rot with poundStarted := true } } h (fun t => { t with out := t.out + 1 })

section Submit
variable {α : Type} {s : State} {h : Nat} {rd : BitVec 5} {early : Nat → State → Code} {fetch : Agent → M α}
  {check : Nat → α → State → Code} {put : Nat → α → State → State}

theorem hartSubmit_of_not_runs (hr : hartRuns s h = none) : hartSubmit s h rd early fetch check put = s := by
  simp only [hartSubmit, hr]

variable {n : Nat} (hr : hartRuns s h = some n)
include hr

/-- With 64 outstanding a code is the whole answer. -/
theorem hartSubmit_full (hout : 64 ≤ (gHart s h).out) : ∃ c, c ≠ 0 ∧ hartSubmit s h rd early fetch check put = hartAnswer s n h rd c := by
  simp only [hartSubmit, hr, if_pos hout]
  exact ⟨_, lowCode_ne_zero (by decide) _, rfl⟩

variable {d : α} {s' : State} (hout : (gHart s h).out < 64) (hf : fetch (hartAgent n h (gHart s h).pc) { s with racc := 0 } = .ok d s')
include hout hf

/-- The codes found before and after the fetch decide between the answer alone and the submission. -/
theorem hartSubmit_fetched : hartSubmit s h rd early fetch check put =
    let s1 := opClean (hartId n h) s'
    let c := lowCode (early n s) (check n d s1)
    if c ≠ 0 then hartAnswer s1 n h rd c else hartAnswer (put n d (hartCounted s1 h)) n h rd 0 := by
  simp only [hartSubmit, hr, if_neg (Nat.not_le.mpr hout), runOp_of_ok (hartRuns_not_parked hr _) hf, bne_iff_ne]
  rfl

theorem hartSubmit_accepted (hc : lowCode (early n s) (check n d (opClean (hartId n h) s')) = 0) :
    hartSubmit s h rd early fetch check put = hartAnswer (put n d (hartCounted (opClean (hartId n h) s') h)) n h rd 0 := by
  rw [hartSubmit_fetched hr hout hf]
  exact if_neg (fun hne => hne hc)

theorem hartSubmit_refused {c : Code} (hc : lowCode (early n s) (check n d (opClean (hartId n h) s')) = c) (hne : c ≠ 0) :
    hartSubmit s h rd early fetch check put = hartAnswer (opClean (hartId n h) s') n h rd c := by
  subst hc
  rw [hartSubmit_fetched hr hout hf]
  exact if_pos hne

end Submit

/-! ### The three submissions -/

section Commands
variable {s : State} {h : Fin 16} {n : Nat} (hr : hartRuns s h.val = some n) (rd rs1 rs2 : BitVec 5)
include hr

theorem exec_submit_full (hout : 64 ≤ (gHart s h.val).out) : ∀ k ∈ [Instr.hbsub h rd rs1 rs2, .hfsub h rd rs1 rs2, .htsub h rd rs1],
    ∃ c, c ≠ 0 ∧ exec k s = .next (hartAnswer s n h.val rd c) := by
  have wrap {k : Instr} {t : State} (hk : exec k s = .next t) (ht : ∃ c, c ≠ 0 ∧ t = hartAnswer s n h.val rd c) :
      ∃ c, c ≠ 0 ∧ exec k s = .next (hartAnswer s n h.val rd c) := by
    obtain ⟨c, hc, rfl⟩ := ht
    exact ⟨c, hc, hk⟩
  intro k hk
  simp only [List.mem_cons, List.not_mem_nil, or_false] at hk
  obtain rfl | rfl | rfl := hk <;> exact wrap rfl (hartSubmit_full hr hout)

end Commands

section Descriptor
variable {s s' : State} {h : Fin 16} {n : Nat} {rs1 : BitVec 5} {d : Bytes × Bool} (hr : hartRuns s h.val = some n) (hout : (gHart s h.val).out < 64)
  (hf : hartFetch (hartAgent n h.val (gHart s h.val).pc) (hReg (gHart s h.val) rs1).toNat 64 { s with racc := 0 } = .ok d s') (rd : BitVec 5)
include hr hout hf

/-- HBSUB: a descriptor that its queue takes is put there; otherwise the code of the first failing check is the answer (R208, R215). -/
theorem exec_hbsub_fetched (rs2 : BitVec 5) :
    let q := (hReg (gHart s h.val) rs2).toNat
    let s1 := opClean (hartId n h.val) s'
    (bargeReject s1 n q 63 d.1 = none → queueRoom s1 q = true →
      exec (.hbsub h rd rs1 rs2) s = .next (hartAnswer (enqueueBarge (hartCounted s1 h.val) n q 63 (.hart h.val) d.1) n h.val rd 0)) ∧
    (bargeReject s1 n q 63 d.1 = none → queueRoom s1 q = false → exec (.hbsub h rd rs1 rs2) s = .next (hartAnswer s1 n h.val rd eBusy)) ∧
    (∀ c, bargeReject s1 n q 63 d.1 = some c → c ≠ 0 → exec (.hbsub h rd rs1 rs2) s = .next (hartAnswer s1 n h.val rd c)) := by
  refine ⟨fun hok hroom => congrArg _ (hartSubmit_accepted hr hout hf ?_), fun hok hroom => congrArg _ (hartSubmit_refused hr hout hf ?_ (by decide)),
    fun c hbad hne => congrArg _ (hartSubmit_refused hr hout hf ?_ hne)⟩
  · simp only [zero_lowCode, hok, hroom, if_true]
  · simp only [zero_lowCode, hok, hroom, Bool.false_eq_true, if_false]
  · simp only [zero_lowCode, hbad]

/-- HTSUB: a Towpath descriptor is submitted when it is well formed (R231). -/
theorem exec_htsub_fetched :
    let s1 := opClean (hartId n h.val) s'
    (towOk d.1 = true → exec (.htsub h rd rs1) s = .next (hartAnswer (submitTow (hartCounted s1 h.val) n 63 (.hart h.val) (.ok d)) n h.val rd 0)) ∧
    (towOk d.1 = false → exec (.htsub h rd rs1) s = .next (hartAnswer s1 n h.val rd eRange)) := by
  refine ⟨fun hok => congrArg _ (hartSubmit_accepted hr hout hf ?_), fun hbad => congrArg _ (hartSubmit_refused hr hout hf ?_ (by decide))⟩
  · simp only [zero_lowCode, hok, if_true]
  · simp only [zero_lowCode, hbad, Bool.false_eq_true, if_false]

end Descriptor

/-- The stage records of a flight descriptor, cut out of its second part. -/
def flightRecs (hd rs : Bytes) : List Bytes := (List.range (fNlast hd + 1)).map (fun i => slice rs (32 * i) 32)

/-- The two parts of a flight descriptor, as HFSUB reads them. -/
def flightFetch (a : Nat) (ag : Agent) : M (Bytes × List Bytes) := do
  let (hd, _) ← hartFetch ag a 64
  let (rs, _) ← hartFetch ag (a + 64) (32 * (fNlast hd + 1))
  return (hd, flightRecs hd rs)

/-- The code that HFSUB finds in its cluster number, before the fetch. -/
def flightEarly (c n : Nat) (s : State) : Code := if 48 ≤ c then eRange else if (manOf s n).clusters ≤ c then eDenied else 0

/-- The code that HFSUB finds in the descriptor and the cluster's flights. -/
def flightCheck (c n : Nat) (d : Bytes × List Bytes) (s : State) : Code :=
  if !flightOk s n c d.1 d.2 then eRange else if 4 ≤ flightsRun s c && 16 ≤ flightsHeld s c then eBusy else 0

/-- What HFSUB does with a descriptor that passes. -/
def flightPut (c h n : Nat) (d : Bytes × List Bytes) (s : State) : State := enqueueFlight s n c (.hart h) d.1 d.2

theorem exec_hfsub_eq (s : State) (h : Fin 16) (rd rs1 rs2 : BitVec 5) :
    exec (.hfsub h rd rs1 rs2) s = .next (hartSubmit s h.val rd (flightEarly (hReg (gHart s h.val) rs2).toNat)
      (flightFetch (hReg (gHart s h.val) rs1).toNat) (flightCheck (hReg (gHart s h.val) rs2).toNat) (flightPut (hReg (gHart s h.val) rs2).toNat h.val)) := rfl

theorem flightFetch_of_ok {a : Nat} {ag : Agent} {s s1 s2 : State} {hd rs : Bytes × Bool} (hhd : hartFetch ag a 64 s = .ok hd s1)
    (hrs : hartFetch ag (a + 64) (32 * (fNlast hd.1 + 1)) s1 = .ok rs s2) : flightFetch a ag s = .ok (hd.1, flightRecs hd.1 rs.1) s2 :=
  (bind_of_ok hhd).trans (bind_of_ok hrs)

section FlightCodes
variable {s s' : State} {c n : Nat} {hd : Bytes} {recs : List Bytes}

theorem flightCheck_of_bad (hbad : flightOk s n c hd recs = false) : flightCheck c n (hd, recs) s = eRange := by simp [flightCheck, hbad]

theorem flightCheck_of_room (hok : flightOk s n c hd recs = true) (hroom : flightsRun s c < 4 ∨ flightsHeld s c < 16) : flightCheck c n (hd, recs) s = 0 := by
  simp only [flightCheck, hok, Bool.not_true, Bool.false_eq_true, if_false, Bool.and_eq_true, decide_eq_true_eq]
  exact if_neg (by omega)

theorem flightCheck_of_full (hok : flightOk s n c hd recs = true) (hfull : ¬ (flightsRun s c < 4 ∨ flightsHeld s c < 16)) :
    flightCheck c n (hd, recs) s = eBusy := by
  simp only [flightCheck, hok, Bool.not_true, Bool.false_eq_true, if_false, Bool.and_eq_true, decide_eq_true_eq]
  exact if_pos (by omega)

theorem flightEarly_of_served (hc : c < 48) (hcl : c < (manOf s n).clusters) : flightEarly c n s = 0 := by
  simp [flightEarly, Nat.not_le.mpr hc, Nat.not_le.mpr hcl]

theorem flightEarly_of_denied (hc : c < 48) (hcl : (manOf s n).clusters ≤ c) : flightEarly c n s = eDenied := by
  simp [flightEarly, Nat.not_le.mpr hc, hcl]

theorem flightEarly_of_beyond (hc : 48 ≤ c) : flightEarly c n s = eRange := by simp [flightEarly, hc]

/-- A bad descriptor answers E_RANGE whatever the cluster number has besides (R567). -/
theorem flightCodes_of_bad (hbad : flightOk s' n c hd recs = false) : lowCode (flightEarly c n s) (flightCheck c n (hd, recs) s') = eRange := by
  rw [flightCheck_of_bad hbad]
  unfold flightEarly
  split
  · rfl
  · split <;> rfl

/-- A cluster that the context has not got answers E_DENIED even where its flights leave no room (R567). -/
theorem flightCodes_of_denied (hc : c < 48) (hcl : (manOf s n).clusters ≤ c) (hok : flightOk s' n c hd recs = true) :
    lowCode (flightEarly c n s) (flightCheck c n (hd, recs) s') = eDenied := by
  rw [flightEarly_of_denied hc hcl]
  by_cases hroom : flightsRun s' c < 4 ∨ flightsHeld s' c < 16
  · rw [flightCheck_of_room hok hroom]; rfl
  · rw [flightCheck_of_full hok hroom]; rfl

end FlightCodes

/-- HFSUB: a flight whose descriptor passes goes to its cluster's flights while they have room; otherwise the lowest of the codes found is
the answer (R160, R239, R567). -/
theorem exec_hfsub_fetched {s s1 s2 : State} {h : Fin 16} {n : Nat} {rs1 : BitVec 5} {hd rs : Bytes × Bool} (hr : hartRuns s h.val = some n)
    (hout : (gHart s h.val).out < 64)
    (hhd : hartFetch (hartAgent n h.val (gHart s h.val).pc) (hReg (gHart s h.val) rs1).toNat 64 { s with racc := 0 } = .ok hd s1)
    (hrs : hartFetch (hartAgent n h.val (gHart s h.val).pc) ((hReg (gHart s h.val) rs1).toNat + 64) (32 * (fNlast hd.1 + 1)) s1 = .ok rs s2)
    (rd rs2 : BitVec 5) :
    let c := (hReg (gHart s h.val) rs2).toNat
    let recs := flightRecs hd.1 rs.1
    let t := opClean (hartId n h.val) s2
    let room := flightsRun t c < 4 ∨ flightsHeld t c < 16
    (c < 48 → c < (manOf s n).clusters → flightOk t n c hd.1 recs = true →
      (room → exec (.hfsub h rd rs1 rs2) s = .next (hartAnswer (enqueueFlight (hartCounted t h.val) n c (.hart h.val) hd.1 recs) n h.val rd 0)) ∧
      (¬ room → exec (.hfsub h rd rs1 rs2) s = .next (hartAnswer t n h.val rd eBusy))) ∧
    (flightOk t n c hd.1 recs = false → exec (.hfsub h rd rs1 rs2) s = .next (hartAnswer t n h.val rd eRange)) ∧
    (c < 48 → (manOf s n).clusters ≤ c → flightOk t n c hd.1 recs = true → exec (.hfsub h rd rs1 rs2) s = .next (hartAnswer t n h.val rd eDenied)) ∧
    (48 ≤ c → exec (.hfsub h rd rs1 rs2) s = .next (hartAnswer t n h.val rd eRange)) := by
  intro c recs t room
  have hf := flightFetch_of_ok hhd hrs
  have refuse {code : Code} (hne : code ≠ 0) (hcode : lowCode (flightEarly c n s) (flightCheck c n (hd.1, recs) t) = code) :
      exec (.hfsub h rd rs1 rs2) s = .next (hartAnswer t n h.val rd code) := by
    rw [exec_hfsub_eq, hartSubmit_refused hr hout hf hcode hne]
  refine ⟨fun hc hcl hok => ⟨fun hroom => ?_, fun hfull => refuse (by decide) ?_⟩, fun hbad => refuse (by decide) (flightCodes_of_bad hbad),
    fun hc hcl hok => refuse (by decide) (flightCodes_of_denied hc hcl hok), fun hc => refuse (by decide) ?_⟩
  · have hcode : lowCode (flightEarly c n s) (flightCheck c n (hd.1, recs) t) = 0 := by
      rw [flightEarly_of_served hc hcl, zero_lowCode, flightCheck_of_room hok hroom]
    rw [exec_hfsub_eq, hartSubmit_accepted hr hout hf hcode, flightPut]
  · rw [flightEarly_of_served hc hcl, zero_lowCode, flightCheck_of_full hok hfull]
  · rw [flightEarly_of_beyond hc, lowCode_eRange_left]

/-! ## A hart that does not run -/

theorem exec_of_not_runs {s : State} {h : Fin 16} (hr : hartRuns s h.val = none) (rd rs1 rs2 : BitVec 5) :
    ∀ c ∈ [Instr.htick h rd, .htrem h rd, .hpoll h rd, .hwaitt h, .hbsub h rd rs1 rs2, .hfsub h rd rs1 rs2, .htsub h rd rs1], exec c s = .next s := by
  intro c hc
  simp only [List.mem_cons, List.not_mem_nil, or_false] at hc
  obtain rfl | rfl | rfl | rfl | rfl | rfl | rfl := hc
  · exact congrArg _ (hartSet_of_not_runs hr rd _)
  · exact congrArg _ (hartSet_of_not_runs hr rd _)
  · exact congrArg _ (hartSet_of_not_runs hr rd _)
  · exact exec_hwaitt_of_not_runs hr
  · exact congrArg _ (hartSubmit_of_not_runs hr)
  · exact congrArg _ (hartSubmit_of_not_runs hr)
  · exact congrArg _ (hartSubmit_of_not_runs hr)

/-- Settles O17: the register instructions by `hartSet_of_runs`, the submissions by what `hartSubmit` does once its descriptor is read. -/
theorem harborCommandsReadWaitAndSubmit : Obligations.HarborCommandsReadWaitAndSubmit := by
  unfold Obligations.HarborCommandsReadWaitAndSubmit
  refine ⟨fun s h rd n hr => ?_, fun s h rd rs1 rs2 hr => exec_of_not_runs hr rd rs1 rs2,
    fun s n h why pc ht => ⟨hartNext_untraced ht h, tjHartRun_untraced ht h pc, tjHarbor_untraced ht h why pc⟩,
    fun t v => ⟨hSet_zero t v, hReg_zero t⟩, fun s h rd rs1 rs2 n hr => ⟨exec_submit_full hr rd rs1 rs2, fun hout d s' hf => ?_,
    fun hout hd s1 rs s2 hhd hrs => exec_hfsub_fetched hr hout hhd hrs rd rs2⟩⟩
  · exact ⟨congrArg _ (hartSet_of_runs hr rd _), exec_htrem_of_runs hr rd, congrArg _ (hartSet_of_runs hr rd _), exec_hwaitt_of_runs hr⟩
  · obtain ⟨hput, hbusy, hcode⟩ := exec_hbsub_fetched hr hout hf rd rs2
    exact ⟨hput, hbusy, hcode, exec_htsub_fetched hr hout hf rd⟩

end Sys2Proof.Machine
end

section
/-! PROOFS. Harbor accesses and exceptions (spec/05_harbor_cores.md): what a load, a store or an atomic operation comes to by the answer of
its stages, what an exception leaves in the hart, and which core serves which hart. -/

namespace Sys2Proof.Machine

/-! ## The VS stage and the pieces of an access (R154, R155) -/

theorem get_eq_ok (s : State) : (get : M State) s = .ok s s := rfl

/-- Bare mode passes the address on. -/
theorem hartVs_bare {ag : Agent} {t : Hart} (hbare : vsLevels t.satp = none) (store : Bool) (va len : Nat) (s : State) :
    hartVs ag t store va len s = .ok (.inr [(va, len)]) s := by
  simp only [hartVs, hbare]
  rfl

/-- What a load answers for the bytes of its pieces: the access fault of the first tainted granule, or their value (R157). -/
def loadAns (rs : List (Nat × List (Bytes × Bool))) : HartAns :=
  match rs.findSome? (fun (g, x) => taintedAt g x) with
  | some g => .trap 5 (BitVec.ofNat 64 g)
  | none => .loaded (ofLe (rs.flatMap (fun (_, x) => x.flatMap (·.1))))

theorem loadAns_of_clean {rs : List (Nat × List (Bytes × Bool))} (hclean : rs.findSome? (fun (g, x) => taintedAt g x) = none) :
    loadAns rs = .loaded (ofLe (rs.flatMap (fun (_, x) => x.flatMap (·.1)))) := by
  simp only [loadAns, hclean]

theorem loadAns_of_tainted {rs : List (Nat × List (Bytes × Bool))} {g : Nat} (htaint : rs.findSome? (fun (g, x) => taintedAt g x) = some g) :
    loadAns rs = .trap 5 (BitVec.ofNat 64 g) := by
  simp only [loadAns, htaint]

section Op
variable {ag : Agent} {n : Nat} {t : Hart} {store : Bool} {va len : Nat} {data : Bytes} {s s1 s' : State} {ps : List (Nat × Nat)}

theorem hartOp_of_vs_fault {c : Word} (hvs : hartVs ag t store va len s = .ok (.inl c) s1) :
    hartOp ag n t store va len data s = .ok (.trap c 0) s1 := bind_of_ok hvs

variable (hvs : hartVs ag t store va len s = .ok (.inr ps) s1)
include hvs

/-- An access that names a cluster window ends with E_RANGE. -/
theorem hartOp_of_window (hwin : ps.any (fun p => hartWindow s1 n (if store then accWrite else accRead) p.1 p.2) = true) :
    hartOp ag n t store va len data s = .error (.code eRange) s1 := by
  refine (bind_of_ok hvs).trans ((bind_of_ok (get_eq_ok s1)).trans ?_)
  rw [if_pos hwin]
  rfl

variable (hwin : ps.any (fun p => hartWindow s1 n (if store then accWrite else accRead) p.1 p.2) = false)
include hwin

theorem hartOp_store (hstore : store = true) (hst : hartStore ag ps data s1 = .ok () s') :
    hartOp ag n t store va len data s = .ok .stored s' := by
  refine (bind_of_ok hvs).trans ((bind_of_ok (get_eq_ok s1)).trans ?_)
  rw [if_neg (Bool.not_eq_true _ ▸ hwin), if_pos hstore]
  exact bind_of_ok hst

theorem hartOp_load {rs : List (Nat × List (Bytes × Bool))} (hstore : store = false) (hld : hartLoad ag ps s1 = .ok rs s') :
    hartOp ag n t store va len data s = .ok (loadAns rs) s' := by
  refine (bind_of_ok hvs).trans ((bind_of_ok (get_eq_ok s1)).trans ?_)
  rw [if_neg (Bool.not_eq_true _ ▸ hwin), if_neg (Bool.not_eq_true _ ▸ hstore)]
  refine (bind_of_ok hld).trans ?_
  cases htaint : rs.findSome? (fun (g, x) => taintedAt g x) with
  | none => rw [loadAns_of_clean htaint]; rfl
  | some g => rw [loadAns_of_tainted htaint]; rfl

end Op

/-! ## An access of a running hart (R155, R157) -/

/-- What a load or store of `len` bytes at `va` does once its operation has answered. -/
def hartEnds (n h va : Nat) (load : Nat → Hart → Hart) : HartAns → State → State
  | .trap c m, s => hartTrap s n h c (BitVec.ofNat 64 va) m
  | .stored, s => hartNext (uHart s h (load 0)) n h
  | .loaded x, s => hartNext (uHart s h (load x)) n h

theorem hartMem_eq (s : State) (n h : Nat) (store : Bool) (va len : Nat) (data : Bytes) (load : Nat → Hart → Hart) :
    hartMem s n h store va len data load =
      runOp s (hartAgent n h (gHart s h).pc) (hartOp (hartAgent n h (gHart s h).pc) n (gHart s h) store va len data) (hartEnds n h va load)
        (fun c t => hartNext (errRecord t (hartAgent n h (gHart s h).pc) c) n h) := by
  unfold hartMem
  dsimp only
  congr 1
  funext r t
  cases r <;> rfl

section Mem
variable {s : State} {n h : Nat} (hr : hartRuns s h = some n) {store : Bool} {va len : Nat} {data : Bytes} {load : Nat → Hart → Hart}
include hr

/-- The operation's answer decides what the access comes to. -/
theorem hartMem_of_ok {r : HartAns} {s' : State}
    (hop : hartOp (hartAgent n h (gHart s h).pc) n (gHart s h) store va len data { s with racc := 0 } = .ok r s') :
    hartMem s n h store va len data load = hartEnds n h va load r (opClean (hartId n h) s') := by
  rw [hartMem_eq, runOp_of_ok (hartRuns_not_parked hr _) hop]
  rfl

/-- E_RANGE leaves memory and the harts as they were, but for the record and the instruction that the hart has gone on by (R565). -/
theorem hartMem_of_range {s' : State}
    (hop : hartOp (hartAgent n h (gHart s h).pc) n (gHart s h) store va len data { s with racc := 0 } = .error (.code eRange) s') :
    ∃ m, hartMem s n h store va len data load = hartNext (errRecord m (hartAgent n h (gHart s h).pc) eRange) n h ∧
      m.mem = s.mem ∧ m.harts = s.harts := by
  rw [hartMem_eq, runOp_of_code (hartRuns_not_parked hr _) hop (by decide)]
  exact ⟨_, rfl, rfl, rfl⟩

/-- The VS stage, the windows and the granules' taints between them decide every access that waits for nothing (R154, R155, R157). -/
theorem hartMem_cases :
    let t := gHart s h
    let ag := hartAgent n h t.pc
    let begun := { s with racc := 0 }
    let done := hartMem s n h store va len data load
    let window := fun (s1 : State) (ps : List (Nat × Nat)) => ps.any (fun p => hartWindow s1 n (if store then accWrite else accRead) p.1 p.2)
    (vsLevels t.satp = none → hartVs ag t store va len begun = .ok (.inr [(va, len)]) begun) ∧
    (∀ c s1, hartVs ag t store va len begun = .ok (.inl c) s1 → done = hartTrap (opClean ag.id s1) n h c (BitVec.ofNat 64 va) 0) ∧
    (∀ ps s1, hartVs ag t store va len begun = .ok (.inr ps) s1 →
      (window s1 ps = true → ∃ m, done = hartNext (errRecord m ag eRange) n h ∧ m.mem = s.mem ∧ m.harts = s.harts) ∧
      (window s1 ps = false → store = true → ∀ s', hartStore ag ps data s1 = .ok () s' →
        done = hartNext (uHart (opClean ag.id s') h (load 0)) n h) ∧
      (window s1 ps = false → store = false → ∀ rs s', hartLoad ag ps s1 = .ok rs s' →
        (rs.findSome? (fun (g, x) => taintedAt g x) = none →
          done = hartNext (uHart (opClean ag.id s') h (load (ofLe (rs.flatMap (fun (_, x) => x.flatMap (·.1)))))) n h) ∧
        (∀ g, rs.findSome? (fun (g, x) => taintedAt g x) = some g →
          done = hartTrap (opClean ag.id s') n h 5 (BitVec.ofNat 64 va) (BitVec.ofNat 64 g)))) := by
  refine ⟨fun hbare => hartVs_bare hbare _ _ _ _, fun c s1 hvs => hartMem_of_ok hr (hartOp_of_vs_fault hvs), fun ps s1 hvs => ⟨?_, ?_, ?_⟩⟩
  · exact fun hwin => hartMem_of_range hr (hartOp_of_window hvs hwin)
  · exact fun hwin hstore s' hst => hartMem_of_ok hr (hartOp_store hvs hwin hstore hst)
  · intro hwin hstore rs s' hld
    rw [hartMem_of_ok hr (hartOp_load hvs hwin hstore hld)]
    exact ⟨fun hclean => by rw [loadAns_of_clean hclean]; rfl, fun g htaint => by rw [loadAns_of_tainted htaint]; rfl⟩

end Mem

/-! ## The forms of HARBOR_ACCESS (R152, R157, R158) -/

section Forms
variable {s : State} {n : Nat}

theorem fsOn_iff {t : Hart} : fsOn t = true ↔ fld t.sstatus 14 13 ≠ 0 := bne_iff_ne
theorem vsOn_iff {t : Hart} : vsOn t = true ↔ fld t.sstatus 10 9 ≠ 0 := bne_iff_ne

/-- Whole vector registers with vstart 0 are one access of all their bytes. -/
theorem hartVec_whole {h : Nat} {store : Bool} {nf : Fin 4} {reg base : BitVec 5} (hvs : fld (gHart s h).sstatus 10 9 ≠ 0)
    (hreg : reg.toNat % 2 ^ nf.val = 0) (hstart : (gHart s h).vstart = 0) :
    hartVec s n h store nf reg base =
      hartMem s n h store (hReg (gHart s h) base).toNat (32 * 2 ^ nf.val) (hvBytes (gHart s h) reg.toNat (2 ^ nf.val)) (fun x u =>
        vsDirty { (if store then u else hvPut u reg.toNat (2 ^ nf.val) 0 (leBytes x (32 * 2 ^ nf.val))) with vstart := 0 }) := by
  have hpos : ¬ 32 * 2 ^ nf.val ≤ 0 := by have := Nat.two_pow_pos nf.val; omega
  have haddr : ((hReg (gHart s h) base).toNat + 0) % 2 ^ 64 = (hReg (gHart s h) base).toNat := Nat.mod_eq_of_lt (BitVec.isLt _)
  have hoff : (gHart s h).vstart.toNat = 0 := by rw [hstart]; rfl
  have hon : (!vsOn (gHart s h) || reg.toNat % 2 ^ nf.val != 0) = false := by simp [vsOn_iff.mpr hvs, hreg]
  simp only [hartVec, hon, hoff, haddr, if_neg hpos, Nat.sub_zero, List.drop_zero, Bool.false_eq_true, if_false]

/-- An aligned atomic operation other than compare and swap gives back what was there. -/
theorem hartAmo_loaded {h : Nat} (hr : hartRuns s h = some n) {fn : Fin 10} {wide : Bool} {rd src base : BitVec 5} (hfn : fn ≠ 6)
    (hal : (hReg (gHart s h) base).toNat % 2 ^ (if wide then 3 else 2) = 0) {x : Nat} {s' : State}
    (hop : hartAmoOp (hartAgent n h (gHart s h).pc) n (gHart s h) (hReg (gHart s h) base).toNat (if wide then 3 else 2) fn.val
      (hReg (gHart s h) src).toNat { s with racc := 0 } = .ok (.loaded x) s') :
    hartAmo s n h fn wide rd src base = hartNext (uHart (opClean (hartId n h) s') h (fun u =>
      hSet u rd (BitVec.ofInt 64 (sgn (8 * 2 ^ (if wide then 3 else 2)) x)))) n h := by
  have hfn' : ¬ fn.val = 6 := fun h6 => hfn (Fin.ext h6)
  unfold hartAmo
  rw [if_neg hfn', if_neg (by rw [hal]; decide)]
  exact runOp_of_ok (hartRuns_not_parked hr _) hop

theorem csrRead_time (s : State) (t : Hart) : ∃ d, d < max 1 s.cfg.tickPeriod ∧
    csrRead s t s.free 0xC01 = some (s.tick.pound * BitVec.ofNat 64 s.cfg.tickPeriod + BitVec.ofNat 64 d) :=
  ⟨Config.sinceTick s.free % max 1 s.cfg.tickPeriod, Nat.mod_lt _ (Nat.lt_of_lt_of_le Nat.one_pos (Nat.le_max_left _ _)), rfl⟩

/-- The value that a register access writes: the operand itself, or the old value with the operand's bits set or cleared. -/
def csrOperand (t : Hart) (fn : Fin 3) (imm : Bool) (src : BitVec 5) (old : Word) : Word :=
  let x := if imm then src.setWidth 64 else hReg t src
  if fn = 0 then x else if fn = 1 then old ||| x else old &&& ~~~x

theorem csrOperand_val (t : Hart) (fn : Fin 3) (imm : Bool) (src : BitVec 5) (old : Word) : csrOperand t fn imm src old =
    if fn.val = 0 then (if imm then src.setWidth 64 else hReg t src) else if fn.val = 1 then old ||| (if imm then src.setWidth 64 else hReg t src)
    else old &&& ~~~(if imm then src.setWidth 64 else hReg t src) := by
  match fn with
  | 0 => rfl
  | 1 => rfl
  | 2 => rfl

section Csr
variable {h : Nat} {fn : Fin 3} {num : BitVec 12} {imm : Bool} {rd src : BitVec 5} {old : Word}
  (hread : csrRead s (gHart s h) s.free num.toNat = some old) (hopen : csrOpen (gHart s h) num.toNat = true)
include hread hopen

theorem hartCsr_writes (hw : fn = 0 ∨ src ≠ 0) (hnum : num.toNat < 0xC00) : hartCsr s n h fn num imm rd src =
    hartNext (uHart (useFree s) h (fun _ => hSet (csrWrite (gHart s h) num.toNat (csrOperand (gHart s h) fn imm src old)) rd old)) n h := by
  have hwrites : (decide (fn.val = 0) || src != 0) = true := by simpa only [Bool.or_eq_true, decide_eq_true_eq, bne_iff_ne, Fin.val_eq_zero_iff] using hw
  have hk : decide (0xC00 ≤ num.toNat) = false := decide_eq_false (Nat.not_le.mpr hnum)
  have hread' : csrRead { s with free := s.free + 1 } (gHart s h) s.free num.toNat = some old := hread
  simp only [hartCsr, freshFree, hread', hopen, hwrites, hk, Bool.not_true, Bool.false_or, Bool.and_false, Bool.false_eq_true, if_false, if_true,
    csrOperand_val]
  rfl

theorem hartCsr_reads (hw : ¬ (fn = 0 ∨ src ≠ 0)) : hartCsr s n h fn num imm rd src =
    hartNext (uHart (useFree s) h (fun u => hSet u rd old)) n h := by
  have hwrites : (decide (fn.val = 0) || src != 0) = false := by
    simpa only [← Bool.not_eq_true, Bool.or_eq_true, decide_eq_true_eq, bne_iff_ne, Fin.val_eq_zero_iff] using hw
  have hread' : csrRead { s with free := s.free + 1 } (gHart s h) s.free num.toNat = some old := hread
  simp only [hartCsr, freshFree, hread', hopen, hwrites, Bool.not_true, Bool.false_and, Bool.or_false, Bool.false_eq_true, if_false]
  rfl

end Csr

end Forms

/-! ## Exceptions and SRET (R152, R157, R159) -/

/-- What an exception leaves in a hart whose instructions are not traced. -/
theorem hartTrap_hart {s : State} {n : Nat} (ht : tjWants s n 13 none = false) (h : Nat) (cause tval m2 : Word) :
    let t := gHart s h
    let u := gHart (hartTrap s n h cause tval m2) h
    u.scause = cause ∧ u.sepc = t.pc ∧ u.stval = tval ∧ u.mtval2 = m2 ∧ u.pc = t.stvec &&& ~~~(3 : Word) ∧ u.x = t.x ∧ u.user = false := by
  simp only [hartTrap]
  rw [tjHarbor_untraced (by exact ht)]
  simp

/-- SPIE returns to SIE. -/
theorem sretStatus_sie (x : Word) (b : Bool) :
    ((x &&& ~~~(place 1 8 8 ||| place 1 1 1)) ||| place 1 5 5 ||| place (b2n b) 1 1).getLsbD 1 = b := by
  cases b <;> simp [place, b2n]

theorem hartSret_returns {s : State} {n h : Nat} (ht : tjWants s n 13 none = false) (huser : (gHart s h).user = false) :
    let t := gHart s h
    let m := hartSret s n h
    m.mem = s.mem ∧ (gHart m h).pc = t.sepc ∧ (gHart m h).x = t.x ∧ (gHart m h).user = !t.sstatus.getLsbD 8 ∧
      (gHart m h).sstatus.getLsbD 1 = t.sstatus.getLsbD 5 := by
  simp only [hartSret, huser, Bool.false_eq_true, if_false]
  rw [tjHartRun_untraced (by exact ht), tjHarbor_untraced (by exact ht)]
  simp only [uHart_mem, gHart_uHart, if_true, true_and]
  exact sretStatus_sie _ _

/-- A word of the harbor extension with a nonzero funct7, or with funct3 7, is illegal. -/
theorem harborIllegal_of_fields {w : BitVec 32} (hop : w.extractLsb' 0 7 = 0x0B) (hf : w.extractLsb' 25 7 ≠ 0 ∨ w.extractLsb' 12 3 = 7) :
    harborIllegal w = true := by
  have hop' : w.toNat % 128 = 0x0B := by simpa using congrArg BitVec.toNat hop
  have hfields : w.toNat / 2 ^ 25 ≠ 0 ∨ w.toNat / 2 ^ 12 % 8 = 7 := by
    rcases hf with hf7 | hf3
    · exact .inl (fun h0 => hf7 (BitVec.eq_of_toNat_eq (by simp [BitVec.extractLsb'_toNat, Nat.shiftRight_eq_div_pow, -Nat.reducePow, h0])))
    · exact .inr (by simpa [Nat.shiftRight_eq_div_pow] using congrArg BitVec.toNat hf3)
  simpa [harborIllegal, hop'] using hfields

theorem exec_harborIllegal {s : State} {h : Fin 16} {n : Nat} (hr : hartRuns s h.val = some n) {w : BitVec 32} (hw : harborIllegal w = true) :
    exec (.harborIllegalInstruction h w) s = .next (hartTrap s n h.val 2 (w.setWidth 64) 0) := by
  change execHarborIllegalInstruction h w s = _
  simp only [execHarborIllegalInstruction, hr, if_pos hw, BitVec.ofNat_toNat]

/-! ## The core that serves a hart (R164, R167) -/

/-- Hart `i` is named and has not ended. -/
def hartLive (s : State) (i : Nat) : Bool := (gHart s i).named && !(gHart s i).ended

/-- The cores that are not fenced, in ascending order. -/
def openCores (s : State) : List Nat := (List.range 16).filter (fun c => !s.fw.hartFenced.getLsbD c)

/-- How many live harts come before hart `h`. -/
def liveBelow (s : State) (h : Nat) : Nat := ((List.range h).filter (hartLive s)).length

theorem liveBelow_succ (s : State) (h : Nat) : liveBelow s (h + 1) = liveBelow s h + (if hartLive s h then 1 else 0) := by
  simp only [liveBelow, List.range_succ, List.filter_append, List.length_append, List.filter_cons, List.filter_nil]
  split <;> rfl

/-- A live hart counts for every later one. -/
theorem liveBelow_lt {s : State} {i j : Nat} (hi : hartLive s i = true) (hij : i < j) : liveBelow s i < liveBelow s j := by
  induction hij with
  | refl => rw [liveBelow_succ, if_pos hi]; exact Nat.lt_succ_self _
  | step _ ih => rw [liveBelow_succ]; exact Nat.lt_of_lt_of_le ih (Nat.le_add_right _ _)

theorem liveBelow_injective {s : State} {i j : Nat} (hi : hartLive s i = true) (hj : hartLive s j = true) (heq : liveBelow s i = liveBelow s j) :
    i = j := by
  rcases Nat.lt_trichotomy i j with hlt | rfl | hlt
  · exact absurd heq (Nat.ne_of_lt (liveBelow_lt hi hlt))
  · rfl
  · exact absurd heq (Nat.ne_of_gt (liveBelow_lt hj hlt))

/-- The live harts take the open cores in order: a hart's core is the one at the number of live harts before it. -/
theorem coreOf_eq_some {s : State} {h c : Nat} :
    coreOf s h = some c ↔ hartLive s h = true ∧ (openCores s)[liveBelow s h]? = some c :=
  Option.ite_none_right_eq_some

/-- No core serves two harts. -/
theorem coreOf_injective {s : State} {i j c : Nat} (hi : coreOf s i = some c) (hj : coreOf s j = some c) : i = j := by
  obtain ⟨hlive_i, hcore_i⟩ := coreOf_eq_some.mp hi
  obtain ⟨hlive_j, hcore_j⟩ := coreOf_eq_some.mp hj
  obtain ⟨hlt, -⟩ := List.getElem?_eq_some_iff.mp hcore_i
  have hnodup : (openCores s).Nodup := List.nodup_range.filter _
  exact liveBelow_injective hlive_i hlive_j ((List.getElem?_inj hlt hnodup).mp (hcore_i.trans hcore_j.symm))

/-- The hart that HARBOR_CORE_FAIL finds is the one that the core serves. -/
theorem find_served_hart {s : State} {h : Fin 16} {c : Nat} (hc : coreOf s h.val = some c) :
    (List.range 16).find? (fun i => coreOf s i == some c) = some h.val := by
  cases hfind : (List.range 16).find? (fun i => coreOf s i == some c) with
  | none => exact absurd (beq_iff_eq.mpr hc) (List.find?_eq_none.mp hfind h.val (List.mem_range.mpr h.isLt))
  | some i =>
    have hi : (coreOf s i == some c) = true := List.find?_some (p := fun i => coreOf s i == some c) hfind
    rw [coreOf_injective (beq_iff_eq.mp hi) hc]

/-- The core is fenced, the program of the hart that it serves ends with a record of E_UNIT_LOST and its wait for a page with it (R167). -/
theorem exec_harborCoreFail_of_serves {s : State} {h core : Fin 16} {n : Nat} (hr : hartRuns s h.val = some n) (hc : coreOf s h.val = some core.val) :
    exec (.harborCoreFail core) s = .next (
      let ag := hartAgent n h.val (gHart s h.val).pc
      let s1 := { s with fw := { s.fw with hartFenced := s.fw.hartFenced ||| ((1 : BitVec 16) <<< core.val) } }
      let s2 := errRecord s1 ag eUnitLost
      uHart { s2 with faults := s2.faults.filter (fun f => f.id != ag.id) } h.val (fun t => { t with ended := true, waiting := false })) := by
  change execHarborCoreFail core s = _
  simp only [execHarborCoreFail, hartRuns_ready hr, find_served_hart hc, hartRuns_holder hr]
  rfl

/-! ## What each form of HARBOR_ACCESS calls -/

theorem exec_harborAccess (h : Fin 16) (a : HOp) (s : State) : exec (.harborAccess h a) s = execHarborAccess h a s := rfl

section Access
variable {s : State} {h : Fin 16} {n : Nat} (hr : hartRuns s h.val = some n)
include hr

theorem exec_access_mem (a : HAccess) : exec (.harborAccess h (.mem a)) s =
    .next (hartMem s n h.val a.store (hartAddr (gHart s h.val) a.base a.off) (2 ^ a.sz.val) (leBytes (hReg (gHart s h.val) a.reg).toNat (2 ^ a.sz.val))
      (fun x u => if a.store then u else hSet u a.reg (if a.sext then BitVec.ofInt 64 (sgn (8 * 2 ^ a.sz.val) x) else BitVec.ofNat 64 x))) := by
  simp only [exec_harborAccess, execHarborAccess, hr]

theorem exec_access_fp {store : Bool} {sz : Fin 4} {reg base : BitVec 5} {off : BitVec 12} (hfs : fld (gHart s h.val).sstatus 14 13 ≠ 0) (hsz : sz ≠ 0) :
    exec (.harborAccess h (.fp store sz reg base off)) s =
      .next (hartMem s n h.val store (hartAddr (gHart s h.val) base off) (2 ^ sz.val) (leBytes (Tab.get 0 (gHart s h.val).f reg.toNat).toNat (2 ^ sz.val))
        (fun x u => if store then u else fsDirty { u with f := Tab.set 0 u.f reg.toNat (fBox sz.val x) })) := by
  have hon : (!fsOn (gHart s h.val) || decide (sz.val = 0)) = false := by simp [fsOn_iff.mpr hfs, hsz]
  simp only [exec_harborAccess, execHarborAccess, hr, hon, Bool.false_eq_true, if_false]

theorem exec_access_vec {store : Bool} {nf : Fin 4} {reg base : BitVec 5} :
    exec (.harborAccess h (.vec store nf reg base)) s = .next (hartVec s n h.val store nf reg base) := by
  simp only [exec_harborAccess, execHarborAccess, hr]

theorem exec_access_amo {fn : Fin 10} {wide : Bool} {rd src base : BitVec 5} :
    exec (.harborAccess h (.amo fn wide rd src base)) s = .next (hartAmo s n h.val fn wide rd src base) := by
  simp only [exec_harborAccess, execHarborAccess, hr]

theorem exec_access_cboZero {base : BitVec 5} (hmay : (gHart s h.val).user = false ∨ (gHart s h.val).senvcfg.getLsbD 7 = true) :
    exec (.harborAccess h (.cboZero base)) s =
      .next (hartMem s n h.val true ((hReg (gHart s h.val) base).toNat / 64 * 64) 64 (List.replicate 64 0) (fun _ u => u)) := by
  have hopen : ((gHart s h.val).user && !(gHart s h.val).senvcfg.getLsbD 7) = false := by
    rcases hmay with hvs | hz
    · rw [hvs, Bool.false_and]
    · rw [hz, Bool.not_true, Bool.and_false]
  simp only [exec_harborAccess, execHarborAccess, hr, hopen, Bool.false_eq_true, if_false]

theorem exec_access_fence : exec (.harborAccess h .fence) s = .next (hartNext s n h.val) := by
  simp only [exec_harborAccess, execHarborAccess, hr]

theorem exec_access_csr {fn : Fin 3} {num : BitVec 12} {imm : Bool} {rd src : BitVec 5} :
    exec (.harborAccess h (.csr fn num imm rd src)) s = .next (hartCsr s n h.val fn num imm rd src) := by
  simp only [exec_harborAccess, execHarborAccess, hr]

theorem exec_access_sret : exec (.harborAccess h .sret) s = .next (hartSret s n h.val) := by
  simp only [exec_harborAccess, execHarborAccess, hr]

end Access

/-- Settles O18: an access by the answer of its stages (`hartMem_cases`), the other forms each by its own lemma, a failing core by
`coreOf_injective`. -/
theorem harborAccessesAndExceptions : Obligations.HarborAccessesAndExceptions := by
  unfold Obligations.HarborAccessesAndExceptions
  intro s h n hr
  refine ⟨fun store va len data load => hartMem_cases hr, exec_access_mem hr, ?fp, ?vec, ?amo, fun base hmay => exec_access_cboZero hr hmay,
    exec_access_fence hr, ?csr, csrRead_time s _, ?sret, ?illegal, fun cause tval m2 ht => hartTrap_hart ht _ cause tval m2,
    fun core hc => exec_harborCoreFail_of_serves hr hc⟩
  case fp => exact fun store sz reg base off hfs hsz => exec_access_fp hr hfs hsz
  case vec => exact fun store nf reg base hvs hreg hstart => (exec_access_vec hr).trans (congrArg _ (hartVec_whole hvs hreg hstart))
  case amo => exact fun fn wide rd src base hfn hal x s' hop => (exec_access_amo hr).trans (congrArg _ (hartAmo_loaded hr hfn hal hop))
  case csr =>
    exact fun fn num imm rd src old hread hopen =>
      ⟨fun hw hnum => (exec_access_csr hr).trans (congrArg _ (hartCsr_writes hread hopen hw hnum)),
        fun hw => (exec_access_csr hr).trans (congrArg _ (hartCsr_reads hread hopen hw))⟩
  case sret => exact fun huser ht => ⟨hartSret s n h.val, exec_access_sret hr, hartSret_returns ht huser⟩
  case illegal => exact fun w hop hf => exec_harborIllegal hr (harborIllegal_of_fields hop hf)

end Sys2Proof.Machine
end

section
/-! PROOFS. Mapping commands (spec/06_memory_and_translation.md): what a write of MMU_CMD comes to when it is refused and when it is taken,
said once for all commands, and what DROP, QUERY and an unlisted OP do. -/

namespace Sys2Proof.Machine

/-! ## The MMU_ registers and the access code -/

@[simp] theorem uMmu_mem (s : State) (n : Nat) (f : Mmu → Mmu) : (uMmu s n f).mem = s.mem := rfl
@[simp] theorem uMmu_faults (s : State) (n : Nat) (f : Mmu → Mmu) : (uMmu s n f).faults = s.faults := rfl
@[simp] theorem gFn_uMmu (s : State) (n : Nat) (f : Mmu → Mmu) (fn : Nat) : gFn (uMmu s n f) fn = gFn s fn := rfl
@[simp] theorem mmu_uMmu (s : State) (n : Nat) (f : Mmu → Mmu) : (gCtx (uMmu s n f) n).mmu = f (gCtx s n).mmu := by simp [uMmu]

@[simp] theorem setAcc_mem (s : State) (fn : Nat) (c : Code) : (setAcc s fn c).mem = s.mem := rfl
@[simp] theorem gCtx_setAcc (s : State) (fn : Nat) (c : Code) (n : Nat) : gCtx (setAcc s fn c) n = gCtx s n := rfl
@[simp] theorem accCode_setAcc (s : State) (fn : Nat) (c : Code) : (gFn (setAcc s fn c) fn).accCode = c := by simp [setAcc]

@[simp] theorem isBound_setAcc (s : State) (fn : Nat) (c : Code) (n : Nat) : isBound (setAcc s fn c) n = isBound s n := rfl
@[simp] theorem isBound_uMmu (s : State) (n : Nat) (f : Mmu → Mmu) : isBound (uMmu s n f) n = isBound s n := by simp [isBound, uMmu]

/-! ## Page-table entries -/

@[simp] theorem pteOf_setPte_same (s : State) (key : Nat) (e : Word) : pteOf (setPte s key e) key = e := by simp [pteOf, setPte, uMem]

theorem pteOf_setPte_other (s : State) {key k : Nat} (e : Word) (h : k ≠ key) : pteOf (setPte s key e) k = pteOf s k :=
  Tab.get_set_other 0 s.mem.pte e h.symm

@[simp] theorem pteOf_uMmu (s : State) (n : Nat) (f : Mmu → Mmu) (key : Nat) : pteOf (uMmu s n f) key = pteOf s key := rfl
@[simp] theorem gCtx_setPte (s : State) (key : Nat) (e : Word) (n : Nat) : gCtx (setPte s key e) n = gCtx s n := rfl
@[simp] theorem gFn_setPte (s : State) (key : Nat) (e : Word) (fn : Nat) : gFn (setPte s key e) fn = gFn s fn := rfl

/-- A walk reads the page tables and the chip's number, nothing else (R179). -/
theorem walk_congr {s t : State} (hpte : t.mem.pte = s.mem.pte) (hcfg : t.cfg = s.cfg) (ctx va : Nat) : walk t ctx va = walk s ctx va := by
  have hentry (key : Nat) : pteOf t key = pteOf s key := by rw [pteOf, hpte, pteOf]
  have hleaf (level : Nat) (e : Word) : leafOk t level e = leafOk s level e := by rw [leafOk, hcfg, leafOk]
  simp only [walk, hentry, hleaf]

/-- A field of one bit is that bit. -/
theorem fld_single (w : Word) (i : Nat) : fld w i i = b2n (bitOf w i) := by
  have hwidth : i + 1 - i = 1 := by omega
  rw [fld, hwidth, bitOf, BitVec.getLsbD, Nat.shiftRight_eq_div_pow, Nat.pow_one, ← Nat.toNat_testBit]
  cases w.toNat.testBit i <;> rfl

/-! ## A write of MMU_CMD (R186, R206) -/

theorem barWrite_of_allowed {s : State} {fn : Nat} (hw : HostWrites s fn) (f : State → State) : barWrite s fn true f = f s := by
  obtain ⟨hopen, hkeeper, hready, hbound⟩ := hw
  have honline : (s.boot.phase == .offline) = false := by
    rw [isReady, beq_iff_eq] at hready
    rw [hready]
    rfl
  simp [barWrite, hopen, hkeeper, hready, honline, Option.isNone_eq_false_iff.mpr hbound]

section Command
variable {s : State} {fn n op : Nat} {w : Bool} {run : Nat → Nat → Nat → State → Code × State}

/-- While a command is in progress another one changes nothing but the access code. -/
theorem mmuCmd_of_busy (hw : HostWrites s fn) (hreach : mmuReach s fn n = true) (hbusy : (gCtx s n).mmu.busy = true) :
    mmuCmd s fn n op w run = setAcc s fn eBusy := by
  rw [mmuCmd, hreach, barWrite_of_allowed hw]
  exact if_pos hbusy

/-- The state in which a command that is taken is performed: its access has no code and BUSY is set. -/
def mmuBegun (s : State) (fn n op : Nat) (w : Bool) : State :=
  uMmu (setAcc s fn 0) n (fun m => { m with op := BitVec.ofNat 4 op, w := w, busy := true })

@[simp] theorem mmuBegun_mem : (mmuBegun s fn n op w).mem = s.mem := rfl
@[simp] theorem mmuBegun_faults : (mmuBegun s fn n op w).faults = s.faults := rfl
@[simp] theorem pteOf_mmuBegun (key : Nat) : pteOf (mmuBegun s fn n op w) key = pteOf s key := rfl
@[simp] theorem accCode_mmuBegun : (gFn (mmuBegun s fn n op w) fn).accCode = 0 := by simp [mmuBegun]
@[simp] theorem mmu_mmuBegun : (gCtx (mmuBegun s fn n op w) n).mmu = { (gCtx s n).mmu with op := BitVec.ofNat 4 op, w := w, busy := true } := by
  simp [mmuBegun]
@[simp] theorem walk_mmuBegun (ctx va : Nat) : walk (mmuBegun s fn n op w) ctx va = walk s ctx va := walk_congr rfl rfl ctx va

/-- A command that is taken is performed with the addresses of the MMU_ registers, and its code waits in RESULT. -/
theorem mmuCmd_of_takes (h : MmuTakes s fn n) {c : Code} {t : State}
    (hrun : run (mmuVa s n) (mmuPa s n) (mmuHost s n) (mmuBegun s fn n op w) = (c, t)) :
    mmuCmd s fn n op w run = uMmu t n (fun m => { m with result := c }) := by
  obtain ⟨hw, hreach, hidle, hbound⟩ := h
  have hbegun : isBound (mmuBegun s fn n op w) n = true := by simp [mmuBegun, hbound]
  simp only [mmuVa, mmuPa, mmuHost, mmuBegun] at hrun hbegun
  simp only [mmuCmd, hreach, barWrite_of_allowed hw, hidle, Bool.false_eq_true, if_false, hbegun, if_true, hrun]

/-- A command that leaves BUSY and the access code alone is in progress with its code. -/
theorem mmuBusyWith_of_kept {t : State} (c : Code) (hbusy : (gCtx t n).mmu.busy = true) (hacc : (gFn t fn).accCode = 0) :
    mmuBusyWith (uMmu t n (fun m => { m with result := c })) fn n c := by
  simp [mmuBusyWith, hbusy, hacc]

end Command

/-! ## The commands and their end -/

section Operations
variable {s : State} {fn ctx : Fin 64}

/-- An unlisted OP is refused like any other while a command is in progress, and otherwise ends at once. -/
theorem exec_mmuOpInvalid_of_unlisted {op : BitVec 4} (hw : HostWrites s fn.val) (hreach : mmuReach s fn.val ctx.val = true)
    (hop : op = 0 ∨ 8 < op.toNat) :
    exec (.mmuOpInvalid fn ctx op) s = if (gCtx s ctx.val).mmu.busy then .next (setAcc s fn.val eBusy)
      else .next (uMmu (setAcc s fn.val 0) ctx.val (fun m => { m with op := op, code := eRange })) := by
  change execMmuOpInvalid fn ctx op s = _
  have hunlisted : ¬ (1 ≤ op.toNat ∧ op.toNat ≤ 8) := by bv_omega
  simp [execMmuOpInvalid, hw.ready, hw.opened, hunlisted, hreach]

/-- Every mapping command meets the same refusal. -/
theorem exec_mmu_of_busy (hw : HostWrites s fn.val) (hreach : mmuReach s fn.val ctx.val = true) (hbusy : (gCtx s ctx.val).mmu.busy = true)
    (w : Bool) (blob : HostRead) {op : BitVec 4} (hop : op = 0 ∨ 8 < op.toNat) :
    ∀ c ∈ [Instr.mapPage fn ctx w, .mapBlock fn ctx w, .unmap fn ctx, .protect fn ctx w, .exportPage fn ctx, .importPage fn ctx blob,
      .drop fn ctx, .query fn ctx, .mmuOpInvalid fn ctx op], exec c s = .next (setAcc s fn.val eBusy) := by
  have refused (k : Nat) (v : Bool) (run : Nat → Nat → Nat → State → Code × State) :
      (.next (mmuCmd s fn.val ctx.val k v run) : Ans) = .next (setAcc s fn.val eBusy) := congrArg _ (mmuCmd_of_busy hw hreach hbusy)
  simp only [List.forall_mem_cons, List.not_mem_nil, false_imp_iff, implies_true, and_true]
  exact ⟨refused 1 w _, refused 2 w _, refused 3 false _, refused 4 w _, refused 5 false _, refused 6 false _, refused 7 false _, refused 8 false _,
    (exec_mmuOpInvalid_of_unlisted hw hreach hop).trans (if_pos hbusy)⟩

/-- With nobody parked DROP only takes the oldest request off the queue (R196). -/
theorem mmuDrop_of_no_faults {t : State} (hf : t.faults = []) (n : Nat) : mmuDrop t n = (0, uMmu t n (fun m => { m with prq := m.prq.tail })) := by
  simp only [mmuDrop, List.drop_one, uMmu_faults, hf]
  rfl

theorem exec_drop_eq (s : State) (fn ctx : Fin 64) :
    exec (.drop fn ctx) s = .next (mmuCmd s fn.val ctx.val 7 false (fun _ _ _ t => mmuDrop t ctx.val)) := rfl

theorem exec_drop_of_takes (h : MmuTakes s fn.val ctx.val) (hf : s.faults = []) :
    ∃ t, exec (.drop fn ctx) s = .next t ∧ mmuBusyWith t fn.val ctx.val 0 ∧ (gCtx t ctx.val).mmu.prq = (gCtx s ctx.val).mmu.prq.tail ∧ t.mem = s.mem := by
  have hrun := mmuDrop_of_no_faults (t := mmuBegun s fn.val ctx.val 7 false) (mmuBegun_faults.trans hf) ctx.val
  refine ⟨_, (exec_drop_eq s fn ctx).trans (congrArg _ (mmuCmd_of_takes h hrun)), mmuBusyWith_of_kept 0 (by simp) (by simp), by simp, by simp⟩

/-- QUERY of a mapped page reports PIN, D and A and clears A (R206). -/
theorem mmuQuery_of_leaf {t : State} {n va level key : Nat} {e : Word} (hleaf : walk t n va = .leaf level key e) :
    mmuQuery t n va = (0, uMmu (setPte t key (e &&& ~~~(0x40 : Word))) n
      (fun m => { m with qry := BitVec.ofNat 3 (4 * b2n (bitOf e 4) + 2 * b2n (bitOf e 5) + b2n (bitOf e 6)) })) := by
  have hA : place 1 6 6 = 0x40 := by decide
  simp only [mmuQuery, hleaf, fld_single, hA]

theorem exec_query_eq (s : State) (fn ctx : Fin 64) :
    exec (.query fn ctx) s = .next (mmuCmd s fn.val ctx.val 8 false (fun va _ _ t => mmuQuery t ctx.val va)) := rfl

theorem exec_query_of_leaf (h : MmuTakes s fn.val ctx.val) {level key : Nat} {e : Word} (hleaf : walk s ctx.val (mmuVa s ctx.val) = .leaf level key e) :
    ∃ t, exec (.query fn ctx) s = .next t ∧ mmuBusyWith t fn.val ctx.val 0 ∧ pteOf t key = e &&& ~~~(0x40 : Word) ∧
      (gCtx t ctx.val).mmu.qry = BitVec.ofNat 3 (4 * b2n (bitOf e 4) + 2 * b2n (bitOf e 5) + b2n (bitOf e 6)) ∧
      ∀ k, k ≠ key → pteOf t k = pteOf s k := by
  have hrun := mmuQuery_of_leaf (t := mmuBegun s fn.val ctx.val 8 false) ((walk_mmuBegun _ _).trans hleaf)
  refine ⟨_, (exec_query_eq s fn ctx).trans (congrArg _ (mmuCmd_of_takes h hrun)), mmuBusyWith_of_kept 0 (by simp) (by simp), by simp, by simp,
    fun k hk => ?_⟩
  simp [pteOf_setPte_other _ _ hk]

theorem exec_mmuCommandDone_of_busy (hbusy : (gCtx s ctx.val).mmu.busy = true) (hwait : (gCtx s ctx.val).mmu.waitChip = false) :
    exec (.mmuCommandDone ctx) s = .next (uMmu s ctx.val (fun m => { m with busy := false, code := m.result, result := 0 })) :=
  if_pos (by rw [hbusy, hwait]; rfl)

end Operations

/-- Settles O21: a busy context refuses by `mmuCmd_of_busy`, a taken command is performed by `mmuCmd_of_takes`, and an unlisted OP or the end of
a command writes the registers at once. -/
theorem mappingCommandsOneAtATime : Obligations.MappingCommandsOneAtATime := by
  unfold Obligations.MappingCommandsOneAtATime
  intro s fn ctx
  refine ⟨fun hw hreach hbusy => exec_mmu_of_busy hw hreach hbusy true .failed (.inr (by decide)), exec_drop_of_takes,
    fun level key e h hleaf => exec_query_of_leaf h hleaf, fun op h hop => ?unlisted, exec_mmuCommandDone_of_busy⟩
  case unlisted =>
    have hidle : ¬ (gCtx s ctx.val).mmu.busy = true := by simp [h.idle]
    exact ⟨_, (exec_mmuOpInvalid_of_unlisted h.host h.reach hop).trans (if_neg hidle), by simp, by simp [h.idle], by simp⟩

end Sys2Proof.Machine
end

section
/-! PROOFS. The units of a cluster at work (spec/08 to spec/11): what a held command's run comes to, what a row makes of the front command of its
queue, and how the commands go on that wait for marks or on a gate. -/

namespace Sys2Proof.Machine

/-! ## A held command's run, position by position (R265) -/

/-- What a row's command does at its position. -/
def rowStep (row : UnitRow) (cl : Nat) (c : UCmd) : M UStep :=
  row.step { ag := row.agent cl c, cl := cl, cmd := c.cmd } c.id c.pos c.aux c.scratch

/-- A row's held command moved by one position. -/
def cmdMoved (row : UnitRow) (cl id dst : Nat) (s : State) (c : UCmd) : State :=
  runOp s (row.agent cl c) (cmdWork row cl c dst)
    (fun r s =>
      if r.done then endCmd s cl row.unit (row.agent cl c) c r.code
      else uHeld s c.ctx cl row.unit id (fun x => { x with pos := r.pos, aux := x.aux + partsLen r.out, scratch := r.scratch, waiting := r.gated }))
    (fun code s => endCmd s cl row.unit (row.agent cl c) c code)

section Run
variable {row : UnitRow} {cl id dst : Nat} {s s' : State} {c c' : UCmd} {r : UStep}

theorem cmdMoved_of_done (hp : isParked s (row.agent cl c).id = false) (hw : cmdWork row cl c dst { s with racc := 0 } = .ok r s')
    (hdone : r.done = true) :
    cmdMoved row cl id dst s c = endCmd (opClean (row.agent cl c).id s') cl row.unit (row.agent cl c) c r.code :=
  (runOp_of_ok hp hw).trans (if_pos hdone)

theorem cmdMoved_of_going (hp : isParked s (row.agent cl c).id = false) (hw : cmdWork row cl c dst { s with racc := 0 } = .ok r s')
    (hgoing : r.done = false) :
    cmdMoved row cl id dst s c = uHeld (opClean (row.agent cl c).id s') c.ctx cl row.unit id
      (fun x => { x with pos := r.pos, aux := x.aux + partsLen r.out, scratch := r.scratch, waiting := r.gated }) :=
  (runOp_of_ok hp hw).trans (if_neg (Bool.eq_false_iff.mp hgoing))

theorem runCmd_of_last (fuel : Nat) (hfront : frontCmd s cl row.unit (fun x => x.id == id) = some c)
    (hgone : frontCmd (cmdMoved row cl id dst s c) cl row.unit (fun x => x.id == id) = none) :
    runCmd cl row.unit id (row.agent cl) dst (rowStep row cl) (fuel + 1) s = cmdMoved row cl id dst s c := by
  simp only [cmdMoved, cmdWork] at hgone ⊢
  simp only [runCmd, hfront, rowStep, hgone]

theorem runCmd_of_moved (fuel : Nat) (hfront : frontCmd s cl row.unit (fun x => x.id == id) = some c)
    (hnext : frontCmd (cmdMoved row cl id dst s c) cl row.unit (fun x => x.id == id) = some c') (hne : c' ≠ c) :
    runCmd cl row.unit id (row.agent cl) dst (rowStep row cl) (fuel + 1) s =
      runCmd cl row.unit id (row.agent cl) dst (rowStep row cl) fuel (cmdMoved row cl id dst s c) := by
  simp only [cmdMoved, cmdWork] at hnext ⊢
  simp only [runCmd, hfront, rowStep, hnext, if_neg hne]

end Run

/-- A command that works to its end in `k` positions before its last is run to it by any fuel above `k`. -/
theorem runCmd_of_cmdRuns {row : UnitRow} {cl id dst k : Nat} {s t : State} (h : CmdRuns row cl id dst k s t) :
    ∀ {fuel : Nat}, k < fuel → runCmd cl row.unit id (row.agent cl) dst (rowStep row cl) fuel s = t := by
  induction h with
  | ends hfront hp hw hdone hcode ht hfree hgone =>
    intro fuel hfuel
    obtain ⟨fuel, rfl⟩ := Nat.exists_eq_succ_of_ne_zero (Nat.ne_zero_of_lt hfuel)
    have hmoved := (cmdMoved_of_done (id := id) hp hw hdone).trans (by rw [hcode, ← ht])
    rw [runCmd_of_last fuel hfront (hmoved ▸ hgone), hmoved]
  | goes hfront hp hw hgoing hm hnext hne hrest ih =>
    intro fuel hfuel
    obtain ⟨fuel, rfl⟩ := Nat.exists_eq_succ_of_ne_zero (Nat.ne_zero_of_lt hfuel)
    have hmoved := (cmdMoved_of_going (id := id) hp hw hgoing).trans hm.symm
    rw [runCmd_of_moved fuel hfront (hmoved ▸ hnext) hne, hmoved]
    exact ih (Nat.lt_of_succ_lt_succ hfuel)

/-- A command that has worked to its end is not parked. -/
theorem not_parked_of_cmdRuns {row : UnitRow} {cl id dst k : Nat} {s t : State} (h : CmdRuns row cl id dst k s t) : isParked t id = false := by
  induction h with
  | ends _ _ _ _ _ _ hfree _ => exact hfree
  | goes _ _ _ _ _ _ _ _ ih => exact ih

/-! ## The front command of a unit (R265, R284, R333, R352) -/

theorem frontRow_of_front {s : State} {cl u op : Nat} {c : UCmd} {sel ok : UCmd → Bool} {agOf : UCmd → Agent} {run : UCmd → State}
    (hfront : frontCmd s cl u sel = some c) (hholds : holds s c.ctx = true) (hserves : clServes s cl = true) (hlen : c.cmd.length = 64) :
    frontRow s cl u agOf op sel ok run = if ok c then (if aOp c.cmd = op then run c else s) else endCmd s cl u (agOf c) c eRange := by
  obtain ⟨a, b, rest, hcmd⟩ : ∃ a b rest, c.cmd = a :: b :: rest := by
    match hc : c.cmd with
    | [] => simp [hc] at hlen
    | [_] => simp [hc] at hlen
    | a :: b :: rest => exact ⟨a, b, rest, rfl⟩
  simp only [frontRow, hfront, hholds, hserves, hcmd, Bool.not_true, Bool.or_self, Bool.false_eq_true, if_false, aOp]
  cases ok c <;> rfl

/-- The run of a row's command from where it stands, when the row may start it. -/
def rowWork (row : UnitRow) (s : State) (cl : Nat) (c : UCmd) : State :=
  if row.starts s cl c then
    runCmd cl row.unit c.id (row.agent cl) (row.dst c.cmd) (rowStep row cl) (row.fuel c.cmd) (row.begins s cl)
  else s

/-- In its queue a row makes `run` of the front command: the command's run to its end where the row may start it, and nothing of an AMU update
behind an older BUILD (R324) or of a Dense Array command that waits or whose turn it is not (R352). -/
structure QueueRow (row : UnitRow) (run : State → Nat → UCmd → State) : Prop where
  exec_eq : ∀ (cl : Fin 48) (s : State), exec (row.cmd cl .queue) s =
    .next (frontRow s cl.val row.unit (row.agent cl.val) row.op row.sel (row.ok s) (run s cl.val))
  ends : ∀ {s t : State} {cl k : Nat} {c : UCmd}, row.starts s cl c = true → k < row.fuel c.cmd →
    CmdRuns row cl c.id (row.dst c.cmd) k (row.begins s cl) t → run s cl c = t
  update_waits : ∀ {s : State} {cl : Nat} {c : UCmd}, row.unit = 2 → row.starts s cl c = false → run s cl c = s
  dense_waits : ∀ {s : State} {cl : Nat} {c : UCmd}, row.unit = 4 → c.waiting = true ∨ turnOf s cl 4 0 = false → run s cl c = s

theorem rowWork_of_starts {row : UnitRow} {s : State} {cl : Nat} {c : UCmd} (h : row.starts s cl c = true) : rowWork row s cl c =
    runCmd cl row.unit c.id (row.agent cl) (row.dst c.cmd) (rowStep row cl) (row.fuel c.cmd) (row.begins s cl) :=
  if_pos h

theorem rowWork_of_cmdRuns {row : UnitRow} {s t : State} {cl k : Nat} {c : UCmd} (hstarts : row.starts s cl c = true) (hk : k < row.fuel c.cmd)
    (h : CmdRuns row cl c.id (row.dst c.cmd) k (row.begins s cl) t) : rowWork row s cl c = t :=
  (rowWork_of_starts hstarts).trans (runCmd_of_cmdRuns h hk)

theorem rowWork_of_not_starts {row : UnitRow} {s : State} {cl : Nat} {c : UCmd} (h : row.starts s cl c = false) : rowWork row s cl c = s :=
  if_neg (Bool.eq_false_iff.mp h)

/-- Every unit but the Dense Array runs a command that may start and leaves another. -/
theorem queueRow_rowWork {row : UnitRow} (hunit : row.unit ≠ 4) (hexec : ∀ (cl : Fin 48) (s : State), exec (row.cmd cl .queue) s =
    .next (frontRow s cl.val row.unit (row.agent cl.val) row.op row.sel (row.ok s) (rowWork row s cl.val))) : QueueRow row (rowWork row) where
  exec_eq := hexec
  ends := rowWork_of_cmdRuns
  update_waits := fun _ => rowWork_of_not_starts
  dense_waits := fun h => absurd h hunit

/-! ### The rows of each unit -/

section Rows
variable {cmd : Fin 48 → UTarget → Instr} {op : Nat} {step : UEnv → Nat → Nat → Bytes → M UStep}

theorem queueRow_tableRow (hexec : ∀ (cl : Fin 48) (s : State), exec (cmd cl .queue) s = .next (tuRun op step cl.val .queue s)) :
    QueueRow (tableRow cmd op (fun e i p _ c => step e i p c)) (rowWork (tableRow cmd op (fun e i p _ c => step e i p c))) := by
  refine queueRow_rowWork (by decide : (0 : Nat) ≠ 4) (fun cl s => ?_)
  have hwork : rowWork (tableRow cmd op (fun e i p _ c => step e i p c)) s cl.val = fun c => runCmd cl.val 0 c.id (tuAgent cl.val)
      (if op = 3 then 0 else tOut c.cmd) (fun c => step (tuEnv cl.val c) c.id c.pos c.scratch) (2 ^ 34) s := funext fun c => rowWork_of_starts rfl
  rw [hwork]
  exact hexec cl s

theorem queueRow_featureRow (hexec : ∀ (cl : Fin 48) (s : State), exec (cmd cl .queue) s = .next (fxRun op step cl.val .queue s)) :
    QueueRow (featureRow cmd op step) (rowWork (featureRow cmd op step)) := by
  refine queueRow_rowWork (by decide : (1 : Nat) ≠ 4) (fun cl s => ?_)
  have hwork : rowWork (featureRow cmd op step) s cl.val = fun c => runCmd cl.val 1 c.id (fun c => unitAgent cl.val c 7 1) (aDst c.cmd)
      (fun c => step { ag := unitAgent cl.val c 7 1, cl := cl.val, cmd := c.cmd } c.pos c.aux c.scratch) (2 ^ 33) s :=
    funext fun c => rowWork_of_starts rfl
  rw [hwork]
  exact hexec cl s

theorem queueRow_amuRowOf (hexec : ∀ (cl : Fin 48) (s : State), exec (cmd cl .queue) s = .next (amuRow op step cl.val .queue s)) :
    QueueRow (amuRowOf cmd op step) (rowWork (amuRowOf cmd op step)) := by
  refine queueRow_rowWork (by decide : (2 : Nat) ≠ 4) (fun cl s => ?_)
  have hwork : rowWork (amuRowOf cmd op step) s cl.val = fun c => if aUpdate c.cmd && buildBefore s cl.val c.id then s
      else runCmd cl.val 2 c.id (fun c => unitAgent cl.val c 7 1) (aDst c.cmd)
        (fun c => step { ag := unitAgent cl.val c 7 1, cl := cl.val, cmd := c.cmd } c.pos c.aux c.scratch) (2 * aCount c.cmd + 3) s := by
    funext c
    have hstarts : (amuRowOf cmd op step).starts s cl.val c = !(aUpdate c.cmd && buildBefore s cl.val c.id) := rfl
    by_cases hbehind : (aUpdate c.cmd && buildBefore s cl.val c.id) = true
    · rw [if_pos hbehind, rowWork_of_not_starts (hstarts.trans (by rw [hbehind, Bool.not_true]))]
    · rw [if_neg hbehind]
      exact rowWork_of_starts (hstarts.trans (by rw [Bool.eq_false_iff.mpr hbehind, Bool.not_false]))
  rw [hwork]
  exact hexec cl s

end Rows

theorem queueRow_orderRow {cmd : Fin 48 → UTarget → Instr} {op : Nat}
    (hexec : ∀ (cl : Fin 48) (s : State), exec (cmd cl .queue) s = .next (ouRow op cl.val .queue s)) :
    QueueRow (orderRow cmd op) (rowWork (orderRow cmd op)) := by
  refine queueRow_rowWork (by decide : (3 : Nat) ≠ 4) (fun cl s => ?_)
  have hwork : rowWork (orderRow cmd op) s cl.val = fun c => runCmd cl.val 3 c.id (fun c => unitAgent cl.val c 7 1) (aDst c.cmd)
      (fun c => ouStep { ag := unitAgent cl.val c 7 1, cl := cl.val, cmd := c.cmd } c.pos c.scratch) (2 * oCount c.cmd + oK c.cmd + 5) s :=
    funext fun c => rowWork_of_starts rfl
  rw [hwork]
  exact hexec cl s

/-- With no flight stage waiting for the array its queue's command runs to its end (R352, R353). -/
theorem daQueue_of_cmdRuns {s t : State} {cl k : Nat} {c : UCmd} (halone : (readyKeys s cl 4).all (· == 0) = true) (hk : k < 2 ^ 33)
    (h : CmdRuns denseRow cl c.id (aDst c.cmd) k (served s cl 4 0) t) : daQueue s cl c = t := by
  have hnone : (readyKeys s cl 4).any (· != 0) = false := by
    rw [List.all_eq_not_any_not] at halone
    simpa [bne] using halone
  have hrun : runCmd cl 4 c.id (daAgent cl) (aDst c.cmd) (fun c => daStep { ag := daAgent cl c, cl := cl, cmd := c.cmd } c.pos c.scratch) (2 ^ 33)
      (served s cl 4 0) = t := runCmd_of_cmdRuns h hk
  simp only [daQueue, hnone, Bool.false_eq_true, if_false, hrun, not_parked_of_cmdRuns h]

/-- What DA_RUN makes of the front command of the array's queue. -/
def denseWork (s : State) (cl : Nat) (c : UCmd) : State := if c.waiting || !turnOf s cl 4 0 then s else daQueue s cl c

theorem queueRow_denseRow : QueueRow denseRow denseWork where
  exec_eq := fun _ _ => rfl
  ends := by
    intro s t cl k c hstarts hk h
    simp only [denseRow, Bool.and_eq_true, Bool.not_eq_true'] at hstarts
    obtain ⟨⟨hwaiting, hturn⟩, halone⟩ := hstarts
    rw [denseWork, hwaiting, hturn]
    exact daQueue_of_cmdRuns halone hk h
  update_waits := fun h => absurd h (by decide)
  dense_waits := by
    intro s cl c _ hwaits
    refine if_pos ?_
    rcases hwaits with hwaiting | hturn
    · rw [hwaiting, Bool.true_or]
    · rw [hturn, Bool.not_false, Bool.or_true]

theorem queueRow_of_mem_tableRows : ∀ row ∈ tableRows, ∃ run, QueueRow row run := by
  simp only [tableRows, List.forall_mem_cons, List.not_mem_nil, false_imp_iff, implies_true, and_true]
  and_intros <;> exact ⟨_, queueRow_tableRow (fun _ _ => rfl)⟩

theorem queueRow_of_mem_featureRows : ∀ row ∈ featureRows, ∃ run, QueueRow row run := by
  simp only [featureRows, List.forall_mem_cons, List.not_mem_nil, false_imp_iff, implies_true, and_true]
  and_intros <;> exact ⟨_, queueRow_featureRow (fun _ _ => rfl)⟩

theorem queueRow_of_mem_searchRows : ∀ row ∈ searchRows, ∃ run, QueueRow row run := by
  simp only [searchRows, List.forall_mem_cons, List.not_mem_nil, false_imp_iff, implies_true, and_true]
  exact ⟨⟨_, queueRow_amuRowOf (fun _ _ => rfl)⟩, ⟨_, queueRow_amuRowOf (fun _ _ => rfl)⟩, ⟨_, queueRow_amuRowOf (fun _ _ => rfl)⟩,
    ⟨_, queueRow_amuRowOf (fun _ _ => rfl)⟩, ⟨_, queueRow_amuRowOf (fun _ _ => rfl)⟩, ⟨_, queueRow_amuRowOf (fun _ _ => rfl)⟩,
    ⟨_, queueRow_orderRow (fun _ _ => rfl)⟩, ⟨_, queueRow_orderRow (fun _ _ => rfl)⟩, ⟨_, queueRow_orderRow (fun _ _ => rfl)⟩,
    ⟨_, queueRow_orderRow (fun _ _ => rfl)⟩, ⟨_, queueRow_denseRow⟩⟩

theorem queueRow_of_mem {row : UnitRow} (h : row ∈ tableRows ++ featureRows ++ searchRows) : ∃ run, QueueRow row run := by
  rcases List.mem_append.mp h with h | hsearch
  · rcases List.mem_append.mp h with htable | hfeature
    · exact queueRow_of_mem_tableRows row htable
    · exact queueRow_of_mem_featureRows row hfeature
  · exact queueRow_of_mem_searchRows row hsearch

/-! ### What a row makes of the command that it meets -/

section Meets
variable {row : UnitRow} {run : State → Nat → UCmd → State} {cl : Fin 48} {s : State} {c : UCmd}

theorem QueueRow.exec_of_meets (hq : QueueRow row run) (hm : RowMeets row s cl.val c) : exec (row.cmd cl .queue) s =
    .next (if row.ok s c then (if aOp c.cmd = row.op then run s cl.val c else s) else endCmd s cl.val row.unit (row.agent cl.val c) c eRange) :=
  (hq.exec_eq cl s).trans (congrArg _ (frontRow_of_front hm.front hm.holder hm.serves hm.fetched))

theorem QueueRow.exec_of_other_op (hq : QueueRow row run) (hm : RowMeets row s cl.val c) (hok : row.ok s c = true) (hop : aOp c.cmd ≠ row.op) :
    exec (row.cmd cl .queue) s = .next s := by
  rw [hq.exec_of_meets hm, if_pos hok, if_neg hop]

theorem QueueRow.exec_of_rejected (hq : QueueRow row run) (hm : RowMeets row s cl.val c) (hok : row.ok s c = false) :
    exec (row.cmd cl .queue) s = .next (endCmd s cl.val row.unit (row.agent cl.val c) c eRange) := by
  rw [hq.exec_of_meets hm, if_neg (Bool.eq_false_iff.mp hok)]

theorem QueueRow.exec_of_run_eq (hq : QueueRow row run) (hm : RowMeets row s cl.val c) (hok : row.ok s c = true) (hop : aOp c.cmd = row.op)
    {t : State} (hrun : run s cl.val c = t) : exec (row.cmd cl .queue) s = .next t := by
  rw [hq.exec_of_meets hm, if_pos hok, if_pos hop, hrun]

/-- A command that the row would leave is left whatever its OP. -/
theorem QueueRow.exec_of_run_eq_self (hq : QueueRow row run) (hm : RowMeets row s cl.val c) (hok : row.ok s c = true)
    (hrun : run s cl.val c = s) : exec (row.cmd cl .queue) s = .next s := by
  rw [hq.exec_of_meets hm, if_pos hok, hrun, ite_self]

end Meets

/-- Settles O23: every row makes of its front command what `QueueRow` says, and `frontRow_of_front` gives the refusals. -/
theorem unitRowsRunTheirCommandToItsEnd : Obligations.UnitRowsRunTheirCommandToItsEnd := by
  unfold Obligations.UnitRowsRunTheirCommandToItsEnd
  intro row hrow cl s c hm
  obtain ⟨run, hq⟩ := queueRow_of_mem hrow
  exact ⟨fun t k hok hop hstarts hk h => hq.exec_of_run_eq hm hok hop (hq.ends hstarts hk h),
    fun hok hop => hq.exec_of_other_op hm hok hop,
    fun hok hunit hstarts => hq.exec_of_run_eq_self hm hok (hq.update_waits hunit hstarts),
    fun hok hunit hwaits => hq.exec_of_run_eq_self hm hok (hq.dense_waits hunit hwaits),
    fun hok => hq.exec_of_rejected hm hok⟩

/-! ## APPLY and APPLY_START (R259, R277 to R279) -/

section Waiting
variable {cl : Fin 48} {s t : State} {c : UCmd}

/-- An APPLY that has not read its table reads it, and ends or waits by what the halves say. -/
theorem exec_apply_of_fresh {s' : State} {scr : Bytes} {done waits : Bool} (hfront : frontCmd s cl.val 0 (fun c => !c.waiting) = some c)
    (hholds : holds s c.ctx = true) (hserves : clServes s cl.val = true) (hlen : c.cmd.length = 64) (hok : tuOk false c.cmd = true)
    (hop : aOp c.cmd = 5) (hp : isParked s (tuAgent cl.val c).id = false) (hfresh : c.scratch = [])
    (hread : applyWait (tuEnv cl.val c) { s with racc := 0 } = .ok (scr, done, waits) s') :
    exec (.apply cl .queue) s = .next (
      if done then endCmd (opClean (tuAgent cl.val c).id s') cl.val 0 (tuAgent cl.val c) c 0
      else uHeld (opClean (tuAgent cl.val c).id s') c.ctx cl.val 0 c.id (fun c => { c with scratch := scr, waiting := waits })) := by
  change execApply cl .queue s = _
  rw [execApply, frontRow_of_front hfront hholds hserves hlen, if_pos hok, if_pos hop, hfresh, runOp_of_ok hp hread]
  rfl

theorem exec_applyStart_eq (hfront : frontCmd s cl.val 0 (applyNext s cl.val) = some c) (hholds : holds s c.ctx = true)
    (hserves : clServes s cl.val = true) :
    exec (.applyStart cl) s = .next (runCmd cl.val 0 c.id (tuAgent cl.val) 0 (rowStep applyStartRow cl.val) (2 ^ 34)
      (uHeld s c.ctx cl.val 0 c.id (fun c => { c with waiting := false }))) := by
  change execApplyStart cl s = _
  simp only [execApplyStart, hfront, hholds, hserves, Bool.and_self, if_true]
  rfl

theorem exec_applyStart_of_cmdRuns {k : Nat} (hfront : frontCmd s cl.val 0 (applyNext s cl.val) = some c) (hholds : holds s c.ctx = true)
    (hserves : clServes s cl.val = true) (hk : k < 2 ^ 34)
    (h : CmdRuns applyStartRow cl.val c.id 0 k (uHeld s c.ctx cl.val 0 c.id (fun c => { c with waiting := false })) t) :
    exec (.applyStart cl) s = .next t :=
  (exec_applyStart_eq hfront hholds hserves).trans (congrArg _ (runCmd_of_cmdRuns h hk))

theorem exec_applyStart_of_not_serves (h : clServes s cl.val = false) : exec (.applyStart cl) s = .next s := by
  change execApplyStart cl s = _
  unfold execApplyStart
  split
  next => rfl
  next => rw [h, Bool.and_false, if_neg Bool.false_ne_true]

/-! ## Gates of the Dense Array (R353, R358, R360) -/

theorem exec_daGateOpen_of_not_serves (h : clServes s cl.val = false) : exec (.daGateOpen cl) s = .next s := by
  change execDaGateOpen cl s = _
  rw [execDaGateOpen, h]
  rfl

/-- Without flight stages to take on, DA_GATE_OPEN works on the queue alone. -/
theorem exec_daGateOpen_of_no_stages (hserves : clServes s cl.val = true) (hstages : gateStages s cl.val = []) :
    exec (.daGateOpen cl) s = .next (gateQueue s cl.val) := by
  change execDaGateOpen cl s = _
  rw [execDaGateOpen, hserves, hstages]
  rfl

theorem gateQueue_of_closed {cl : Nat} (hfront : frontCmd s cl 4 (fun _ => true) = some c) (hclosed : daOpen s c.ctx cl c.cmd c.scratch = false) :
    gateQueue s cl = s := by
  simp only [gateQueue, hfront, hclosed, Bool.and_false, Bool.false_eq_true, if_false]

theorem gateQueue_of_open {cl : Nat} (hfront : frontCmd s cl 4 (fun _ => true) = some c) (hwaiting : c.waiting = true)
    (hholds : holds s c.ctx = true) (hopen : daOpen s c.ctx cl c.cmd c.scratch = true) :
    gateQueue s cl = daQueue (uHeld (gateCount s c.ctx) c.ctx cl 4 c.id (fun x => { x with waiting := false })) cl { c with waiting := false } := by
  simp only [gateQueue, hfront, hwaiting, hholds, hopen, Bool.and_self, if_true]

end Waiting

/-- Settles O25: APPLY by `exec_apply_of_fresh`, APPLY_START by `runCmd_of_cmdRuns`, and DA_GATE_OPEN by what `gateQueue` makes of a gate that is
closed and of one that is not. -/
theorem waitingUnitCommandsGoOn : Obligations.WaitingUnitCommandsGoOn := by
  unfold Obligations.WaitingUnitCommandsGoOn
  refine ⟨fun cl s s' c scr done waits => exec_apply_of_fresh, fun cl s t c k => exec_applyStart_of_cmdRuns, ?gate,
    fun cl s h => ⟨exec_daGateOpen_of_not_serves h, exec_applyStart_of_not_serves h⟩⟩
  case gate =>
    intro cl s t c k hfront hholds hwaiting hserves
    constructor
    · intro hclosed hstages
      rw [exec_daGateOpen_of_no_stages hserves hstages, gateQueue_of_closed hfront hclosed]
    · intro hopen m hk halone h hstages
      rw [exec_daGateOpen_of_no_stages hserves hstages, gateQueue_of_open hfront hwaiting hholds hopen]
      exact congrArg _ (daQueue_of_cmdRuns (c := { c with waiting := false }) halone hk h)

end Sys2Proof.Machine
end

section
/-! PROOFS. Lookups in the associative match unit (spec/10_search_and_order.md R316, R317, R320): what a canonical table lists, which entries a
lookup compares, and that the comparison keeps the winner of R317. -/

namespace Sys2Proof.Machine

/-! ## What a canonical table lists -/

theorem Tab.mem_of_get_ne {α : Type} {d : α} {t : Tab α} {a : Nat} (h : Tab.get d t a ≠ d) : (a, Tab.get d t a) ∈ t := by
  induction t with
  | nil => exact absurd (Tab.get_nil d a) h
  | cons e r ih =>
    obtain ⟨k, v⟩ := e
    by_cases hk : k = a
    · simp [Tab.get, hk]
    · simp only [Tab.get, if_neg hk] at h ⊢
      exact List.mem_cons_of_mem _ (ih h)

theorem Tab.get_of_mem {α : Type} [DecidableEq α] {d : α} {t : Tab α} {a : Nat} {x : α} (hwf : Tab.wf d t = true) (h : (a, x) ∈ t) :
    Tab.get d t a = x := by
  obtain ⟨hkeys, -⟩ := (Tab.wf_iff d t).mp hwf
  clear hwf
  induction t with
  | nil => cases h
  | cons e r ih =>
    obtain ⟨hhead, htail⟩ := List.pairwise_cons.mp hkeys
    rcases List.mem_cons.mp h with rfl | hr
    · simp [Tab.get]
    · have hne : e.1 ≠ a := Nat.ne_of_lt (hhead _ hr)
      simp only [Tab.get, if_neg hne]
      exact ih hr htail

/-! ## The entries that a lookup compares (R316) -/

theorem amuHit_iff {e : AmuEntry} {x : BitVec 128} : amuHit e x = true ↔ e.valid = true ∧ (x ^^^ e.key) &&& e.mask = 0 := by
  simp [amuHit]

theorem amuHit_default (x : BitVec 128) : ¬ amuHit {} x = true := by
  simp [amuHit]

/-- The listed entries of a cluster that match a key, under their table keys. -/
def amuHits (s : State) (cl : Nat) (x : BitVec 128) : List (Nat × AmuEntry) :=
  s.amu.filter (fun e => decide (8192 * cl ≤ e.1) && decide (e.1 < 8192 * cl + 8192) && amuHit e.2 x)

theorem amuFind_eq (s : State) (cl : Nat) (x : BitVec 128) :
    amuFind s cl x = (amuBest none (amuHits s cl x)).map (fun e => (e.1 - 8192 * cl, e.2)) := rfl

section Hits

variable {s : State} {cl : Nat} {x : BitVec 128}

/-- An unlisted entry is invalid, so a lookup in a canonical table misses none that matches. -/
theorem mem_amuHits (hwf : Tab.wf {} s.amu = true) {e : Nat × AmuEntry} :
    e ∈ amuHits s cl x ↔ ∃ i < 8192, e = (amuKey cl i, gAmu s cl i) ∧ amuHit (gAmu s cl i) x = true := by
  simp only [amuHits, List.mem_filter, Bool.and_eq_true, decide_eq_true_eq]
  constructor
  · rintro ⟨hmem, ⟨hlo, hhi⟩, hhit⟩
    have hkey : amuKey cl (e.1 - 8192 * cl) = e.1 := by unfold amuKey; omega
    have hentry : gAmu s cl (e.1 - 8192 * cl) = e.2 := by
      rw [gAmu, hkey]
      exact Tab.get_of_mem hwf hmem
    exact ⟨e.1 - 8192 * cl, by omega, by rw [hkey, hentry], by rwa [hentry]⟩
  · rintro ⟨i, hi, rfl, hhit⟩
    have hlisted : gAmu s cl i ≠ {} := fun h => amuHit_default x (h ▸ hhit)
    refine ⟨Tab.mem_of_get_ne hlisted, ?_, hhit⟩
    simp only [amuKey]
    omega

theorem amuHits_pairwise (hwf : Tab.wf {} s.amu = true) : (amuHits s cl x).Pairwise (fun a b => a.1 < b.1) :=
  ((Tab.wf_iff _ _).mp hwf).1.filter _

end Hits

/-! ## The winner (R317) -/

/-- R317's preference: the higher priority, and among equals the lower index. -/
def AmuBeats (e f : Nat × AmuEntry) : Prop := f.2.prio < e.2.prio ∨ (f.2.prio = e.2.prio ∧ e.1 ≤ f.1)

theorem AmuBeats.refl (e : Nat × AmuEntry) : AmuBeats e e := .inr ⟨rfl, Nat.le_refl _⟩

theorem AmuBeats.trans {e f g : Nat × AmuEntry} (hef : AmuBeats e f) (hfg : AmuBeats f g) : AmuBeats e g := by
  unfold AmuBeats at *
  bv_omega

/-- A later entry takes the winner's place only with a strictly higher priority, so the winner beats every entry when they come in the order
of their indices. -/
theorem amuBest_some {b : Nat × AmuEntry} {l : List (Nat × AmuEntry)} (h : (b :: l).Pairwise (fun a b => a.1 < b.1)) :
    ∃ e ∈ b :: l, amuBest (some b) l = some e ∧ ∀ f ∈ b :: l, AmuBeats e f := by
  induction l generalizing b with
  | nil => exact ⟨b, by simp, rfl, by simp [AmuBeats.refl]⟩
  | cons c r ih =>
    obtain ⟨hb, hcr⟩ := List.pairwise_cons.mp h
    by_cases hlt : b.2.prio < c.2.prio
    · obtain ⟨e, hmem, hbest, hbeats⟩ := ih hcr
      have hbeatsb : AmuBeats e b := (hbeats c (by simp)).trans (.inl hlt)
      refine ⟨e, List.mem_cons_of_mem _ hmem, by simpa [amuBest, hlt] using hbest, ?_⟩
      simpa [hbeatsb] using hbeats
    · have hbr : (b :: r).Pairwise (fun a b => a.1 < b.1) := h.sublist (by simp)
      obtain ⟨e, hmem, hbest, hbeats⟩ := ih hbr
      have hbc : AmuBeats b c := by
        have := hb c (by simp)
        unfold AmuBeats
        bv_omega
      have hbeatsc : AmuBeats e c := (hbeats b (by simp)).trans hbc
      refine ⟨e, ?_, by simpa [amuBest, hlt] using hbest, ?_⟩
      · exact (List.Sublist.cons_cons b (List.sublist_cons_self c r)).mem hmem
      · obtain ⟨hbeatsb, hbeatsr⟩ := List.forall_mem_cons.mp hbeats
        exact List.forall_mem_cons.mpr ⟨hbeatsb, List.forall_mem_cons.mpr ⟨hbeatsc, hbeatsr⟩⟩

theorem amuBest_none_eq_none {l : List (Nat × AmuEntry)} (h : l.Pairwise (fun a b => a.1 < b.1)) : amuBest none l = none ↔ l = [] := by
  cases l with
  | nil => simp [amuBest]
  | cons b r =>
    obtain ⟨e, -, hbest, -⟩ := amuBest_some h
    simp [amuBest, hbest]

theorem amuBest_none_eq_some {l : List (Nat × AmuEntry)} (h : l.Pairwise (fun a b => a.1 < b.1)) {e : Nat × AmuEntry}
    (he : amuBest none l = some e) : e ∈ l ∧ ∀ f ∈ l, AmuBeats e f := by
  cases l with
  | nil => simp [amuBest] at he
  | cons b r =>
    obtain ⟨e', hmem, hbest, hbeats⟩ := amuBest_some h
    obtain rfl : e' = e := Option.some.inj (hbest.symm.trans he)
    exact ⟨hmem, hbeats⟩

/-! ## A lookup -/

section Lookup

variable {s : State} {cl : Nat} {x : BitVec 128}

theorem amuFind_eq_some (hwf : Tab.wf {} s.amu = true) {i : Nat} {e : AmuEntry} (h : amuFind s cl x = some (i, e)) :
    i < 8192 ∧ gAmu s cl i = e ∧ amuHit e x = true ∧
      ∀ j < 8192, amuHit (gAmu s cl j) x = true → AmuBeats (amuKey cl i, e) (amuKey cl j, gAmu s cl j) := by
  rw [amuFind_eq, Option.map_eq_some_iff] at h
  obtain ⟨p, hbest, hp⟩ := h
  obtain ⟨hmem, hbeats⟩ := amuBest_none_eq_some (amuHits_pairwise hwf) hbest
  obtain ⟨i', hi', rfl, hhit⟩ := (mem_amuHits hwf).mp hmem
  obtain ⟨rfl, rfl⟩ : i' = i ∧ gAmu s cl i' = e := by simpa [amuKey] using hp
  exact ⟨hi', rfl, hhit, fun j hj hjhit => hbeats _ ((mem_amuHits hwf).mpr ⟨j, hj, rfl, hjhit⟩)⟩

theorem amuFind_eq_none (hwf : Tab.wf {} s.amu = true) :
    amuFind s cl x = none ↔ ∀ j < 8192, ¬ amuHit (gAmu s cl j) x = true := by
  rw [amuFind_eq, Option.map_eq_none_iff, amuBest_none_eq_none (amuHits_pairwise hwf), List.eq_nil_iff_forall_not_mem]
  constructor
  · exact fun h j hj hhit => h _ ((mem_amuHits hwf).mpr ⟨j, hj, rfl, hhit⟩)
  · intro h e he
    obtain ⟨i, hi, -, hhit⟩ := (mem_amuHits hwf).mp he
    exact h i hi hhit

end Lookup

/-- Settles O26: a lookup by `amuFind_eq_some`, whose winner `AmuBeats` every matching entry, a miss by `amuFind_eq_none`. -/
theorem amuLookupsFindTheBestEntry : Obligations.AmuLookupsFindTheBestEntry := by
  unfold Obligations.AmuLookupsFindTheBestEntry
  intro s cl x hwf
  refine ⟨fun i e h => ?found, by simp only [amuFind_eq_none hwf, amuHit_iff]⟩
  case found =>
    obtain ⟨hi, hentry, hhit, hbeats⟩ := amuFind_eq_some hwf h
    obtain ⟨hvalid, hmatch⟩ := amuHit_iff.mp hhit
    refine ⟨hi, hentry, hvalid, hmatch, fun j hj hjvalid hjmatch => ?_⟩
    simpa [AmuBeats, amuKey] using hbeats j hj (amuHit_iff.mpr ⟨hjvalid, hjmatch⟩)

end Sys2Proof.Machine
end

section
/-! PROOFS. What the Order Unit writes (spec/10_search_and_order.md R334, R335, R338): its merge sort answers an ordered permutation, the order of
the integer keys is a total one, and a plan takes its outputs from the front of the sorted keys. -/

namespace Sys2Proof.Machine

/-! ## The merge sort -/

section MergeSort

variable {α : Type} {le : α → α → Bool}

/-- With fuel for every element, the model's merge is the library's. -/
theorem mergeL_eq_merge (le : α → α → Bool) (k : Nat) (a b : List α) (h : a.length + b.length ≤ k) : mergeL le k a b = a.merge b le := by
  fun_induction mergeL le k a b with
  | case1 a b =>
    obtain ⟨rfl, rfl⟩ : a = [] ∧ b = [] := by simpa using h
    simp
  | case2 => simp
  | case3 => simp
  | case4 k x a y b hle ih => rw [List.cons_merge_cons, if_pos hle, ih (by simp at h ⊢; omega)]
  | case5 k x a y b hle ih => rw [List.cons_merge_cons, if_neg hle, ih (by simp at h ⊢; omega)]

theorem sortL_perm (le : α → α → Bool) (k : Nat) (l : List α) : (sortL le k l).Perm l := by
  induction k generalizing l with
  | zero => exact .refl l
  | succ k ih =>
    simp only [sortL]
    split
    · exact .refl l
    · have hhalves := (ih (l.take (l.length / 2))).append (ih (l.drop (l.length / 2)))
      rw [List.take_append_drop] at hhalves
      rw [mergeL_eq_merge _ _ _ _ (Nat.le_of_eq (by rw [← List.length_append, hhalves.length_eq]))]
      exact (List.merge_perm_append le).trans hhalves

theorem pairwise_of_length_le_one {R : α → α → Prop} {l : List α} (h : l.length ≤ 1) : l.Pairwise R := by
  match l, h with
  | [], _ => exact .nil
  | [x], _ => exact List.pairwise_singleton R x

theorem sortL_pairwise (htrans : ∀ a b c, le a b = true → le b c = true → le a c = true) (htotal : ∀ a b, (le a b || le b a) = true)
    (k : Nat) (l : List α) (h : l.length ≤ 2 ^ k) : (sortL le k l).Pairwise (fun a b => le a b = true) := by
  induction k generalizing l with
  | zero => exact pairwise_of_length_le_one (l := l) (by simpa using h)
  | succ k ih =>
    simp only [sortL]
    split
    next hshort => exact pairwise_of_length_le_one hshort
    next =>
      rw [Nat.pow_succ] at h
      rw [mergeL_eq_merge _ _ _ _ (by simp [(sortL_perm le k _).length_eq]; omega)]
      exact List.pairwise_merge htrans htotal _ _ (ih _ (by simp; omega)) (ih _ (by simp; omega))

theorem stableSort_perm (le : α → α → Bool) (l : List α) : (stableSort le l).Perm l := sortL_perm le _ l

theorem stableSort_pairwise (htrans : ∀ a b c, le a b = true → le b c = true → le a c = true) (htotal : ∀ a b, (le a b || le b a) = true)
    (l : List α) : (stableSort le l).Pairwise (fun a b => le a b = true) := by
  refine sortL_pairwise htrans htotal _ l ?_
  calc l.length ≤ 2 ^ (l.length.log2 + 1) := Nat.le_of_lt Nat.lt_log2_self
    _ ≤ 2 ^ (l.length.log2 + 2) := Nat.pow_le_pow_right (by omega) (by omega)

end MergeSort

/-! ## The order of integer keys (R334) -/

/-- The number that a key pattern of an integer type stands for. -/
def keyInt (kt a : Nat) : Int :=
  match kt with
  | 0 => sgn 32 a
  | 1 => sgn 64 a
  | _ => a

theorem keyLt_eq_keyInt {kt : Nat} (hkt : kt < 4) (a b : Nat) : keyLt kt a b = decide (keyInt kt a < keyInt kt b) := by
  match kt, hkt with
  | 0, _ => rfl
  | 1, _ => rfl
  | 2, _ => simp [keyLt, keyInt]
  | 3, _ => simp [keyLt, keyInt]

/-- An element's key as a number that rises along the order: negated when the order is descending. -/
def elemKey (kt : Nat) (desc : Bool) (x : OElem) : Int := if desc then -keyInt kt x.key else keyInt kt x.key

theorem elemLe_iff_lex {kt : Nat} (hkt : kt < 4) (desc : Bool) (a b : OElem) :
    elemLe kt desc a b = true ↔ elemKey kt desc a < elemKey kt desc b ∨ (elemKey kt desc a = elemKey kt desc b ∧ a.idx ≤ b.idx) := by
  simp only [elemLe, elemKey, keyLt_eq_keyInt hkt, Bool.or_eq_true, Bool.and_eq_true, Bool.not_eq_true']
  cases desc <;> simp only [Bool.false_eq_true, if_false, if_true, decide_eq_true_eq, decide_eq_false_iff_not] <;> omega

theorem elemLe_trans {kt : Nat} (hkt : kt < 4) (desc : Bool) (a b c : OElem) :
    elemLe kt desc a b = true → elemLe kt desc b c = true → elemLe kt desc a c = true := by
  simp only [elemLe_iff_lex hkt]
  omega

theorem elemLe_total {kt : Nat} (hkt : kt < 4) (desc : Bool) (a b : OElem) : (elemLe kt desc a b || elemLe kt desc b a) = true := by
  simp only [Bool.or_eq_true, elemLe_iff_lex hkt]
  omega

/-! ## What a plan writes (R334, R335) -/

/-- The keys that stay: all of them, or those that are no NaN. -/
def keptKeys (d : Bytes) (l : List OElem) : List OElem := if oDrop d then l.filter (fun x => !keyNan (oKt d) x.key) else l

/-- A command orders from the greatest key down: a SORT as its bit says, a TOPK and no BOTK. -/
def ordersDown (d : Bytes) : Bool := if aOp d = 1 then oDesc d else aOp d == 3

def sortedKeys (d : Bytes) (l : List OElem) : List OElem := stableSort (elemLe (oKt d) (ordersDown d)) (keptKeys d l)

theorem planSelect_outs (d : Bytes) (l : List OElem) :
    (planSelect d l).outs = if aOp d = 1 then sortedKeys d l else (sortedKeys d l).take (oK d) := rfl

theorem planSelect_nan (d : Bytes) (l : List OElem) : (planSelect d l).nan = l.length - (keptKeys d l).length := rfl

theorem keptKeys_length_le (d : Bytes) (l : List OElem) : (keptKeys d l).length ≤ l.length := by
  unfold keptKeys
  split
  · exact List.length_filter_le _ l
  · exact Nat.le_refl _

theorem sortedKeys_perm (d : Bytes) (l : List OElem) : (sortedKeys d l).Perm (keptKeys d l) := stableSort_perm _ _

theorem sortedKeys_pairwise {d : Bytes} (hkt : oKt d < 4) (l : List OElem) :
    (sortedKeys d l).Pairwise (fun a b => elemLe (oKt d) (ordersDown d) a b = true) :=
  stableSort_pairwise (elemLe_trans hkt _) (elemLe_total hkt _) _

theorem planSelect_outs_sublist (d : Bytes) (l : List OElem) : (planSelect d l).outs.Sublist (sortedKeys d l) := by
  rw [planSelect_outs]
  split
  · exact .refl _
  · exact List.take_sublist _ _

/-- Settles O27: the outputs are the sorted keys or their first K, a permutation by `stableSort_perm` and in order by `stableSort_pairwise`. -/
theorem orderUnitWritesKeysInOrder : Obligations.OrderUnitWritesKeysInOrder := by
  unfold Obligations.OrderUnitWritesKeysInOrder
  intro d l kt kept
  have hperm : (sortedKeys d l).Perm kept := sortedKeys_perm d l
  refine ⟨fun hsort => ?sort, fun hselect => ?select, fun hkt desc hdesc => ?order, Nat.sub_add_cancel (keptKeys_length_le d l)⟩
  case sort => rwa [planSelect_outs, if_pos hsort]
  case select =>
    rw [planSelect_outs, if_neg hselect]
    refine ⟨by rw [List.length_take, hperm.length_eq], (sortedKeys d l).drop (oK d), ?_⟩
    rwa [List.take_append_drop]
  case order =>
    subst hdesc
    exact (sortedKeys_pairwise hkt l).sublist (planSelect_outs_sublist d l)

end Sys2Proof.Machine
end

section
/-! PROOFS. Codec lanes (spec/12_codec_lanes.md R364, R367, R388, R389): which stage takes which lane, what the take makes of its job, and what
the end of a save and the failure of a lane leave behind. -/

namespace Sys2Proof.Machine

/-! ## What refreshWait leaves alone -/

@[simp] theorem refreshWait_flights (s : State) : (refreshWait s).flights = s.flights := rfl
@[simp] theorem refreshWait_mem (s : State) : (refreshWait s).mem = s.mem := rfl
@[simp] theorem gLane_refreshWait (s : State) (l : Nat) : gLane (refreshWait s) l = gLane s l := rfl

@[simp] theorem flightOf_uLane (s : State) (l : Nat) (f : Lane → Lane) (id : Nat) : flightOf (uLane s l f) id = flightOf s id := rfl

/-! ## The take (R367) -/

/-- The lowest free lane of a kind: lanes 16 to 23 are deep, lanes 0 to 15 fast (R364). -/
theorem lowLane_eq_some {s : State} {deep : Bool} {l : Nat} (hkind : if deep then 16 ≤ l ∧ l < 24 else l < 16) (hfree : laneFree (gLane s l) = true)
    (hleast : ∀ j < l, (deep = true → 16 ≤ j) → laneFree (gLane s j) = false) : lowLane s deep = some l := by
  cases deep with
  | false =>
    refine List.find?_range_eq_some.mpr ⟨hfree, List.mem_range.mpr hkind, fun j hj => ?_⟩
    rw [hleast j hj nofun]; rfl
  | true =>
    have hlanes : rangeFrom 16 8 = List.range' 16 8 := rfl
    rw [lowLane, if_pos rfl, hlanes, List.find?_range'_eq_some]
    refine ⟨hfree, List.mem_range'_1.mpr hkind, fun j hlo hj => ?_⟩
    rw [hleast j hj fun _ => hlo]; rfl

/-- A waiting stage may take a lane of a kind: its context holds the pound and is below its cap (R367). -/
def MayTake (p : State) (deep : Bool) (w : Nat × Nat) : Prop :=
  ∃ f st, flightOf p w.1 = some f ∧ f.stages[w.2]? = some st ∧ holds p f.ctx = true ∧ stUnit st.rec_ = (if deep then 6 else 5) ∧
    lanesHeld p f.ctx deep < (if deep then (manOf p f.ctx).deepMax else (manOf p f.ctx).fastMax)

/-- The check by which CODEC_LANE_TAKE looks for its stage. -/
def mayTake (p : State) (deep : Bool) (w : Nat × Nat) : Bool :=
  match flightOf p w.1 with
  | some f => holds p f.ctx && (match f.stages[w.2]? with | some st => stUnit st.rec_ == (if deep then 6 else 5) | none => false) &&
      decide (lanesHeld p f.ctx deep < (if deep then (manOf p f.ctx).deepMax else (manOf p f.ctx).fastMax))
  | none => false

theorem mayTake_iff {p : State} {deep : Bool} {w : Nat × Nat} : mayTake p deep w = true ↔ MayTake p deep w := by
  unfold mayTake MayTake
  cases hf : flightOf p w.1 with
  | none => simp
  | some f =>
    cases hst : f.stages[w.2]? with
    | none => simp [hst]
    | some st => simp [hst, and_assoc]

theorem find?_mayTake {p : State} {deep : Bool} {w : Nat × Nat} {early rest : List (Nat × Nat)} (hwait : p.codecWait = early ++ w :: rest)
    (hearly : ∀ v ∈ early, ¬ MayTake p deep v) (hmay : MayTake p deep w) : p.codecWait.find? (mayTake p deep) = some w := by
  refine List.find?_eq_some_iff_append.mpr ⟨mayTake_iff.mpr hmay, early, rest, hwait, fun v hv => ?_⟩
  rw [Bool.eq_false_iff.mpr (mt mayTake_iff.mp (hearly v hv))]; rfl

/-- The state in which stage `k` of flight `fid` has been given lane `l`, before its job is read. -/
def laneGiven (p : State) (f : Flight) (fid k l : Nat) : State :=
  refreshWait (uStage (uLane (countStall (useFree p) f.ctx (Config.waitCycles p.free)) l
    (fun x => { x with ctx := some f.ctx, flight := fid, stage := k })) fid k (fun x => { x with lane := some l }))

theorem exec_codecLaneTake_of_found {deep : Bool} {s : State} {fid k l : Nat} {f : Flight} {st : Stage}
    (hfind : (refreshWait (pumpCodecs s)).codecWait.find? (mayTake (refreshWait (pumpCodecs s)) deep) = some (fid, k))
    (hlow : lowLane (refreshWait (pumpCodecs s)) deep = some l) (hf : flightOf (refreshWait (pumpCodecs s)) fid = some f)
    (hst : f.stages[k]? = some st) :
    exec (.codecLaneTake deep) s = .next (takeJob (laneGiven (refreshWait (pumpCodecs s)) f fid k l) f k l st) := by
  change execCodecLaneTake deep s = _
  unfold execCodecLaneTake
  dsimp only
  split
  next hsel hlane =>
    cases hsel.symm.trans hfind
    cases hlane.symm.trans hlow
    simp only [hf, hst]
    rfl
  next hnone => exact absurd hlow (hnone fid k l hfind)

/-- A stage that reads and checks its job keeps it, and traces the start of the job, or its restore (R369, R388). -/
theorem takeJob_of_ok {m s' : State} {f : Flight} {k l : Nat} {st : Stage} {r : Bytes × CStream} (hp : isParked m (laneAgent f k l).id = false)
    (hm : checkJob (laneAgent f k l) f k l st { m with racc := 0 } = .ok r s') :
    takeJob m f k l st =
      let c := uStage (opClean (laneAgent f k l).id s') f.id k (fun x => { x with cmd := some r.1, job := some r.2 })
      let t := tjCodec c f.ctx l 0 (cFmt r.1) 0 0 0
      if st.saved then tjCodec t f.ctx l 4 (cFmt r.1) 0 0 0 else t :=
  runOp_of_ok hp hm

/-! ## The end of a save, and a lane that fails (R388, R389, R576) -/

/-- A lane whose save has ended is free again. -/
def laneSaved (s : State) (l : Nat) : State := refreshWait (uLane s l (fun x => { x with ctx := none, flight := 0, stage := 0, saving := false }))

theorem exec_codecSaveDone_of_saving {s : State} {l : Fin 24} (h : (gLane s l.val).saving = true) :
    exec (.codecSaveDone l) s = .next (laneSaved s l.val) := if_pos h

/-- A lane that has failed is fenced at the next tick (R389). -/
def fenceDueAt (s : State) (l : Nat) : State := uLane s l (fun x => { x with fenceDue := true })

section LaneFail
variable {s : State} {l : Fin 24} (readable : Bool) (hready : isReady s = true) (hfenced : (gLane s l.val).fenced = false)
include hready hfenced

theorem exec_codecLaneFail_of_idle (hidle : (gLane s l.val).ctx = none) : exec (.codecLaneFail l readable) s = .next (fenceDueAt s l.val) := by
  change execCodecLaneFail l readable s = _
  simp [execCodecLaneFail, hready, hfenced, hidle, fenceDueAt]

theorem exec_codecLaneFail_of_busy {n : Nat} {f : Flight} (hctx : (gLane s l.val).ctx = some n) (hf : flightOf s (gLane s l.val).flight = some f)
    (hsaving : (gLane s l.val).saving = false) :
    exec (.codecLaneFail l readable) s =
      .next (if readable then saveLane (fenceDueAt s l.val) l.val else failStage (fenceDueAt s l.val) f (gLane s l.val).stage l.val 0 eUnitLost) := by
  change execCodecLaneFail l readable s = _
  cases readable <;> simp [execCodecLaneFail, hready, hfenced, hctx, hf, hsaving, fenceDueAt]

end LaneFail

/-- Settles O30: the stage by `find?_mayTake`, its lane by `lowLane_eq_some` and its job by `takeJob_of_ok`; the end of a save and a failing lane by
what each makes of the lane. -/
theorem codecLanesAreTakenSavedAndFenced : Obligations.CodecLanesAreTakenSavedAndFenced := by
  unfold Obligations.CodecLanesAreTakenSavedAndFenced
  refine ⟨?take, fun l s hsaving => ?saved, fun l readable s hready hfenced => ?fails⟩
  case take =>
    intro deep s s' fid k l early rest f st r p may hwait hearly hmay hf hst hkind hfree hleast taken m hparked hjob
    have hfind : p.codecWait.find? (mayTake p deep) = some (fid, k) := find?_mayTake hwait hearly hmay
    have htaken : exec (.codecLaneTake deep) s = .next (takeJob m f k l st) :=
      exec_codecLaneTake_of_found hfind (lowLane_eq_some hkind hfree hleast) hf hst
    rw [htaken, takeJob_of_ok hparked hjob]
  case saved =>
    refine ⟨laneSaved s l.val, exec_codecSaveDone_of_saving hsaving, ?_, ?_, fun j hj => ?_, rfl, rfl⟩
    · simp [laneSaved]
    · simp [laneSaved]
    · simp [laneSaved, hj.symm]
  case fails =>
    exact ⟨exec_codecLaneFail_of_idle readable hready hfenced, fun n f => exec_codecLaneFail_of_busy readable hready hfenced⟩

end Sys2Proof.Machine
end

section
/-! PROOFS. What the codec lanes compress (spec/12_codec_lanes.md R370 to R373, R379): the bytes of numbers and the fields of words, the header and the
payload of a DBF block, the bits of a stored Deflate block, and what a coded block has been checked for. -/

namespace Sys2Proof.Machine

/-! ## Bytes and words (R8) -/

@[simp] theorem length_leBytes (x n : Nat) : (leBytes x n).length = n := by
  induction n generalizing x with
  | zero => rfl
  | succ n ih => rw [leBytes, List.length_cons, ih]

theorem leBytes_ofLe (b : Bytes) : leBytes (ofLe b) b.length = b := by
  induction b with
  | nil => rfl
  | cons x r ih =>
    have hlow : BitVec.ofNat 8 (x.toNat + 256 * ofLe r) = x := by
      apply BitVec.eq_of_toNat_eq
      rw [BitVec.toNat_ofNat]
      omega
    have hhigh : (x.toNat + 256 * ofLe r) / 256 = ofLe r := by omega
    rw [ofLe, List.length_cons, leBytes, hlow, hhigh, ih]

theorem ofLe_leBytes (x n : Nat) : ofLe (leBytes x n) = x % 256 ^ n := by
  induction n generalizing x with
  | zero => rw [Nat.pow_zero, Nat.mod_one]; rfl
  | succ n ih =>
    have hbyte : (BitVec.ofNat 8 x).toNat = x % 256 := BitVec.toNat_ofNat x 8
    rw [leBytes, ofLe, ih, hbyte, Nat.pow_succ', Nat.mod_mul]

@[simp] theorem length_wordBytes (w : Word) : (wordBytes w).length = 8 := length_leBytes _ _

theorem slice_append_middle (a m r : Bytes) : slice (a ++ (m ++ r)) a.length m.length = m := by simp [slice]

theorem wordAt_append_wordBytes (a r : Bytes) (w : Word) : wordAt (a ++ (wordBytes w ++ r)) a.length = w := by
  have hslice : slice (a ++ (wordBytes w ++ r)) a.length 8 = wordBytes w := slice_append_middle a (wordBytes w) r
  have hword : ofLe (wordBytes w) = w.toNat := (ofLe_leBytes w.toNat 8).trans (Nat.mod_eq_of_lt w.isLt)
  rw [wordAt, hslice, hword, BitVec.ofNat_toNat, BitVec.setWidth_eq]

/-! ## Fields placed in a word (R7) -/

theorem testBit_fld (w : Word) (hi lo j : Nat) : (fld w hi lo).testBit j = (decide (j < hi + 1 - lo) && w.getLsbD (lo + j)) := by
  rw [fld, Nat.testBit_mod_two_pow, Nat.testBit_shiftRight, BitVec.getLsbD]

theorem getLsbD_place (x hi lo i : Nat) :
    (place x hi lo).getLsbD i = (decide (i < 64) && (decide (lo ≤ i) && (decide (i - lo < hi + 1 - lo) && x.testBit (i - lo)))) := by
  rw [place, BitVec.getLsbD_ofNat, Nat.testBit_shiftLeft, Nat.testBit_mod_two_pow]

theorem fld_or (a b : Word) (hi lo : Nat) : fld (a ||| b) hi lo = fld a hi lo ||| fld b hi lo := by
  rw [fld, BitVec.toNat_or, Nat.shiftRight_or_distrib, Nat.or_mod_two_pow, fld, fld]

theorem fld_place_same (x : Nat) {hi lo : Nat} (hhi : hi < 64) : fld (place x hi lo) hi lo = x % 2 ^ (hi + 1 - lo) := by
  apply Nat.eq_of_testBit_eq
  intro j
  rw [testBit_fld, getLsbD_place, Nat.testBit_mod_two_pow, Nat.add_sub_cancel_left]
  by_cases hj : j < hi + 1 - lo
  · have hlow : lo + j < 64 := by omega
    simp [hj, hlow]
  · simp [hj]

theorem fld_place_disjoint (x : Nat) {hi lo hi' lo' : Nat} (h : hi < lo' ∨ hi' < lo) : fld (place x hi lo) hi' lo' = 0 := by
  apply Nat.eq_of_testBit_eq
  intro j
  rw [testBit_fld, getLsbD_place, Nat.zero_testBit]
  simp only [Bool.and_eq_false_iff, decide_eq_false_iff_not]
  omega

theorem b2n_lt : ∀ b : Bool, b2n b < 2 := by decide

theorem b2n_inj : ∀ {a b : Bool}, b2n a = b2n b → a = b := by decide

/-! ## The header of a DBF block (R371) -/

/-- Word 0 of a block's header: CLEN, HRESET, RAW and ULEN. -/
def dbfWord (clen : Nat) (reset raw : Bool) (ulen : Nat) : Word := place clen 63 32 ||| place (b2n reset) 18 18 ||| place (b2n raw) 17 17 ||| place ulen 16 0

section DbfWord
variable (clen ulen : Nat) (reset raw : Bool)

theorem fld_dbfWord_clen : fld (dbfWord clen reset raw ulen) 63 32 = clen % 2 ^ 32 := by
  simp [dbfWord, fld_or, fld_place_same, fld_place_disjoint]

theorem fld_dbfWord_ulen : fld (dbfWord clen reset raw ulen) 16 0 = ulen % 2 ^ 17 := by
  simp [dbfWord, fld_or, fld_place_same, fld_place_disjoint]

theorem bitOf_dbfWord_reset : bitOf (dbfWord clen reset raw ulen) 18 = reset := by
  apply b2n_inj
  simp [← fld_single, dbfWord, fld_or, fld_place_same, fld_place_disjoint, Nat.mod_eq_of_lt (b2n_lt reset)]

theorem bitOf_dbfWord_raw : bitOf (dbfWord clen reset raw ulen) 17 = raw := by
  apply b2n_inj
  simp [← fld_single, dbfWord, fld_or, fld_place_same, fld_place_disjoint, Nat.mod_eq_of_lt (b2n_lt raw)]

end DbfWord

/-- A block of a payload: its header, with the CRC of the original bytes, and the payload. -/
def dbfBytes (reset raw : Bool) (b pay : Bytes) : Bytes :=
  wordBytes (dbfWord pay.length reset raw b.length) ++ wordBytes (place (crc32c 0xFFFFFFFF b) 31 0) ++ pay

section DbfBytes
variable (reset raw : Bool) (b pay : Bytes)

theorem length_dbfBytes : (dbfBytes reset raw b pay).length = 16 + pay.length := by simp [dbfBytes]; omega

theorem drop_dbfBytes : (dbfBytes reset raw b pay).drop 16 = pay := by
  have hhead : (wordBytes (dbfWord pay.length reset raw b.length) ++ wordBytes (place (crc32c 0xFFFFFFFF b) 31 0)).length = 16 := by simp
  exact List.drop_left' hhead

theorem wordAt_dbfBytes_0 : wordAt (dbfBytes reset raw b pay) 0 = dbfWord pay.length reset raw b.length := by
  rw [dbfBytes, List.append_assoc]
  exact wordAt_append_wordBytes [] _ _

theorem wordAt_dbfBytes_8 : wordAt (dbfBytes reset raw b pay) 8 = place (crc32c 0xFFFFFFFF b) 31 0 := by
  rw [dbfBytes, List.append_assoc, ← length_wordBytes (dbfWord pay.length reset raw b.length)]
  exact wordAt_append_wordBytes _ _ _

/-- What the header of a block says of its payload and its bytes. -/
theorem dbfBytes_header :
    fld (wordAt (dbfBytes reset raw b pay) 8) 31 0 = crc32c 0xFFFFFFFF b % 2 ^ 32 ∧
    bitOf (wordAt (dbfBytes reset raw b pay) 0) 17 = raw ∧ bitOf (wordAt (dbfBytes reset raw b pay) 0) 18 = reset ∧
    (pay.length < 2 ^ 32 → fld (wordAt (dbfBytes reset raw b pay) 0) 63 32 = pay.length) ∧
    (b.length < 2 ^ 17 → fld (wordAt (dbfBytes reset raw b pay) 0) 16 0 = b.length) := by
  rw [wordAt_dbfBytes_8, wordAt_dbfBytes_0]
  refine ⟨fld_place_same _ (by decide), bitOf_dbfWord_raw _ _ _ _, bitOf_dbfWord_reset _ _ _ _, fun hpay => ?clen, fun hb => ?ulen⟩
  case clen => rw [fld_dbfWord_clen, Nat.mod_eq_of_lt hpay]
  case ulen => rw [fld_dbfWord_ulen, Nat.mod_eq_of_lt hb]

end DbfBytes

/-! ## The payload of a DBF block (R372, R373) -/

/-- A payload that may stand for a block: short enough, and its sequences rebuild the block from its history. -/
def DbfRestores (h b c : Bytes) : Prop :=
  c.length + ceilDiv b.length 64 ≤ b.length ∧
    ∃ out, dbfSeqs b.length h.length (c.length + 1) c h 0 = (out, b.length, 0) ∧ (out.take b.length).reverse = b

/-- A block is raw and carries its bytes, or it carries a payload that restores them. -/
theorem dbfBlock_cases (hist : Bytes) (reset : Bool) (b : Bytes) :
    dbfBlock hist reset b = (dbfBytes reset true b b, true) ∨
      ∃ c, DbfRestores (if reset then [] else hist) b c ∧ dbfBlock hist reset b = (dbfBytes reset false b c, false) := by
  unfold dbfBlock
  dsimp only
  generalize (if reset then [] else hist) = h
  generalize Config.dbfPass h.reverse b = c
  rcases hseqs : dbfSeqs b.length h.length (c.length + 1) c h 0 with ⟨o, made, e⟩
  dsimp only
  split
  next hok =>
    simp only [Bool.and_eq_true, beq_iff_eq, decide_eq_true_eq] at hok
    obtain ⟨⟨⟨⟨hsome, rfl⟩, rfl⟩, hout⟩, hshort⟩ := hok
    refine .inr ⟨c, ⟨hshort, o, hseqs, hout⟩, ?_⟩
    simp [dbfBytes, dbfWord, hsome, hout, hshort]
  next hraw =>
    rw [Bool.eq_false_iff.mpr hraw]
    exact .inl rfl

/-! ## A stored Deflate block (R379) -/

/-- The padded length of a stored block's header, BFINAL and BTYPE to the byte boundary. -/
def storedStart (pos : Nat) : Nat := 3 + (8 - (pos + 3) % 8) % 8

/-- LEN and NLEN of a stored block. -/
def storedLen (n : Nat) : Nat := n + 65536 * (65535 - n)

section Stored
variable (pos : Nat) (last : Bool) (b : Bytes)

theorem storedBits_eq :
    storedBits pos last b = (b2n last + (storedLen b.length + ofLe b * 2 ^ 32) * 2 ^ storedStart pos, storedStart pos + 32 + 8 * b.length) := by
  have hsplit : (storedLen b.length + ofLe b * 2 ^ 32) * 2 ^ storedStart pos =
      storedLen b.length * 2 ^ storedStart pos + ofLe b * 2 ^ (storedStart pos + 32) := by
    rw [Nat.add_mul, Nat.mul_assoc, ← Nat.pow_add, Nat.add_comm 32]
  rw [hsplit, ← Nat.add_assoc (b2n last)]
  rfl

theorem storedStart_aligned : (pos + storedStart pos) % 8 = 0 := by
  unfold storedStart
  omega

theorem two_pow_storedStart : 2 ^ storedStart pos = 8 * 2 ^ ((8 - (pos + 3) % 8) % 8) := Nat.pow_add 2 3 _

theorem storedBits_mod_eight : (storedBits pos last b).1 % 8 = b2n last := by
  rw [storedBits_eq, two_pow_storedStart, Nat.mul_left_comm, Nat.add_mul_mod_self_left]
  exact Nat.mod_eq_of_lt (Nat.lt_trans (b2n_lt last) (by decide))

theorem storedBits_div_start : (storedBits pos last b).1 / 2 ^ storedStart pos = storedLen b.length + ofLe b * 2 ^ 32 := by
  have hlast : b2n last < 2 ^ storedStart pos := Nat.lt_of_lt_of_le (b2n_lt last) (Nat.le_self_pow (by unfold storedStart; omega) 2)
  rw [storedBits_eq, Nat.add_mul_div_right _ _ (Nat.two_pow_pos _), Nat.div_eq_of_lt hlast, Nat.zero_add]

variable {b} (hb : b.length ≤ 65535)
include hb

theorem storedBits_len : (storedBits pos last b).1 / 2 ^ storedStart pos % 65536 = b.length := by
  rw [storedBits_div_start, storedLen]
  omega

theorem storedBits_complement : (storedBits pos last b).1 / 2 ^ (storedStart pos + 16) % 65536 = 65535 - b.length := by
  have hskip : (storedLen b.length + ofLe b * 2 ^ 32) / 2 ^ 16 = 65535 - b.length + 65536 * ofLe b := by
    unfold storedLen
    omega
  rw [Nat.pow_add, ← Nat.div_div_eq_div_mul, storedBits_div_start, hskip, Nat.add_mul_mod_self_left]
  omega

theorem storedBits_bytes : leBytes ((storedBits pos last b).1 / 2 ^ (storedStart pos + 32)) b.length = b := by
  have hbody : (storedLen b.length + ofLe b * 2 ^ 32) / 2 ^ 32 = ofLe b := by
    unfold storedLen
    omega
  rw [Nat.pow_add, ← Nat.div_div_eq_div_mul, storedBits_div_start, hbody, leBytes_ofLe]

end Stored

/-! ## A Deflate block (R379) -/

/-- A block is stored, or it is one coded block, no longer than the stored one, that inflates to its bytes. -/
theorem deflateBlock_cases (d : Bytes) (n len : Nat) (hist b : Bytes) (last : Bool) :
    deflateBlock d n len hist b last = storedBits len last b ∨
      ∃ x k bs, deflateBlock d n len hist b last = (x + b2n last, k) ∧ k ≤ (storedBits len last b).2 ∧
        inflateBlocks false (n + x * 2 ^ len) (len + k) 0 (len + k + 1) len hist.reverse hist.length = (bs, len + k, false) ∧
        bs.length = 1 ∧ blocksOut bs = b := by
  unfold deflateBlock
  dsimp only
  generalize Config.blockCode 2 _ b _ = c
  generalize 8 * (c.length - 1) - (c.headD 0).toNat % 8 = k
  generalize ofLe (c.drop 1) % 2 ^ k / 2 * 2 = x
  rcases hinflate : inflateBlocks false (n + x * 2 ^ len) (len + k) 0 (len + k + 1) len hist.reverse hist.length with ⟨bs, p, fin⟩
  dsimp only
  split
  next hok =>
    simp only [Bool.and_eq_true, Bool.not_eq_true', beq_iff_eq, decide_eq_true_eq] at hok
    obtain ⟨⟨⟨⟨⟨hshort, rfl⟩, rfl⟩, hone⟩, -⟩, hout⟩ := hok
    exact .inr ⟨x, k, bs, rfl, hshort, hinflate, hone, hout⟩
  next => exact .inl rfl

/-- Settles O32: a DBF block is one of `dbfBlock_cases` and reads back by what its header holds, a stored block by the lemmas on its bits, and a Deflate
block is one of `deflateBlock_cases`. -/
theorem compressedBlocksRestoreTheirBytes : Obligations.CompressedBlocksRestoreTheirBytes := by
  unfold Obligations.CompressedBlocksRestoreTheirBytes
  refine ⟨fun hist b reset => ?dbf, fun pos last b hb => ?stored, fun d hist b n len last => ?deflate⟩
  case dbf =>
    obtain hraw | ⟨c, ⟨hshort, hseqs⟩, hcoded⟩ := dbfBlock_cases hist reset b
    · obtain ⟨hcrc, hbit, hreset, hclen, hulen⟩ := dbfBytes_header reset true b b
      simp only [hraw, drop_dbfBytes]
      exact ⟨length_dbfBytes _ _ _ _, hcrc, hbit, hreset, hclen, hulen, fun _ => trivial, nofun⟩
    · obtain ⟨hcrc, hbit, hreset, hclen, hulen⟩ := dbfBytes_header reset false b c
      simp only [hcoded, drop_dbfBytes]
      exact ⟨length_dbfBytes _ _ _ _, hcrc, hbit, hreset, hclen, hulen, nofun, fun _ => ⟨hshort, hseqs⟩⟩
  case stored =>
    have hlow := storedBits_mod_eight pos last b
    have hlast := b2n_lt last
    refine ⟨by rw [storedBits_eq]; rfl, storedStart_aligned pos, by omega, by omega, storedBits_len pos last hb, storedBits_complement pos last hb,
      storedBits_bytes pos last hb⟩
  case deflate =>
    obtain hstored | ⟨x, k, bs, hcoded, hshort, hinflate, hone, hout⟩ := deflateBlock_cases d n len hist b last
    · exact .inl hstored
    · rw [hcoded]
      exact .inr ⟨hshort, x, bs, rfl, hinflate, hone, hout⟩

end Sys2Proof.Machine
end
